-- ==== Sys2Proof/Word.lean ====
section
/-! DEFINITION. The word types of the machine (R2, R36, R42) and the plainest arithmetic on them. -/

namespace Sys2Proof

/-- A byte of memory (R2). -/
abbrev Byte := BitVec 8

/-- A 32-bit register, code word or structure word (R36, R74). -/
abbrev Word := BitVec 32

/-- A register pair, low half in the even register (R2). -/
abbrev DWord := BitVec 64

end Sys2Proof
end

