-- ==== Sys2Proof/Config.lean ====
section
/-! DEFINITION. What the part fixes (ZW7A values, R1, R11, R12) and the free values of the model. -/

namespace Sys2Proof.Config

/-- A value that the spec leaves open, numbered by a counter of the state (log entry 12). -/
opaque freeValue : Nat → Word

/-- The signature bytes that the security block writes for a usage record (R277); the spec gives no keys
(log entry 12). Arguments: the number of the record, the byte index. -/
opaque signatureByte : Nat → Nat → Byte

/-- Which firmware services the boot firmware defines (R281; log entry 12). -/
opaque serviceDefined : Nat → Bool

/-- Code words that a page of another module holds, by address and time of the fetch (log entry 12). -/
opaque codeWord : Nat → Nat → Word

/-- This module's peer number (R80, PEERID). The spec gives no value; the model takes 0 (log entry 3). -/
def peerId : Nat := 0

/-- Spare rows of the DRAM dies of a stack (R424): there are some, of which the spec gives no number (log entry 35). -/
opaque furtherSpareRows : Nat → Nat
def dramSpareRows (stack : Nat) : Nat := furtherSpareRows stack + 1

/-- Quartets of the module (R12). -/
def numQuartets : Nat := 64
/-- Cores of the module (R12). -/
def numCores : Nat := 256
/-- Quadrants of a core (R12). -/
def numQuadrants : Nat := 4
/-- Group slots of a quadrant (R132). -/
def slotsPerQuadrant : Nat := 6
/-- Registers of a quadrant (R132). -/
def regsPerQuadrant : Nat := 32768
/-- Workgroup slots of a core (R132). -/
def workgroupSlots : Nat := 16
/-- Scratchpad bytes of a core (R12, R132). -/
def scratchBytes : Nat := 262144
/-- Keys of one core's scratchpad in the model: 2^18 for each of its 16 workgroup slots (log entry 15). -/
def scratchSpan : Nat := 2 ^ 22
/-- Weight-buffer bytes of a core (R12). -/
def weightBytes : Nat := 524288
/-- Accumulator tiles of a core (R132). -/
def tilesPerCore : Nat := 8
/-- Unfinished engine commands a core holds (R230). -/
def maxCommands : Nat := 256
/-- Entries of a core TLB (R349). -/
def coreTlbEntries : Nat := 512
/-- Entries of a quartet TLB (R349). -/
def quartetTlbEntries : Nat := 4096
/-- Table pointers in the walk caches of both I/O dies' page walkers, 2,048 on each (R349, ZW7A). -/
def walkCacheEntries : Nat := 4096
/-- Lines of a core read cache (R161: 128 KiB of 128-byte lines). -/
def readCacheLines : Nat := 1024
/-- Race-detector entries of a home slice (R184). -/
def sliceDetectorEntries : Nat := 32768
/-- Race-detector entries of a core's scratchpad (R184). -/
def scratchDetectorEntries : Nat := 8192
/-- Clocks a full detector stalls an issue (R184). -/
def detectorStall : Nat := 4096
/-- First address past device memory (R15). -/
def deviceBytes : Nat := 2 ^ 39
/-- First address past the virtual space (R158). -/
def virtualBytes : Nat := 2 ^ 57
/-- Home slices (R12). -/
def numSlices : Nat := 64
/-- Compute dies and I/O dies (R11). -/
def numDies : Nat := 4
def numIoDies : Nat := 2
/-- Routers of a compute die, and the rows and columns of the grid (R11, R13). -/
def routersPerDie : Nat := 12
def gridRows : Nat := 6
def gridCols : Nat := 8
/-- Bytes of L2 of a home slice (R11). -/
def sliceBytes : Nat := 4 * 2 ^ 20
/-- DRAM stacks, channels of a stack, bytes of a stack, and channels a slice connects to (R11, R16). -/
def dramStacks : Nat := 8
def dramChannels : Nat := 16
def stackBytes : Nat := 16 * 2 ^ 32
def sliceChannels : Nat := 4
/-- Page walkers of an I/O die (R11). -/
def walkersPerIoDie : Nat := 32
/-- Fabric links and host ports of an I/O die (R11, R18). -/
def linksPerIoDie : Nat := 6
def hostPortsPerIoDie : Nat := 1
/-- Copy channels of a core (R12, R233), bytes of its instruction store, register file and accumulator buffer, and its
barrier entries (R12). -/
def copyChannels : Nat := 4
def instructionBytes : Nat := 131072
def registerBytes : Nat := 524288
def accumulatorBytes : Nat := 262144
def barrierEntries : Nat := 256
/-- Resident threads of a core (R12). -/
def residentThreads : Nat := 1536
/-- Elements of COPYR that a slice's reorder store holds (R238). -/
def reorderElements : Nat := 256
/-- Tags of a die-to-die port (R17). -/
def dieTags : Nat := 64
/-- Entries a queue holds (R284). -/
def queueEntries : Nat := 256
/-- Items of a work list (R312). -/
def workListItems : Nat := 1024
/-- Items of the health queue (R426). -/
def healthItems : Nat := 1024
/-- Page records of a module (R353). -/
def pageRecords : Nat := 4096
/-- Owner-cache entries (R352). -/
def ownerCacheEntries : Nat := 1024
/-- Frames a pool keeps on return (R362). -/
def framePoolMax : Nat := 512
/-- Stub life before its retirement handshake (R359). -/
def stubLife : Nat := 2 ^ 20
/-- Entries of a core's stage buffer (R404). -/
def stageEntries : Nat := 2048
/-- Clocks a read waits on a locked replica (R193). -/
def replicaStall : Nat := 2048
/-- Clocks outstanding loads are awaited at pre-emption (R272). -/
def preemptWait : Nat := 2048
/-- Clocks COPYR elements wait before the gap rule (R238). -/
def gapWait : Nat := 2 ^ 20
/-- Clocks IDLE waits at most (R282). -/
def idleWait : Nat := 2 ^ 20
/-- Clocks a link trains before it gives up (R371). -/
def trainWait : Nat := 2 ^ 20
/-- Clocks a regrouping key waits for a further arrival (R392). -/
def regroupWait : Nat := 64
/-- Passes that promote a counter (R141). -/
def promoteAt : Nat := 64
/-- Bytes of a save area before its gang images (R267). -/
def saveHeader : Nat := 33024
/-- Most bytes one core's part of a save image takes (R267, R273). -/
def saveCoreBytes : Nat := 1837248

end Sys2Proof.Config
end

