-- ==== Sys2Proof/Syntax.lean ====
section
/-! DEFINITION. The instruction set: one constructor of Instr for every row of spec/opcode_table.json. Rows with
words carry the fields of R42-R46; rows without words are the device's own steps (95_what_each_step_holds.md), whose
arguments say which object steps and what the outside world supplies. -/

namespace Sys2Proof

/-- v0-v127 (R23). -/
abbrev VReg := BitVec 7
/-- s0-s63 (R23). -/
abbrev SReg := BitVec 6
/-- p0-p7 (R23). -/
abbrev PReg := BitVec 3
/-- k0-k7 (R23). -/
abbrev KReg := BitVec 3
/-- a0-a7 (R23). -/
abbrev TReg := BitVec 3
/-- q0-q15 (R23). -/
abbrev QReg := BitVec 4
/-- b0-b15 (R23). -/
abbrev BReg := BitVec 4
/-- A record number n, naming s4n to s4n+3 (R44). -/
abbrev RecN := BitVec 4

/-- fcode 0-2 of the vector instructions (R46, R109). -/
inductive Fmt where | f32 | f64 | bf16
  deriving DecidableEq, Repr
/-- fcode 0-4 of the conversions (R46). -/
inductive FFmt where | f32 | f64 | bf16 | f8e4 | f8e5
  deriving DecidableEq, Repr
/-- fcode 0-6 of the matrix instructions (R46). -/
inductive MFmt where | f32 | f64 | bf16 | f8e4 | f8e5 | rq8 | rq4
  deriving DecidableEq, Repr
/-- itype (R46). -/
inductive IType where | s32 | u32 | s64 | u64
  deriving DecidableEq, Repr
/-- rnd (R46). -/
inductive Rnd where | dyn | rne | rpi | rmi | rz
  deriving DecidableEq, Repr
/-- Rounding of QMUL and QSHR (R105). -/
inductive QRnd where | rne | rmi | rz
  deriving DecidableEq, Repr
/-- Access width wd (R46). -/
inductive Wd where | w | x1 | x2 | x4 | x8 | x16
  deriving DecidableEq, Repr
/-- Scope code sc (R46). -/
inductive Sc where | dflt | blk | qrt | dev | sys
  deriving DecidableEq, Repr
/-- Integer conditions (R46). -/
inductive ICond where | eq | ne | lt | le | gt | ge | ltu | leu | gtu | geu
  deriving DecidableEq, Repr
/-- Float conditions (R46). -/
inductive FCond where | eq | ne | lt | le | gt | ge | un | or
  deriving DecidableEq, Repr
/-- Operations of PLOP (R102). -/
inductive PlopOp where | and | or | xor | andn | orn | not | set | clr
  deriving DecidableEq, Repr
/-- Operations of LVOTE (R124). -/
inductive VoteOp where | all | any | uni
  deriving DecidableEq, Repr
/-- Operations of LRED and LSCAN (R51, R125). -/
inductive RedOp where
  | iadd | imin | imax | umin | umax | and | or | xor | fadd | fmin | fmax | iadd64 | fadd64
  deriving DecidableEq, Repr
/-- Ordering of an atomic (R198). -/
inductive AOrd where | rlx | acq | rel | ar
  deriving DecidableEq, Repr
/-- Width of COPYL (R237). -/
inductive CWid where | x4 | x8 | x16
  deriving DecidableEq, Repr
/-- Reduction of COPYR (R238). -/
inductive ROp where | add | min | max
  deriving DecidableEq, Repr

/-- The second operand of a bx field (R88): a v-register (in uniform form an s-register), a broadcast s-register,
or I7. -/
inductive Src where
  | v (r : VReg)
  | s (r : SReg)
  | imm (i : BitVec 7)
  deriving DecidableEq, Repr

/-- The second operand of a bv field (R44, R88): no immediate. -/
inductive Opv where
  | v (r : VReg)
  | s (r : SReg)
  deriving DecidableEq, Repr

/-- F3 with a bx operand; `u` is the uniform form, `f` the bit M[0] (.uns or .sx where the row gives it). -/
structure Bx where
  u : Bool
  f : Bool
  d : VReg
  a : VReg
  b : Src
  deriving DecidableEq, Repr
/-- F3 with one source (R93, R126). -/
structure Un where
  u : Bool
  d : VReg
  a : VReg
  deriving DecidableEq, Repr
/-- BFE and BFI (R96). -/
structure Bf where
  u : Bool
  sx : Bool
  d : VReg
  a : VReg
  b : Opv
  deriving DecidableEq, Repr
/-- LEA (R97). -/
structure LeaF where
  u : Bool
  sh : BitVec 2
  d : VReg
  a : VReg
  b : Opv
  deriving DecidableEq, Repr
/-- MOV (R98). -/
structure MovF where
  u : Bool
  d : VReg
  b : Opv
  deriving DecidableEq, Repr
/-- MOVI (R98). -/
structure MoviF where
  u : Bool
  d : VReg
  imm : BitVec 14
  deriving DecidableEq, Repr
/-- MOVL (R98). -/
structure MovlF where
  u : Bool
  d : VReg
  lit : Word
  deriving DecidableEq, Repr
/-- MOVS (R99): the special number. -/
structure MovsF where
  u : Bool
  d : VReg
  num : BitVec 7
  deriving DecidableEq, Repr
/-- SEL (R100). -/
structure SelF where
  p : PReg
  d : VReg
  a : VReg
  b : VReg
  deriving DecidableEq, Repr
/-- ICMP (R101). -/
structure IcmpF where
  c : ICond
  w64 : Bool
  p : PReg
  a : VReg
  b : Src
  deriving DecidableEq, Repr
/-- FCMP (R119). -/
structure FcmpF where
  c : FCond
  fmt : Fmt
  p : PReg
  a : VReg
  b : Opv
  deriving DecidableEq, Repr
/-- PLOP (R102). -/
structure PlopF where
  op : PlopOp
  d : PReg
  a : PReg
  b : PReg
  deriving DecidableEq, Repr
/-- PMOV (R103): with `tov` a predicate to a v-register, else a v-register to a predicate. -/
structure PmovF where
  tov : Bool
  p : PReg
  v : VReg
  deriving DecidableEq, Repr
/-- PCHK (R104). -/
structure PchkF where
  w64 : Bool
  p : PReg
  a : VReg
  deriving DecidableEq, Repr
/-- QMUL (R105). -/
structure QmulF where
  u : Bool
  rnd : QRnd
  d : VReg
  a : VReg
  b : Opv
  shift : BitVec 6
  deriving DecidableEq, Repr
/-- QSHR (R106). -/
structure QshrF where
  u : Bool
  rnd : QRnd
  d : VReg
  a : VReg
  b : Opv
  deriving DecidableEq, Repr
/-- Float instructions with two operands (R112-R114). -/
structure Fb where
  fmt : Fmt
  d : VReg
  a : VReg
  b : Opv
  deriving DecidableEq, Repr
/-- FSGN (R116). -/
structure FsgnF where
  f64 : Bool
  x : Bool
  d : VReg
  a : VReg
  b : Opv
  deriving DecidableEq, Repr
/-- Float instructions with one operand (R117, R118). -/
structure Fu where
  fmt : Fmt
  d : VReg
  a : VReg
  deriving DecidableEq, Repr
/-- fp32 functions (R118). -/
structure F1 where
  d : VReg
  a : VReg
  deriving DecidableEq, Repr
/-- FDOT2 (R112). -/
structure Dot2F where
  d : VReg
  a : VReg
  b : Opv
  deriving DecidableEq, Repr
/-- FRND (R120). -/
structure FrndF where
  f64 : Bool
  rnd : Rnd
  d : VReg
  a : VReg
  deriving DecidableEq, Repr
/-- CVTIF and CVTFI (R120): the float format and the integer type. -/
structure CvtIntF where
  ft : FFmt
  it : IType
  rnd : Rnd
  d : VReg
  a : VReg
  deriving DecidableEq, Repr
/-- CVTFF (R120). -/
structure CvtFFF where
  dst : FFmt
  src : FFmt
  sat : Bool
  rnd : Rnd
  d : VReg
  a : VReg
  deriving DecidableEq, Repr
/-- PACK (R121). -/
structure PackF where
  dst : FFmt
  sat : Bool
  rnd : Rnd
  d : VReg
  a : VReg
  deriving DecidableEq, Repr
/-- UNPK (R121). -/
structure UnpkF where
  src : FFmt
  d : VReg
  a : VReg
  deriving DecidableEq, Repr
/-- Lane exchanges (R123). -/
structure LaneF where
  d : VReg
  a : VReg
  b : Src
  deriving DecidableEq, Repr
/-- LVOTE (R124). -/
structure LvoteF where
  op : VoteOp
  d : PReg
  a : PReg
  deriving DecidableEq, Repr
/-- LBALL (R124). -/
structure LballF where
  d : VReg
  p : PReg
  deriving DecidableEq, Repr
/-- LRED and LSCAN (R125). -/
structure LredF where
  op : RedOp
  d : VReg
  a : VReg
  deriving DecidableEq, Repr
/-- Loads and stores (R170, R219): the data register, the record, the scope code, the index register. -/
structure LsF where
  wd : Wd
  sc : Sc
  d : VReg
  r : RecN
  i : VReg
  deriving DecidableEq, Repr
/-- PREF (R173). -/
structure PrefF where
  l2 : Bool
  sc : Sc
  r : RecN
  i : VReg
  deriving DecidableEq, Repr
/-- Atomics (R198). -/
structure AtF where
  ord : AOrd
  ret : Bool
  sc : Sc
  d : VReg
  r : RecN
  i : VReg
  deriving DecidableEq, Repr
/-- LDW (R257). -/
structure LdwF where
  fmt : MFmt
  tr : Bool
  a : SReg
  deriving DecidableEq, Repr
/-- MMA (R259). -/
structure MmaF where
  fmt : MFmt
  t : TReg
  a : VReg
  deriving DecidableEq, Repr
/-- MMAS (R260). -/
structure MmasF where
  fmt : MFmt
  n16 : Bool
  t : TReg
  a : VReg
  b : SReg
  deriving DecidableEq, Repr
/-- DRAIN to memory (R261). -/
structure DrainF where
  fmt : MFmt
  t : TReg
  r : RecN
  b : SReg
  deriving DecidableEq, Repr
/-- DRAIN to the bypass buffer (R261): fp8e4, or RQ8 when `rq8` is set. -/
structure DrainBypF where
  rq8 : Bool
  t : TReg
  b : SReg
  deriving DecidableEq, Repr
/-- ACCRD and ACCWR (R262): the v-register block, the tile, the column block. -/
structure AccF where
  v : VReg
  t : TReg
  c : BitVec 4
  deriving DecidableEq, Repr
/-- COPY (R236). -/
structure CopyF where
  trp : Bool
  d : SReg
  a : SReg
  b : SReg
  deriving DecidableEq, Repr
/-- COPYL (R237): the index pair, the destination and the source record. -/
structure CopylF where
  trp : Bool
  wd : CWid
  d : VReg
  dst : RecN
  src : RecN
  deriving DecidableEq, Repr
/-- COPYR (R238). -/
structure CopyrF where
  trp : Bool
  op : ROp
  d : SReg
  a : SReg
  b : SReg
  deriving DecidableEq, Repr
/-- WAITM (R212): the comparand and the limit are the s-registers of the literal word. -/
structure WaitmF where
  c : ICond
  p : PReg
  sc : Sc
  r : RecN
  i : VReg
  cmp : SReg
  lim : SReg
  deriving DecidableEq, Repr
/-- CSIG (R213). -/
structure CsigF where
  sc : Sc
  d : VReg
  r : RecN
  i : VReg
  deriving DecidableEq, Repr
/-- SRD (R278): OTHER, the target context and the state number of the literal word. -/
structure SrdF where
  d : SReg
  other : Bool
  ctx : BitVec 6
  num : BitVec 12
  deriving DecidableEq, Repr
/-- SWR (R278). -/
structure SwrF where
  a : SReg
  other : Bool
  ctx : BitVec 6
  num : BitVec 12
  deriving DecidableEq, Repr

/-- A packet of the fabric (R372): its header's fields, the reserved ones w0, w1, w2[31:28], w2[15:12], w5[31:25] and w7[31:16] among
them, and the number of flits less one; then its payload, whose fields are the model's own (log entry 16): the tag of the request, the
part of it that the packet holds or answers, the count of R357, whether it goes on with a line that an earlier packet of the same
command began (R354), and the data. -/
structure Packet where
  typ : BitVec 8
  src : Nat
  dst : Nat
  ctx : Nat
  seq : BitVec 32
  va : Nat
  hops : Nat
  nreq : Nat
  opw : Nat
  deadline : BitVec 16
  tag : Nat
  after : Nat
  data : List Byte
  part : Nat := 0
  cont : Bool := false
  len : Nat := 0
  res0 : Word := 0
  res1 : Word := 0
  res2 : BitVec 8 := 0
  res5 : BitVec 7 := 0
  res7 : BitVec 16 := 0
  deriving DecidableEq, Repr

/-- A NAK of the next port of a link (R373): the link and the packet that failed its check there, by destination and number. -/
structure Nak where
  link : Nat
  dst : Nat
  seq : BitVec 32
  deriving DecidableEq, Repr

/-- A cross-module field credit as it reaches the receiver (R332): sender, its domain, the named domain, the credit's
number at the sender, the destination cell's address and the amount. -/
structure CreditMsg where
  peer : Nat
  fromDom : Nat
  dom : Nat
  num : Nat
  va : Nat
  amount : Int
  /-- The packet's relay count, the count of R357 that it carries, and whether it announces the cell sum of a page that has gone to the
  receiver (R334) and credits nothing. -/
  hops : Nat := 0
  after : Nat := 0
  page : Bool := false
  deriving DecidableEq, Repr

/-- A page copied to its new owner (R355 step 3): the bytes that are not zero, and the travelling page record. -/
structure PageCopyMsg where
  ctx : Nat
  page : Nat
  peer : Nat
  bytes : List (Nat × Byte)
  moves : Nat
  wstart : Nat
  access : List Nat
  overflow : Bool
  capo : Bool
  /-- The page goes into capo with this move (R360); it is pinned, or takes a pin when its window ends (R368); and the old owner has
  refused the move itself (R356). -/
  enters : Bool := false
  pinned : Bool := false
  pinLater : Bool := false
  refused : Bool := false
  /-- For a field page: the domain that covers it at the old owner, and the one that its link names at the new owner (R334). -/
  dom : Nat := 0
  far : Nat := 0
  deriving DecidableEq, Repr

/-- What a spare replaces (R424, R425): a row or a column of a core's array, a row of DRAM in a frame of a stack, a quartet. -/
inductive RepairUnit where
  | arrayLine (core : Nat) (column : Bool) (line : Nat)
  | dramRow (stack : Nat) (frame : Nat)
  | quartet (q : Nat)
  deriving DecidableEq, Repr

/-- An image that the boot ROM finds (R434): whether its two signatures verify, its security version, and its SHA-384 digest (R431). -/
structure BootImage where
  rsa : Bool
  slh : Bool
  version : Nat
  digest : BitVec 384
  deriving DecidableEq, Repr

/-- What reset finds and boot writes (R424, R429, R432, R434): the four images, the strap that selects the dual-host configuration, the
units whose self test failed, the alarm policy, the secure regions as first and last numbers of 64 KiB, and secure cores. -/
structure BootImages where
  im1 : BootImage
  im2 : BootImage
  im3 : BootImage
  im4 : BootImage
  dual : Bool
  selfFail : List RepairUnit
  policy : Nat
  regions : List (Nat × Nat)
  secureCores : List Nat
  /-- Status of quartets, slices, copy channels, fabric links and PCIe functions: the secure ones. -/
  secureQuartets : List Nat
  secureSlices : List Nat
  secureChannels : List Nat
  secureLinks : List Nat
  secureFunctions : List Nat
  param : Nat
  entry : Nat
  mbring : Nat
  ptroot : Nat
  rsmask : Nat
  deriving DecidableEq, Repr

/-- The detectors of the security block (R433). -/
inductive AlarmSource where | voltage | clock | tamper | violations
  deriving DecidableEq, Repr

/-- Link management (R371, R431). -/
inductive LinkOp where | enable | disable | retrain
  deriving DecidableEq, Repr

/-- An IDE stream (R430): the selective stream of a function, by its context's number, or the link stream of a host port. -/
inductive IdeStream where
  | function (ctx : Nat)
  | port (n : Nat)
  deriving DecidableEq, Repr

/-- SPDM and MCTP traffic (R430, R431): a measurement request, an IDE key set for a stream, or the endpoint ID that the bus owner assigns
on a port's PF. -/
inductive SpdmMsg where
  | measure
  | setKey (stream : IdeStream)
  | endpoint (port eid : Nat)
  deriving DecidableEq, Repr

/-- What the module's sensors give for each of the five clock states (R435): the hottest die in °C, and the module's power in units of
8 W. -/
structure ClockReport where
  temps : List (BitVec 8)
  powers : List (BitVec 8)
  deriving DecidableEq, Repr

/-- Where a soft error falls (R84, R422, R255). Registers name the group and, for a v-register, the lane; the other
places name the aligned unit the check bits cover. -/
inductive ErrLoc where
  | vreg (gid lane r : Nat)
  | sreg (gid r : Nat)
  | scratch (addr8 : Nat)
  | weight (addr8 : Nat)
  | plane (core plane unit : Nat)
  | tile (core tile unit : Nat)
  | bypass (core unit : Nat)
  | sector (pa64 : Nat)
  deriving DecidableEq, Repr

/-- What a packet for a die port asks for (R17): one 64-byte sector by its number, or with both the two sectors of its line. -/
structure DieSpan where
  /-- The number of the first sector. -/
  sector : Nat
  /-- Both sectors of the line. -/
  both : Bool
  deriving DecidableEq, Repr

/-- The instructions and device steps, one per row of spec/opcode_table.json: in the table's order,
but for the steps that only the outside world begins and some without operands, which stand last (the compiler builds no
constructor with operands past the first 245). -/
inductive Instr where
  /-- IADD (R90). -/
  | iadd (x : Bx)
  /-- ISUB (R90). -/
  | isub (x : Bx)
  /-- IMUL (R90). -/
  | imul (x : Bx)
  /-- IMULH (R90). -/
  | imulh (x : Bx)
  /-- IMAD (R90). -/
  | imad (x : Bx)
  /-- IMIN (R90). -/
  | imin (x : Bx)
  /-- IMAX (R90). -/
  | imax (x : Bx)
  /-- IABS (R93). -/
  | iabs (x : Un)
  /-- INEG (R93). -/
  | ineg (x : Un)
  /-- SADD (R92). -/
  | sadd (x : Bx)
  /-- SSUB (R92). -/
  | ssub (x : Bx)
  /-- IDIV (R91). -/
  | idiv (x : Bx)
  /-- IREM (R91). -/
  | irem (x : Bx)
  /-- IADD64 (R94). -/
  | iadd64 (x : Bx)
  /-- ISUB64 (R94). -/
  | isub64 (x : Bx)
  /-- IMAD64 (R94). -/
  | imad64 (x : Bx)
  /-- AND (R90). -/
  | and (x : Bx)
  /-- OR (R90). -/
  | or (x : Bx)
  /-- XOR (R90). -/
  | xor (x : Bx)
  /-- ANDN (R90). -/
  | andn (x : Bx)
  /-- SHL (R90). -/
  | shl (x : Bx)
  /-- SHR (R90). -/
  | shr (x : Bx)
  /-- SAR (R90). -/
  | sar (x : Bx)
  /-- ROTL (R90). -/
  | rotl (x : Bx)
  /-- BFE (R96). -/
  | bfe (x : Bf)
  /-- BFI (R96). -/
  | bfi (x : Bf)
  /-- POPC (R93). -/
  | popc (x : Un)
  /-- CLZ (R93). -/
  | clz (x : Un)
  /-- BREV (R93). -/
  | brev (x : Un)
  /-- LEA (R97). -/
  | lea (x : LeaF)
  /-- SHL64 (R95). -/
  | shl64 (x : Bx)
  /-- SHR64 (R95). -/
  | shr64 (x : Bx)
  /-- MOV (R98). -/
  | mov (x : MovF)
  /-- MOVI (R98). -/
  | movi (x : MoviF)
  /-- MOVL (R98). -/
  | movl (x : MovlF)
  /-- MOVS (R99). -/
  | movs (x : MovsF)
  /-- POTAKE (R82). -/
  | potake (d : VReg)
  /-- SEL (R100). -/
  | sel (x : SelF)
  /-- ICMP (R101). -/
  | icmp (x : IcmpF)
  /-- FCMP (R119). -/
  | fcmp (x : FcmpF)
  /-- PLOP (R102). -/
  | plop (x : PlopF)
  /-- PMOV (R103). -/
  | pmov (x : PmovF)
  /-- PCHK (R104). -/
  | pchk (x : PchkF)
  /-- IAMIN (R115). -/
  | iamin (x : Bx)
  /-- FAMIN (R114). -/
  | famin (x : Fb)
  /-- QMUL (R105). -/
  | qmul (x : QmulF)
  /-- QSHR (R106). -/
  | qshr (x : QshrF)
  /-- FADD (R112). -/
  | fadd (x : Fb)
  /-- FSUB (R112). -/
  | fsub (x : Fb)
  /-- FMUL (R112). -/
  | fmul (x : Fb)
  /-- FFMA (R112). -/
  | ffma (x : Fb)
  /-- FFNMA (R112). -/
  | ffnma (x : Fb)
  /-- FMIN (R113). -/
  | fmin (x : Fb)
  /-- FMAX (R113). -/
  | fmax (x : Fb)
  /-- FSGN (R116). -/
  | fsgn (x : FsgnF)
  /-- FDIV (R112). -/
  | fdiv (x : Fb)
  /-- FSQRT (R118). -/
  | fsqrt (x : Fu)
  /-- FRCP (R118). -/
  | frcp (x : F1)
  /-- FRSQ (R118). -/
  | frsq (x : F1)
  /-- FEX2 (R118). -/
  | fex2 (x : F1)
  /-- FLG2 (R118). -/
  | flg2 (x : F1)
  /-- FSINP (R118). -/
  | fsinp (x : F1)
  /-- FCOSP (R118). -/
  | fcosp (x : F1)
  /-- FCLASS (R117). -/
  | fclass (x : Fu)
  /-- FSCALE (R112). -/
  | fscale (x : Fb)
  /-- FRND (R120). -/
  | frnd (x : FrndF)
  /-- CVTIF (R120). -/
  | cvtif (x : CvtIntF)
  /-- CVTFI (R120). -/
  | cvtfi (x : CvtIntF)
  /-- CVTFF (R120). -/
  | cvtff (x : CvtFFF)
  /-- PACK (R121). -/
  | pack (x : PackF)
  /-- UNPK (R121). -/
  | unpk (x : UnpkF)
  /-- FDOT2 (R112). -/
  | fdot2 (x : Dot2F)
  /-- LSHUF (R123). -/
  | lshuf (x : LaneF)
  /-- LSHUP (R123). -/
  | lshup (x : LaneF)
  /-- LSHDN (R123). -/
  | lshdn (x : LaneF)
  /-- LXOR (R123). -/
  | lxor (x : LaneF)
  /-- LVOTE (R124). -/
  | lvote (x : LvoteF)
  /-- LBALL (R124). -/
  | lball (x : LballF)
  /-- LRED (R125). -/
  | lred (x : LredF)
  /-- LSCAN (R125). -/
  | lscan (x : LredF)
  /-- LFIRST (R126). -/
  | lfirst (x : Un)
  /-- BR (R148). -/
  | br (off : BitVec 14)
  /-- BRP (R148). -/
  | brp (p : PReg) (off : BitVec 14)
  /-- BRNP (R148). -/
  | brnp (p : PReg) (off : BitVec 14)
  /-- JMP (R149). -/
  | jmp (target : Word)
  /-- JMP_IND (R149). -/
  | jmpInd (a : VReg)
  /-- CALL (R150). -/
  | call (off : BitVec 14)
  /-- RET (R150). -/
  | ret
  /-- EXIT (R151). -/
  | exit
  /-- YIELD (R152). -/
  | yield
  /-- NOP (R152). -/
  | nop
  /-- TRAP (R153). -/
  | trap (code : BitVec 8)
  /-- BKPT (R153). -/
  | bkpt (code : BitVec 8)
  /-- GETFC (R154). -/
  | getfc (d : VReg)
  /-- SETFC (R154). -/
  | setfc (b : Src)
  /-- LD (R171). -/
  | ld (x : LsF)
  /-- ST (R172). -/
  | st (x : LsF)
  /-- LDACQ (R171). -/
  | ldacq (x : LsF)
  /-- STREL (R172). -/
  | strel (x : LsF)
  /-- PREF (R173). -/
  | pref (x : PrefF)
  /-- FENCE (R201). -/
  | fence (scope : Sc)
  /-- XST (R219). -/
  | xst (x : LsF)
  /-- AADD (R199). -/
  | aadd (x : AtF)
  /-- AMIN (R199). -/
  | amin (x : AtF)
  /-- AMAX (R199). -/
  | amax (x : AtF)
  /-- AAND (R199). -/
  | aand (x : AtF)
  /-- AOR (R199). -/
  | aor (x : AtF)
  /-- AXOR (R199). -/
  | axor (x : AtF)
  /-- AXCH (R199). -/
  | axch (x : AtF)
  /-- ACAS (R199). -/
  | acas (x : AtF)
  /-- AFADD (R199). -/
  | afadd (x : AtF)
  /-- LDW (R257). -/
  | ldw (x : LdwF)
  /-- MMA (R259). -/
  | mma (x : MmaF)
  /-- MMAS (R260). -/
  | mmas (x : MmasF)
  /-- DRAIN (R261). -/
  | drain (x : DrainF)
  /-- DRAIN_BYP (R249). -/
  | drainByp (x : DrainBypF)
  /-- ACCZ (R262). -/
  | accz (t : TReg)
  /-- ACCRD (R262). -/
  | accrd (x : AccF)
  /-- ACCWR (R262). -/
  | accwr (x : AccF)
  /-- MSTAT (R263). -/
  | mstat (d : SReg) (sel : BitVec 2)
  /-- COPY (R236). -/
  | copy (x : CopyF)
  /-- COPYL (R237). -/
  | copyl (x : CopylF)
  /-- COPYR (R238). -/
  | copyr (x : CopyrF)
  /-- SEAL (R239). -/
  | seal (k : KReg)
  /-- WAIT (R240). -/
  | wait (k : KReg)
  /-- TSTAT (R241). -/
  | tstat (d : VReg) (k : KReg)
  /-- CWP (R241). -/
  | cwp (d : VReg) (k : KReg)
  /-- TDEF (R243). -/
  | tdef (a : SReg) (r : RecN)
  /-- TGET (R243). -/
  | tget (a : SReg) (r : RecN)
  /-- QPUSH (R296). -/
  | qpush (q : QReg) (a : VReg)
  /-- QPOP (R296). -/
  | qpop (d : VReg) (q : QReg) (p : PReg)
  /-- QPEEK (R296). -/
  | qpeek (d : VReg) (q : QReg) (p : PReg)
  /-- QSTAT (R297). -/
  | qstat (d : SReg) (a : SReg)
  /-- QFLUSH (R299). -/
  | qflush (a : SReg)
  /-- SPAWN (R314). -/
  | spawn (q : QReg) (a : SReg)
  /-- GLAUNCH (R314). -/
  | glaunch (q : QReg) (a : SReg)
  /-- GEDIT (R315). -/
  | gedit (d : SReg) (a : SReg) (b : SReg)
  /-- CAPP (R316). -/
  | capp (q : QReg) (a : VReg)
  /-- QUIESCE (R317). -/
  | quiesce (a : SReg)
  /-- CABORT (R242). -/
  | cabort (k : KReg)
  /-- FXFER (R325). -/
  | fxfer (d : VReg) (r : RecN) (b : VReg)
  /-- FXFERW (R330). -/
  | fxferw (p : PReg) (d : VReg) (r : RecN) (b : VReg)
  /-- FTOT (R340). -/
  | ftot (d : SReg) (a : SReg)
  /-- FSTAT (R342). -/
  | fstat (d : SReg) (a : SReg) (sel : BitVec 3)
  /-- FDOM (R337). -/
  | fdom (d : SReg) (r : RecN)
  /-- FDECL (R338). -/
  | fdecl (a : SReg) (r : RecN)
  /-- FLINK (R331). -/
  | flink (a : SReg) (b : SReg)
  /-- FCLOSE (R339). -/
  | fclose (a : SReg)
  /-- FRECL (R333). -/
  | frecl (a : SReg) (b : SReg)
  /-- BAR (R207). -/
  | bar (b : BReg)
  /-- BARA (R207). -/
  | bara (b : BReg)
  /-- BARW (R207). -/
  | barw (b : BReg)
  /-- BART (R209). -/
  | bart (b : BReg) (a : SReg) (p : PReg)
  /-- GBAR (R211). -/
  | gbar
  /-- XJOIN (R216). -/
  | xjoin (d : SReg) (a : SReg)
  /-- XLEAVE (R218). -/
  | xleave (a : SReg)
  /-- WAITM (R212). -/
  | waitm (x : WaitmF)
  /-- CSIG (R213). -/
  | csig (x : CsigF)
  /-- SLIDE (R399). -/
  | slide (fret : BitVec 8)
  /-- SRD (R278). -/
  | srd (x : SrdF)
  /-- SWR (R278). -/
  | swr (x : SwrF)
  /-- CTXSET (R278). -/
  | ctxset (x : SwrF)
  /-- CMASK_WRITE (R278). -/
  | cmaskWrite (x : SwrF)
  /-- RGNRST (R278). -/
  | rgnrst (x : SwrF)
  /-- CTLCMD (R278). -/
  | ctlcmd (x : SwrF)
  /-- QCMD_CREATE (R294). -/
  | qcmdCreate (x : SwrF)
  /-- QCMD_DESTROY (R294). -/
  | qcmdDestroy (x : SwrF)
  /-- QBUDGET (R294). -/
  | qbudget (x : SwrF)
  /-- QLATE (R294). -/
  | qlate (x : SwrF)
  /-- PAGECFG (R362). -/
  | pagecfg (x : SwrF)
  /-- FRMPUSH (R362). -/
  | frmpush (x : SwrF)
  /-- PARTMASK (R378). -/
  | partmask (x : SwrF)
  /-- HQPOP (R427). -/
  | hqpop (x : SrdF)
  /-- BSAVE (R279). -/
  | bsave (r : RecN)
  /-- BRST (R279). -/
  | brst (r : RecN)
  /-- CSAVE (R280). -/
  | csave (a : SReg) (r : RecN)
  /-- CRST (R280). -/
  | crst (a : SReg) (r : RecN)
  /-- FMAPW (R400). -/
  | fmapw (a : SReg) (r : RecN)
  /-- TLBI_PAGE (R365). -/
  | tlbiPage (a : SReg)
  /-- RNGW (R366). -/
  | rngw (a : SReg) (r : RecN)
  /-- PGMIG (R367). -/
  | pgmig (a : SReg) (b : SReg)
  /-- PGPIN (R368). -/
  | pgpin (a : SReg)
  /-- PGPIN_UNPIN (R368). -/
  | pgpinUnpin (a : SReg)
  /-- WCALL (R281). -/
  | wcall (service : BitVec 8)
  /-- UCNT (R277). -/
  | ucnt (r : RecN)
  /-- COUNTER_PROMOTION (R141). -/
  | counterPromotion (gid : Nat) (pc : Word)
  /-- CLAUSE_ENTRY (R38). -/
  | clauseEntry (gid : Nat) (pc : Word)
  /-- CLAUSE_WAIT_MET (R41). -/
  | clauseWaitMet (gid : Nat) (pc : Word)
  /-- REGISTER_REPLAY (R85). -/
  | registerReplay (gid : Nat)
  /-- LOAD_RETURN (R171). -/
  | loadReturn (id : Nat)
  /-- STORE_ACK (R172). -/
  | storeAck (id : Nat)
  /-- ATOMIC_APPLY (R199). -/
  | atomicApply (id : Nat)
  /-- DETECTOR_STALL_TIMEOUT (R184). -/
  | detectorStallTimeout (gid : Nat)
  /-- DETECTOR_ENTRY_RETIRE (R184). -/
  | detectorEntryRetire (n : Nat)
  /-- REPLICA_COMMIT (R193). -/
  | replicaCommit (id : Nat)
  /-- PACKET_SERVE (R292). -/
  | packetServe (slice : Nat)
  /-- BART_TIMEOUT (R209). -/
  | bartTimeout (gid : Nat) (lane : Nat)
  /-- WAITM_WAKE (R212). -/
  | waitmWake (gid : Nat) (lane : Nat)
  /-- WAITM_TIMEOUT (R212). -/
  | waitmTimeout (gid : Nat) (lane : Nat)
  /-- XCHANGE_BOUNDARY (R217). -/
  | xchangeBoundary (ctx : Nat) (grp : Nat)
  /-- COPY_WRITE_ACK (R233). -/
  | copyWriteAck (id : Nat)
  /-- COPYR_SEQ_RETIRE (R238). -/
  | copyrSeqRetire (slice : Nat) (ctx : Nat) (region : Nat)
  /-- COPYR_GAP_TIMEOUT (R238). -/
  | copyrGapTimeout (slice : Nat) (ctx : Nat) (region : Nat)
  /-- ARRAY_EXECUTE (R252). -/
  | arrayExecute (core : Nat)
  /-- STUB_RETIRE (R359). -/
  | stubRetire (ctx : Nat) (page : Nat) (owner : Nat)
  /-- PREEMPT_LOAD_TIMEOUT (R272). -/
  | preemptLoadTimeout (gang : Nat)
  /-- SAVE_COMPLETE (R272). -/
  | saveComplete (gang : Nat)
  /-- RESTORE (R275). -/
  | restore (gang : Nat)
  /-- RESIDENT_RELAUNCH (R271). -/
  | residentRelaunch (ctx : Nat)
  /-- CONTEXT_ABSENT (R268). -/
  | contextAbsent (ctx : Nat)
  /-- QUEUE_WAIT_POLL (R286). -/
  | queueWaitPoll (queue : Nat) (n : Nat) (value : Option (BitVec 64))
  /-- QUEUE_ENTRY_START (R286). -/
  | queueEntryStart (queue : Nat)
  /-- QUEUE_ENTRY_COMPLETE (R287). -/
  | queueEntryComplete (queue : Nat)
  /-- SIGNAL_ACK (R287). -/
  | signalAck (queue : Nat)
  /-- QUANTUM_PREEMPT (R291). -/
  | quantumPreempt (ctx : Nat)
  /-- GANG_RETIRE (R137). -/
  | gangRetire (gang : Nat)
  /-- WORKGROUP_DONE (R135). -/
  | workgroupDone (wg : Nat)
  /-- NODE_START (R309). -/
  | nodeStart (launch : Nat)
  /-- GRAPH_LAUNCH_COMPLETE (R309). -/
  | graphLaunchComplete (launch : Nat)
  /-- TERMINATION_DETECT (R313). -/
  | terminationDetect (ctx : Nat) (lists : List Nat)
  /-- FXFER_APPLY (R326). -/
  | fxferApply (id : Nat)
  /-- FXFER_CREDIT (R326). -/
  | fxferCredit (id : Nat)
  /-- DOMAIN_ABSENT (R321). -/
  | domainAbsent (dom : Nat)
  /-- MIGRATION_START (R355). -/
  | migrationStart (ctx : Nat) (page : Nat) (peer : Nat)
  /-- STUB_RELAY (R357). -/
  | stubRelay (ctx : Nat) (page : Nat)
  /-- STUB_EXPIRY (R359). -/
  | stubExpiry (ctx : Nat) (page : Nat)
  /-- STUB_RETIRE_DONE (R359). -/
  | stubRetireDone (ctx : Nat) (page : Nat)
  /-- WINDOW_END (R360). -/
  | windowEnd (ctx : Nat) (page : Nat)
  /-- LINK_TRAIN_TIMEOUT (R371). -/
  | linkTrainTimeout (link : Nat)
  /-- FABRIC_TIMEOUT (R376). -/
  | fabricTimeout (peer : Nat)
  /-- SLIDE_START (R386). -/
  | slideStart (sweep : Nat)
  /-- SLIDE_ARRIVAL (R391). -/
  | slideArrival (stn : Nat)
  /-- SPILL_ACK (R391). -/
  | spillAck (fret : Nat) (n : Nat)
  /-- RING_TAKE (R391). -/
  | ringTake (fret : Nat) (replica : Nat)
  /-- GROUP_FORM (R392). -/
  | groupForm (core : Nat)
  /-- REGROUP_TIMEOUT (R392). -/
  | regroupTimeout (core : Nat) (stn : Nat)
  /-- EPOCH_CLOSE (R405). -/
  | epochClose (wg : Nat)
  /-- ENTRY_RELEASE (R406). -/
  | entryRelease (sweep : Nat)
  /-- DIGEST_COMPARE (R412). -/
  | digestCompare (gang : Nat)
  /-- IDLE_TIMEOUT (R282). -/
  | idleTimeout (gid : Nat) (lane : Nat)
  /-- STUB_RETIRE_ACK_TIMEOUT (R359). -/
  | stubRetireAckTimeout (ctx : Nat) (page : Nat) (peer : Nat)
  /-- UCNT_SIGN_DONE (R277). -/
  | ucntSignDone (ctx : Nat)
  /-- MAILBOX_MESSAGE (R270). -/
  | mailboxMessage (ctx : Nat) (slot : Nat) (control : Word)
  /-- SPARE_REPAIR (R425). -/
  | spareRepair (u : RepairUnit)
  /-- FIELD_CREDIT (R332). -/
  | fieldCredit (c : CreditMsg)
  /-- REPLICA_UPDATE (R193). -/
  | replicaUpdate (ctx : Nat) (va : Nat) (data : List Byte)
  /-- REPLICA_READ_TIMEOUT (R193). -/
  | replicaReadTimeout (id : Nat) (data : List Byte)
  /-- REPLICA_FILL (R363). -/
  | replicaFill (id : Nat) (data : List Byte)
  /-- DIE_PORT_READ (R17). -/
  | diePortRead (slice : Nat) (chan : Nat) (sector : DieSpan)
  /-- DIE_PORT_WRITE (R17). -/
  | diePortWrite (slice : Nat) (chan : Nat) (sector : DieSpan) (enables : BitVec 128)
  /-- DIE_PORT_REPLY (R17). -/
  | diePortReply (slice : Nat) (chan : Nat) (tag : Nat)
  /-- MAILBOX_SLOT_WRITE (R270). -/
  | mailboxSlotWrite (ctx : Nat) (off : Nat) (data : List Byte)
  /-- REPLICA_LOCK (R193). -/
  | replicaLock (ctx : Nat) (va : Nat)
  /-- FIELD_ACK (R332). -/
  | fieldAck (id : Nat)
  /-- FIELD_NACK (R332). -/
  | fieldNack (id : Nat)
  /-- PAGE_WALK (R349). -/
  | pageWalk (core : Nat) (ctx : Nat) (va : Nat)
  /-- PAGE_COPY_RECEIVE (R355). -/
  | pageCopyReceive (m : PageCopyMsg)
  /-- HOME_UPDATE (R355). -/
  | homeUpdate (ctx : Nat) (page : Nat) (owner : Nat)
  /-- MIGRATION_COMMIT (R355). -/
  | migrationCommit (ctx : Nat) (page : Nat)
  /-- MIGRATION_REFUSED (R356). -/
  | migrationRefused (ctx : Nat) (page : Nat)
  /-- REDIRECT (R357). -/
  | redirect (ctx : Nat) (page : Nat) (owner : Nat) (count : Nat)
  /-- NACK_REFRESH (R358). -/
  | nackRefresh (id : Nat)
  /-- OWNER_REFRESH_ANSWER (R358). -/
  | ownerRefreshAnswer (ctx : Nat) (page : Nat) (owner : Nat)
  /-- PREEMPT (R272). -/
  | preempt (gang : Nat)
  /-- LINK_TRAINING_LOCK (R371). -/
  | linkTrainingLock (link : Nat)
  /-- LANE_LOSS (R371). -/
  | laneLoss (link : Nat)
  /-- PACKET_RECEIVE (R373). -/
  | packetReceive (link : Nat) (p : Packet) (tagOk : BitVec 64)
  /-- LINK_REPLAY (R373). -/
  | linkReplay (link : Nak)
  /-- FAA_COMBINE (R379). -/
  | faaCombine (i : Nat) (j : Nat)
  /-- HOST_COMPLETION (R380). -/
  | hostCompletion (id : Nat) (data : Option (List Byte))
  /-- HOST_COMPLETION_TIMEOUT (R380). -/
  | hostCompletionTimeout (id : Nat)
  /-- BOOT (R434). -/
  | boot (b : BootImages)
  /-- SECURITY_ALARM (R433). -/
  | securityAlarm (detector : AlarmSource)
  /-- IDE_FAILURE (R430). -/
  | ideFailure (ctx : IdeStream)
  /-- PEER_TABLE_SET (R431). -/
  | peerTableSet (peer : Nat) (populated : Bool) (enabled : Bool)
  /-- FTOEXP_SET (R431). -/
  | ftoexpSet (v : Nat)
  /-- QUANTUM_SET (R431). -/
  | quantumSet (v : Nat)
  /-- LINK_CONTROL (R431). -/
  | linkControl (link : Nat) (op : LinkOp)
  /-- POWER_CAP_SET (R431). -/
  | powerCapSet (watts : Nat)
  /-- FIRMWARE_UPDATE (R431). -/
  | firmwareUpdate (image : Nat) (version : Nat) (valid : Bool)
  /-- SPDM_MESSAGE (R431). -/
  | spdmMessage (m : SpdmMsg)
  /-- CLOCK_STATE_CHANGE (R435). -/
  | clockStateChange (c : ClockReport)
  /-- SOFT_ERROR (R84). -/
  | softError (loc : ErrLoc) (uncorrectable : Bool)
  /-- WAITM_REMOTE_POLL (R212). -/
  | waitmRemotePoll (gid : Nat) (lane : Nat) (value : BitVec 64)
  /-- HOST_PORT_LINK_CHANGE (R380). -/
  | hostPortLinkChange (port : Nat) (up : Bool)
  /-- WCALL_SERVICE_RETURN (R281). -/
  | wcallServiceReturn (gid : Nat) (r0 : Word) (r1 : Word) (r2 : Word) (r3 : Word)
  /-- XBAR (R217). -/
  | xbar
  /-- DFLUSH (R413). -/
  | dflush
  /-- WFLIP (R258). -/
  | wflip
  /-- TRET (R421). -/
  | tret
  /-- TLBI_CTX (R365). -/
  | tlbiCtx
  /-- TLBI_ALL (R365). -/
  | tlbiAll
  /-- IDLE (R282). -/
  | idle
  /-- HALT (R282). -/
  | halt
  /-- ISSUE_SELECT (R139). -/
  | issueSelect
  /-- GANG_PLACE (R289). -/
  | gangPlace
  /-- MODULE_RESET (R431). -/
  | moduleReset
  /-- SHUTDOWN_TEMPERATURE (R435). -/
  | shutdownTemperature
  deriving DecidableEq, Repr

end Sys2Proof
end

