-- ==== Sys2Proof/WellFormed.lean ====
section
/-! DEFINITION. The checks on an instruction that its words alone decide: field kinds (R44), uniform form (R43) and the
lists of illegal uses (R107, R129, R155, R177, R202, R221, R244, R264, R283, R300, R318, R343, R369, R401). Checks that
need the sweep (declared registers, tiles) or the record stand in Machine/Ops.lean and Machine/Operands.lean. -/

namespace Sys2Proof

/-- An even register (kind v2, s2). -/
def even {n : Nat} (r : BitVec n) : Bool := r.toNat % 2 == 0
/-- A multiple of four (kind v4, s4). -/
def mult4 {n : Nat} (r : BitVec n) : Bool := r.toNat % 4 == 0
/-- A multiple of eight (kind v8). -/
def mult8 {n : Nat} (r : BitVec n) : Bool := r.toNat % 8 == 0
/-- In uniform form a v field names s0-s63 (R43). -/
def uniReg (u : Bool) (r : VReg) : Bool := !u || r.toNat < 64

/-- A bx operand is legal in the form: no broadcast, and only s0-s63, in uniform form (R43, R89). -/
def Src.wf (u : Bool) : Src → Bool
  | .v r => uniReg u r
  | .s _ => !u
  | .imm _ => true

/-- As Src.wf, for a bv operand. -/
def Opv.wf (u : Bool) : Opv → Bool
  | .v r => uniReg u r
  | .s _ => !u

/-- The operand names an even register if it names one (R94). -/
def Src.pairOk : Src → Bool
  | .v r => even r
  | .s r => even r
  | .imm _ => true

/-- As Src.pairOk, for a bv operand. -/
def Opv.pairOk : Opv → Bool
  | .v r => even r
  | .s r => even r

/-- The common part of a bx form (R43, R88, R89). -/
def Bx.base (x : Bx) : Bool := uniReg x.u x.d && uniReg x.u x.a && x.b.wf x.u
/-- A bx form whose row gives M[0] no meaning. -/
def Bx.plain (x : Bx) : Bool := !x.f && x.base
/-- A 64-bit bx form with a pair operand (R94). -/
def Bx.pairs (x : Bx) : Bool := x.plain && even x.d && even x.a && x.b.pairOk
/-- A unary form (R93). -/
def Un.wf (x : Un) : Bool := uniReg x.u x.d && uniReg x.u x.a

/-- Pair alignment of a float form (R109). -/
def Fmt.ok (f : Fmt) {n : Nat} (r : BitVec n) : Bool := match f with
  | .f64 => even r
  | _ => true
/-- Pair alignment of a two-operand float form. -/
def Fb.wf (x : Fb) : Bool :=
  x.fmt.ok x.d && x.fmt.ok x.a && (match x.fmt with | .f64 => x.b.pairOk | _ => true)
/-- fcode 0-1 only (R51). -/
def Fb.noBf16 (x : Fb) : Bool := x.wf && x.fmt != .bf16

/-- Registers of one value of a conversion format (R120). -/
def FFmt.ok (f : FFmt) (r : VReg) : Bool := match f with
  | .f64 => even r
  | _ => true
/-- Registers of one integer of a conversion (R120). -/
def IType.ok (t : IType) (r : VReg) : Bool := match t with
  | .s64 | .u64 => even r
  | _ => true
/-- fp8 formats (R64). -/
def FFmt.isFp8 : FFmt → Bool
  | .f8e4 | .f8e5 => true
  | _ => false
/-- The register block of PACK and UNPK (R121): a pair for bf16, a quad for fp8; other formats are illegal. -/
def FFmt.blockOk (f : FFmt) (r : VReg) : Bool := match f with
  | .bf16 => even r
  | .f8e4 | .f8e5 => mult4 r
  | _ => false

/-- Alignment of a data register for a width that M names (R44 kind vw). -/
def Wd.ok (wd : Wd) (r : VReg) : Bool := match wd with
  | .x8 => even r
  | .x16 => mult4 r
  | _ => true

/-- Special numbers of R80, R418 other than POTAKE. -/
def movsNumber (n : Nat) : Bool :=
  n ≤ 0x0A || (0x0C ≤ n && n ≤ 0x13) || (0x40 ≤ n && n ≤ 0x4A)
/-- Special numbers marked "group" in R80. -/
def movsGroup (n : Nat) : Bool := (0x02 ≤ n && n ≤ 0x0A) || (0x0C ≤ n && n ≤ 0x0F)

/-- State numbers that SRD may name (R278, R294, R362, R378, R427, R435), other than HQPOP. -/
def srdNumber (n : Nat) : Bool :=
  n == 0x000 || n == 0x001 || n == 0x002 || (0x008 ≤ n && n ≤ 0x00F) || (0x011 ≤ n && n ≤ 0x014) || n == 0x020 ||
  (0x022 ≤ n && n ≤ 0x027) || (0x029 ≤ n && n ≤ 0x02E) || n == 0x030 || n == 0x031 || (0x038 ≤ n && n ≤ 0x040) ||
  (0x100 ≤ n && n ≤ 0x17F) || (0x204 ≤ n && n ≤ 0x213)
/-- State numbers whose write has no behaviour of its own (PEERSEL, SPBIND, WLBIND, QSEL), with QCMD. -/
def swrPlain (n : Nat) : Bool := n == 0x024 || (0x204 ≤ n && n ≤ 0x211)

/-- OTHER = 0 requires the target field to be 0 (R278). -/
def targetOk (other : Bool) (ctx : BitVec 6) : Bool := other || ctx == 0

/-- Well-formedness of an instruction. A device step has no words and is well formed as it stands. -/
def Instr.wf : Instr → Bool
  | .iadd x | .isub x | .imul x | .imad x | .and x | .or x | .xor x | .andn x | .shl x | .shr x | .sar x | .rotl x
  | .iamin x => x.plain
  | .imulh x | .imin x | .imax x | .sadd x | .ssub x | .idiv x | .irem x => x.base
  | .iabs x | .ineg x | .popc x | .clz x | .brev x => x.wf
  | .iadd64 x | .isub64 x | .imad64 x => x.pairs
  | .shl64 x => x.plain && even x.d && even x.a
  | .shr64 x => x.base && even x.d && even x.a
  | .bfe x => uniReg x.u x.d && uniReg x.u x.a && x.b.wf x.u
  | .bfi x => !x.sx && uniReg x.u x.d && uniReg x.u x.a && x.b.wf x.u
  | .lea x => uniReg x.u x.d && uniReg x.u x.a && x.b.wf x.u
  | .mov x => uniReg x.u x.d && x.b.wf x.u
  | .movi x => uniReg x.u x.d
  | .movl x => uniReg x.u x.d
  | .movs x => uniReg x.u x.d && movsNumber x.num.toNat && (!x.u || movsGroup x.num.toNat) &&
      (x.num.toNat != 0x0A || even x.d)
  | .potake _ | .sel _ => true
  | .icmp x => (match x.b with | .s _ => true | b => b.wf false) &&
      (!x.w64 || (even x.a && x.b.pairOk))
  | .fcmp x => x.fmt.ok x.a && (match x.fmt with | .f64 => x.b.pairOk | _ => true)
  | .plop x => match x.op with
      | .and | .or | .xor | .andn | .orn => true
      | .not => x.b == 0
      | .set | .clr => x.a == 0 && x.b == 0
  | .pmov _ => true
  | .pchk x => !x.w64 || even x.a
  | .famin x | .fdiv x | .fscale x => x.noBf16
  | .qmul x => uniReg x.u x.d && uniReg x.u x.a && x.b.wf x.u
  | .qshr x => uniReg x.u x.d && uniReg x.u x.a && x.b.wf x.u
  | .fadd x | .fsub x | .fmul x | .ffma x | .ffnma x | .fmin x | .fmax x => x.wf
  | .fsgn x => !x.f64 || (even x.d && even x.a && x.b.pairOk)
  | .fsqrt x => x.fmt != .bf16 && x.fmt.ok x.d && x.fmt.ok x.a
  | .frcp _ | .frsq _ | .fex2 _ | .flg2 _ | .fsinp _ | .fcosp _ => true
  | .fclass x => x.fmt.ok x.d && x.fmt.ok x.a
  | .frnd x => !x.f64 || (even x.d && even x.a)
  | .cvtif x => x.ft.ok x.d && x.it.ok x.a
  | .cvtfi x => x.it.ok x.d && x.ft.ok x.a
  | .cvtff x => x.dst.ok x.d && x.src.ok x.a && (!x.sat || x.dst.isFp8)
  | .pack x => x.dst.blockOk x.a && (!x.sat || x.dst.isFp8)
  | .unpk x => x.src.blockOk x.d
  | .fdot2 _ | .lshuf _ | .lshup _ | .lshdn _ | .lxor _ | .lvote _ => true
  | .lball x => even x.d
  | .lred x | .lscan x => match x.op with
      | .iadd64 | .fadd64 => even x.d && even x.a
      | _ => true
  | .lfirst x => uniReg x.u x.d
  | .br _ | .brp _ _ | .brnp _ _ | .jmp _ | .jmpInd _ | .call _ | .ret | .exit | .yield | .nop | .trap _ | .bkpt _
  | .getfc _ | .setfc _ => true
  | .ld x | .st x | .ldacq x | .strel x => x.wd.ok x.d
  | .xst x => x.wd.ok x.d && x.sc == .dflt
  | .pref _ => true
  | .fence sc => sc != .dflt
  | .aadd _ | .amin _ | .amax _ | .aand _ | .aor _ | .axor _ | .axch _ | .afadd _ => true
  | .acas x => even x.d
  | .ldw _ | .wflip => true
  | .mma x => mult8 x.a && (x.fmt != .f64 || even x.t)
  | .mmas x => mult8 x.a && (x.fmt != .f64 || even x.t) && x.fmt != .f8e4 && x.fmt != .f8e5
  | .drain x => x.fmt != .f8e5 && (x.fmt != .f64 || even x.t)
  | .drainByp _ | .accz _ => true
  | .accrd x | .accwr x => mult8 x.v
  | .mstat _ k => k != 3
  | .copy x => x.d.toNat ≤ 59 && x.a.toNat ≤ 59
  | .copyl x => even x.d
  | .copyr x => x.d.toNat ≤ 59 && x.a.toNat ≤ 59 && even x.b
  | .seal _ | .wait _ | .cabort _ | .cwp _ _ => true
  | .tstat d _ => mult8 d
  | .tdef _ _ | .tget _ _ => true
  | .qpush q a => 8 ≤ q.toNat && even a
  | .qpop d q _ | .qpeek d q _ => (q == 0 || 8 ≤ q.toNat) && even d
  | .qstat d _ => mult4 d
  | .qflush _ => true
  | .spawn q a | .glaunch q a => 4 ≤ q.toNat && q.toNat ≤ 7 && even a
  | .gedit _ a b => even a && even b
  | .capp q a => 8 ≤ q.toNat && even a
  | .quiesce _ => true
  | .fxfer _ _ b | .fxferw _ _ _ b => even b
  | .ftot d _ | .fstat d _ _ => mult4 d
  | .fdom _ _ | .fdecl _ _ | .fclose _ | .frecl _ _ => true
  | .flink _ b => even b
  | .bar _ | .bara _ | .barw _ | .gbar | .xjoin _ _ | .xleave _ | .xbar | .waitm _ | .csig _ | .dflush | .slide _ => true
  | .bart _ _ p => even p
  | .srd x => srdNumber x.num.toNat && targetOk x.other x.ctx
  | .hqpop x => x.num == 0x028 && targetOk x.other x.ctx
  | .swr x => swrPlain x.num.toNat && targetOk x.other x.ctx
  | .ctxset x => x.num == 0x002 && targetOk x.other x.ctx
  | .cmaskWrite x => 0x008 ≤ x.num.toNat && x.num.toNat ≤ 0x00F && targetOk x.other x.ctx
  | .rgnrst x => x.num == 0x018 && targetOk x.other x.ctx
  | .ctlcmd x => x.num == 0x019 && targetOk x.other x.ctx
  | .qcmdCreate x | .qcmdDestroy x => x.num == 0x211 && targetOk x.other x.ctx
  | .qbudget x => x.num == 0x212 && targetOk x.other x.ctx
  | .qlate x => x.num == 0x213 && targetOk x.other x.ctx
  | .pagecfg x => x.num == 0x020 && targetOk x.other x.ctx
  | .frmpush x => x.num == 0x021 && targetOk x.other x.ctx
  | .partmask x => 0x100 ≤ x.num.toNat && x.num.toNat ≤ 0x17F && targetOk x.other x.ctx
  | .tret | .bsave _ | .brst _ | .csave _ _ | .crst _ _ | .fmapw _ _ | .tlbiCtx | .tlbiAll | .rngw _ _ | .wcall _
  | .ucnt _ | .idle | .halt => true
  | .tlbiPage a | .pgmig a _ | .pgpin a | .pgpinUnpin a => even a
  | _ => true

end Sys2Proof
end

