-- ==== Sys2Proof/Decode.lean ====
section
/-! DEFINITION. The clause header (R37), the decoder of instruction words in their clause's class (R42-R48, R51) and,
after it, the encoder written from the same tables. -/

namespace Sys2Proof

/-- The classes of R37. -/
inductive Class where | mix | mem | mtx | eng | fld | syn | sys
  deriving DecidableEq, Repr

/-- The class of a header's C field; 7 is illegal (R37). -/
def Class.ofCode (c : BitVec 3) : Option Class := match c with
  | 0#3 => some .mix
  | 1#3 => some .mem
  | 2#3 => some .mtx
  | 3#3 => some .eng
  | 4#3 => some .fld
  | 5#3 => some .syn
  | 6#3 => some .sys
  | _ => none

/-- The code of a class (R37). -/
def Class.code : Class → BitVec 3
  | .mix => 0
  | .mem => 1
  | .mtx => 2
  | .eng => 3
  | .fld => 4
  | .syn => 5
  | .sys => 6

/-- N of a clause header. -/
def headerN (h : Word) : Nat := (h.extractLsb' 28 4).toNat
/-- C of a clause header. -/
def headerC (h : Word) : BitVec 3 := h.extractLsb' 25 3
/-- KW of a clause header: bit n names token kn. -/
def headerKW (h : Word) : BitVec 8 := h.extractLsb' 17 8
/-- T of a clause header. -/
def headerT (h : Word) : Bool := h.getLsbD 16
/-- The reserved bits of a clause header. -/
def headerReserved (h : Word) : BitVec 16 := h.extractLsb' 0 16
/-- The header of a clause (R37). -/
def mkHeader (n : BitVec 4) (c : BitVec 3) (kw : BitVec 8) (t : Bool) : Word :=
  n ++ c ++ kw ++ BitVec.ofBool t ++ (0 : BitVec 16)

/-- The fields of an instruction word (R42). -/
structure Fields where
  u : Bool
  op : BitVec 7
  m : BitVec 3
  d : BitVec 7
  a : BitVec 7
  b : BitVec 7
  deriving DecidableEq, Repr

/-- The fields of a word (R42). -/
def Fields.ofWord (w : Word) : Fields where
  u := w.getLsbD 31
  op := w.extractLsb' 24 7
  m := w.extractLsb' 21 3
  d := w.extractLsb' 14 7
  a := w.extractLsb' 7 7
  b := w.extractLsb' 0 7

/-- The word of given fields (R42). -/
def Fields.toWord (f : Fields) : Word := BitVec.ofBool f.u ++ f.op ++ f.m ++ f.d ++ f.a ++ f.b

/-- IMM14, which stands in A and B in format FI (R42). -/
def Fields.imm14 (f : Fields) : BitVec 14 := f.a ++ f.b
/-- Bit i of M. -/
def Fields.mb (f : Fields) (i : Nat) : Bool := f.m.getLsbD i

/-- A 7-bit field as an s-register (R44): 64 to 127 is illegal. -/
def toS (r : BitVec 7) : Option SReg := if r.getLsbD 6 then none else some (r.extractLsb' 0 6)
/-- A 7-bit field as a p, k or a number (R44): [6:3] must be 0. -/
def to3 (r : BitVec 7) : Option (BitVec 3) := if r.extractLsb' 3 4 = 0 then some (r.extractLsb' 0 3) else none
/-- A 7-bit field as a q or bn number, or a rec0 (R44): [6:4] must be 0. -/
def to4 (r : BitVec 7) : Option (BitVec 4) := if r.extractLsb' 4 3 = 0 then some (r.extractLsb' 0 4) else none
/-- The scope code of a rec field (R44, R46). -/
def toSc (c : BitVec 3) : Option Sc := match c with
  | 0#3 => some .dflt
  | 1#3 => some .blk
  | 2#3 => some .qrt
  | 3#3 => some .dev
  | 4#3 => some .sys
  | _ => none
/-- The code of a scope (R46). -/
def Sc.code : Sc → BitVec 3
  | .dflt => 0
  | .blk => 1
  | .qrt => 2
  | .dev => 3
  | .sys => 4
/-- A bx operand (R88). -/
def toSrc (m : BitVec 3) (b : BitVec 7) : Option Src :=
  match m.getLsbD 2, m.getLsbD 1 with
  | false, false => some (.v b)
  | true, false => (toS b).map .s
  | false, true => some (.imm b)
  | true, true => none
/-- A bv operand (R88). -/
def toOpv (bu : Bool) (b : BitVec 7) : Option Opv := if bu then (toS b).map .s else some (.v b)
/-- fcode 0-2 (R46). -/
def toFmt (c : BitVec 2) : Option Fmt := match c with
  | 0#2 => some .f32
  | 1#2 => some .f64
  | 2#2 => some .bf16
  | _ => none
/-- The code of fcode 0-2. -/
def Fmt.code : Fmt → BitVec 2
  | .f32 => 0
  | .f64 => 1
  | .bf16 => 2
/-- fcode 0-4 (R46). -/
def toFFmt (c : BitVec 3) : Option FFmt := match c with
  | 0#3 => some .f32
  | 1#3 => some .f64
  | 2#3 => some .bf16
  | 3#3 => some .f8e4
  | 4#3 => some .f8e5
  | _ => none
/-- The code of fcode 0-4. -/
def FFmt.code : FFmt → BitVec 3
  | .f32 => 0
  | .f64 => 1
  | .bf16 => 2
  | .f8e4 => 3
  | .f8e5 => 4
/-- fcode 0-6 (R46). -/
def toMFmt (c : BitVec 3) : Option MFmt := match c with
  | 0#3 => some .f32
  | 1#3 => some .f64
  | 2#3 => some .bf16
  | 3#3 => some .f8e4
  | 4#3 => some .f8e5
  | 5#3 => some .rq8
  | 6#3 => some .rq4
  | _ => none
/-- The code of fcode 0-6. -/
def MFmt.code : MFmt → BitVec 3
  | .f32 => 0
  | .f64 => 1
  | .bf16 => 2
  | .f8e4 => 3
  | .f8e5 => 4
  | .rq8 => 5
  | .rq4 => 6
/-- itype (R46). -/
def toIType (c : BitVec 2) : IType := match c with
  | 0#2 => .s32
  | 1#2 => .u32
  | 2#2 => .s64
  | _ => .u64
/-- The code of itype. -/
def IType.code : IType → BitVec 2
  | .s32 => 0
  | .u32 => 1
  | .s64 => 2
  | .u64 => 3
/-- rnd (R46). -/
def toRnd (c : BitVec 3) : Option Rnd := match c with
  | 0#3 => some .dyn
  | 1#3 => some .rne
  | 2#3 => some .rpi
  | 3#3 => some .rmi
  | 4#3 => some .rz
  | _ => none
/-- The code of rnd. -/
def Rnd.code : Rnd → BitVec 3
  | .dyn => 0
  | .rne => 1
  | .rpi => 2
  | .rmi => 3
  | .rz => 4
/-- Rounding of QMUL and QSHR (R105). -/
def toQRnd (c : BitVec 2) : Option QRnd := match c with
  | 0#2 => some .rne
  | 1#2 => some .rmi
  | 2#2 => some .rz
  | _ => none
/-- The code of a QMUL rounding. -/
def QRnd.code : QRnd → BitVec 2
  | .rne => 0
  | .rmi => 1
  | .rz => 2
/-- wd (R46). -/
def toWd (c : BitVec 3) : Option Wd := match c with
  | 0#3 => some .w
  | 1#3 => some .x1
  | 2#3 => some .x2
  | 3#3 => some .x4
  | 4#3 => some .x8
  | 5#3 => some .x16
  | _ => none
/-- The code of wd. -/
def Wd.code : Wd → BitVec 3
  | .w => 0
  | .x1 => 1
  | .x2 => 2
  | .x4 => 3
  | .x8 => 4
  | .x16 => 5
/-- icond (R46). -/
def toICond (c : BitVec 4) : Option ICond := match c with
  | 0#4 => some .eq
  | 1#4 => some .ne
  | 2#4 => some .lt
  | 3#4 => some .le
  | 4#4 => some .gt
  | 5#4 => some .ge
  | 6#4 => some .ltu
  | 7#4 => some .leu
  | 8#4 => some .gtu
  | 9#4 => some .geu
  | _ => none
/-- The code of icond. -/
def ICond.code : ICond → BitVec 4
  | .eq => 0
  | .ne => 1
  | .lt => 2
  | .le => 3
  | .gt => 4
  | .ge => 5
  | .ltu => 6
  | .leu => 7
  | .gtu => 8
  | .geu => 9
/-- fcond (R46). -/
def toFCond (c : BitVec 4) : Option FCond := match c with
  | 0#4 => some .eq
  | 1#4 => some .ne
  | 2#4 => some .lt
  | 3#4 => some .le
  | 4#4 => some .gt
  | 5#4 => some .ge
  | 6#4 => some .un
  | 7#4 => some .or
  | _ => none
/-- The code of fcond. -/
def FCond.code : FCond → BitVec 4
  | .eq => 0
  | .ne => 1
  | .lt => 2
  | .le => 3
  | .gt => 4
  | .ge => 5
  | .un => 6
  | .or => 7
/-- PLOP op (R102). -/
def toPlop (c : BitVec 3) : PlopOp := match c with
  | 0#3 => .and
  | 1#3 => .or
  | 2#3 => .xor
  | 3#3 => .andn
  | 4#3 => .orn
  | 5#3 => .not
  | 6#3 => .set
  | _ => .clr
/-- The code of a PLOP op. -/
def PlopOp.code : PlopOp → BitVec 3
  | .and => 0
  | .or => 1
  | .xor => 2
  | .andn => 3
  | .orn => 4
  | .not => 5
  | .set => 6
  | .clr => 7
/-- LVOTE op (R51). -/
def toVote (c : BitVec 3) : Option VoteOp := match c with
  | 0#3 => some .all
  | 1#3 => some .any
  | 2#3 => some .uni
  | _ => none
/-- The code of an LVOTE op. -/
def VoteOp.code : VoteOp → BitVec 3
  | .all => 0
  | .any => 1
  | .uni => 2
/-- LRED and LSCAN op (R51): [6:4] 0, 13 to 15 illegal. -/
def toRed (c : BitVec 7) : Option RedOp := match c with
  | 0#7 => some .iadd
  | 1#7 => some .imin
  | 2#7 => some .imax
  | 3#7 => some .umin
  | 4#7 => some .umax
  | 5#7 => some .and
  | 6#7 => some .or
  | 7#7 => some .xor
  | 8#7 => some .fadd
  | 9#7 => some .fmin
  | 10#7 => some .fmax
  | 11#7 => some .iadd64
  | 12#7 => some .fadd64
  | _ => none
/-- The code of an LRED op. -/
def RedOp.code : RedOp → BitVec 7
  | .iadd => 0
  | .imin => 1
  | .imax => 2
  | .umin => 3
  | .umax => 4
  | .and => 5
  | .or => 6
  | .xor => 7
  | .fadd => 8
  | .fmin => 9
  | .fmax => 10
  | .iadd64 => 11
  | .fadd64 => 12
/-- ord (R198). -/
def toAOrd (c : BitVec 2) : AOrd := match c with
  | 0#2 => .rlx
  | 1#2 => .acq
  | 2#2 => .rel
  | _ => .ar
/-- The code of ord. -/
def AOrd.code : AOrd → BitVec 2
  | .rlx => 0
  | .acq => 1
  | .rel => 2
  | .ar => 3
/-- COPYL width (R237). -/
def toCWid (c : BitVec 2) : Option CWid := match c with
  | 0#2 => some .x4
  | 1#2 => some .x8
  | 2#2 => some .x16
  | _ => none
/-- The code of a COPYL width. -/
def CWid.code : CWid → BitVec 2
  | .x4 => 0
  | .x8 => 1
  | .x16 => 2
/-- COPYR op (R238). -/
def toROp (c : BitVec 2) : Option ROp := match c with
  | 0#2 => some .add
  | 1#2 => some .min
  | 2#2 => some .max
  | _ => none
/-- The code of a COPYR op. -/
def ROp.code : ROp → BitVec 2
  | .add => 0
  | .min => 1
  | .max => 2

namespace Fields

/-- `x` where the condition holds, else no instruction. -/
def need (c : Bool) (x : Option Instr) : Option Instr := if c then x else none

/-- A bx form (R51). -/
def bx (f : Fields) (mk : Bx → Instr) : Option Instr :=
  (toSrc f.m f.b).map fun b => mk ⟨f.u, f.mb 0, f.d, f.a, b⟩
/-- A unary form: B and M are 0 (R93). -/
def un (f : Fields) (mk : Un → Instr) : Option Instr := need (f.b == 0 && f.m == 0) (some (mk ⟨f.u, f.d, f.a⟩))
/-- A two-operand float form (R112). -/
def fb (f : Fields) (mk : Fb → Instr) : Option Instr :=
  need (!f.u) <| (toFmt (f.m.extractLsb' 0 2)).bind fun t => (toOpv (f.mb 2) f.b).map fun b => mk ⟨t, f.d, f.a, b⟩
/-- A one-operand float form (R117, R118). -/
def fu (f : Fields) (mk : Fu → Instr) : Option Instr :=
  need (!f.u && f.b == 0 && !f.mb 2) <| (toFmt (f.m.extractLsb' 0 2)).map fun t => mk ⟨t, f.d, f.a⟩
/-- An fp32 function (R118). -/
def f1 (f : Fields) (mk : F1 → Instr) : Option Instr := need (!f.u && f.b == 0 && f.m == 0) (some (mk ⟨f.d, f.a⟩))
/-- A lane exchange (R123). -/
def lane (f : Fields) (mk : LaneF → Instr) : Option Instr :=
  need (!f.u && !f.mb 0) <| (toSrc f.m f.b).map fun b => mk ⟨f.d, f.a, b⟩
/-- A form with no fields, FZ: [23:0] is 0 (R42). -/
def fz (f : Fields) (i : Instr) : Option Instr :=
  need (!f.u && f.m == 0 && f.d == 0 && f.a == 0 && f.b == 0) (some i)
/-- A load or store (R170). -/
def ls (f : Fields) (mk : LsF → Instr) : Option Instr :=
  need (!f.u) <| (toWd f.m).bind fun w => (toSc (f.a.extractLsb' 4 3)).map fun c =>
    mk ⟨w, c, f.d, f.a.extractLsb' 0 4, f.b⟩
/-- An atomic (R198). -/
def at' (f : Fields) (mk : AtF → Instr) : Option Instr :=
  need (!f.u) <| (toSc (f.a.extractLsb' 4 3)).map fun c =>
    mk ⟨toAOrd (f.m.extractLsb' 1 2), f.mb 0, c, f.d, f.a.extractLsb' 0 4, f.b⟩

end Fields

open Fields in
/-- Class 0, MIX (R51). -/
def decodeMix (f : Fields) (lit : Word) : Option Instr :=
  match f.op.toNat with
  | 0x00 => f.bx .iadd
  | 0x01 => f.bx .isub
  | 0x02 => f.bx .imul
  | 0x03 => f.bx .imulh
  | 0x04 => f.bx .imad
  | 0x05 => f.bx .imin
  | 0x06 => f.bx .imax
  | 0x07 => f.un .iabs
  | 0x08 => f.un .ineg
  | 0x09 => f.bx .sadd
  | 0x0A => f.bx .ssub
  | 0x0B => f.bx .idiv
  | 0x0C => f.bx .irem
  | 0x0D => f.bx .iadd64
  | 0x0E => f.bx .isub64
  | 0x0F => f.bx .imad64
  | 0x10 => f.bx .and
  | 0x11 => f.bx .or
  | 0x12 => f.bx .xor
  | 0x13 => f.bx .andn
  | 0x14 => f.bx .shl
  | 0x15 => f.bx .shr
  | 0x16 => f.bx .sar
  | 0x17 => f.bx .rotl
  | 0x18 => need (!f.mb 1) <| (toOpv (f.mb 2) f.b).map fun b => .bfe ⟨f.u, f.mb 0, f.d, f.a, b⟩
  | 0x19 => need (!f.mb 1) <| (toOpv (f.mb 2) f.b).map fun b => .bfi ⟨f.u, f.mb 0, f.d, f.a, b⟩
  | 0x1A => f.un .popc
  | 0x1B => f.un .clz
  | 0x1C => f.un .brev
  | 0x1D => (toOpv (f.mb 2) f.b).map fun b => .lea ⟨f.u, f.m.extractLsb' 0 2, f.d, f.a, b⟩
  | 0x1E => f.bx .shl64
  | 0x1F => f.bx .shr64
  | 0x20 => need (f.a == 0 && !f.mb 1 && !f.mb 0) <| (toOpv (f.mb 2) f.b).map fun b => .mov ⟨f.u, f.d, b⟩
  | 0x21 => need (f.m == 0) (some (.movi ⟨f.u, f.d, f.imm14⟩))
  | 0x22 => need (f.m == 0 && f.a == 0 && f.b == 0) (some (.movl ⟨f.u, f.d, lit⟩))
  | 0x23 => need (f.m == 0 && f.b == 0) <|
      if f.a == 0x14 then need (!f.u) (some (.potake f.d)) else some (.movs ⟨f.u, f.d, f.a⟩)
  | 0x24 => need (!f.u) (some (.sel ⟨f.m, f.d, f.a, f.b⟩))
  | 0x25 => need (!f.u) <| (toICond (f.d.extractLsb' 3 4)).bind fun c => (toSrc f.m f.b).map fun b =>
      .icmp ⟨c, f.mb 0, f.d.extractLsb' 0 3, f.a, b⟩
  | 0x26 => need (!f.u) <| (toFCond (f.d.extractLsb' 3 4)).bind fun c => (toFmt (f.m.extractLsb' 0 2)).bind fun t =>
      (toOpv (f.mb 2) f.b).map fun b => .fcmp ⟨c, t, f.d.extractLsb' 0 3, f.a, b⟩
  | 0x27 => need (!f.u) <| (to3 f.d).bind fun d => (to3 f.a).bind fun a => (to3 f.b).map fun b =>
      .plop ⟨toPlop f.m, d, a, b⟩
  | 0x28 => need (!f.u && f.b == 0 && !f.mb 2 && !f.mb 1) <|
      if f.mb 0 then (to3 f.a).map fun p => .pmov ⟨true, p, f.d⟩ else (to3 f.d).map fun p => .pmov ⟨false, p, f.a⟩
  | 0x29 => need (!f.u && f.b == 0 && !f.mb 2 && !f.mb 1) <| (to3 f.d).map fun p => .pchk ⟨f.mb 0, p, f.a⟩
  | 0x2A => f.bx .iamin
  | 0x2B => f.fb .famin
  | 0x2C => need (lit.extractLsb' 6 26 == 0) <| (toQRnd (f.m.extractLsb' 0 2)).bind fun r =>
      (toOpv (f.mb 2) f.b).map fun b => .qmul ⟨f.u, r, f.d, f.a, b, lit.extractLsb' 0 6⟩
  | 0x2D => (toQRnd (f.m.extractLsb' 0 2)).bind fun r =>
      (toOpv (f.mb 2) f.b).map fun b => .qshr ⟨f.u, r, f.d, f.a, b⟩
  | 0x30 => f.fb .fadd
  | 0x31 => f.fb .fsub
  | 0x32 => f.fb .fmul
  | 0x33 => f.fb .ffma
  | 0x34 => f.fb .ffnma
  | 0x35 => f.fb .fmin
  | 0x36 => f.fb .fmax
  | 0x37 => need (!f.u) <| (toOpv (f.mb 2) f.b).map fun b => .fsgn ⟨f.mb 0, f.mb 1, f.d, f.a, b⟩
  | 0x38 => f.fb .fdiv
  | 0x39 => f.fu .fsqrt
  | 0x3A => f.f1 .frcp
  | 0x3B => f.f1 .frsq
  | 0x3C => f.f1 .fex2
  | 0x3D => f.f1 .flg2
  | 0x3E => f.f1 .fsinp
  | 0x3F => f.f1 .fcosp
  | 0x40 => f.fu .fclass
  | 0x41 => f.fb .fscale
  | 0x42 => need (!f.u && f.b.extractLsb' 1 6 == 0) <| (toRnd f.m).map fun r => .frnd ⟨f.b.getLsbD 0, r, f.d, f.a⟩
  | 0x43 => need (!f.u && !f.b.getLsbD 6 && !f.b.getLsbD 3) <| (toFFmt (f.b.extractLsb' 0 3)).bind fun t =>
      (toRnd f.m).map fun r => .cvtif ⟨t, toIType (f.b.extractLsb' 4 2), r, f.d, f.a⟩
  | 0x44 => need (!f.u && !f.b.getLsbD 6 && !f.b.getLsbD 3) <| (toFFmt (f.b.extractLsb' 0 3)).bind fun t =>
      (toRnd f.m).map fun r => .cvtfi ⟨t, toIType (f.b.extractLsb' 4 2), r, f.d, f.a⟩
  | 0x45 => need (!f.u) <| (toFFmt (f.b.extractLsb' 0 3)).bind fun t => (toFFmt (f.b.extractLsb' 3 3)).bind fun s =>
      (toRnd f.m).map fun r => .cvtff ⟨t, s, f.b.getLsbD 6, r, f.d, f.a⟩
  | 0x46 => need (!f.u && f.b.extractLsb' 3 3 == 0) <| (toFFmt (f.b.extractLsb' 0 3)).bind fun t =>
      (toRnd f.m).map fun r => .pack ⟨t, f.b.getLsbD 6, r, f.d, f.a⟩
  | 0x47 => need (!f.u && f.m == 0 && f.b.extractLsb' 3 4 == 0) <|
      (toFFmt (f.b.extractLsb' 0 3)).map fun t => .unpk ⟨t, f.d, f.a⟩
  | 0x48 => need (!f.u && !f.mb 1 && !f.mb 0) <| (toOpv (f.mb 2) f.b).map fun b => .fdot2 ⟨f.d, f.a, b⟩
  | 0x50 => f.lane .lshuf
  | 0x51 => f.lane .lshup
  | 0x52 => f.lane .lshdn
  | 0x53 => f.lane .lxor
  | 0x54 => need (!f.u && f.b == 0) <| (toVote f.m).bind fun o => (to3 f.d).bind fun d => (to3 f.a).map fun a =>
      .lvote ⟨o, d, a⟩
  | 0x55 => need (!f.u && f.b == 0 && f.m == 0) <| (to3 f.a).map fun p => .lball ⟨f.d, p⟩
  | 0x56 => need (!f.u && f.m == 0) <| (toRed f.b).map fun o => .lred ⟨o, f.d, f.a⟩
  | 0x57 => need (!f.u && f.m == 0) <| (toRed f.b).map fun o => .lscan ⟨o, f.d, f.a⟩
  | 0x58 => f.un .lfirst
  | 0x60 => need (!f.u && f.m == 0 && f.d == 0) (some (.br f.imm14))
  | 0x61 => need (!f.u && f.m == 0) <| (to3 f.d).map fun p => .brp p f.imm14
  | 0x62 => need (!f.u && f.m == 0) <| (to3 f.d).map fun p => .brnp p f.imm14
  | 0x63 => need (!f.u && !f.mb 2 && !f.mb 1 && f.d == 0 && f.b == 0) <|
      if f.mb 0 then some (.jmpInd f.a) else need (f.a == 0) (some (.jmp lit))
  | 0x64 => need (!f.u && f.m == 0 && f.d == 0) (some (.call f.imm14))
  | 0x65 => f.fz .ret
  | 0x66 => f.fz .exit
  | 0x67 => f.fz .yield
  | 0x68 => f.fz .nop
  | 0x69 => need (!f.u && f.m == 0 && f.d == 0 && f.imm14.extractLsb' 8 6 == 0) (some (.trap (f.imm14.extractLsb' 0 8)))
  | 0x6A => need (!f.u && f.m == 0 && f.d == 0 && f.imm14.extractLsb' 8 6 == 0) (some (.bkpt (f.imm14.extractLsb' 0 8)))
  | 0x6B => need (!f.u && f.m == 0 && f.a == 0 && f.b == 0) (some (.getfc f.d))
  | 0x6C => need (!f.u && !f.mb 0 && f.d == 0 && f.a == 0) <| (toSrc f.m f.b).map fun b => .setfc b
  | _ => none

open Fields in
/-- Class 1, MEM (R51). -/
def decodeMem (f : Fields) : Option Instr :=
  match f.op.toNat with
  | 0x00 => f.ls .ld
  | 0x01 => f.ls .st
  | 0x02 => f.ls .ldacq
  | 0x03 => f.ls .strel
  | 0x04 => need (!f.u && f.d == 0 && !f.mb 2 && !f.mb 1) <| (toSc (f.a.extractLsb' 4 3)).map fun c =>
      .pref ⟨f.mb 0, c, f.a.extractLsb' 0 4, f.b⟩
  | 0x05 => need (!f.u && f.d == 0 && f.a == 0 && f.b == 0) <| (toSc f.m).map fun c => .fence c
  | 0x06 => f.ls .xst
  | 0x08 => f.at' .aadd
  | 0x09 => f.at' .amin
  | 0x0A => f.at' .amax
  | 0x0B => f.at' .aand
  | 0x0C => f.at' .aor
  | 0x0D => f.at' .axor
  | 0x0E => f.at' .axch
  | 0x0F => f.at' .acas
  | 0x10 => f.at' .afadd
  | _ => none

open Fields in
/-- Class 2, MTX (R51). -/
def decodeMtx (f : Fields) : Option Instr :=
  match f.op.toNat with
  | 0x00 => need (!f.u && f.d.extractLsb' 1 6 == 0 && f.b == 0) <| (toMFmt f.m).bind fun t => (toS f.a).map fun a =>
      .ldw ⟨t, f.d.getLsbD 0, a⟩
  | 0x01 => f.fz .wflip
  | 0x02 => need (!f.u && f.b == 0) <| (toMFmt f.m).bind fun t => (to3 f.d).map fun d => .mma ⟨t, d, f.a⟩
  | 0x03 => need (!f.u && f.d.extractLsb' 4 3 == 0) <| (toMFmt f.m).bind fun t => (toS f.b).map fun b =>
      .mmas ⟨t, f.d.getLsbD 3, f.d.extractLsb' 0 3, f.a, b⟩
  | 0x04 => need (!f.u && f.d.extractLsb' 4 3 == 0) <| (toMFmt f.m).bind fun t => (toS f.b).bind fun b =>
      if f.d.getLsbD 3 then
        need (f.a == 0 && (t == .f8e4 || t == .rq8)) (some (.drainByp ⟨t == .rq8, f.d.extractLsb' 0 3, b⟩))
      else (to4 f.a).map fun r => .drain ⟨t, f.d.extractLsb' 0 3, r, b⟩
  | 0x05 => need (!f.u && f.m == 0 && f.a == 0 && f.b == 0) <| (to3 f.d).map fun d => .accz d
  | 0x06 => need (!f.u && f.m == 0) <| (to3 f.a).bind fun a => (to4 f.b).map fun c => .accrd ⟨f.d, a, c⟩
  | 0x07 => need (!f.u && f.m == 0) <| (to3 f.d).bind fun d => (to4 f.b).map fun c => .accwr ⟨f.a, d, c⟩
  | 0x08 => need (!f.u && f.m == 0 && f.b == 0 && f.a.extractLsb' 2 5 == 0) <| (toS f.d).map fun d =>
      .mstat d (f.a.extractLsb' 0 2)
  | _ => none

open Fields in
/-- Class 3, ENG (R51). -/
def decodeEng (f : Fields) : Option Instr :=
  match f.op.toNat with
  | 0x00 => need (!f.u && !f.mb 1 && !f.mb 0) <| (toS f.d).bind fun d => (toS f.a).bind fun a => (toS f.b).map fun b =>
      .copy ⟨f.mb 2, d, a, b⟩
  | 0x01 => need (!f.u) <| (toCWid (f.m.extractLsb' 0 2)).bind fun w => (to4 f.a).bind fun a => (to4 f.b).map fun b =>
      .copyl ⟨f.mb 2, w, f.d, a, b⟩
  | 0x02 => need (!f.u) <| (toROp (f.m.extractLsb' 0 2)).bind fun o => (toS f.d).bind fun d => (toS f.a).bind fun a =>
      (toS f.b).map fun b => .copyr ⟨f.mb 2, o, d, a, b⟩
  | 0x03 => need (!f.u && f.m == 0 && f.a == 0 && f.b == 0) <| (to3 f.d).map .seal
  | 0x04 => need (!f.u && f.m == 0 && f.a == 0 && f.b == 0) <| (to3 f.d).map .wait
  | 0x05 => need (!f.u && f.m == 0 && f.b == 0) <| (to3 f.a).map fun k => .tstat f.d k
  | 0x06 => need (!f.u && f.m == 0 && f.b == 0) <| (to3 f.a).map fun k => .cwp f.d k
  | 0x07 => need (!f.u && f.m == 0 && f.d == 0) <| (toS f.a).bind fun a => (to4 f.b).map fun r => .tdef a r
  | 0x08 => need (!f.u && f.m == 0 && f.d == 0) <| (toS f.a).bind fun a => (to4 f.b).map fun r => .tget a r
  | 0x09 => need (!f.u && f.m == 0 && f.b == 0) <| (to4 f.d).map fun q => .qpush q f.a
  | 0x0A => need (!f.u && f.m == 0) <| (to4 f.a).bind fun q => (to3 f.b).map fun p => .qpop f.d q p
  | 0x0B => need (!f.u && f.m == 0) <| (to4 f.a).bind fun q => (to3 f.b).map fun p => .qpeek f.d q p
  | 0x0C => need (!f.u && f.m == 0 && f.b == 0) <| (toS f.d).bind fun d => (toS f.a).map fun a => .qstat d a
  | 0x0D => need (!f.u && f.m == 0 && f.b == 0 && f.d == 0) <| (toS f.a).map .qflush
  | 0x0E => need (!f.u && f.m == 0 && f.b == 0) <| (to4 f.d).bind fun q => (toS f.a).map fun a => .spawn q a
  | 0x0F => need (!f.u && f.m == 0 && f.b == 0) <| (to4 f.d).bind fun q => (toS f.a).map fun a => .glaunch q a
  | 0x10 => need (!f.u && f.m == 0) <| (toS f.d).bind fun d => (toS f.a).bind fun a => (toS f.b).map fun b =>
      .gedit d a b
  | 0x11 => need (!f.u && f.m == 0 && f.b == 0) <| (to4 f.d).map fun q => .capp q f.a
  | 0x12 => need (!f.u && f.m == 0 && f.b == 0 && f.d == 0) <| (toS f.a).map .quiesce
  | 0x13 => need (!f.u && f.m == 0 && f.a == 0 && f.b == 0) <| (to3 f.d).map .cabort
  | _ => none

open Fields in
/-- Class 4, FLD (R51). -/
def decodeFld (f : Fields) : Option Instr :=
  match f.op.toNat with
  | 0x00 => need (!f.u && f.m == 0) <| (to4 f.a).map fun r => .fxfer f.d r f.b
  | 0x01 => need (!f.u) <| (to4 f.a).map fun r => .fxferw f.m f.d r f.b
  | 0x02 => need (!f.u && f.m == 0 && f.b == 0) <| (toS f.d).bind fun d => (toS f.a).map fun a => .ftot d a
  | 0x03 => need (!f.u && f.m == 0) <| (toS f.d).bind fun d => (toS f.a).bind fun a => (to3 f.b).map fun k =>
      .fstat d a k
  | 0x04 => need (!f.u && f.m == 0 && f.b == 0) <| (toS f.d).bind fun d => (to4 f.a).map fun r => .fdom d r
  | 0x05 => need (!f.u && f.m == 0 && f.d == 0) <| (toS f.a).bind fun a => (to4 f.b).map fun r => .fdecl a r
  | 0x06 => need (!f.u && f.m == 0 && f.d == 0) <| (toS f.a).bind fun a => (toS f.b).map fun b => .flink a b
  | 0x07 => need (!f.u && f.m == 0 && f.d == 0 && f.b == 0) <| (toS f.a).map .fclose
  | 0x08 => need (!f.u && f.m == 0 && f.d == 0) <| (toS f.a).bind fun a => (toS f.b).map fun b => .frecl a b
  | _ => none

open Fields in
/-- Class 5, SYN (R51). -/
def decodeSyn (f : Fields) (lit : Word) : Option Instr :=
  match f.op.toNat with
  | 0x00 => need (!f.u && f.m == 0 && f.a == 0 && f.b == 0) <| (to4 f.d).map .bar
  | 0x01 => need (!f.u && f.m == 0 && f.a == 0 && f.b == 0) <| (to4 f.d).map .bara
  | 0x02 => need (!f.u && f.m == 0 && f.a == 0 && f.b == 0) <| (to4 f.d).map .barw
  | 0x03 => need (!f.u && f.m == 0) <| (to4 f.d).bind fun b => (toS f.a).bind fun a => (to3 f.b).map fun p =>
      .bart b a p
  | 0x04 => f.fz .gbar
  | 0x05 => need (!f.u && f.m == 0 && f.b == 0) <| (toS f.d).bind fun d => (toS f.a).map fun a => .xjoin d a
  | 0x06 => need (!f.u && f.m == 0 && f.d == 0 && f.b == 0) <| (toS f.a).map .xleave
  | 0x07 => f.fz .xbar
  | 0x08 => need (!f.u && f.m == 0 && lit.extractLsb' 6 2 == 0 && lit.extractLsb' 14 18 == 0) <|
      (toICond (f.d.extractLsb' 3 4)).bind fun c => (toSc (f.a.extractLsb' 4 3)).map fun s =>
        .waitm ⟨c, f.d.extractLsb' 0 3, s, f.a.extractLsb' 0 4, f.b, lit.extractLsb' 0 6, lit.extractLsb' 8 6⟩
  | 0x09 => need (!f.u && f.m == 0) <| (toSc (f.a.extractLsb' 4 3)).map fun s =>
      .csig ⟨s, f.d, f.a.extractLsb' 0 4, f.b⟩
  | 0x0A => f.fz .dflush
  | 0x0B => need (!f.u && f.m == 0 && f.d == 0 && f.imm14.extractLsb' 8 6 == 0) (some (.slide (f.imm14.extractLsb' 0 8)))
  | _ => none

/-- The form of SRD that a state number selects (R278, R427). -/
def srdForm (x : SrdF) : Instr := if x.num = 0x028 then .hqpop x else .srd x

/-- The form of SWR that a state number selects (R278, R294, R362, R378). The create and destroy forms of QCMD are
selected by the value written, at execution. -/
def swrForm (x : SwrF) : Instr :=
  if x.num = 0x002 then .ctxset x
  else if 0x008 ≤ x.num.toNat ∧ x.num.toNat ≤ 0x00F then .cmaskWrite x
  else if x.num = 0x018 then .rgnrst x
  else if x.num = 0x019 then .ctlcmd x
  else if x.num = 0x212 then .qbudget x
  else if x.num = 0x213 then .qlate x
  else if x.num = 0x020 then .pagecfg x
  else if x.num = 0x021 then .frmpush x
  else if 0x100 ≤ x.num.toNat ∧ x.num.toNat ≤ 0x17F then .partmask x
  else .swr x

/-- The reserved bits of a state literal are 0 (R278). -/
def stateLitOk (lit : Word) : Bool :=
  lit.extractLsb' 24 8 == 0 && !lit.getLsbD 22 && lit.extractLsb' 12 4 == 0

open Fields in
/-- Class 6, SYS (R51). -/
def decodeSys (f : Fields) (lit : Word) : Option Instr :=
  match f.op.toNat with
  | 0x00 => need (!f.u && f.m == 0 && f.a == 0 && f.b == 0 && stateLitOk lit) <| (toS f.d).map fun d =>
      srdForm ⟨d, lit.getLsbD 23, lit.extractLsb' 16 6, lit.extractLsb' 0 12⟩
  | 0x01 => need (!f.u && f.m == 0 && f.d == 0 && f.b == 0 && stateLitOk lit) <| (toS f.a).map fun a =>
      swrForm ⟨a, lit.getLsbD 23, lit.extractLsb' 16 6, lit.extractLsb' 0 12⟩
  | 0x02 => f.fz .tret
  | 0x03 => need (!f.u && f.m == 0 && f.d == 0 && f.b == 0) <| (to4 f.a).map .bsave
  | 0x04 => need (!f.u && f.m == 0 && f.d == 0 && f.b == 0) <| (to4 f.a).map .brst
  | 0x05 => need (!f.u && f.m == 0 && f.d == 0) <| (toS f.a).bind fun a => (to4 f.b).map fun r => .csave a r
  | 0x06 => need (!f.u && f.m == 0 && f.d == 0) <| (toS f.a).bind fun a => (to4 f.b).map fun r => .crst a r
  | 0x07 => need (!f.u && f.m == 0 && f.d == 0) <| (toS f.a).bind fun a => (to4 f.b).map fun r => .fmapw a r
  | 0x08 => need (!f.u && f.d == 0 && f.b == 0) <|
      match f.m with
      | 0#3 => need (f.a == 0) (some .tlbiCtx)
      | 1#3 => (toS f.a).map .tlbiPage
      | 2#3 => need (f.a == 0) (some .tlbiAll)
      | _ => none
  | 0x09 => need (!f.u && f.m == 0 && f.d == 0) <| (toS f.a).bind fun a => (to4 f.b).map fun r => .rngw a r
  | 0x0A => need (!f.u && f.m == 0 && f.d == 0) <| (toS f.a).bind fun a => (toS f.b).map fun b => .pgmig a b
  | 0x0B => need (!f.u && f.d == 0 && f.b == 0 && !f.mb 2 && !f.mb 1) <|
      if f.mb 0 then (toS f.a).map .pgpinUnpin else (toS f.a).map .pgpin
  | 0x0C => need (!f.u && f.m == 0 && f.d == 0 && f.imm14.extractLsb' 8 6 == 0) (some (.wcall (f.imm14.extractLsb' 0 8)))
  | 0x0D => need (!f.u && f.m == 0 && f.d == 0 && f.a == 0) <| (to4 f.b).map .ucnt
  | 0x0E => f.fz .idle
  | 0x0F => f.fz .halt
  | _ => none

/-- The instruction that fields name in a class; `lit` is the word after it, read only where the opcode takes one. -/
def decodeFields (c : Class) (f : Fields) (lit : Word) : Option Instr := match c with
  | .mix => decodeMix f lit
  | .mem => decodeMem f
  | .mtx => decodeMtx f
  | .eng => decodeEng f
  | .fld => decodeFld f
  | .syn => decodeSyn f lit
  | .sys => decodeSys f lit

/-- THE DECODER: the instruction of a word in its clause's class, or none where R48 raises cause 0x01. -/
def decode (c : Class) (w lit : Word) : Option Instr :=
  match decodeFields c (Fields.ofWord w) lit with
  | some i => if i.wf then some i else none
  | none => none

/-- The word takes a literal word after it (R45, R51): MOVL, QMUL, the literal JMP, WAITM, SRD, SWR. It is decided by
OP, and for JMP by M[0]. -/
def takesLiteral (c : Class) (w : Word) : Bool :=
  let op := w.extractLsb' 24 7
  match c with
  | .mix => op == 0x22#7 || op == 0x2C#7 || (op == 0x63#7 && !w.getLsbD 21)
  | .syn => op == 0x08#7
  | .sys => op == 0x00#7 || op == 0x01#7
  | _ => false

/-- The word is a control transfer, which ends its clause (R40). -/
def isTransfer (c : Class) (w : Word) : Bool :=
  let op := w.extractLsb' 24 7
  match c with
  | .mix => (0x60#7).ule op && op.ule 0x66#7
  | .syn => op == 0x0B#7
  | .sys => op == 0x02#7
  | _ => false

/-- The classes in the order of R37. -/
def allClasses : List Class := [.mix, .mem, .mtx, .eng, .fld, .syn, .sys]

/-- The class and instruction of a word given without its clause: the first class, in the order of R37, whose decoder
accepts it. A word alone does not carry its class (log entry 5). -/
def decodeAnyClass (w lit : Word) : Option (Class × Instr) :=
  allClasses.findSome? fun c => (decode c w lit).map fun i => (c, i)

/-- The instruction of a table word of `nbits` bits, its literal word 0 where the table gives it no bits. -/
def decodeTableWord (nbits w : Nat) : Option Instr :=
  if nbits = 0 then none
  else (decodeAnyClass (BitVec.ofNat 32 w) (BitVec.ofNat 32 (w / 2 ^ 32))).map (·.2)

/-! The encoder. -/

/-- M[2:1] and B of a bx operand (R88). -/
def Src.enc : Src → BitVec 2 × BitVec 7
  | .v r => (0, r)
  | .s r => (2, r.zeroExtend 7)
  | .imm i => (1, i)
/-- M[2] and B of a bv operand (R88). -/
def Opv.enc : Opv → BitVec 1 × BitVec 7
  | .v r => (0, r)
  | .s r => (1, r.zeroExtend 7)
/-- An s field. -/
def encS (r : SReg) : BitVec 7 := r.zeroExtend 7
/-- A p, k or a field. -/
def enc3 (r : BitVec 3) : BitVec 7 := r.zeroExtend 7
/-- A q, bn or rec0 field. -/
def enc4 (r : BitVec 4) : BitVec 7 := r.zeroExtend 7
/-- A rec field (R44). -/
def encRec (c : Sc) (r : RecN) : BitVec 7 := c.code ++ r

/-- The encoded form: class, fields and the literal word if there is one. -/
structure Encoded where
  cls : Class
  f : Fields
  lit : Option Word
  deriving DecidableEq, Repr

namespace Encoded

/-- A word without a literal. -/
def plain (c : Class) (u : Bool) (op : BitVec 7) (m : BitVec 3) (d a b : BitVec 7) : Encoded := ⟨c, ⟨u, op, m, d, a, b⟩, none⟩
/-- A bx form. -/
def bx (op : BitVec 7) (x : Bx) : Encoded := plain .mix x.u op (x.b.enc.1 ++ BitVec.ofBool x.f) x.d x.a x.b.enc.2
/-- A unary form. -/
def un (op : BitVec 7) (x : Un) : Encoded := plain .mix x.u op 0 x.d x.a 0
/-- A two-operand float form. -/
def fb (op : BitVec 7) (x : Fb) : Encoded := plain .mix false op (x.b.enc.1 ++ x.fmt.code) x.d x.a x.b.enc.2
/-- A one-operand float form. -/
def fu (op : BitVec 7) (x : Fu) : Encoded := plain .mix false op ((0 : BitVec 1) ++ x.fmt.code) x.d x.a 0
/-- An fp32 function. -/
def f1 (op : BitVec 7) (x : F1) : Encoded := plain .mix false op 0 x.d x.a 0
/-- A lane exchange. -/
def lane (op : BitVec 7) (x : LaneF) : Encoded := plain .mix false op (x.b.enc.1 ++ (0 : BitVec 1)) x.d x.a x.b.enc.2
/-- An FI form. -/
def fi (c : Class) (op : BitVec 7) (u : Bool) (d : BitVec 7) (i : BitVec 14) : Encoded :=
  plain c u op 0 d (i.extractLsb' 7 7) (i.extractLsb' 0 7)
/-- A load or store. -/
def ls (op : BitVec 7) (x : LsF) : Encoded := plain .mem false op x.wd.code x.d (encRec x.sc x.r) x.i
/-- An atomic. -/
def at' (op : BitVec 7) (x : AtF) : Encoded :=
  plain .mem false op (x.ord.code ++ BitVec.ofBool x.ret) x.d (encRec x.sc x.r) x.i
/-- The literal of SRD and SWR (R278). -/
def stateLit (other : Bool) (ctx : BitVec 6) (num : BitVec 12) : Word :=
  (0 : BitVec 8) ++ BitVec.ofBool other ++ (0 : BitVec 1) ++ ctx ++ (0 : BitVec 4) ++ num
/-- SRD. -/
def srd (x : SrdF) : Encoded := ⟨.sys, ⟨false, 0x00, 0, encS x.d, 0, 0⟩, some (stateLit x.other x.ctx x.num)⟩
/-- SWR. -/
def swr (x : SwrF) : Encoded := ⟨.sys, ⟨false, 0x01, 0, 0, encS x.a, 0⟩, some (stateLit x.other x.ctx x.num)⟩

end Encoded

open Encoded in
/-- THE ENCODER (R42, R51). None for the device's own steps and for the two forms of QCMD that a value selects. -/
def encodeFields : Instr → Option Encoded
  | .iadd x => some (bx 0x00 x)
  | .isub x => some (bx 0x01 x)
  | .imul x => some (bx 0x02 x)
  | .imulh x => some (bx 0x03 x)
  | .imad x => some (bx 0x04 x)
  | .imin x => some (bx 0x05 x)
  | .imax x => some (bx 0x06 x)
  | .iabs x => some (un 0x07 x)
  | .ineg x => some (un 0x08 x)
  | .sadd x => some (bx 0x09 x)
  | .ssub x => some (bx 0x0A x)
  | .idiv x => some (bx 0x0B x)
  | .irem x => some (bx 0x0C x)
  | .iadd64 x => some (bx 0x0D x)
  | .isub64 x => some (bx 0x0E x)
  | .imad64 x => some (bx 0x0F x)
  | .and x => some (bx 0x10 x)
  | .or x => some (bx 0x11 x)
  | .xor x => some (bx 0x12 x)
  | .andn x => some (bx 0x13 x)
  | .shl x => some (bx 0x14 x)
  | .shr x => some (bx 0x15 x)
  | .sar x => some (bx 0x16 x)
  | .rotl x => some (bx 0x17 x)
  | .bfe x => some (plain .mix x.u 0x18 (x.b.enc.1 ++ (0 : BitVec 1) ++ BitVec.ofBool x.sx) x.d x.a x.b.enc.2)
  | .bfi x => some (plain .mix x.u 0x19 (x.b.enc.1 ++ (0 : BitVec 1) ++ BitVec.ofBool x.sx) x.d x.a x.b.enc.2)
  | .popc x => some (un 0x1A x)
  | .clz x => some (un 0x1B x)
  | .brev x => some (un 0x1C x)
  | .lea x => some (plain .mix x.u 0x1D (x.b.enc.1 ++ x.sh) x.d x.a x.b.enc.2)
  | .shl64 x => some (bx 0x1E x)
  | .shr64 x => some (bx 0x1F x)
  | .mov x => some (plain .mix x.u 0x20 (x.b.enc.1 ++ (0 : BitVec 2)) x.d 0 x.b.enc.2)
  | .movi x => some (fi .mix 0x21 x.u x.d x.imm)
  | .movl x => some ⟨.mix, ⟨x.u, 0x22, 0, x.d, 0, 0⟩, some x.lit⟩
  | .movs x => some (plain .mix x.u 0x23 0 x.d x.num 0)
  | .potake d => some (plain .mix false 0x23 0 d 0x14 0)
  | .sel x => some (plain .mix false 0x24 x.p x.d x.a x.b)
  | .icmp x => some (plain .mix false 0x25 (x.b.enc.1 ++ BitVec.ofBool x.w64) (x.c.code ++ x.p) x.a x.b.enc.2)
  | .fcmp x => some (plain .mix false 0x26 (x.b.enc.1 ++ x.fmt.code) (x.c.code ++ x.p) x.a x.b.enc.2)
  | .plop x => some (plain .mix false 0x27 x.op.code (enc3 x.d) (enc3 x.a) (enc3 x.b))
  | .pmov x => some (if x.tov then plain .mix false 0x28 1 x.v (enc3 x.p) 0 else plain .mix false 0x28 0 (enc3 x.p) x.v 0)
  | .pchk x => some (plain .mix false 0x29 ((0 : BitVec 2) ++ BitVec.ofBool x.w64) (enc3 x.p) x.a 0)
  | .iamin x => some (bx 0x2A x)
  | .famin x => some (fb 0x2B x)
  | .qmul x => some ⟨.mix, ⟨x.u, 0x2C, x.b.enc.1 ++ x.rnd.code, x.d, x.a, x.b.enc.2⟩, some ((0 : BitVec 26) ++ x.shift)⟩
  | .qshr x => some (plain .mix x.u 0x2D (x.b.enc.1 ++ x.rnd.code) x.d x.a x.b.enc.2)
  | .fadd x => some (fb 0x30 x)
  | .fsub x => some (fb 0x31 x)
  | .fmul x => some (fb 0x32 x)
  | .ffma x => some (fb 0x33 x)
  | .ffnma x => some (fb 0x34 x)
  | .fmin x => some (fb 0x35 x)
  | .fmax x => some (fb 0x36 x)
  | .fsgn x => some (plain .mix false 0x37 (x.b.enc.1 ++ BitVec.ofBool x.x ++ BitVec.ofBool x.f64) x.d x.a x.b.enc.2)
  | .fdiv x => some (fb 0x38 x)
  | .fsqrt x => some (fu 0x39 x)
  | .frcp x => some (f1 0x3A x)
  | .frsq x => some (f1 0x3B x)
  | .fex2 x => some (f1 0x3C x)
  | .flg2 x => some (f1 0x3D x)
  | .fsinp x => some (f1 0x3E x)
  | .fcosp x => some (f1 0x3F x)
  | .fclass x => some (fu 0x40 x)
  | .fscale x => some (fb 0x41 x)
  | .frnd x => some (plain .mix false 0x42 x.rnd.code x.d x.a ((0 : BitVec 6) ++ BitVec.ofBool x.f64))
  | .cvtif x => some (plain .mix false 0x43 x.rnd.code x.d x.a ((0 : BitVec 1) ++ x.it.code ++ (0 : BitVec 1) ++ x.ft.code))
  | .cvtfi x => some (plain .mix false 0x44 x.rnd.code x.d x.a ((0 : BitVec 1) ++ x.it.code ++ (0 : BitVec 1) ++ x.ft.code))
  | .cvtff x => some (plain .mix false 0x45 x.rnd.code x.d x.a (BitVec.ofBool x.sat ++ x.src.code ++ x.dst.code))
  | .pack x => some (plain .mix false 0x46 x.rnd.code x.d x.a (BitVec.ofBool x.sat ++ (0 : BitVec 3) ++ x.dst.code))
  | .unpk x => some (plain .mix false 0x47 0 x.d x.a ((0 : BitVec 4) ++ x.src.code))
  | .fdot2 x => some (plain .mix false 0x48 (x.b.enc.1 ++ (0 : BitVec 2)) x.d x.a x.b.enc.2)
  | .lshuf x => some (lane 0x50 x)
  | .lshup x => some (lane 0x51 x)
  | .lshdn x => some (lane 0x52 x)
  | .lxor x => some (lane 0x53 x)
  | .lvote x => some (plain .mix false 0x54 x.op.code (enc3 x.d) (enc3 x.a) 0)
  | .lball x => some (plain .mix false 0x55 0 x.d (enc3 x.p) 0)
  | .lred x => some (plain .mix false 0x56 0 x.d x.a x.op.code)
  | .lscan x => some (plain .mix false 0x57 0 x.d x.a x.op.code)
  | .lfirst x => some (un 0x58 x)
  | .br off => some (fi .mix 0x60 false 0 off)
  | .brp p off => some (fi .mix 0x61 false (enc3 p) off)
  | .brnp p off => some (fi .mix 0x62 false (enc3 p) off)
  | .jmp t => some ⟨.mix, ⟨false, 0x63, 0, 0, 0, 0⟩, some t⟩
  | .jmpInd a => some (plain .mix false 0x63 1 0 a 0)
  | .call off => some (fi .mix 0x64 false 0 off)
  | .ret => some (plain .mix false 0x65 0 0 0 0)
  | .exit => some (plain .mix false 0x66 0 0 0 0)
  | .yield => some (plain .mix false 0x67 0 0 0 0)
  | .nop => some (plain .mix false 0x68 0 0 0 0)
  | .trap code => some (fi .mix 0x69 false 0 ((0 : BitVec 6) ++ code))
  | .bkpt code => some (fi .mix 0x6A false 0 ((0 : BitVec 6) ++ code))
  | .getfc d => some (plain .mix false 0x6B 0 d 0 0)
  | .setfc b => some (plain .mix false 0x6C (b.enc.1 ++ (0 : BitVec 1)) 0 0 b.enc.2)
  | .ld x => some (ls 0x00 x)
  | .st x => some (ls 0x01 x)
  | .ldacq x => some (ls 0x02 x)
  | .strel x => some (ls 0x03 x)
  | .pref x => some (plain .mem false 0x04 ((0 : BitVec 2) ++ BitVec.ofBool x.l2) 0 (encRec x.sc x.r) x.i)
  | .fence c => some (plain .mem false 0x05 c.code 0 0 0)
  | .xst x => some (ls 0x06 x)
  | .aadd x => some (at' 0x08 x)
  | .amin x => some (at' 0x09 x)
  | .amax x => some (at' 0x0A x)
  | .aand x => some (at' 0x0B x)
  | .aor x => some (at' 0x0C x)
  | .axor x => some (at' 0x0D x)
  | .axch x => some (at' 0x0E x)
  | .acas x => some (at' 0x0F x)
  | .afadd x => some (at' 0x10 x)
  | .ldw x => some (plain .mtx false 0x00 x.fmt.code ((0 : BitVec 6) ++ BitVec.ofBool x.tr) (encS x.a) 0)
  | .wflip => some (plain .mtx false 0x01 0 0 0 0)
  | .mma x => some (plain .mtx false 0x02 x.fmt.code (enc3 x.t) x.a 0)
  | .mmas x => some (plain .mtx false 0x03 x.fmt.code ((0 : BitVec 3) ++ BitVec.ofBool x.n16 ++ x.t) x.a (encS x.b))
  | .drain x => some (plain .mtx false 0x04 x.fmt.code (enc3 x.t) (enc4 x.r) (encS x.b))
  | .drainByp x => some (plain .mtx false 0x04 (if x.rq8 then 5 else 3) ((1 : BitVec 4) ++ x.t) 0 (encS x.b))
  | .accz t => some (plain .mtx false 0x05 0 (enc3 t) 0 0)
  | .accrd x => some (plain .mtx false 0x06 0 x.v (enc3 x.t) (enc4 x.c))
  | .accwr x => some (plain .mtx false 0x07 0 (enc3 x.t) x.v (enc4 x.c))
  | .mstat d k => some (plain .mtx false 0x08 0 (encS d) ((0 : BitVec 5) ++ k) 0)
  | .copy x => some (plain .eng false 0x00 (BitVec.ofBool x.trp ++ (0 : BitVec 2)) (encS x.d) (encS x.a) (encS x.b))
  | .copyl x => some (plain .eng false 0x01 (BitVec.ofBool x.trp ++ x.wd.code) x.d (enc4 x.dst) (enc4 x.src))
  | .copyr x => some (plain .eng false 0x02 (BitVec.ofBool x.trp ++ x.op.code) (encS x.d) (encS x.a) (encS x.b))
  | .seal k => some (plain .eng false 0x03 0 (enc3 k) 0 0)
  | .wait k => some (plain .eng false 0x04 0 (enc3 k) 0 0)
  | .tstat d k => some (plain .eng false 0x05 0 d (enc3 k) 0)
  | .cwp d k => some (plain .eng false 0x06 0 d (enc3 k) 0)
  | .tdef a r => some (plain .eng false 0x07 0 0 (encS a) (enc4 r))
  | .tget a r => some (plain .eng false 0x08 0 0 (encS a) (enc4 r))
  | .qpush q a => some (plain .eng false 0x09 0 (enc4 q) a 0)
  | .qpop d q p => some (plain .eng false 0x0A 0 d (enc4 q) (enc3 p))
  | .qpeek d q p => some (plain .eng false 0x0B 0 d (enc4 q) (enc3 p))
  | .qstat d a => some (plain .eng false 0x0C 0 (encS d) (encS a) 0)
  | .qflush a => some (plain .eng false 0x0D 0 0 (encS a) 0)
  | .spawn q a => some (plain .eng false 0x0E 0 (enc4 q) (encS a) 0)
  | .glaunch q a => some (plain .eng false 0x0F 0 (enc4 q) (encS a) 0)
  | .gedit d a b => some (plain .eng false 0x10 0 (encS d) (encS a) (encS b))
  | .capp q a => some (plain .eng false 0x11 0 (enc4 q) a 0)
  | .quiesce a => some (plain .eng false 0x12 0 0 (encS a) 0)
  | .cabort k => some (plain .eng false 0x13 0 (enc3 k) 0 0)
  | .fxfer d r b => some (plain .fld false 0x00 0 d (enc4 r) b)
  | .fxferw p d r b => some (plain .fld false 0x01 p d (enc4 r) b)
  | .ftot d a => some (plain .fld false 0x02 0 (encS d) (encS a) 0)
  | .fstat d a k => some (plain .fld false 0x03 0 (encS d) (encS a) (enc3 k))
  | .fdom d r => some (plain .fld false 0x04 0 (encS d) (enc4 r) 0)
  | .fdecl a r => some (plain .fld false 0x05 0 0 (encS a) (enc4 r))
  | .flink a b => some (plain .fld false 0x06 0 0 (encS a) (encS b))
  | .fclose a => some (plain .fld false 0x07 0 0 (encS a) 0)
  | .frecl a b => some (plain .fld false 0x08 0 0 (encS a) (encS b))
  | .bar b => some (plain .syn false 0x00 0 (enc4 b) 0 0)
  | .bara b => some (plain .syn false 0x01 0 (enc4 b) 0 0)
  | .barw b => some (plain .syn false 0x02 0 (enc4 b) 0 0)
  | .bart b a p => some (plain .syn false 0x03 0 (enc4 b) (encS a) (enc3 p))
  | .gbar => some (plain .syn false 0x04 0 0 0 0)
  | .xjoin d a => some (plain .syn false 0x05 0 (encS d) (encS a) 0)
  | .xleave a => some (plain .syn false 0x06 0 0 (encS a) 0)
  | .xbar => some (plain .syn false 0x07 0 0 0 0)
  | .waitm x => some ⟨.syn, ⟨false, 0x08, 0, x.c.code ++ x.p, encRec x.sc x.r, x.i⟩,
      some ((0 : BitVec 18) ++ x.lim ++ (0 : BitVec 2) ++ x.cmp)⟩
  | .csig x => some (plain .syn false 0x09 0 x.d (encRec x.sc x.r) x.i)
  | .dflush => some (plain .syn false 0x0A 0 0 0 0)
  | .slide n => some (fi .syn 0x0B false 0 ((0 : BitVec 6) ++ n))
  | .srd x | .hqpop x => some (srd x)
  | .swr x | .ctxset x | .cmaskWrite x | .rgnrst x | .ctlcmd x | .qbudget x | .qlate x | .pagecfg x | .frmpush x
  | .partmask x => some (swr x)
  | .tret => some (plain .sys false 0x02 0 0 0 0)
  | .bsave r => some (plain .sys false 0x03 0 0 (enc4 r) 0)
  | .brst r => some (plain .sys false 0x04 0 0 (enc4 r) 0)
  | .csave a r => some (plain .sys false 0x05 0 0 (encS a) (enc4 r))
  | .crst a r => some (plain .sys false 0x06 0 0 (encS a) (enc4 r))
  | .fmapw a r => some (plain .sys false 0x07 0 0 (encS a) (enc4 r))
  | .tlbiCtx => some (plain .sys false 0x08 0 0 0 0)
  | .tlbiPage a => some (plain .sys false 0x08 1 0 (encS a) 0)
  | .tlbiAll => some (plain .sys false 0x08 2 0 0 0)
  | .rngw a r => some (plain .sys false 0x09 0 0 (encS a) (enc4 r))
  | .pgmig a b => some (plain .sys false 0x0A 0 0 (encS a) (encS b))
  | .pgpin a => some (plain .sys false 0x0B 0 0 (encS a) 0)
  | .pgpinUnpin a => some (plain .sys false 0x0B 1 0 (encS a) 0)
  | .wcall n => some (fi .sys 0x0C false 0 ((0 : BitVec 6) ++ n))
  | .ucnt r => some (plain .sys false 0x0D 0 0 0 (enc4 r))
  | .idle => some (plain .sys false 0x0E 0 0 0 0)
  | .halt => some (plain .sys false 0x0F 0 0 0 0)
  | _ => none

/-- Class, word and literal of an instruction. -/
def encode (i : Instr) : Option (Class × Word × Option Word) :=
  (encodeFields i).map fun e => (e.cls, e.f.toWord, e.lit)

end Sys2Proof
end

