-- ==== Sys2Proof/Machine/State.lean ====
section
/-! DEFINITION. The state of the module as plain data (INVENTORY.md, State), why a step can stop, and the state after
reset. Lists keyed by a number are sparse and canonical: keys strictly rise and no entry equals the default. -/

namespace Sys2Proof.Machine

/-- Why the machine stops. -/
inductive Fault where
  /-- Raised by exec of a program instruction in a state that has no issue to execute it for (s.cur names no resident
  group). Safe: step never calls exec so. -/
  | noIssue
  deriving DecidableEq, Repr

/-- Why a step has no meaning. -/
inductive Refusal where
  /-- Raised by exec of an instruction that the model gives no meaning yet, under its mnemonic. Safe: nothing follows
  from such a step. -/
  | notModelled (mnemonic : String)
  deriving DecidableEq, Repr

/-- Bytes of memory by address, canonical; an unlisted address reads 0 (log entry 4). -/
abbrev Memory := List Host.Cell

/-- The keys rise strictly and no entry is the default. -/
def sparseWf {α : Type} [DecidableEq α] (dflt : α) : List (Nat × α) → Bool
  | [] => true
  | (_, v) :: [] => decide (v ≠ dflt)
  | (k, v) :: (k', v') :: r => decide (v ≠ dflt) && decide (k < k') && sparseWf dflt ((k', v') :: r)

/-- The canonical form of memory. -/
def Memory.wf (m : Memory) : Bool := sparseWf (0 : Byte) m

/-- A 32-bit register with its poison bit (R74). -/
structure Reg where
  w : Word := 0
  poi : Bool := false
  deriving DecidableEq, Repr

/-- A register file, sparse: an unlisted register is 0 and unpoisoned (R75). -/
abbrev RegFile := List (Nat × Reg)

/-- The poison-origin record (R82, R83); `v` false is the empty record. -/
structure PoRec where
  v : Bool := false
  cause : Nat := 0
  sub : Nat := 0
  addr : Nat := 0
  code : Word := 0
  deriving DecidableEq, Repr

/-- A deferred error (R200, R329, R415): its cause, subcode, address, and frame words INFO0-INFO3. -/
structure DErr where
  cause : Nat
  sub : Nat
  addr : Nat
  info : List Word
  deriving DecidableEq, Repr

/-- The trap frame (R418, R419). `hdr` is the header of the clause that TFPC stands in (log entry 9). -/
structure Frame where
  v : Bool := false
  dfr : Bool := false
  resume : Nat := 0
  sub : Nat := 0
  cause : Nat := 0
  pc : Word := 0
  addr : Nat := 0
  mask : BitVec 64 := 0
  lane : Word := 0
  info0 : Word := 0
  info1 : Word := 0
  info2 : Word := 0
  info3 : Word := 0
  hdr : Word := 0
  atEntry : Bool := false
  /-- The instruction at TFPC takes a literal word, and the clause's header word. -/
  lit : Bool := false
  hdrw : Word := 0
  deriving DecidableEq, Repr

/-- A token (R231): the commands of its batch, from which its status follows (R232); with none, the status words that
CABORT left (R242), or nothing for a status of 0. -/
structure Token where
  ids : List Nat := []
  last : List Word := []
  deriving DecidableEq, Repr

/-- The identity that MOVS reads (R80), which travels with a thread in slide mode. -/
structure Ident where
  laneId : Nat := 0
  grpId : Nat := 0
  wgX : Nat := 0
  wgY : Nat := 0
  wgZ : Nat := 0
  gangId : Nat := 0
  gangWg : Nat := 0
  ticket : Nat := 0
  deriving DecidableEq, Repr

/-- Spaces that hold bytes. A scratchpad byte has the key core × 2^22 + place of the allocation + offset, a weight-buffer byte
core × 2^19 + offset; `remote` is another module's memory by virtual address. -/
inductive Space where
  | dev
  | scratch
  | weight
  | host
  | remote (peer : Nat)
  deriving DecidableEq, Repr

/-- A space that stage 1 pages name: device memory, here or at a peer. -/
def Space.paged : Space → Bool
  | .dev => true
  | .remote _ => true
  | _ => false

/-- What a lane of WAITM watches (R212): the issue it belongs to, the element's place and bytes, the comparison, the
predicate, the last clock that counts, whether another module or the host holds the element, whether it has been compared
at all, whether a write made the comparison true, its result (value and poison), and the end of a detector stall. -/
structure Watch where
  issue : Nat
  sp : Space
  keys : List Nat
  va : Nat
  wid : Nat
  cond : ICond
  cmp : DWord
  p : Nat
  sc : Nat
  track : Bool
  until_ : Nat
  remote : Bool
  first : Bool := true
  seen : Bool := false
  res : Option (Bool × Bool) := none
  stall : Option Nat := none
  /-- The number under which its read of another module's or the host's element answers, 0 before the first one. -/
  poll : Nat := 0
  deriving DecidableEq, Repr

/-- What a Waiting thread waits for (R76). The conditions up to `tokens` are looked at again by the issue rule, and
the instruction then issues anew; the others end by a step of the device that names the thread. -/
inductive Wait where
  | none
  /-- No unfinished access or transfer of the thread (R180, R191 note e). -/
  | drained
  /-- Operand registers not yet written (R77). -/
  | regs
  /-- Those accesses have ended, then the thread continues. -/
  | accs (ids : List Nat)
  /-- Free room in a queue or list (R295, R316). -/
  | space (q : Nat)
  /-- An item in one of the work lists, or their end (R313), since a time. -/
  | items (lists : List Nat) (since : Nat)
  /-- The token is not Pending (R240). -/
  | token (k : Nat)
  /-- A core has room for another command (R230). -/
  | engine
  /-- Free detector entries, until the clock (R184), with the address and the lanes of the accesses that found none; 0 when
  the access then proceeds untracked. -/
  | detector (until_ : Nat) (addr : Nat) (lanes : List Nat)
  /-- A named barrier (R207), with BART's end clock and predicate. -/
  | bar (b : Nat) (until_ : Option Nat) (p : Nat)
  /-- The gang barrier (R211). -/
  | gbar
  /-- WAITM (R212). -/
  | waitm (w : Watch)
  /-- A condition that is looked at again in each clock: an XST's Saved target (R219), an earlier UCNT (R277). -/
  | retry
  /-- A SPAWN's or GLAUNCH's entry, read before it waits for its release and for room in the queue (R314). -/
  | push (q : Nat) (entry : List Word)
  /-- A graph's header, in the order of arrival there (R308): a GLAUNCH's turn, with its queue and entry, or a GEDIT's turn and a
  Free slot, with its block (R315). -/
  | graph (g : Nat) (since : Nat) (push : Option (Nat × List Word)) (blk : Nat)
  /-- A flushed queue's Idle state (R299). -/
  | flush (q : Nat)
  /-- XJOIN's, XBAR's or XLEAVE's boundary (R216-R218). -/
  | xchange (grp : Nat)
  /-- The array's answer to ACCRD or MSTAT (R262, R263). -/
  | array (id : Nat)
  /-- A field transfer with a status predicate (R330). -/
  | xfer (id : Nat)
  /-- QUIESCE (R317). -/
  | quiesce (lists : List Nat)
  /-- A firmware service, with the number of the call (R281). -/
  | wcall (service : Nat) (call : Nat)
  /-- IDLE, until the clock (R282). -/
  | idle (until_ : Nat)
  /-- The close of the thread's epoch (R413). -/
  | epoch
  /-- The release of its staged atomic or transfer (R408). -/
  | staged
  /-- Room in the stage buffer (R407). -/
  | stage
  /-- The departure of its issue, for what the departing lanes still wait for (R388). -/
  | slide (lanes : List Nat)
  /-- The save of a context that CSAVE began (R280). -/
  | ctxop (ctx : Nat)
  /-- A page operation (R367). -/
  | page (ctx : Nat) (page : Nat)
  deriving DecidableEq, Repr

/-- A thread (R74, R76). -/
structure Thread where
  lane : Nat := 0
  pc : Word := 0
  v : RegFile := []
  pv : BitVec 8 := 0
  pp : BitVec 8 := 0
  k : List (Nat × Token) := []
  batch : List Nat := []
  fctl : Word := 0
  po : PoRec := {}
  stack : List Word := []
  ident : Ident := {}
  derr : Option DErr := none
  frame : Frame := {}
  handler : Bool := false
  exited : Bool := false
  wait : Wait := .none
  /-- The header of the clause the thread stands in, and the clause's fetched words, the header first (R50). -/
  hdr : Word := 0
  clause : List Word := []
  /-- The words are fetched and the header is checked; and the token wait is passed (R38, R41). -/
  entered : Bool := false
  passed : Bool := false
  /-- The entry needs the T check of R39 (handler entry), and the thread resumes in the middle of the clause (R41). -/
  needT : Bool := false
  resume : Bool := false
  side : Bool := false
  late : Option (Nat × Nat) := none
  /-- It comes from a parked record, and its staging issue has still to proceed (R396). -/
  parked : Bool := false
  /-- Number of the thread's region and the time it opened (R180). -/
  region : Nat := 0
  opened : Nat := 0
  /-- Work lists that it issued a QPOP on, the latest first, each with whether the QPOP returned an item (R313). -/
  prod : List (Nat × Bool) := []
  /-- Station number and fret of slide mode (R386). -/
  stn : Nat := 0
  fret : Option Nat := none
  /-- Program-order sequence and epoch of the tailpiece (R404, R405). -/
  dseq : Nat := 0
  epoch : Nat := 0
  /-- The s-registers it carries while it travels or is queued (R389), and the clock it was queued at (R392). -/
  carry : RegFile := []
  arrived : Nat := 0
  /-- Soft errors in its v-registers (R84): the register, and whether it is uncorrectable. -/
  verr : List (Nat × Bool) := []
  deriving DecidableEq, Repr

/-- One counter of a group (R141, R152): its address, pass count, promotion order and the clock YIELD holds it to. -/
structure Counter where
  pc : Word
  passes : Nat := 0
  promoted : Option Nat := none
  hold : Nat := 0
  deriving DecidableEq, Repr

/-- A group (R131, R134). -/
structure Group where
  gid : Nat := 0
  wg : Nat := 0
  core : Nat := 0
  quadrant : Nat := 0
  slot : Nat := 0
  grpId : Nat := 0
  regs : Nat := 0
  coursed : Bool := false
  s : RegFile := []
  threads : List Thread := []
  last : Option Nat := none
  counters : List Counter := []
  saved : Bool := false
  hqHigh : Word := 0
  /-- Soft errors in its s-registers (R84). -/
  serr : List (Nat × Bool) := []
  deriving DecidableEq, Repr

/-- An instruction sent to a slot in this clock (R138): its group, counter, Active set in ascending lanes, slot, and
the s-registers as they stood when the clock began (R78). -/
structure Issue where
  gid : Nat
  pc : Word
  lanes : List Nat
  slot : Nat := 0
  snap : RegFile := []
  /-- s-registers that an MSTAT of an earlier clock has still to write (R252). -/
  pend : List Nat := []
  /-- The counter's record before the clock chose it, which a slot that stays empty leaves as it was (R141). -/
  was : Counter := { pc := 0 }
  deriving DecidableEq, Repr

/-- States of a workgroup (R135); a Pending one has no record yet. -/
inductive WgState where | running | partial_ | closing | done | saved
  deriving DecidableEq, Repr

/-- A named barrier entry (R203, R204): masks over the workgroup's threads, 64 to a group. -/
structure Barrier where
  phase : BitVec 16 := 0
  broken : Bool := false
  expect : Nat := 0
  count : Nat := 0
  arrived : BitVec 1024 := 0
  doneM : BitVec 1024 := 0
  wait : BitVec 1024 := 0
  deriving DecidableEq, Repr

/-- A workgroup's membership of an exchange group (R214-R218). -/
structure XMember where
  grp : Nat := 0
  member : Nat := 0
  pending : Bool := true
  arrived : BitVec 1024 := 0
  left : BitVec 1024 := 0
  leaving : Bool := false
  base : Nat := 0
  bank : Nat := 0
  deriving DecidableEq, Repr

/-- A workgroup (R131, R135). -/
structure Wg where
  id : Nat := 0
  gang : Nat := 0
  sweep : Nat := 0
  ctx : Nat := 0
  core : Nat := 0
  ident : Ident := {}
  state : WgState := .running
  base : Nat := 0
  size : Nat := 0
  tiles : Nat := 0
  groups : Nat := 0
  /-- The workgroup of a slide sweep on a replica core (R385). -/
  fret : Bool := false
  barriers : List (Nat × Barrier) := []
  xm : Option XMember := none
  /-- Epoch of the tailpiece (R405). -/
  epoch : Nat := 0
  deriving DecidableEq, Repr

/-- The gang barrier entry (R211): EXPECT is 0 and it never breaks. -/
structure Barrier4 where
  phase : BitVec 16 := 0
  count : Nat := 0
  arrived : BitVec 4096 := 0
  doneM : BitVec 4096 := 0
  wait : BitVec 4096 := 0
  deriving DecidableEq, Repr

/-- States of a gang (R136); a Queued or Retired one has no record. -/
inductive GangState where | running | preempting | saved
  deriving DecidableEq, Repr

/-- Operations of an atomic (R198). -/
inductive AOp where
  | add | min | max | and | or | xor | xch | cas | fadd
  /-- A COPYR's reduction in a tensor format (R238), where its line has replicas (R193). -/
  | red (op : ROp) (fmt : Nat)
  deriving DecidableEq, Repr

/-- What an outstanding access does (R171-R173, R199). -/
inductive AccOp where
  | load
  | store
  | atomic (op : AOp) (ret : Bool)
  deriving DecidableEq, Repr

/-- One lane's part of an access: its address as the program gives it, the key in the space of each of its bytes, the
first destination register, and the bytes it stores or operates with. -/
structure LaneAcc where
  lane : Nat
  va : Nat
  keys : List Nat
  dst : Nat := 0
  data : List Byte := []
  /-- The subcode of the poison that the lane's word met at the commit point of R193. -/
  bad : Nat := 0
  deriving DecidableEq, Repr

/-- An outstanding access of one issue to one line (R168, R171-R174). -/
structure Acc where
  id : Nat
  gid : Nat
  core : Nat
  ctx : Nat
  pc : Word
  op : AccOp
  space : Space
  line : Nat
  wid : Nat
  lanes : List LaneAcc
  sync : Bool := false
  alloc : Bool := false
  /-- The deadline stamp of R292, the queue, and the clock it was issued at. -/
  stamp : Option Nat := none
  queue : Option Nat := none
  born : Nat := 0
  /-- The points that have still to serve it (R14, R292): routers, then its slice point or the fabric port; the clock in which
  it left for another module or began to wait on a locked replica (R193). -/
  route : List Nat := []
  sent : Option Nat := none
  /-- Resolved scope, hop count (R357), and whether R193's commit point is past. -/
  sc : Nat := 0
  hops : Nat := 0
  committed : Bool := false
  /-- It is the change of its replicated line whose locks are out (R193). -/
  locking : Bool := false
  /-- The packet it came in, where another module requested it; and the sweep and the key of the staged entry that it
  releases (R406, R411). -/
  req : Option Packet := none
  tail : Option (Nat × List Nat) := none
  /-- The command, group or signal for which it moves bytes that no register receives (R233, R243, R287). -/
  fetch : Option Nat := none
  /-- A point has served it late (R293). -/
  late : Bool := false
  /-- The parts of its request that have still to be sent again (R358), all before the first time; and whether a packet of its command
  has begun its line (R354). -/
  again : List Nat := []
  cont : Bool := false
  deriving DecidableEq, Repr

/-- What an access for a command or a uniform instruction gave: for whom, the address, whether it wrote, the bytes, and the cause
and subcode of a fault or zeros. -/
structure Fetched where
  key : Nat
  va : Nat
  write : Bool := false
  bytes : List Byte := []
  cause : Nat := 0
  sub : Nat := 0
  deriving DecidableEq, Repr

/-- Every point has served it. -/
def Acc.served (a : Acc) : Bool := a.route.isEmpty

/-- A race-detector entry (R184): the region that accessed a line, the words that its plain accesses read and wrote, and what
its synchronising accesses touched: the word, the scope code, and whether it wrote (R181). -/
structure Det where
  space : Space
  line : Nat
  gid : Nat
  lane : Nat
  wg : Nat
  gang : Nat
  ctx : Nat
  ticket : Nat
  grpId : Nat
  region : Nat
  opened : Nat
  closed : Option Nat := none
  /-- The command whose interval it belongs to, and the lanes that issued it, each with the time its share of the interval ended
  (R183). -/
  cmd : Option Nat := none
  owners : List (Nat × Option Nat) := []
  reads : List Nat := []
  writes : List Nat := []
  syncs : List (Nat × Nat × Bool) := []
  deriving DecidableEq, Repr

/-- What an engine command does (R230, R254). -/
inductive CmdKind where
  | copy
  | copyl (wid : Nat) (src dst : List Word)
  | copyr (op : ROp) (region : Nat) (seq : Nat)
  | mma (fmt : MFmt) (tile : Nat)
  | mmas (fmt : MFmt) (n16 : Bool) (tile meta_ : Nat)
  | drain (fmt : MFmt) (tile : Nat) (rec_ : List Word) (rows cols : List Byte)
  deriving DecidableEq, Repr

/-- State of a command: unfinished, ended with every element delivered, or ended with an engine error (R234). -/
inductive CmdState where | running | ended | failed | dropped
  deriving DecidableEq, Repr

/-- An engine command (R230-R238, R254). Entries, origins, row blocks and lane addresses are as read at issue. -/
structure Cmd where
  id : Nat := 0
  core : Nat := 0
  ctx : Nat := 0
  wg : Nat := 0
  owners : List (Nat × Nat) := []
  kind : CmdKind := .copy
  trap : Bool := false
  ids : Word := 0
  src : List Word := []
  dst : List Word := []
  srcIdx : List Word := []
  dstIdx : List Word := []
  so : List Int := []
  dorg : List Int := []
  /-- COPYL: lane, source address, destination address; none is out of range. -/
  pieces : List (Nat × Option Nat × Option Nat) := []
  /-- MMA, MMAS: the active visible lanes with their row blocks. -/
  rows : List (Nat × List Byte) := []
  byp : Bool := false
  pos : Nat := 0
  bytes : Nat := 0
  state : CmdState := .running
  code : Nat := 0
  detail : Nat := 0
  iv : List Nat := []
  void_ : Bool := false
  clamp : Bool := false
  /-- CYCLE since which the next element waits for a detector's room (R184), and for its sequence number's turn (R238). -/
  since : Option Nat := none
  turn : Option Nat := none
  /-- Accesses of its threads that were outstanding at its issue (R187-R190), and the commands before it in a batch that it
  joined (R233). -/
  after : List Nat := []
  prior : List Nat := []
  /-- Deadline stamp and queue of its packets; the points that have still to serve the next element's packet, whether that
  packet has been sent, and since when it waits (R292). -/
  stamp : Nat := 0
  queue : Option Nat := none
  route : List Nat := []
  out : Bool := false
  born : Nat := 0
  late : Bool := false
  /-- When it was issued, for its detector interval (R183); and its threads' LDW and MMAS in the array's queue, which read the weight
  buffer before it writes there (R253). -/
  opened : Nat := 0
  arrAfter : List Nat := []
  /-- What its check at issue needs has still to be brought from another module or the host: the index elements of a destination that
  R229 bounds, or a DRAIN's scale vectors (R239). -/
  scan : Bool := false
  /-- The lines of which it has asked other modules lately, with whether it writes: later packets to one go on with it (R354). -/
  asked : List (Bool × Nat) := []
  /-- A COPYR whose elements have all reached their slices (R238). -/
  allSent : Bool := false
  deriving DecidableEq, Repr

/-- Tag of a tile (R250). -/
inductive TTag where | int | f32 | f64 | f64h
  deriving DecidableEq, Repr

/-- A tile (R250, R251): its tag, words, and the open pass with the residues modulo 255, 256, 257 and the count of
each element that has entered products (R66). -/
structure Tile where
  tag : TTag := .f32
  words : List (Nat × Word) := []
  pass : Option MFmt := none
  chans : List (Nat × (Nat × Nat × Nat × Nat)) := []
  deriving DecidableEq, Repr

/-- An accepted MTX instruction (R252). -/
inductive ArrOp where
  | ldw (fmt : MFmt) (tr : Bool) (off : Nat) (id gid : Nat) (lanes : List Nat)
  | wflip
  | cmd (id : Nat)
  | accz (tile : Nat)
  | accrd (id gid : Nat) (lanes : List Nat) (v tile blk : Nat)
  | accwr (tile blk : Nat) (rows : List (Nat × List Word))
  | mstat (id gid : Nat) (d sel : Nat)
  deriving DecidableEq, Repr

/-- The matrix array of a core (R245-R263). A plane is 128 columns of 128 bytes: row k of column j lies at byte
128 × j + k × e. -/
structure Arr where
  taken : Bool := false
  stat : Memory := []
  shadow : Memory := []
  tiles : List (Nat × Tile) := []
  /-- The armed bypass's format; the MMA or MMAS accepted to take it, which disarms it in array order (R249, R252). -/
  byp : Option MFmt := none
  bypBy : Option Nat := none
  bypBytes : Memory := []
  status : BitVec 7 := 0
  queue : List ArrOp := []
  deriving DecidableEq, Repr

/-- A staged entry of a deterministic sweep (R403-R408). -/
structure Staged where
  id : Nat := 0
  wg : Nat := 0
  gid : Nat := 0
  lane : Nat := 0
  ticket : Nat := 0
  epoch : Nat := 0
  seq : Nat := 0
  kind : Nat := 0
  va : Nat := 0
  wid : Nat := 0
  data : List Byte := []
  op : Option AOp := none
  ret : Bool := false
  dst : Nat := 0
  xfer : Option (Nat × Nat × Int) := none
  pred : Option Nat := none
  pc : Word := 0
  /-- What is not part of the image (R409): M, resolved scope, synchronising; and the transfer's record element size. -/
  m : Nat := 0
  sc : Nat := 0
  sync : Bool := false
  stn : Nat := 0
  track : Bool := false
  /-- Its release has sent the zero-length reads of R380. -/
  flushed : Bool := false
  deriving DecidableEq, Repr

/-- A translation-cache entry (R344, R349): the pages that it covers from the first one on, one for a 64 KiB page and 32 for a 2 MiB
page, the stage 1 leaf, and the stage 2 result: the range entries of the context that covered the frame when it was made, with
their numbers. -/
structure TlbE where
  ctx : Nat
  page : Nat
  leaf : Nat
  size : Nat := 1
  s2 : List (Nat × List Word) := []
  deriving DecidableEq, Repr

/-- A walk cache entry (R349): the table that the root entry (level 0) or the middle entry (level 1) of an index of a context names. -/
structure WalkE where
  ctx : Nat
  level : Nat
  idx : Nat
  table : Nat
  deriving DecidableEq, Repr

/-- A core (R12): what it holds beside the memories and the containers. -/
structure Core where
  arr : Arr := {}
  cache : List Nat := []
  tlb : List TlbE := []
  det : List Det := []
  stage : List Staged := []
  disabled : Bool := false
  /-- The array's spare row and spare column are free (R424). -/
  spareRow : Bool := true
  spareCol : Bool := true
  arrivals : List Thread := []
  deriving DecidableEq, Repr

/-- States of a context (R268). -/
inductive CtxState where | absent | active | saving | saved | closing
  deriving DecidableEq, Repr

/-- A mailbox slot (R269): its 64 bytes, and the mark that its item has not been popped. -/
structure Slot where
  bytes : Memory := []
  busy : Bool := false
  deriving DecidableEq, Repr

/-- A message that the mailbox engine has taken and not yet pushed (R194, R270): the engine's number for it, its slot, SEQ and KIND, the
address and bytes of a write message, how far the engine is (0 taken, 1 ring copy sent, 2 write sent, 3 a rejected control word), and
whether it is an error. -/
structure Msg where
  id : Nat
  slot : Nat
  seq : Nat
  kind : Nat
  va : Nat := 0
  data : List Byte := []
  stage : Nat := 0
  err : Bool := false
  deriving DecidableEq, Repr

/-- A frame of the frame pool or a page of the context (R362). -/
abbrev FrameNo := Nat

/-- States of a fret map entry (R383). -/
inductive FretState where | unmapped | mapped | inUse
  deriving DecidableEq, Repr

/-- A ring record (R391, R396; log entry 11): its number, the replica it names, whether its write is acknowledged,
whether it is parked, and whether it has been taken. -/
structure RingRec where
  n : Nat
  r : Nat
  acked : Bool := false
  parked : Bool := false
  taken : Bool := false
  thread : Thread
  deriving DecidableEq, Repr

/-- A fret map entry (R382): its 8 words as FMAPW wrote them, its state, the ring's HEAD and TAIL and the records between
them (R393). -/
structure Fret where
  words : List Word := []
  state : FretState := .unmapped
  head : Nat := 0
  tail : Nat := 0
  ring : List RingRec := []
  deriving DecidableEq, Repr

/-- State of an exchange group (R215). -/
structure XGroup where
  open_ : Bool := false
  phase : Nat := 0
  quorum : Nat := 0
  win : Nat := 0
  /-- Numbers of members that are Done, with their gangs Retired, and hold their places until the boundary of an Open group. -/
  gone : List Nat := []
  deriving DecidableEq, Repr

/-- A work list (R312). -/
structure WorkList where
  items : List DWord := []
  ended : Bool := false
  deriving DecidableEq, Repr

/-- A context (R265-R271, R276-R278, R294, R312, R362, R377, R382). -/
structure Context where
  id : Nat := 0
  state : CtxState := .absent
  weight : Nat := 1
  cls : Nat := 1
  world : Bool := false
  priv : Bool := false
  mask21 : Bool := false
  cmask : BitVec 256 := 0
  rsmask : BitVec 48 := 0
  ptroot : Nat := 0
  mbring : Nat := 0
  param : Nat := 0
  entry : Nat := 0
  saveSize : Nat := 0
  /-- The save area (R267, R280): its address, and the context that named it in the latest CRST or CSAVE. -/
  saveAt : Nat := 0
  saver : Nat := 0
  mbseq : Nat := 0
  mbdrop : Nat := 0
  slots : List (Nat × Slot) := []
  msgs : List Msg := []
  q0 : List DWord := []
  popped : Nat := 0
  tensors : List (Nat × List Word) := []
  usage : List Nat := []
  /-- The record of a UCNT without DONE: its address, its number, and whether the signatures have been sent (R277). -/
  ucntPending : Option (Nat × Nat × Bool) := none
  served : Nat := 0
  spbind : List (Nat × Word) := []
  wlbind : List (Nat × Word) := []
  qsel : Nat := 0
  lists : List (Nat × WorkList) := []
  pagecfg : Word := 0x18
  frames : List FrameNo := []
  partition_ : List Nat := []
  peersel : Nat := 0
  frets : List (Nat × Fret) := []
  xgroups : List (Nat × XGroup) := []
  resident : Option Nat := none
  residentWanted : Option Nat := none
  preemptedAt : Option Nat := none
  deriving DecidableEq, Repr

/-- A gang (R136): its sweep, number, quartet and state; a saved gang keeps its scratchpads and arrays here, and the
loads that restore performs again (R272, R273; log entry 10). -/
structure Gang where
  id : Nat := 0
  sweep : Nat := 0
  ctx : Nat := 0
  index : Nat := 0
  quartet : Nat := 0
  state : GangState := .running
  bar : Barrier4 := {}
  stopAt : Nat := 0
  savedScratch : List (Nat × Memory) := []
  savedArr : List (Nat × Arr) := []
  savedDet : List (Nat × List Det) := []
  /-- Soft errors of its members' arrays and scratchpads, at core 0 and scratchpad place 0. -/
  savedErrs : List (Nat × List (ErrLoc × Bool)) := []
  /-- The parts of its image in the save area: offset and length (R273, log entry 10). -/
  savedAt : List (Nat × Nat) := []
  redo : List Acc := []
  /-- R411: the number of the run (0 the primary, 1 the shadow, 2 the third run) and the primary's gang. -/
  run : Nat := 0
  primary : Option Nat := none
  deriving DecidableEq, Repr

/-- A launched sweep (R301-R307): where it came from, its 96 parameter words, and its progress. -/
structure Sweep where
  id : Nat := 0
  ctx : Nat := 0
  queue : Option Nat := none
  launch : Option (Nat × Nat) := none
  resident : Bool := false
  params : List Word := []
  gangs : Nat := 0
  placed : Nat := 0
  retired : Nat := 0
  readySince : Nat := 0
  /-- Clocks in which the dispatcher passed its Ready entry over because it did not fit (R291). -/
  passed : Nat := 0
  placedTickets : Nat := 0
  /-- A slide sweep has started, and how many of its threads have been injected (R386). -/
  slideOn : Bool := false
  injected : Nat := 0
  /-- Shadow and third runs to be placed, as gang index and run (R411, R412). -/
  wants : List (Nat × Nat) := []
  /-- The clock in which gangs of the sweep last freed their resources, how many next gangs may still have them first, and the cores
  (R307). -/
  freed : Option (Nat × Nat × List Nat) := none
  /-- For each member workgroup of a selected gang's authoritative run, how many epochs' digests have agreed (R412); and the
  values that its released atomics and transfers gave, by entry: a cause and subcode, or zeros and the bytes (R411). -/
  agreed : List (Nat × Nat) := []
  vals : List (List Nat × Nat × Nat × List Byte) := []
  deriving DecidableEq, Repr

/-- A graph launch (R309-R311). -/
structure Launch where
  id : Nat := 0
  ctx : Nat := 0
  queue : Nat := 0
  graph : Nat := 0
  slot : Nat := 0
  overlap : Bool := false
  nodes : Nat := 0
  started : List Nat := []
  completed : List Nat := []
  begun : Bool := false
  bad : Bool := false
  deriving DecidableEq, Repr

/-- A queue entry (R285): its 16 words and what GLAUNCH captured. -/
structure QEntry where
  words : List Word := []
  launch : Option Nat := none
  deriving DecidableEq, Repr

/-- A hardware queue (R284-R294, R297, R298). -/
structure Queue where
  id : Nat := 0
  owner : Nat := 0
  state : Nat := 0
  entries : List QEntry := []
  held : List Bool := []
  budget : Nat := 32767
  latee : Bool := false
  late : Nat := 0
  bad : Bool := false
  pushed : Nat := 0
  waitingSince : Nat := 0
  readySince : Nat := 0
  sweep : Option Nat := none
  /-- Waits of the head that a write of this clock has let hold (R286). -/
  seen : List Bool := []
  /-- The completion signal is under way; the access that carries it to another module; the clock from which the next entry is the
  head (R287). -/
  signalling : Bool := false
  sigAcc : Option Nat := none
  nextAt : Option Nat := none
  deriving DecidableEq, Repr

/-- An outstanding field transfer (R325-R336): one lane's request, its stage (0 waiting at the source, 1 debited and
in flight to the destination, 2 sent to a linked peer, 3 stranded, 4 relayed to the owner of its source) and the
amount. -/
structure Xfer where
  id : Nat := 0
  gid : Nat := 0
  lane : Nat := 0
  visLane : Nat := 0
  pc : Word := 0
  ctx : Nat := 0
  esize : Nat := 4
  sidx : Nat := 0
  didx : Nat := 0
  sva : Nat := 0
  dva : Nat := 0
  spa : Nat := 0
  dpa : Nat := 0
  amount : Int := 0
  wait : Option Nat := none
  stage : Nat := 0
  dom : Nat := 0
  peer : Nat := 0
  fromSource : Bool := false
  sent : Nat := 0
  /-- The packet in which another module relayed it here. -/
  remote : Option Packet := none
  /-- Deadline stamp and queue of its packet, and the points that have still to serve it (R292). -/
  stamp : Nat := 0
  queue : Option Nat := none
  born : Nat := 0
  route : List Nat := []
  tail : Option (Nat × List Nat) := none
  /-- A point has served its present packet, the request or the credit, late (R293). -/
  late : Bool := false
  deriving DecidableEq, Repr

/-- Every point has served it. -/
def Xfer.served (x : Xfer) : Bool := x.route.isEmpty

/-- States of a field domain (R321). -/
inductive DomState where | open_ | closing
  deriving DecidableEq, Repr

/-- A field domain (R319-R342). The five counters are 128-bit two's-complement. -/
structure Domain where
  id : Nat := 0
  ctx : Nat := 0
  state : DomState := .open_
  base : Nat := 0
  ncell : Nat := 0
  fq64 : Bool := false
  frac : Nat := 0
  nonneg : Bool := false
  sources : List Nat := []
  sinks : List Nat := []
  issued : BitVec 128 := 0
  absorbed : BitVec 128 := 0
  inflow : BitVec 128 := 0
  outflow : BitVec 128 := 0
  transit : BitVec 128 := 0
  v : Bool := false
  more : Bool := false
  reason : Nat := 0
  lane : Nat := 0
  code : Word := 0
  sidx : Nat := 0
  didx : Nat := 0
  amount : BitVec 64 := 0
  count : Nat := 0
  discarded : Nat := 0
  links : List (Nat × Nat) := []
  /-- Credits already applied for each peer (R332: at most once), and transfers FRECL took back (R333). -/
  credited : List (Nat × Nat) := []
  reclaimed : List Nat := []
  deriving DecidableEq, Repr

/-- A page record of a mode 11 page owned here (R353). -/
structure PageRec where
  ctx : Nat
  page : Nat
  count : Nat := 0
  moves : Nat := 0
  wstart : Nat := 0
  pinned : Bool := false
  pinLater : Bool := false
  access : List Nat := []
  overflow : Bool := false
  touched : Nat := 0
  /-- A move window that began at WSTART has not ended (R360). -/
  window : Bool := false
  deriving DecidableEq, Repr

/-- A migration from this module in progress (R355): the target, the first number of the accesses that wait, the group
whose PGMIG began it, whether a threshold crossing did, and whether the copy has left. -/
structure Migration where
  ctx : Nat
  page : Nat
  peer : Nat
  born : Nat := 0
  issuer : Option Nat := none
  crossing : Bool := true
  /-- The page copy has left (R355 step 3); the new owner has taken the page and the home has been told (steps 4 and 5). -/
  copied : Bool := false
  told : Bool := false
  deriving DecidableEq, Repr

/-- A forwarding stub (R357-R359): the owner its leaf names, the relays for each peer, the peers it told, and the
handshake's outstanding acknowledgements. -/
structure Stub where
  ctx : Nat
  page : Nat
  frame : Nat
  since : Nat
  counts : List (Nat × Nat) := []
  tracked : List Nat := []
  overflow : Bool := false
  retiring : Bool := false
  awaiting : List Nat := []
  asked : Nat := 0
  deriving DecidableEq, Repr

/-- An owner-cache entry (R352): owner, the count that the first direct request carries, pending mark. -/
structure OwnerE where
  ctx : Nat
  page : Nat
  owner : Nat
  count : Nat := 0
  pending : Bool := false
  deriving DecidableEq, Repr

/-- A replica of a remote line held here (R363), with its lock (R193). -/
structure Replica where
  ctx : Nat
  va : Nat
  data : List Byte := []
  locked : Option Nat := none
  deriving DecidableEq, Repr

/-- The replica set of a page owned here (R363), and a store that waits for its acknowledgements (R193). -/
structure RepSet where
  ctx : Nat
  page : Nat
  peers : List Nat := []
  deriving DecidableEq, Repr

/-- States of a link (R371). -/
inductive LinkState where | disabled | training | up | retrain | down
  deriving DecidableEq, Repr

/-- A fabric link (R371): state, failed trainings in a row, the clock its training began, failed checks in a row. -/
structure Link where
  state : LinkState := .disabled
  fails : Nat := 0
  since : Nat := 0
  /-- Checks that the packet now arriving has failed in a row, and NAKs sent (R371, R373). -/
  bad : Nat := 0
  naks : Nat := 0
  deriving DecidableEq, Repr

/-- A packet in the source port's buffers (R373, R376): its link, when it was sent, whether it awaits an answer, the requests that a
switch merged into it as tag and amount, in order, and whether it is merged into another (R379); and the NAKs that it has drawn in a
row. One that awaits no answer stays until an answer shows that the next port has accepted it. A link of 12 is none. -/
structure Sent where
  pkt : Packet
  link : Nat
  at_ : Nat
  needs : Bool
  parts : List (Nat × Nat) := []
  merged : Bool := false
  naks : Nat := 0
  deriving DecidableEq, Repr

/-- What an owner has seen of a peer's requests for a page (R357): how many relayed ones it has applied, and how many it
awaits before the direct ones. -/
structure Relay where
  ctx : Nat
  page : Nat
  peer : Nat
  done : Nat := 0
  need : Nat := 0
  deriving DecidableEq, Repr

/-- A tag in use of a die-to-die port (R17): its packet, in the channel's arrival order. It addresses the sectors of a line
from `sector` on, one or both, with a write's byte enables from the first sector's byte 0 upward. -/
structure DieTag where
  slice : Nat
  chan : Nat
  tag : Nat
  sector : Nat
  both : Bool := false
  write : Bool
  enables : BitVec 128 := 0
  /-- For a read, the soft errors that its sectors had when a later write to them was applied before its reply. -/
  saw : List (Nat × Option Bool) := []
  /-- The access for which its slice asks, its stamp and when it came to the controller, which has served it or not (R292). -/
  acc : Option Nat := none
  stamp : Nat := 0
  born : Nat := 0
  served : Bool := false
  deriving DecidableEq, Repr

/-- A COPYR region at a slice (R238): the next sequence number, the gap mark. -/
structure RegionSt where
  slice : Nat
  ctx : Nat
  region : Nat
  next : Nat := 0
  gap : Bool := false
  deriving DecidableEq, Repr

/-- An element of a COPYR in a slice's reorder store (R238): its place, its command and position, the operand, and since when it
waits. -/
structure Held where
  slice : Nat
  ctx : Nat
  region : Nat
  seq : Nat
  cmd : Nat
  pos : Nat
  va : Nat
  keys : List Nat
  op : ROp
  fmt : Nat
  data : List Byte
  since : Nat
  /-- Its turn has come on a page with replicas (R193): the number under which the access sent for it answers. -/
  sent : Option Nat := none
  deriving DecidableEq, Repr

/-- Where an s-register's value comes from that an instruction writes after its issue: a queue's page sampled at the end of the
clock, word by word (R297), or the matrix array (R252). -/
inductive LateSrc where
  | queue (q page word : Nat)
  | array (id : Nat)
  deriving DecidableEq, Repr

/-- An s-register of a group that such an instruction has still to write. A later write of the register ends it (R78). -/
structure LateS where
  gid : Nat
  reg : Nat
  src : LateSrc
  deriving DecidableEq, Repr

/-- The machine. -/
structure State where
  /-- The model's own fields (log entry 2): device steps that are to happen before anything else; the issues of this
  clock; the issue exec executes; counters of free values, ids and steps. -/
  agenda : List Instr := []
  issues : List Issue := []
  cur : Option Issue := none
  /-- s-registers that QSTATs of this clock and accepted MSTATs have still to write (R252, R297). -/
  samples : List LateS := []
  freeCount : Nat := 0
  nextId : Nat := 1
  time : Nat := 0
  /-- Code sections the loader placed: context, address, bytes (log entry 6). -/
  codes : List (Nat × Nat × Nat) := []
  dev : Memory := []
  scratch : Memory := []
  weight : Memory := []
  host : Memory := []
  marks : List Nat := []
  softErrs : List (ErrLoc × Bool) := []
  /-- Registers whose correctable error cancelled an issue, with the issue's counter, and whether the corrected word is written back
  (R85). -/
  corrected : List (ErrLoc × Word × Bool) := []
  accs : List Acc := []
  fetched : List Fetched := []
  cmds : List Cmd := []
  xfers : List Xfer := []
  /-- Threads that travel to a queue slot reserved on a core (R391). -/
  travel : List (Nat × Thread) := []
  groups : List Group := []
  wgs : List Wg := []
  gangs : List Gang := []
  sweeps : List Sweep := []
  launches : List Launch := []
  queues : List Queue := []
  ctxs : List Context := []
  cores : List (Nat × Core) := []
  qtlb : List (Nat × List TlbE) := []
  walkCache : List WalkE := []
  qmask : BitVec 64 := BitVec.allOnes 64
  spares : BitVec 4 := BitVec.allOnes 4
  /-- Quartet ids that a die's spare has taken (R12, R13). -/
  spareIds : List Nat := []
  /-- Errors of the last 2^30 clk by the unit that they count for, with their clock and whether they were uncorrectable, and units whose
  self test failed (R424); spare rows of each stack's DRAM dies in use. -/
  tally : List (RepairUnit × Nat × Bool) := []
  selfFail : List RepairUnit := []
  rowsUsed : List (Nat × Nat) := []
  sliceDet : List Det := []
  regions : List RegionSt := []
  /-- Reorder stores of the slices; and the retiring markers that the slices have received: context, region, sequence number
  (R238). -/
  held : List Held := []
  markers : List (Nat × Nat × Nat) := []
  domains : List Domain := []
  ranges : List (Nat × List Word) := []
  pages : List PageRec := []
  /-- Requests that came while a migration that was then refused held their page: context, page, the first number and the one after the
  last. They do not count (R381). -/
  thawed : List (Nat × Nat × Nat × Nat) := []
  /-- Page copies of which a part has arrived: source, context, page, the bytes so far (R372). -/
  copyIn : List (Nat × Nat × Nat × List Byte) := []
  /-- Field credits that wait at the receiver (R334, R357), in arrival order, each with a number of its own. -/
  creditsIn : List (Nat × CreditMsg) := []
  /-- STUB-RETIREs that wait to be acknowledged (R359): context, page, the old owner. -/
  retires : List (Nat × Nat × Nat) := []
  migs : List Migration := []
  stubs : List Stub := []
  owners : List OwnerE := []
  replicas : List Replica := []
  repsets : List RepSet := []
  populated : List Nat := []
  enabled : List Nat := []
  links : List (Nat × Link) := []
  outSeq : List (Nat × Nat) := []
  inSeq : List (Nat × Nat) := []
  /-- Packets that came early, each with the link that it came on (R375). -/
  reorder : List (Nat × Packet) := []
  sent : List Sent := []
  /-- Requests that wait at a frozen page or a stub (R355, R357), in arrival order, and the relay counts of R357. -/
  waiting : List Packet := []
  relays : List Relay := []
  discards : Nat := 0
  dieTags : List DieTag := []
  ftoexp : Nat := 22
  hostUp0 : Bool := true
  hostUp1 : Bool := true
  /-- Host ports to which a thread has posted writes since its last release of .sys scope: group, lane, port (R380). -/
  posted : List (Nat × Nat × Nat) := []
  /-- Those of retired gangs, by their queue: a completion signal of .sys scope awaits them (R287). -/
  postedQ : List (Nat × Nat) := []
  health : List DWord := []
  hqovf : Word := 0
  cntReg : Word := 0
  cntMem : Word := 0
  cntUnc : Word := 0
  cycle : Nat := 0
  quantum : Nat := 2400000
  pwrst : Word := 4
  powerCap : Nat := 1650
  secureRegions : List (Nat × Nat) := []
  secureCores : List Nat := []
  secureQuartets : List Nat := []
  secureSlices : List Nat := []
  secureChannels : List Nat := []
  secureLinks : List Nat := []
  secureFunctions : List Nat := []
  policy : Nat := 0
  alarms : List Nat := []
  violations : List Nat := []
  keys : Bool := true
  /-- IDE streams that are insecure, and those whose keys have been set (R430). -/
  insecure : List IdeStream := []
  keyed : List IdeStream := []
  /-- The dual-host strap as reset read it (R429), and the endpoint ID on each port's PF (R431). -/
  dualHost : Bool := false
  endpoints : List (Nat × Nat) := []
  /-- By image: the least security version that the fuses admit, the version that an update has installed, the version of an update that
  waits for the next reset (R431, R434); and the digests of the images loaded since reset. -/
  fuses : List (Nat × Nat) := []
  fwVersions : List (Nat × Nat) := []
  fwPending : List (Nat × Nat) := []
  measured : List (BitVec 384) := []
  stopped : Bool := false
  recovery : Bool := false
  booted : Bool := false
  deriving DecidableEq, Repr

/-- The module right after reset, before the boot ROM has run (R434): nothing placed, no context, memory unlisted, and
every register at the value of INVENTORY.md. -/
def State.reset : State := {}

end Sys2Proof.Machine
end

