-- ==== Sys2Proof/Machine/Ops.lean ====
section
/-! DEFINITION. Operations shared by the meanings: sparse maps, bytes of memory, the records of the state, barriers,
threads that exit, taking a trap (R35, R415-R420) and returning from one (R421). -/

namespace Sys2Proof.Machine

/-- What exec answers. -/
abbrev Out := Host.Outcome State Fault Refusal

/-! ### Sparse maps and bytes -/

/-- The value at a key of a sparse map. -/
def sget {α : Type} (dflt : α) : List (Nat × α) → Nat → α
  | [], _ => dflt
  | (k, v) :: r, n => if n = k then v else sget dflt r n

/-- A sparse map with a key set; setting the default removes the entry. -/
def sset {α : Type} [DecidableEq α] (dflt : α) : List (Nat × α) → Nat → α → List (Nat × α)
  | [], n, x => if x = dflt then [] else [(n, x)]
  | (k, v) :: r, n, x =>
    if n < k then (if x = dflt then (k, v) :: r else (n, x) :: (k, v) :: r)
    else if n = k then (if x = dflt then r else (n, x) :: r)
    else (k, v) :: sset dflt r n x

/-- One byte of a memory. -/
def Memory.get (m : Memory) (a : Nat) : Byte := sget 0 m a

/-- `n` bytes from address `a` upward. -/
def readBytes (m : Memory) (a n : Nat) : List Byte := (List.range n).map fun i => m.get (a + i)

/-- The bytes stored from address `a` upward. -/
def writeBytes (m : Memory) (a : Nat) : List Byte → Memory
  | [] => m
  | b :: bs => writeBytes (sset 0 m a b) (a + 1) bs

/-- The number that bytes hold, little-endian (R2). -/
def ofLE : List Byte → Nat
  | [] => 0
  | b :: bs => b.toNat + 256 * ofLE bs

/-- The `n` little-endian bytes of a number (R2). -/
def toLE : Nat → Nat → List Byte
  | 0, _ => []
  | n + 1, v => BitVec.ofNat 8 v :: toLE n (v / 256)

/-- Bits [hi:lo] of a number. -/
def bits (x hi lo : Nat) : Nat := (x >>> lo) % 2 ^ (hi + 1 - lo)

/-- A word of bytes as a 32-bit word. -/
def wordAt (bs : List Byte) (i : Nat) : Word := BitVec.ofNat 32 (ofLE ((bs.drop (4 * i)).take 4))

/-- The bytes of 32-bit words in order. -/
def wordsToBytes (ws : List Word) : List Byte := ws.flatMap fun w => toLE 4 w.toNat

/-- The 32-bit words of bytes in order, `n` of them. -/
def bytesToWords (bs : List Byte) (n : Nat) : List Word := (List.range n).map (wordAt bs)

/-- Word `i` of a list of words, as a number. -/
def wnat (ws : List Word) (i : Nat) : Nat := (ws.getD i 0).toNat

/-- A 57-bit address held in words i and i+1 (R223, R285). -/
def waddr (ws : List Word) (i : Nat) : Nat := wnat ws i + 2 ^ 32 * (wnat ws (i + 1) % 2 ^ 25)

/-- The least of a list, if any. -/
def minOf : List Nat → Option Nat
  | [] => none
  | x :: r => some (r.foldl min x)

/-- The greatest of a list, 0 of none. -/
def maxOf (l : List Nat) : Nat := l.foldl max 0

/-- A list of numbers without repeats. -/
def dedup (l : List Nat) : List Nat := l.foldr (fun x r => if r.contains x then r else x :: r) []

/-- A bit of a mask of 64-lane lanes. -/
def laneMask (ls : List Nat) : BitVec 64 := ls.foldl (fun m l => m ||| (1#64 <<< l)) 0

/-- A number added to entry `i` of a list of counters. -/
def addAt (l : List Nat) (i n : Nat) : List Nat :=
  (List.range (max l.length (i + 1))).map fun k => l.getD k 0 + (if k = i then n else 0)

/-! ### Records of the state -/

/-- A v-register of a thread (R74). -/
def Thread.vget (t : Thread) (r : Nat) : Reg := sget {} t.v r
/-- A v-register written, with its check bits (R86). -/
def Thread.vset (t : Thread) (r : Nat) (x : Reg) : Thread := { t with v := sset {} t.v r x, verr := t.verr.filter fun e => e.1 != r }
/-- v-registers written with unpoisoned words from `r` upward. -/
def Thread.vsets (t : Thread) (r : Nat) : List Word → Thread
  | [] => t
  | w :: ws => (t.vset r ⟨w, false⟩).vsets (r + 1) ws
/-- A predicate's value bit (R79). -/
def Thread.pval (t : Thread) (p : Nat) : Bool := t.pv.getLsbD p
/-- A predicate's poison bit (R79). -/
def Thread.ppoi (t : Thread) (p : Nat) : Bool := t.pp.getLsbD p
/-- A bit of an 8-bit file set. -/
def setBit8 (x : BitVec 8) (i : Nat) (b : Bool) : BitVec 8 :=
  if b then x ||| (1#8 <<< i) else x &&& ~~~(1#8 <<< i)
/-- A predicate written; a poisoned predicate has the value bit 0 (R79). -/
def Thread.pset (t : Thread) (p : Nat) (val poi : Bool) : Thread :=
  { t with pv := setBit8 t.pv p (val && !poi), pp := setBit8 t.pp p poi }
/-- A token of a thread (R75: Complete with status 0). -/
def Thread.kget (t : Thread) (k : Nat) : Token := sget {} t.k k
/-- A token written. -/
def Thread.kset (t : Thread) (k : Nat) (x : Token) : Thread := { t with k := sset {} t.k k x }
/-- FCTL.OOB set (R166). -/
def Thread.setOob (t : Thread) : Thread := { t with fctl := t.fctl ||| 0x2000#32 }
/-- Fault() of R35 on the poison-origin record: filled only when it is empty (R82). -/
def Thread.recordPo (t : Thread) (cause sub addr : Nat) (code : Word) : Thread :=
  if t.po.v then t else { t with po := ⟨true, cause, sub, addr, code⟩ }
/-- A deferred error recorded unless the thread holds one (R200, R329). -/
def Thread.defer (t : Thread) (d : DErr) : Thread := if t.derr.isSome || t.exited then t else { t with derr := some d }

/-- An s-register of a group (R74). -/
def Group.sget' (g : Group) (r : Nat) : Reg := sget {} g.s r
/-- The thread of a lane. -/
def Group.thread? (g : Group) (lane : Nat) : Option Thread := g.threads.find? fun t => t.lane == lane
/-- The group with every thread of the listed lanes changed. -/
def Group.mapLanes (g : Group) (lanes : List Nat) (f : Thread → Thread) : Group :=
  { g with threads := g.threads.map fun t => if lanes.contains t.lane then f t else t }

namespace State

def group? (s : State) (gid : Nat) : Option Group := s.groups.find? fun g => g.gid == gid
def modGroup (s : State) (gid : Nat) (f : Group → Group) : State :=
  { s with groups := s.groups.map fun g => if g.gid == gid then f g else g }
/-- Every thread of the listed lanes of a group changed. -/
def mapLanes (s : State) (gid : Nat) (lanes : List Nat) (f : Thread → Thread) : State :=
  s.modGroup gid fun g => g.mapLanes lanes f
def modThread (s : State) (gid lane : Nat) (f : Thread → Thread) : State := s.mapLanes gid [lane] f
def thread? (s : State) (gid lane : Nat) : Option Thread := (s.group? gid).bind fun g => g.thread? lane
/-- A v-register of a lane of a group, 0 where there is no such thread. -/
def vreg (s : State) (gid lane r : Nat) : Reg := ((s.thread? gid lane).map fun t => t.vget r).getD {}
/-- An s-register of a group. -/
def sreg (s : State) (gid r : Nat) : Reg := ((s.group? gid).map fun g => g.sget' r).getD {}
/-- An s-register of a group written, with its check bits (R86). A value that an earlier instruction has still to write there does
not follow (R78). -/
def setS (s : State) (gid r : Nat) (x : Reg) : State :=
  { s.modGroup gid fun g => { g with s := sset {} g.s r x, serr := g.serr.filter fun e => e.1 != r } with
    samples := s.samples.filter fun e => !(e.gid == gid && e.reg == r) }
/-- An s-register is to receive a value after the issue (R252, R297). -/
def owe (s : State) (gid r : Nat) (src : LateSrc) : State :=
  { s with samples := (s.samples.filter fun e => !(e.gid == gid && e.reg == r)) ++ [⟨gid, r, src⟩] }
/-- Unpoisoned words written to s-registers from `r` upward. -/
def setSs (s : State) (gid r : Nat) : List Word → State
  | [] => s
  | w :: ws => (s.setS gid r ⟨w, false⟩).setSs gid (r + 1) ws

def wg? (s : State) (id : Nat) : Option Wg := s.wgs.find? fun w => w.id == id
def modWg (s : State) (id : Nat) (f : Wg → Wg) : State :=
  { s with wgs := s.wgs.map fun w => if w.id == id then f w else w }
def gang? (s : State) (id : Nat) : Option Gang := s.gangs.find? fun w => w.id == id
def modGang (s : State) (id : Nat) (f : Gang → Gang) : State :=
  { s with gangs := s.gangs.map fun w => if w.id == id then f w else w }
def sweep? (s : State) (id : Nat) : Option Sweep := s.sweeps.find? fun w => w.id == id
def modSweep (s : State) (id : Nat) (f : Sweep → Sweep) : State :=
  { s with sweeps := s.sweeps.map fun w => if w.id == id then f w else w }
def launch? (s : State) (id : Nat) : Option Launch := s.launches.find? fun w => w.id == id
def modLaunch (s : State) (id : Nat) (f : Launch → Launch) : State :=
  { s with launches := s.launches.map fun w => if w.id == id then f w else w }
def queue? (s : State) (id : Nat) : Option Queue := s.queues.find? fun w => w.id == id
def modQueue (s : State) (id : Nat) (f : Queue → Queue) : State :=
  { s with queues := s.queues.map fun w => if w.id == id then f w else w }
/-- A context that is not Absent. -/
def ctx? (s : State) (id : Nat) : Option Context := s.ctxs.find? fun w => w.id == id
def modCtx (s : State) (id : Nat) (f : Context → Context) : State :=
  { s with ctxs := s.ctxs.map fun w => if w.id == id then f w else w }
/-- A usage counter of a context grows (R276). -/
def usage (s : State) (ctx n k : Nat) : State := s.modCtx ctx fun c => { c with usage := addAt c.usage n k }
def core (s : State) (c : Nat) : Core := sget {} s.cores c
def modCore (s : State) (c : Nat) (f : Core → Core) : State := { s with cores := sset {} s.cores c (f (s.core c)) }
def acc? (s : State) (id : Nat) : Option Acc := s.accs.find? fun w => w.id == id
def modAcc (s : State) (id : Nat) (f : Acc → Acc) : State :=
  { s with accs := s.accs.map fun w => if w.id == id then f w else w }
def dropAcc (s : State) (id : Nat) : State := { s with accs := s.accs.filter fun a => a.id != id }
def cmd? (s : State) (id : Nat) : Option Cmd := s.cmds.find? fun w => w.id == id
def modCmd (s : State) (id : Nat) (f : Cmd → Cmd) : State :=
  { s with cmds := s.cmds.map fun w => if w.id == id then f w else w }
def xfer? (s : State) (id : Nat) : Option Xfer := s.xfers.find? fun w => w.id == id
def modXfer (s : State) (id : Nat) (f : Xfer → Xfer) : State :=
  { s with xfers := s.xfers.map fun w => if w.id == id then f w else w }
def dom? (s : State) (id : Nat) : Option Domain := s.domains.find? fun w => w.id == id
def modDom (s : State) (id : Nat) (f : Domain → Domain) : State :=
  { s with domains := s.domains.map fun w => if w.id == id then f w else w }
/-- A fresh number of the model's own (log entry 2). -/
def fresh (s : State) : Nat × State := (s.nextId, { s with nextId := s.nextId + 1 })
/-- A free value (log entry 12). -/
def free (s : State) : Word × State := (Config.freeValue s.freeCount, { s with freeCount := s.freeCount + 1 })

/-- The space's memory. -/
def mem (s : State) : Space → Memory
  | .dev => s.dev
  | .scratch => s.scratch
  | .weight => s.weight
  | .host => s.host
  | .remote _ => []
def setMem (s : State) (sp : Space) (m : Memory) : State :=
  match sp with
  | .dev => { s with dev := m }
  | .scratch => { s with scratch := m }
  | .weight => { s with weight := m }
  | .host => { s with host := m }
  | .remote _ => s
def read (s : State) (sp : Space) (a n : Nat) : List Byte := readBytes (s.mem sp) a n
def write (s : State) (sp : Space) (a : Nat) (bs : List Byte) : State := s.setMem sp (writeBytes (s.mem sp) a bs)

/-- The sweep of a group. -/
def sweepOf (s : State) (g : Group) : Option Sweep := (s.wg? g.wg).bind fun w => s.sweep? w.sweep
/-- The context of a group. -/
def ctxOf (s : State) (g : Group) : Nat := ((s.wg? g.wg).map fun w => w.ctx).getD 0
/-- Whether the group's code runs with privilege (R266). -/
def privOf (s : State) (g : Group) : Bool := ((s.ctx? (s.ctxOf g)).map fun c => c.priv).getD false

end State

/-- Flags of a sweep's parameter block (R301). -/
def Sweep.w (x : Sweep) (i : Nat) : Nat := wnat x.params i
def Sweep.det (x : Sweep) : Bool := (x.w 0).testBit 18
def Sweep.coursed (x : Sweep) : Bool := (x.w 0).testBit 19
def Sweep.slide (x : Sweep) : Bool := (x.w 0).testBit 20
def Sweep.tiles (x : Sweep) : Nat := bits (x.w 0) 17 14
def Sweep.wpg (x : Sweep) : Nat := bits (x.w 0) 13 12 + 1
def Sweep.gpw (x : Sweep) : Nat := bits (x.w 0) 11 8 + 1
def Sweep.regs (x : Sweep) : Nat := bits (x.w 0) 7 0
def Sweep.scratch (x : Sweep) : Nat := x.w 1
def Sweep.code (x : Sweep) : Nat := waddr x.params 5
def Sweep.nsreg (x : Sweep) : Nat := x.w 8
def Sweep.entry (x : Sweep) : Word := x.params.getD 7 0
def Sweep.total (x : Sweep) : Nat := x.w 2 * x.w 3 * x.w 4
def Sweep.expect (x : Sweep) (m : Nat) : Nat := bits (x.w (10 + m / 2)) (16 * (m % 2) + 10) (16 * (m % 2))

/-! ### Health queue and q0 -/

/-- A saturating increment. -/
def satInc (w : Word) : Word := if w = BitVec.allOnes 32 then w else w + 1

/-- Threads that wait in IDLE become Ready (R282): all of them, or those of one context. -/
def wakeIdle (s : State) (ctx : Option Nat) : State :=
  { s with groups := s.groups.map fun g =>
      if (match ctx with | none => true | some c => decide (s.ctxOf g = c)) then
        { g with threads := g.threads.map fun t =>
            match t.wait with
            | .idle _ => { t with wait := .none }
            | _ => t }
      else g }

/-- An item pushed to the health queue (R426); a full queue drops and counts it. -/
def healthPush (s : State) (event unit detail : Nat) : State :=
  if s.health.length < Config.healthItems then
    { wakeIdle s none with health := s.health ++ [BitVec.ofNat 64 (detail * 2 ^ 24 + event % 256 * 2 ^ 16 + unit % 2 ^ 16)] }
  else { s with hqovf := satInc s.hqovf }

/-- An item pushed to a context's q0; each push wakes IDLE (R270, R282). -/
def q0Push (s : State) (ctx : Nat) (item : DWord) : State :=
  wakeIdle (s.modCtx ctx fun c => { c with q0 := c.q0 ++ [item] }) (some ctx)

/-- The q0 item of R361: event code, high word and the bits above VA[47:16]. -/
def eventItem (code hi vahi : Nat) : DWord :=
  BitVec.ofNat 64 (hi % 2 ^ 32 * 2 ^ 32 + 7 * 2 ^ 24 + code % 256 * 2 ^ 16 + vahi % 2 ^ 9 * 2 ^ 7)

/-- A page event (R361), delivered when PEVE is 1. -/
def pageEvent (s : State) (ctx code va : Nat) : State :=
  match s.ctx? ctx with
  | some c => if c.pagecfg.getLsbD 31 then q0Push s ctx (eventItem code (va / 2 ^ 16) (va / 2 ^ 48)) else s
  | none => s

/-! ### Regions (R180) -/

/-- The selected lanes' part of an entry's interval ends; the entry is closed when every lane's has (R183). -/
def Det.end_ (now : Nat) (sel : Nat → Bool) (d : Det) : Det :=
  if d.owners.isEmpty then (if d.closed.isNone && sel d.lane then { d with closed := some now } else d)
  else
    let os := d.owners.map fun (l, c) => (l, if c.isNone && sel l then some now else c)
    { d with owners := os, closed := if os.all (·.2.isSome) then d.closed.orElse fun _ => some now else none }

/-- A region of each selected thread closes and, after all of them, the next opens (R180); the intervals of their ended
commands close too (R183). -/
def regionStep (s : State) (sel : Nat → Nat → Bool) : State :=
  let now := s.time
  let running (c : Nat) : Bool := (s.cmd? c).elim false fun x => decide (x.state = .running)
  let fin (d : Det) : Det := if d.cmd.elim true fun c => !running c then d.end_ now (sel d.gid) else d
  let open_ (g : Group) (t : Thread) : Thread :=
    if sel g.gid t.lane then { t with region := t.region + 1, opened := now + 1 } else t
  { s with
    groups := s.groups.map fun g => { g with threads := g.threads.map (open_ g) },
    sliceDet := s.sliceDet.map fin,
    cores := s.cores.map fun (k, c) => (k, { c with det := c.det.map fin }),
    time := s.time + 2 }

/-- The same for lanes of one group. -/
def newRegion (s : State) (gid : Nat) (lanes : List Nat) : State :=
  regionStep s fun g l => g == gid && lanes.contains l

/-! ### Barriers (R203-R211) -/

/-- Threads of a workgroup that are not Exited, as bit numbers GRPID × 64 + lane (R203). -/
def liveBits (s : State) (wg : Nat) : List Nat :=
  s.groups.flatMap fun g => if g.wg = wg then
    g.threads.filterMap fun t => if t.exited then none else some (g.grpId * 64 + t.lane) else []

/-- Bits of a set counted in visible lanes: each coursed pair once (R204). -/
def visCount (coursed : Bool) (l : List Nat) : Nat :=
  if coursed then (l.filter fun b => b % 2 == 0).length else l.length

/-- The mask of bit numbers. -/
def maskOf (w : Nat) (l : List Nat) : BitVec w := l.foldl (fun m b => m ||| (1#w <<< b)) 0

/-- The bits set in a mask, among candidates. -/
def inMask {w : Nat} (m : BitVec w) (l : List Nat) : List Nat := l.filter fun b => m.getLsbD b

/-- Whether a workgroup runs coursed. -/
def wgCoursed (s : State) (wg : Nat) : Bool :=
  (s.groups.find? fun g => g.wg = wg).elim false (·.coursed)

/-- BROKEN of an entry (R206). -/
def barBroken (b : Barrier) (live : List Nat) (crs : Bool) : Bool :=
  decide (b.expect ≠ 0) && decide (b.count + visCount crs (live.filter fun t => !b.arrived.getLsbD t) < b.expect)

/-- The thread no longer waits. -/
def Thread.ready (t : Thread) : Thread := { t with wait := .none }

/-- Ends the wait of a waiting thread at a barrier: BART's predicates are written (R209). -/
def endBar (val err : Bool) (t : Thread) : Thread :=
  match t.wait with
  | .bar _ (some _) p => ((t.pset p val false).pset (p + 1) err false).ready
  | .bar _ none _ => t.ready
  | _ => t

/-- The completion test of R205 on entry n of a workgroup, and the broken state of R206, with BART's error end. The test is
made once after all arrivals of an issue (R207), so arrivals of one issue beyond the target complete in the same phase
(DEDUCED, log entry 41). -/
def barTest (s : State) (wg n : Nat) : State :=
  match s.wg? wg with
  | none => s
  | some w =>
    let b : Barrier := sget {} w.barriers n
    let live := liveBits s wg
    let crs := wgCoursed s wg
    let target := if b.expect = 0 then visCount crs live else b.expect
    let member (m : BitVec 1024) (gid l : Nat) : Bool :=
      (s.group? gid).elim false fun g => g.wg == wg && m.getLsbD (g.grpId * 64 + l)
    let forBits (m : BitVec 1024) (f : Thread → Thread) (s : State) : State :=
      { s with groups := s.groups.map fun g =>
          let hit (t : Thread) := m.getLsbD (g.grpId * 64 + t.lane)
          if g.wg = wg then { g with threads := g.threads.map fun t => if hit t then f t else t } else g }
    if 0 < b.count ∧ target ≤ b.count then
      let b' : Barrier := { b with phase := b.phase + 1, count := 0, arrived := 0, doneM := (b.doneM ||| b.arrived) &&& ~~~b.wait, wait := 0 }
      let b' := { b' with broken := barBroken b' live crs }
      let s := regionStep s (member b.wait)
      forBits b.wait (endBar true false) (s.modWg wg fun w => { w with barriers := sset {} w.barriers n b' })
    else
      let br := barBroken b live crs
      let bart := s.groups.flatMap fun g => if g.wg ≠ wg then [] else g.threads.filterMap fun t =>
          (match t.wait with
           | .bar _ (some _) _ => if b.wait.getLsbD (g.grpId * 64 + t.lane) then some (g.grpId * 64 + t.lane) else none
           | _ => none)
      let out : BitVec 1024 := if br then maskOf 1024 bart else 0
      let b' := { b with broken := br, wait := b.wait &&& ~~~out }
      let s := if out = 0 then s else regionStep s (member out)
      forBits out (endBar false true) (s.modWg wg fun w => { w with barriers := sset {} w.barriers n b' })

/-- Threads of a gang that are not Exited, as bits 1,024 × member + t (R211). -/
def gangBits (s : State) (gang : Nat) : List Nat :=
  s.wgs.flatMap fun w => if w.gang = gang then (liveBits s w.id).map fun b => 1024 * w.ident.gangWg + b else []

/-- The completion test of the gang barrier (R211). -/
def gbarTest (s : State) (gang : Nat) : State :=
  match s.gang? gang with
  | none => s
  | some x =>
    let b := x.bar
    let crs := (s.wgs.find? fun w => w.gang = gang).elim false fun w => wgCoursed s w.id
    if 0 < b.count ∧ visCount crs (gangBits s gang) ≤ b.count then
      let s := regionStep s fun gid l => (s.group? gid).elim false fun g => (s.wg? g.wg).elim false fun w =>
        w.gang == gang && b.wait.getLsbD (1024 * w.ident.gangWg + g.grpId * 64 + l)
      let s := s.modGang gang fun x => { x with bar :=
        { b with phase := b.phase + 1, count := 0, arrived := 0, doneM := (b.doneM ||| b.arrived) &&& ~~~b.wait, wait := 0 } }
      { s with groups := s.groups.map fun g =>
          match s.wg? g.wg with
          | some w =>
            let woken (t : Thread) := b.wait.getLsbD (1024 * w.ident.gangWg + g.grpId * 64 + t.lane)
            if w.gang = gang then { g with threads := g.threads.map fun t => if woken t then t.ready else t } else g
          | none => g }
    else s

/-! ### Regions, and threads that exit -/

/-- Every batch of a thread: the open one, and those of its tokens. -/
def Thread.batches (t : Thread) : List (List Nat) := t.batch :: t.k.map fun x => x.2.ids

/-- The threads of slide sweeps that are in no group: travelling, queued, or in a ring (R386, R391). -/
def outThreads (s : State) : List Thread :=
  s.travel.map (·.2) ++ s.cores.flatMap (fun p => p.2.arrivals) ++
  s.ctxs.flatMap fun c => c.frets.flatMap fun p => (p.2.ring.filter fun r => !r.taken).map (·.thread)
/-- Every thread of the module. -/
def everyThread (s : State) : List Thread := s.groups.flatMap (·.threads) ++ outThreads s

/-- A thread that is not Exited holds the command in a batch. -/
def cmdOwned (s : State) (id : Nat) : Bool := (everyThread s).any fun t => !t.exited && t.batches.any fun b => b.contains id

/-- The command stands behind a failed one in a batch (R234). -/
def behindFailed (s : State) (c : Cmd) : Bool := c.prior.any fun i => (s.cmd? i).elim false fun p => decide (p.state = .failed)

/-- Commands behind a failed one that no thread can resume any more have ended in error with their batch (R135, R234,
R239). -/
def dropDead (s : State) : State :=
  { s with cmds := s.cmds.map fun c =>
      if c.state = .running && behindFailed s c && !cmdOwned s c.id then { c with state := .dropped } else c }

/-- Whether the workgroup has anything left that Closing waits for (R135); a stranded transfer has ended (R332). -/
def wgBusy (s : State) (wg : Nat) : Bool :=
  (s.cmds.any fun c => c.wg == wg && decide (c.state = .running)) ||
  (s.xfers.any fun x => decide (x.stage ≠ 3) && (s.group? x.gid).elim false fun g => g.wg == wg) ||
  (s.cores.any fun (_, c) => c.stage.any fun e => e.wg == wg)

/-- The workgroup state that follows from its threads (R135). -/
def wgState (s : State) (wg : Nat) (old : WgState) : WgState :=
  if (s.wg? wg).elim false (·.fret) then old
  else match old with
  | .running | .partial_ =>
    let gs := s.groups.filter fun g => g.wg = wg
    if gs.all fun g => g.threads.all (·.exited) then .closing
    else if gs.any fun g => g.threads.all (·.exited) then .partial_ else .running
  | x => x

/-- The threads of the lanes become Exited (R76, R151, R206): they leave every barrier entry, hold no work, and their
group and workgroup follow. -/
def exitLanes (s : State) (gid : Nat) (lanes : List Nat) : State :=
  match s.group? gid with
  | none => s
  | some g =>
    let lanes := lanes.filter fun l => (g.thread? l).elim false fun t => !t.exited
    let s := newRegion s gid lanes
    let shared (c : Nat) : Bool := (s.cmd? c).elim false fun x => x.owners.any fun (a, l) =>
      !(a == gid && lanes.contains l) && (s.thread? a l).elim false fun t => !t.exited
    let now := s.time
    let fin (d : Det) : Det := if d.gid == gid && d.cmd.elim false shared then d.end_ now lanes.contains else d
    let s : State := { s with sliceDet := s.sliceDet.map fin, cores := s.cores.map fun (k, c) => (k, { c with det := c.det.map fin }) }
    let s := s.mapLanes gid lanes fun t =>
      { t with exited := true, wait := .none, derr := none, prod := [], handler := false, frame := {} }
    match s.wg? g.wg with
    | none => s
    | some w =>
      let mine := maskOf 1024 (lanes.map fun l => g.grpId * 64 + l)
      let fix (b : Barrier) : Barrier :=
        if b.expect = 0 then
          let gone := visCount g.coursed ((lanes.map fun l => g.grpId * 64 + l).filter fun x => b.arrived.getLsbD x)
          { b with arrived := b.arrived &&& ~~~mine, wait := b.wait &&& ~~~mine, count := b.count - gone }
        else { b with wait := b.wait &&& ~~~mine }
      let s := s.modWg w.id fun w => { w with barriers := w.barriers.map fun (n, b) => (n, fix b) }
      let s := (List.range 16).foldl (fun s n => barTest s w.id n) s
      let gm := maskOf 4096 (lanes.map fun l => 1024 * w.ident.gangWg + g.grpId * 64 + l)
      let s := s.modGang w.gang fun x => { x with bar := { x.bar with
        count := x.bar.count - visCount g.coursed ((lanes.map fun l => 1024 * w.ident.gangWg + g.grpId * 64 + l).filter
          fun b => x.bar.arrived.getLsbD b),
        arrived := x.bar.arrived &&& ~~~gm, wait := x.bar.wait &&& ~~~gm } }
      let s := dropDead (gbarTest s w.gang)
      s.modWg w.id fun w => { w with state := wgState s w.id w.state }

/-! ### Traps -/

/-- What a trap puts into the frame beyond R418's common part. -/
structure TrapInfo where
  sub : Nat := 0
  addr : Nat := 0
  info0 : Word := 0
  info1 : Word := 0
  info2 : Word := 0
  info3 : Word := 0
  /-- Lanes that failed the check; the lowest is reported (R35, R418). -/
  lanes : List Nat := []
  dfr : Bool := false
  resume : Option Nat := none
  /-- The code address of the trap where it is not the issue's, and whether it is a clause header (R50, R240). -/
  atEntry : Bool := false

/-- RESUME of a cause (R415): 0 at, 1 next, 2 none. -/
def resumeOf (cause : Nat) : Nat :=
  if [0x01, 0x03, 0x04, 0x05, 0x08, 0x09, 0x0D, 0x0E, 0x28, 0x50, 0x51].contains cause then 1
  else if [0x02, 0x31, 0x41, 0x48].contains cause then 2 else 0

/-- A physical lane's visible lane (R144). -/
def visible (coursed : Bool) (l : Nat) : Nat := if coursed then l / 2 else l

/-- The clause of a thread: the class, and the word at a code address. -/
def Thread.cls (t : Thread) : Option Class := Class.ofCode (headerC (t.clause.headD 0))
def Thread.wordAt (t : Thread) (pc : Word) : Word := t.clause.getD ((pc.toNat - t.hdr.toNat) / 4) 0
def Thread.litAt (t : Thread) (pc : Word) : Bool := t.cls.elim false fun c => takesLiteral c (t.wordAt pc)

/-- A blocked access between worlds is counted (R432, R433). -/
def noteWorld (s : State) : State := { s with violations := s.violations ++ [s.cycle] }

/-- Trap() of R35 for the active lanes of a group standing at `pc`: entry into the handler (R417, R418), or the double
trap of R420 when a thread of the issue is in the Handler state. Other issues of the group in the clock are dropped
(R128). -/
def trapAt (s : State) (gid : Nat) (active : List Nat) (pc : Word) (cause : Nat) (i : TrapInfo) : State :=
  let s := { s with issues := s.issues.filter fun x => x.gid != gid }
  let s := if cause = 0x0D then noteWorld s else s
  match s.group? gid with
  | none => s
  | some g =>
    if g.threads.any fun t => active.contains t.lane && t.handler then
      exitLanes (q0Push s (s.ctxOf g) (eventItem 9 pc.toNat 0)) gid active
    else
      let failed := dedup ((if i.lanes.isEmpty then active else i.lanes).map (visible g.coursed))
      let rep := (minOf failed).getD 0
      let mask := laneMask (failed.filter fun l => l != rep)
      let mask := if i.lanes.isEmpty ∧ ¬ (cause = 0x50 ∨ cause = 0x51 ∨ i.dfr) then 0 else mask
      s.mapLanes gid active fun t =>
        { t with
          handler := true, pc := 0, entered := false, passed := false, needT := true, resume := false, wait := .none,
          late := if cause = 0x58 then none else t.late,
          frame :=
            { v := true, dfr := i.dfr, resume := i.resume.getD (resumeOf cause), sub := i.sub, cause := cause, pc := pc,
              addr := i.addr, mask := mask,
              lane := BitVec.ofNat 32 (rep + if visible g.coursed t.lane = rep then 2 ^ 31 else 0),
              info0 := i.info0, info1 := i.info1, info2 := i.info2, info3 := i.info3, hdr := t.hdr,
              atEntry := i.atEntry, lit := t.litAt pc, hdrw := t.clause.headD 0 } }

/-- Trap() of R35 at an issue. -/
def takeTrap (s : State) (iss : Issue) (cause : Nat) (i : TrapInfo := {}) : State :=
  trapAt s iss.gid iss.lanes iss.pc cause i

/-- The instruction advances past its words (R36); past the last word the next clause header is to be entered. -/
def Thread.advance (words : Nat) (t : Thread) : Thread :=
  let pc := t.pc + BitVec.ofNat 32 (4 * words)
  if pc.toNat < t.hdr.toNat + 4 * t.clause.length then { t with pc := pc, wait := .none }
  else { t with pc := pc, wait := .none, entered := false, passed := false, needT := false, resume := false }

/-- The active lanes advance. -/
def advance (s : State) (iss : Issue) (words : Nat := 1) : State := s.mapLanes iss.gid iss.lanes (Thread.advance words)

/-- The active lanes stay at the instruction and wait (R76). -/
def hold (s : State) (iss : Issue) (w : Wait) : State := s.mapLanes iss.gid iss.lanes fun t => { t with wait := w }

/-- The record of a counter. -/
def Group.counter (g : Group) (pc : Word) : Counter := (g.counters.find? fun c => c.pc == pc).getD { pc := pc }
/-- A counter's record set. -/
def Group.setCounter (g : Group) (c : Counter) : Group := { g with counters := c :: g.counters.filter fun x => x.pc != c.pc }
/-- Two counters have become one (R141): the larger pass count, any promotion, the earlier where both have one. Of YIELD's
holds the spec says nothing here: the merged counter takes the later one, so that lanes which did not YIELD are held too (DESIGN CHOICE,
log entry 70). -/
def Counter.merge (a b : Counter) : Counter :=
  { pc := a.pc, passes := max a.passes b.passes, hold := max a.hold b.hold,
    promoted := match a.promoted, b.promoted with
      | some x, some y => some (min x y)
      | some x, none => some x
      | none, y => y }
/-- What a counter's record held moves with its threads to another address (R141, R152). -/
def Group.moveCounter (g : Group) (old new : Word) : Group :=
  if (g.counters.any fun c => c.pc == old) && decide (old ≠ new) then
    let m := (g.counter new).merge (g.counter old)
    ({ g with counters := g.counters.filter fun c => c.pc != old }).setCounter { m with pc := new }
  else g

/-- A slot that cannot take its instruction for a structural reason stays empty (R140): the lanes wait, and the counter keeps
its pass count and promotion (R141). -/
def holdStruct (s : State) (iss : Issue) (w : Wait) : State :=
  hold (s.modGroup iss.gid fun g => g.setCounter { iss.was with pc := iss.pc }) iss w

/-- A transfer's target becomes the thread's counter (R147). -/
def Thread.goto (pc : Word) (t : Thread) : Thread :=
  { t with pc := pc, wait := .none, entered := false, passed := false, needT := false, resume := false }

/-- TRET for one thread in the Handler state by its own frame (R421); past its clause's last word it enters the next
header as on fall-through. RESUME 2 is left to the caller, who makes the thread Exited. -/
def Thread.tret (t : Thread) : Thread :=
  let f := t.frame
  let pc := if f.resume = 0 then f.pc else f.pc + (if f.lit then 8 else 4)
  let mid := if f.resume = 0 then !f.atEntry else decide (pc.toNat ≤ f.hdr.toNat + 4 * headerN f.hdrw)
  { t with handler := false, frame := { f with v := false }, wait := .none, hdr := f.hdr, clause := f.hdrw :: List.replicate (headerN f.hdrw) 0, pc := pc,
           entered := false, passed := false, needT := false, resume := mid }

end Sys2Proof.Machine
end

