-- ==== Sys2Proof/Machine/Grid.lean ====
section
/-! DEFINITION. Where things stand in the module (R11-R18): dies, the router grid and its routes, home slices and their
channels, and the points that serve a packet on its way (R14, R292). -/

namespace Sys2Proof.Machine

/-! ### Home slices and channels (R15, R16) -/

/-- The home slice of a device line (R15). -/
def homeSlice (pa : Nat) : Nat :=
  (List.range 6).foldl (fun h k =>
    let b := (List.range 7).foldl (fun x m => if 7 + k + 6 * m ≤ 47 then x != pa.testBit (7 + k + 6 * m) else x) false
    if b then h + 2 ^ k else h) 0

/-- Which of its slice's four channels a line goes to (R16). -/
def chanOf (pa : Nat) : Nat := Nat.xor (bits pa 14 13) (bits pa 21 20)
/-- The stack that a slice uses, and its n-th channel of that stack (R16). -/
def stackOf (h : Nat) : Nat := h % Config.dramStacks
def sliceChannel (h n : Nat) : Nat :=
  let m := h / 8
  [2 * m, 2 * m + 1, (2 * m + 2) % Config.dramChannels, (2 * m + 3) % Config.dramChannels].getD n 0
/-- The stack and the channel of a line of device memory (R16). -/
def dramPlace (pa : Nat) : Nat × Nat := (stackOf (homeSlice pa), sliceChannel (homeSlice pa) (chanOf pa))
/-- The slices that own a channel (R16). -/
def channelOwners (stack chan : Nat) : List Nat :=
  (List.range Config.numSlices).filter fun h => stackOf h == stack && (List.range Config.sliceChannels).any fun n => sliceChannel h n == chan

/-! ### The router grid (R13) -/

/-- A router by its row and column. -/
structure Router where
  row : Nat
  col : Nat
  deriving DecidableEq, Repr

/-- The compute die that a router stands on (R13). -/
def Router.die (r : Router) : Nat := r.row / 3 * 2 + r.col / 4
/-- Routers numbered row by row. -/
def Router.num (r : Router) : Nat := r.row * Config.gridCols + r.col

/-- The die of a quartet and of a slice (R12). -/
def dieOfQuartet (q : Nat) : Nat := q % Config.numDies
def dieOfSlice (h : Nat) : Nat := h % Config.numDies
/-- Compute router c of a die stands in its middle row (R13). -/
def computeRouter (d c : Nat) : Router := ⟨3 * (d / 2) + 1, 4 * (d % 2) + c⟩
/-- Slice router s of a die: 0 to 3 in its top row, 4 to 7 in its bottom row (R13). -/
def sliceRouter (d s : Nat) : Router := ⟨3 * (d / 2) + (if s < 4 then 0 else 2), 4 * (d % 2) + s % 4⟩
/-- The router of an enabled quartet by its id. A spare in service keeps its own place (R13), which `spare` says. -/
def quartetRouter (q : Nat) (spare : Bool) : Router :=
  computeRouter (dieOfQuartet q) (if spare then 0 else q / Config.numDies / 4)
/-- The router of a slice (R13). -/
def homeRouter (h : Nat) : Router := sliceRouter (dieOfSlice h) (h / Config.numDies / 2)
/-- The slice routers that an I/O die attaches to (R13). -/
def ioRouters (n : Nat) : List Router := [0, 2, 3, 5].map fun r => ⟨r, if n = 0 then 0 else Config.gridCols - 1⟩

/-- The I/O die of a fabric link and of a host port (R18). -/
def dieOfLink (n : Nat) : Nat := n / Config.linksPerIoDie
def dieOfHostPort (n : Nat) : Nat := n / Config.hostPortsPerIoDie

/-- The slice router by which a packet from a router enters an I/O die, or the other way: the one nearest in rows, the upper of
two; the spec leaves the choice among the four open (DESIGN CHOICE, log entry 42). -/
def ioRouter (n : Nat) (r : Router) : Router := ⟨if r.row = 0 ∨ r.row = 1 then 0 else if r.row = 2 then 2 else if r.row = 5 then 5 else 3,
  if n = 0 then 0 else Config.gridCols - 1⟩

/-! ### Routes (R14) -/

/-- The routers of a packet's way: along the source's row to the destination's column, then along that column. -/
def routersOf (a b : Router) : List Router :=
  if a = b then [a] else if a.row = b.row ∨ a.col = b.col then [a, b] else [a, ⟨a.row, b.col⟩, b]
/-- Hops of a packet: one where source and destination share a row or column, otherwise two. -/
def hopsOf (a b : Router) : Nat := (routersOf a b).length - 1
/-- Clocks of one hop: 2 in the router and 1 or 3 on the link, by whether it crosses a die boundary. -/
def hopCost (a b : Router) : Nat := 2 + (if a.die = b.die then 1 else 3)
/-- Clocks that a packet spends in the network. -/
def netCost (a b : Router) : Nat :=
  let l := routersOf a b
  ((l.zip l.tail).map fun (x, y) => hopCost x y).sum

/-! ### Service points (R292) -/

/-- The point number of the fabric ports, and of a router: slice points are 0 to 63. -/
def fabricPoint : Nat := Config.numSlices
def routerPoint (r : Router) : Nat := fabricPoint + 1 + r.num
/-- Every service point of the module. -/
def servicePoints : Nat := fabricPoint + 1 + Config.gridRows * Config.gridCols

/-- The spare of a core's quartet's die is in service under the quartet's id (R12). -/
def onSpare (s : State) (core : Nat) : Bool := s.spareIds.contains (core / 4)
/-- The router of a core. -/
def coreRouter (s : State) (core : Nat) : Router := quartetRouter (core / 4) (onSpare s core)

/-- The points that serve a packet from a router to the home slice of a device line. -/
def toSlice (r : Router) (pa : Nat) : List Nat :=
  let h := homeSlice pa
  (routersOf r (homeRouter h)).map routerPoint ++ [h]
/-- The points that serve a packet from a router to an I/O die's fabric ports. -/
def toFabric (r : Router) (die : Nat) : List Nat := (routersOf r (ioRouter die r)).map routerPoint ++ [fabricPoint]
/-- The points that serve another module's request on its way from an I/O die to a home slice. -/
def fromFabric (die pa : Nat) : List Nat :=
  let h := homeRouter (homeSlice pa)
  toSlice (ioRouter die h) pa

/-- The plane a packet of a context takes: the lowest link that is Up and that its world may use, for a secure context a secure one
before the others (R432); the choice affects only timing (R370, R375). 12 is none. -/
def planeOf (s : State) (ctx : Nat) : Nat :=
  let world := (s.ctx? ctx).elim true (·.world)
  let up := (s.links.filter fun l => decide (l.2.state = .up)).map (·.1)
  match (up.filter fun n => s.secureLinks.contains n == world).head?, up.head? with
  | some n, _ => n
  | none, some n => if world then n else 12
  | none, none => 12

/-- The I/O die of the link that a packet of a context leaves by (R370, R375). -/
def portDie (s : State) (ctx : Nat) : Nat := let n := planeOf s ctx; if n = 12 then 0 else dieOfLink n

/-- A core number that no core has, for accesses that the engines of I/O die 0 make: its TLBs are empty. -/
def noCore : Nat := Config.numCores

/-- The router at which a packet of a core or an engine enters the grid on its way to another one (R13, R18). -/
def entryRouter (s : State) (core : Nat) (target : Router) : Router := if core = noCore then ioRouter 0 target else coreRouter s core

/-- The points that serve a packet of a core or an engine to the fabric ports of an I/O die: an engine's own die's needs no router. -/
def outFabric (s : State) (core die : Nat) : List Nat :=
  if core = noCore ∧ die = 0 then [fabricPoint] else toFabric (entryRouter s core (ioRouter die ⟨0, 0⟩)) die
/-- The points that serve a packet of a core or an engine to a host port (R18). -/
def toHost (s : State) (core port : Nat) : List Nat :=
  let die := dieOfHostPort port
  if core = noCore ∧ die = 0 then []
  else let r := entryRouter s core (ioRouter die ⟨0, 0⟩); (routersOf r (ioRouter die r)).map routerPoint
/-- The points that serve a packet of a core to a scratchpad of another quartet (R13, R219): none within its own. -/
def toScratch (s : State) (core key : Nat) : List Nat :=
  let k := key / 2 ^ 22
  if core = noCore ∨ k / 4 = core / 4 then [] else (routersOf (coreRouter s core) (coreRouter s k)).map routerPoint

/-! ### The base dies (R17, R292) -/

/-- The point of a channel's controller at its base die: it serves the packets of the die-to-die ports. -/
def basePoint (slice chan : Nat) : Nat := servicePoints + stackOf slice * Config.dramChannels + sliceChannel slice chan

/-- The sectors that a packet addresses (R17), and whether it writes every byte of one. -/
def DieTag.sectors (d : DieTag) : List Nat := if d.both then [d.sector, d.sector + 1] else [d.sector]
def DieTag.full (d : DieTag) (sector : Nat) : Bool := d.write && (d.enables >>> (64 * (sector - d.sector))).setWidth 64 == BitVec.allOnes 64
/-- The number of a packet at the base dies: its port and its tag. -/
def DieTag.num (d : DieTag) : Nat := (d.slice * Config.sliceChannels + d.chan) * Config.dieTags + d.tag

/-- The writes in a packet's channel queue to a sector that arrived before it, in arrival order. -/
def writesBefore (s : State) (d : DieTag) (sector : Nat) : List DieTag :=
  (s.dieTags.takeWhile fun e => e != d).filter fun e => e.write && e.slice == d.slice && e.chan == d.chan && e.sectors.contains sector

/-- A packet may be served at its base die (R17): no merge that arrived earlier is unwritten at its sectors, and a write follows every
earlier one. -/
def dieReady (s : State) (d : DieTag) : Bool :=
  d.sectors.all fun x => let ws := writesBefore s d x; if d.write then ws.isEmpty else ws.all fun w => w.full x

/-! ### Errors of units (R424, R427) -/

/-- A counter of the health queue after `n` more events (R427). -/
def satAdd (w : Word) (n : Nat) : Word := BitVec.ofNat 32 (min (w.toNat + n) (2 ^ 32 - 1))

/-- The unit that an error counts for (R424). The spec does not say how errors are attributed: those of planes and tiles to the column
they stand in, of the bypass buffer to its row, of a DRAM sector to the row in its stack and frame, and the others of a core to its
quartet (DESIGN CHOICE, log entry 35). -/
def unitOf (s : State) (l : ErrLoc) : RepairUnit :=
  match l with
  | .vreg gid _ _ | .sreg gid _ => .quartet (((s.group? gid).map (·.core)).getD 0 / 4)
  | .scratch u => .quartet (8 * u / Config.scratchSpan / 4)
  | .weight u => .quartet (8 * u / Config.weightBytes / 4)
  | .plane core _ u => .arrayLine core true (u / 16)
  | .tile core _ u => .arrayLine core true (2 * u % 128)
  | .bypass core u => .arrayLine core false (u / 16)
  | .sector p => .dramRow (stackOf (homeSlice (64 * p))) (64 * p / 65536)

/-- Errors enter the tallies of their units, which hold those of the last 2^30 clk (R424). -/
def tallyErrs (s : State) (ls : List ErrLoc) (uncorrectable : Bool) : State :=
  if ls.isEmpty then s
  else { s with tally := (s.tally.filter fun e => decide (s.cycle < e.2.1 + 2 ^ 30)) ++ ls.map fun l => (unitOf s l, s.cycle, uncorrectable) }

/-- Memory errors that a read met: they enter the counters of R427 and the tallies. The spec does not say how often an uncorrectable word
that stays is counted: at each read that meets it (DESIGN CHOICE, log entry 35). -/
def countErrs (s : State) (ls : List ErrLoc) (uncorrectable : Bool) : State :=
  let s := tallyErrs s ls uncorrectable
  if ls.isEmpty then s
  else if uncorrectable then { s with cntUnc := satAdd s.cntUnc ls.length } else { s with cntMem := satAdd s.cntMem ls.length }

/-- A unit is declared faulty (R424): its self test failed at reset, or three uncorrectable or 64 corrected errors within 2^30 clk count
for it. -/
def declared (s : State) (u : RepairUnit) : Bool :=
  let n (unc : Bool) : Nat := (s.tally.filter fun e => e.1 == u && e.2.2 == unc && decide (s.cycle < e.2.1 + 2 ^ 30)).length
  s.selfFail.contains u || decide (3 ≤ n true) || decide (64 ≤ n false)

end Sys2Proof.Machine
end

