-- ==== Sys2Proof/Machine/Operands.lean ====
section
/-! DEFINITION. The operand forms (R44, R88, R89), the registers an instruction reads and writes, and the checks every
issue makes before its own: declared registers and tiles, privilege, check bits, the scoreboard (R48, R77, R84-R86). -/

namespace Sys2Proof.Machine

/-- Registers an instruction names: v read, v written, s read, s written. -/
structure Regs where
  vr : List Nat := []
  vw : List Nat := []
  sr : List Nat := []
  sw : List Nat := []

/-- `n` consecutive numbers. -/
def span (a n : Nat) : List Nat := (List.range n).map (a + ·)

/-- The registers of a bx instruction: `n` registers an operand, `nb` for b, `rd` when it reads d (R88, R90). -/
def bxRegs (x : Bx) (n nb : Nat) (rd : Bool) : Regs :=
  let d := span x.d.toNat n
  let a := span x.a.toNat n
  let bv := match x.b with | .v r => span r.toNat nb | _ => []
  let bs := match x.b with | .s r => span r.toNat nb | _ => []
  if x.u then { sr := a ++ bv ++ bs ++ (if rd then d else []), sw := d }
  else { vr := a ++ bv ++ (if rd then d else []), vw := d, sr := bs }

/-- The registers of a form with one v-or-s source and destination and a bv operand. -/
def bvRegs (u : Bool) (d a : List Nat) (b : Option Opv) (n : Nat) : Regs :=
  let bv := match b with | some (.v r) => span r.toNat n | _ => []
  let bs := match b with | some (.s r) => span r.toNat n | _ => []
  if u then { sr := a ++ bv ++ bs, sw := d } else { vr := a ++ bv, vw := d, sr := bs }

/-- Registers a format takes (R109: fp64 operands are pairs). -/
def fmtRegs : Fmt → Nat
  | .f64 => 2
  | _ => 1
def ffmtRegs : FFmt → Nat
  | .f64 => 2
  | _ => 1
def itypeRegs : IType → Nat
  | .s64 => 2
  | .u64 => 2
  | _ => 1

/-- The registers of a float instruction with two operands. -/
def fbRegs (x : Fb) (rd : Bool) : Regs :=
  let n := fmtRegs x.fmt
  let r := bvRegs false (span x.d.toNat n) (span x.a.toNat n) (some x.b) n
  if rd then { r with vr := r.vr ++ span x.d.toNat n } else r

/-- The s-registers of a record (R156). -/
def recRegs (r : RecN) : List Nat := span (4 * r.toNat) 4

/-- Bytes of an element by a record's ESIZE, from the s-registers as the clock began (R78, R156). -/
def recEsize (sf : RegFile) (r : RecN) : Nat := 2 ^ bits ((sget {} sf (4 * r.toNat + 1)).w.toNat) 31 29

/-- Bytes of an access (R165). -/
def wdBytes (sf : RegFile) (w : Wd) (r : RecN) : Nat :=
  match w with
  | .w => recEsize sf r
  | .x1 => 1
  | .x2 => 2
  | .x4 => 4
  | .x8 => 8
  | .x16 => 16

/-- Registers that hold `n` bytes. -/
def regsOfBytes (n : Nat) : Nat := if n ≤ 4 then 1 else if n ≤ 8 then 2 else 4

/-- The s-registers of a Src or Opv. -/
def srcRegs (b : Src) (n : Nat) : Regs :=
  match b with
  | .v r => { vr := span r.toNat n }
  | .s r => { sr := span r.toNat n }
  | .imm _ => {}

def laneRegs (x : LaneF) : Regs :=
  let b := srcRegs x.b 1
  { vr := x.a.toNat :: b.vr, vw := [x.d.toNat], sr := b.sr }

def redRegs (x : LredF) : Regs :=
  let n := match x.op with | .iadd64 => 2 | .fadd64 => 2 | _ => 1
  { vr := span x.a.toNat n, vw := span x.d.toNat n }

/-- The registers from D of a width that may come from the record (R170, R177): a D not aligned for it is refused at step 5 of
R167, so that only D itself is looked at before. -/
def recSpan (d n : Nat) : List Nat := if d % n = 0 then span d n else [d]

def loadRegs (sf : RegFile) (x : LsF) : Regs :=
  { vr := [x.i.toNat], vw := recSpan x.d.toNat (regsOfBytes (wdBytes sf x.wd x.r)), sr := recRegs x.r }
def storeRegs (sf : RegFile) (x : LsF) : Regs :=
  { vr := x.i.toNat :: recSpan x.d.toNat (regsOfBytes (wdBytes sf x.wd x.r)), sr := recRegs x.r }
def atRegs (sf : RegFile) (x : AtF) (cas : Bool) : Regs :=
  let n := regsOfBytes (recEsize sf x.r) * (if cas then 2 else 1)
  { vr := x.i.toNat :: recSpan x.d.toNat n, vw := if x.ret then recSpan x.d.toNat n else [], sr := recRegs x.r }
def copyRegs (x : CopyF) : Regs := { sr := span x.d.toNat 5 ++ span x.a.toNat 5 ++ [x.b.toNat] }

/-- The registers of an instruction; the width of a `.w` access is the record's (R165). -/
def regsOf (sf : RegFile) : Instr → Regs
  | .iadd x | .isub x | .imul x | .imulh x | .imin x | .imax x | .sadd x | .ssub x | .idiv x | .irem x | .and x | .or x
  | .xor x | .andn x | .shl x | .shr x | .sar x | .rotl x => bxRegs x 1 1 false
  | .imad x | .iamin x => bxRegs x 1 1 true
  | .iadd64 x | .isub64 x => bxRegs x 2 2 false
  | .imad64 x => bxRegs x 2 2 true
  | .shl64 x | .shr64 x => bxRegs x 2 1 false
  | .lfirst x => { vr := [x.a.toNat], vw := if x.u then [] else [x.d.toNat], sw := if x.u then [x.d.toNat] else [] }
  | .iabs x | .ineg x | .popc x | .clz x | .brev x => bvRegs x.u [x.d.toNat] [x.a.toNat] none 1
  | .bfe x => bvRegs x.u [x.d.toNat] [x.a.toNat] (some x.b) 1
  | .bfi x => bvRegs x.u [x.d.toNat] [x.a.toNat, x.d.toNat] (some x.b) 1
  | .lea x => bvRegs x.u [x.d.toNat] [x.a.toNat] (some x.b) 1
  | .mov x => bvRegs x.u [x.d.toNat] [] (some x.b) 1
  | .movi x => bvRegs x.u [x.d.toNat] [] none 1
  | .movl x => bvRegs x.u [x.d.toNat] [] none 1
  | .movs x => bvRegs x.u (span x.d.toNat (if x.num = 0x0A then 2 else 1)) [] none 1
  | .potake d => { vw := [d.toNat] }
  | .sel x => { vr := [x.a.toNat, x.b.toNat], vw := [x.d.toNat] }
  | .icmp x =>
    let n := if x.w64 then 2 else 1
    let b := srcRegs x.b n
    { vr := span x.a.toNat n ++ b.vr, sr := b.sr }
  | .fcmp x => { bvRegs false [] (span x.a.toNat (fmtRegs x.fmt)) (some x.b) (fmtRegs x.fmt) with vw := [] }
  | .plop _ => {}
  | .pmov x => if x.tov then { vw := [x.v.toNat] } else { vr := [x.v.toNat] }
  | .pchk x => { vr := span x.a.toNat (if x.w64 then 2 else 1) }
  | .qmul x => bvRegs x.u [x.d.toNat] [x.a.toNat] (some x.b) 1
  | .qshr x => bvRegs x.u [x.d.toNat] [x.a.toNat] (some x.b) 1
  | .famin x | .ffma x | .ffnma x => fbRegs x true
  | .fadd x | .fsub x | .fmul x | .fmin x | .fmax x | .fdiv x | .fscale x => fbRegs x false
  | .fsgn x => let n := if x.f64 then 2 else 1
               bvRegs false (span x.d.toNat n) (span x.a.toNat n) (some x.b) n
  | .fsqrt x => { vr := span x.a.toNat (fmtRegs x.fmt), vw := span x.d.toNat (fmtRegs x.fmt) }
  | .fclass x => { vr := span x.a.toNat (fmtRegs x.fmt), vw := span x.d.toNat (fmtRegs x.fmt) }
  | .frcp x | .frsq x | .fex2 x | .flg2 x | .fsinp x | .fcosp x => { vr := [x.a.toNat], vw := [x.d.toNat] }
  | .frnd x => let n := if x.f64 then 2 else 1
               { vr := span x.a.toNat n, vw := span x.d.toNat n }
  | .cvtif x => { vr := span x.a.toNat (itypeRegs x.it), vw := span x.d.toNat (ffmtRegs x.ft) }
  | .cvtfi x => { vr := span x.a.toNat (ffmtRegs x.ft), vw := span x.d.toNat (itypeRegs x.it) }
  | .cvtff x => { vr := span x.a.toNat (ffmtRegs x.src), vw := span x.d.toNat (ffmtRegs x.dst) }
  | .pack x => { vr := span x.a.toNat (match x.dst with | .bf16 => 2 | _ => 4), vw := [x.d.toNat] }
  | .unpk x => { vr := [x.a.toNat], vw := span x.d.toNat (match x.src with | .bf16 => 2 | _ => 4) }
  | .fdot2 x => let r := bvRegs false [x.d.toNat] [x.a.toNat] (some x.b) 1
                { r with vr := r.vr ++ [x.d.toNat] }
  | .lshuf x | .lshup x | .lshdn x | .lxor x => laneRegs x
  | .lvote _ => {}
  | .lball x => { vw := span x.d.toNat 2 }
  | .lred x | .lscan x => redRegs x
  | .jmpInd a => { vr := [a.toNat] }
  | .getfc d => { vw := [d.toNat] }
  | .setfc b => srcRegs b 1
  | .ld x | .ldacq x => loadRegs sf x
  | .st x | .strel x | .xst x => storeRegs sf x
  | .pref x => { vr := [x.i.toNat], sr := recRegs x.r }
  | .aadd x | .amin x | .amax x | .aand x | .aor x | .axor x | .axch x | .afadd x => atRegs sf x false
  | .acas x => atRegs sf x true
  | .ldw x => { sr := [x.a.toNat] }
  | .mma x => { vr := span x.a.toNat 32 }
  | .mmas x => { vr := span x.a.toNat (if x.n16 then 128 else 64), sr := [x.b.toNat] }
  | .drain x => { sr := recRegs x.r ++ [x.b.toNat] }
  | .drainByp x => { sr := [x.b.toNat] }
  | .accrd x => { vw := span x.v.toNat 8 }
  | .accwr x => { vr := span x.v.toNat 8 }
  | .mstat d _ => { sw := [d.toNat] }
  | .copy x => copyRegs x
  | .copyl x => { vr := span x.d.toNat 2, sr := recRegs x.dst ++ recRegs x.src }
  | .copyr x => { sr := span x.d.toNat 5 ++ span x.a.toNat 5 ++ span x.b.toNat 2 }
  | .tstat d _ => { vw := span d.toNat 8 }
  | .cwp d _ => { vw := [d.toNat] }
  | .tdef a r | .tget a r => { sr := a.toNat :: recRegs r }
  | .qpush _ a | .capp _ a => { vr := span a.toNat 2 }
  | .qpop d _ _ | .qpeek d _ _ => { vw := span d.toNat 2 }
  | .qstat d a => { sr := [a.toNat], sw := span d.toNat 4 }
  | .qflush a | .quiesce a => { sr := [a.toNat] }
  | .spawn _ a | .glaunch _ a => { sr := span a.toNat 2 }
  | .gedit d a b => { sr := span a.toNat 2 ++ span b.toNat 2, sw := [d.toNat] }
  | .fxfer d r b | .fxferw _ d r b =>
    { vr := span b.toNat 2 ++ recSpan d.toNat (if recEsize sf r = 8 then 2 else 1), sr := recRegs r }
  | .ftot d a | .fstat d a _ => { sr := [a.toNat], sw := span d.toNat 4 }
  | .fdom d r => { sr := recRegs r, sw := [d.toNat] }
  | .fdecl a r => { sr := a.toNat :: recRegs r }
  | .flink a b => { sr := a.toNat :: span b.toNat 2 }
  | .fclose a => { sr := [a.toNat] }
  | .frecl a b => { sr := [a.toNat, b.toNat] }
  | .bart _ a _ => { sr := [a.toNat] }
  | .xjoin d a => { sr := [a.toNat], sw := [d.toNat] }
  | .xleave a => { sr := [a.toNat] }
  | .waitm x => { vr := [x.i.toNat], sr := recRegs x.r ++ span x.cmp.toNat (if recEsize sf x.r = 8 then 2 else 1) ++ [x.lim.toNat] }
  | .csig x => { vr := [x.i.toNat, x.d.toNat], sr := recRegs x.r }
  | .srd x | .hqpop x => { sw := [x.d.toNat] }
  | .swr x | .ctxset x | .cmaskWrite x | .rgnrst x | .ctlcmd x | .qcmdCreate x | .qcmdDestroy x | .qbudget x | .qlate x
  | .pagecfg x | .frmpush x | .partmask x => { sr := [x.a.toNat] }
  | .bsave r | .brst r | .ucnt r => { sr := recRegs r }
  | .csave a r | .crst a r | .fmapw a r | .rngw a r => { sr := a.toNat :: recRegs r }
  | .tlbiPage a | .pgpin a | .pgpinUnpin a => { sr := span a.toNat 2 }
  | .pgmig a b => { sr := span a.toNat 2 ++ [b.toNat] }
  | .wcall _ => { sr := span 0 8, sw := span 0 4 }
  | _ => {}

/-- Words the instruction takes (R45). -/
def wordsOf (i : Instr) : Nat :=
  match i with
  | .movl _ | .qmul _ | .jmp _ | .waitm _ | .srd _ | .hqpop _ | .swr _ | .ctxset _ | .cmaskWrite _ | .rgnrst _ | .ctlcmd _
  | .qcmdCreate _ | .qcmdDestroy _ | .qbudget _ | .qlate _ | .pagecfg _ | .frmpush _ | .partmask _ => 2
  | _ => 1

/-- Tile checks made at decode (R245, R250, R264). -/
def tilesBad (tiles : Nat) : Instr → Bool
  | .ldw _ | .wflip | .mstat _ _ => decide (tiles = 0)
  | .mma x => tileBad tiles x.t.toNat (x.fmt = .f64)
  | .mmas x => tileBad tiles x.t.toNat (x.fmt = .f64)
  | .drain x => tileBad tiles x.t.toNat (x.fmt = .f64)
  | .drainByp x => tileBad tiles x.t.toNat false
  | .accz t => tileBad tiles t.toNat false
  | .accrd x => tileBad tiles x.t.toNat false
  | .accwr x => tileBad tiles x.t.toNat false
  | _ => false
where
  /-- The tile, and for fcode 1 its partner, lies at or above the declared count. -/
  tileBad (tiles t : Nat) (f64 : Bool) : Bool :=
    decide (tiles ≤ t) || (f64 && decide (tiles ≤ t + 1))

/-- Instructions that raise cause 0x01 in a slide sweep (R394). -/
def slideBad : Instr → Bool
  | .bar _ | .bara _ | .barw _ | .bart _ _ _ | .gbar | .xjoin _ _ | .xleave _ | .xbar | .xst _ => true
  | _ => false

/-- Lane instructions that raise cause 0x48 in a deterministic slide sweep (R396). -/
def laneBad : Instr → Bool
  | .lshuf _ | .lshup _ | .lshdn _ | .lxor _ | .lvote _ | .lball _ | .lred _ | .lscan _ | .lfirst _ => true
  | _ => false

/-- State numbers whose read needs privilege, and whose write does not (R278, R294, R362, R378, R427, R435): SRD of "user"
state, SWR of PEERSEL, and both of the issuing context's own queue state are free (R49). -/
def srdPriv (n : Nat) : Bool := n == 0x002 || (decide (0x028 ≤ n) && decide (n ≤ 0x02D))
def swrFree (n : Nat) : Bool := n == 0x024 || decide (0x200 ≤ n)

/-- Privileged instructions (R49); of another context's state every read and write is one (R278). -/
def needsPriv : Instr → Bool
  | .tret | .bsave _ | .brst _ | .csave _ _ | .crst _ _ | .fmapw _ _ | .tlbiCtx | .tlbiPage _ | .tlbiAll | .rngw _ _
  | .pgmig _ _ | .pgpin _ | .pgpinUnpin _ | .wcall _ | .idle | .halt | .frecl _ _ => true
  | .srd x | .hqpop x => srdPriv x.num.toNat || x.other
  | .swr x | .ctxset x | .cmaskWrite x | .rgnrst x | .ctlcmd x | .qcmdCreate x | .qcmdDestroy x | .qbudget x | .qlate x
  | .pagecfg x | .frmpush x | .partmask x => !swrFree x.num.toNat || x.other
  | _ => false

/-- Flush points, which take a pending deferred error (R151, R201, R208, R296, R316, R413, R416); TLBI is one by the fence it
performs (R365). -/
def flushPoint : Instr → Bool
  | .exit | .fence _ | .bar _ | .bara _ | .barw _ | .bart _ _ _ | .gbar | .xbar | .xleave _ | .qpush _ _ | .qpop _ _ _
  | .capp _ _ | .dflush | .tlbiCtx | .tlbiPage _ | .tlbiAll => true
  | _ => false

/-- A value operand with its poison bit: the word of a register or an immediate (R88). -/
abbrev Val := Reg

/-- I7 sign-extended to 32 bits (R88). -/
def imm7 (i : BitVec 7) : Word := i.signExtend 32

/-- The b operand of a lane at 32 bits (R88); broadcasts read the s-file as the clock began (R78). -/
def bval (sf : RegFile) (t : Thread) : Src → Val
  | .v r => t.vget r.toNat
  | .s r => sget {} sf r.toNat
  | .imm i => ⟨imm7 i, false⟩

/-- The b operand without immediate (R88). -/
def ovval (sf : RegFile) (t : Thread) : Opv → Val
  | .v r => t.vget r.toNat
  | .s r => sget {} sf r.toNat

/-- The b operand of a uniform form: s[B] or I7 (R89). -/
def ubval (sf : RegFile) : Src → Val
  | .v r => sget {} sf r.toNat
  | .s r => sget {} sf r.toNat
  | .imm i => ⟨imm7 i, false⟩

def uovval (sf : RegFile) : Opv → Val
  | .v r => sget {} sf r.toNat
  | .s r => sget {} sf r.toNat

/-- A 64-bit value with poison. -/
structure Val64 where
  w : DWord := 0
  poi : Bool := false

/-- A register pair (R2, R35). -/
def pair (lo hi : Reg) : Val64 := ⟨hi.w ++ lo.w, lo.poi || hi.poi⟩
def vpair (t : Thread) (r : Nat) : Val64 := pair (t.vget r) (t.vget (r + 1))
def spair (sf : RegFile) (r : Nat) : Val64 := pair (sget {} sf r) (sget {} sf (r + 1))
/-- The b operand at 64 bits (R94). -/
def bval64 (sf : RegFile) (t : Thread) : Src → Val64
  | .v r => vpair t r.toNat
  | .s r => spair sf r.toNat
  | .imm i => ⟨i.signExtend 64, false⟩
def ubval64 (sf : RegFile) : Src → Val64
  | .v r => spair sf r.toNat
  | .s r => spair sf r.toNat
  | .imm i => ⟨i.signExtend 64, false⟩
/-- A pair written. -/
def Thread.vset64 (t : Thread) (r : Nat) (x : Val64) : Thread :=
  (t.vset r ⟨x.w.setWidth 32, x.poi⟩).vset (r + 1) ⟨(x.w >>> 32).setWidth 32, x.poi⟩
def State.setS64 (s : State) (gid r : Nat) (x : Val64) : State :=
  (s.setS gid r ⟨x.w.setWidth 32, x.poi⟩).setS gid (r + 1) ⟨(x.w >>> 32).setWidth 32, x.poi⟩

/-- v-registers of a lane that an outstanding load, returning atomic or array read still has to write (R77). -/
def pendingV (s : State) (gid lane : Nat) : List Nat :=
  s.accs.flatMap fun a =>
    let n := match a.op with
      | .load => regsOfBytes a.wid
      | .atomic _ true => regsOfBytes a.wid
      | _ => 0
    if a.gid = gid then a.lanes.flatMap fun l => if l.lane = lane then span l.dst n else [] else []

/-- Where an operand's soft error is, if there is one of that kind (R84): s-registers, then v-registers by lane. -/
def errAt (g : Group) (iss : Issue) (rg : Regs) (unc : Bool) : Option ErrLoc :=
  match g.serr.find? fun e => e.2 == unc && rg.sr.contains e.1 with
  | some e => some (.sreg iss.gid e.1)
  | none => g.threads.findSome? fun t =>
    if iss.lanes.contains t.lane then (t.verr.find? fun e => e.2 == unc && rg.vr.contains e.1).map fun e => .vreg iss.gid t.lane e.1 else none

/-- The active lanes that fail the check of R86 as the reported place does: those with an uncorrectable error in a v-register that
they read; none where an s-register fails for the issue as a whole. -/
def errLanes (g : Group) (iss : Issue) (rg : Regs) : ErrLoc → List Nat
  | .vreg _ _ _ => g.threads.filterMap fun t =>
      if iss.lanes.contains t.lane && t.verr.any fun e => e.2 && rg.vr.contains e.1 then some t.lane else none
  | _ => []

/-- A register's soft error in a group: whether it is uncorrectable. -/
def regErr (g : Group) : ErrLoc → Option Bool
  | .sreg _ r => (g.serr.find? fun e => e.1 == r).map (·.2)
  | .vreg _ lane r => (g.thread? lane).bind fun t => (t.verr.find? fun e => e.1 == r).map (·.2)
  | _ => none

/-- The soft error of a register is gone. -/
def State.clearReg (s : State) : ErrLoc → State
  | .sreg gid r => s.modGroup gid fun g => { g with serr := g.serr.filter fun e => e.1 != r }
  | .vreg gid lane r => s.modThread gid lane fun t => { t with verr := t.verr.filter fun e => e.1 != r }
  | _ => s

/-- The register code of R415 and the lane of an error place. -/
def errCode : ErrLoc → Nat × Option Nat
  | .vreg _ lane r => (r, some lane)
  | .sreg _ r => (0x80 + r, none)
  | _ => (0, none)

/-- An answer of a check: the state the issue ends in, or the state it goes on from. -/
inductive Check where
  | stop (s : State)
  | go (s : State)

/-- The tiles that the group's workgroup declared (R245). -/
def tilesOf (s : State) (g : Group) : Nat := ((s.wg? g.wg).map fun w => w.tiles).getD 0

/-- Whether the group runs in a slide sweep, and in a deterministic one. -/
def slideOf (s : State) (g : Group) : Bool := ((s.sweepOf g).map fun x => x.slide).getD false
def detOf (s : State) (g : Group) : Bool := ((s.sweepOf g).map fun x => x.det).getD false

/-- Active lanes with a pending deferred error. -/
def derrLanes (g : Group) (iss : Issue) : List Nat :=
  g.threads.filterMap fun t => if iss.lanes.contains t.lane && t.derr.isSome then some t.lane else none

/-- The physical lanes of a visible lane (R144). -/
def pairOf (g : Group) (l : Nat) : List Nat := if g.coursed then [l / 2 * 2, l / 2 * 2 + 1] else [l]

/-- The deferred trap of a flush point: the lowest active lane with an error is reported and its record cleared, in coursed
launch in both lanes of the pair (R144, R151, R208, R416, R417). -/
def takeDeferred (s : State) (iss : Issue) (g : Group) : Option State :=
  (minOf (derrLanes g iss)).bind fun l => (g.thread? l).bind fun t => t.derr.map fun d =>
    let s := s.mapLanes iss.gid (pairOf g l) fun t => { t with derr := none }
    takeTrap s iss d.cause
      { sub := d.sub, addr := d.addr, info0 := d.info.getD 0 0, info1 := d.info.getD 1 0, info2 := d.info.getD 2 0,
        info3 := d.info.getD 3 0, lanes := derrLanes g iss, dfr := true }

/-- Field transfers of a lane whose outcome is not known (R191 note e). -/
def xferOpen (s : State) (gid : Nat) (lanes : List Nat) : Bool :=
  s.xfers.any fun x => x.gid == gid && lanes.contains x.lane && decide (x.stage ≠ 3)

/-- The bypass is armed for the next MMA or MMAS that is accepted (R249). -/
def Arr.armed (a : Arr) : Bool := a.byp.isSome && a.bypBy.isNone

/-- The registers that an instruction reads and writes as it issues: an MMA or MMAS fed by the armed bypass reads no
v-register (R249). -/
def operRegs (s : State) (iss : Issue) (g : Group) (i : Instr) : Regs :=
  let rg := regsOf iss.snap i
  match i with
  | .mma _ | .mmas _ => if (s.core g.core).arr.armed then { rg with vr := [] } else rg
  | _ => rg

/-- s-registers of a group that an accepted MSTAT has still to write (R252). -/
def pendingS (s : State) (g : Group) : List Nat :=
  s.samples.filterMap fun e => match e.src with
    | .array _ => if e.gid = g.gid then some e.reg else none
    | .queue _ _ _ => none

/-- A lane's v-registers among the operands that outstanding accesses have still to write (R77). -/
def vPending (s : State) (gid : Nat) (rg : Regs) (l : Nat) : Bool :=
  (pendingV s gid l).any fun r => rg.vr.contains r || rg.vw.contains r
/-- s-registers among the operands that the array had still to write when the clock began (R78, R252). -/
def sPending (iss : Issue) (rg : Regs) : Bool := iss.pend.any fun r => rg.sr.contains r || rg.sw.contains r
/-- Operand registers that outstanding accesses or array reads have still to write (R77, R252). -/
def regsPending (s : State) (iss : Issue) (rg : Regs) : Bool :=
  iss.lanes.any (vPending s iss.gid rg) || sPending iss rg
/-- The lanes of an issue whose operands are not all written wait for them (R76); the others stay as they are. -/
def holdRegs (s : State) (iss : Issue) (rg : Regs) : State :=
  holdStruct s { iss with lanes := if sPending iss rg then iss.lanes else iss.lanes.filter (vPending s iss.gid rg) } .regs

/-- Every place of an operand register with a correctable error (R84). -/
def softPlaces (g : Group) (iss : Issue) (rg : Regs) : List ErrLoc :=
  (g.serr.filter fun e => !e.2 && rg.sr.contains e.1).map (fun e => .sreg iss.gid e.1) ++
  g.threads.flatMap fun t => if iss.lanes.contains t.lane then
    (t.verr.filter fun e => !e.2 && rg.vr.contains e.1).map fun e => .vreg iss.gid t.lane e.1 else []

/-- The replay of the issue's instruction is over (R85). -/
def replayed (s : State) (iss : Issue) : State :=
  { s with corrected := s.corrected.filter fun (l, pc, _) => !(decide (pc = iss.pc) && (match l with
      | .sreg gid _ => gid == iss.gid
      | .vreg gid lane _ => gid == iss.gid && iss.lanes.contains lane
      | _ => false)) }

/-- An issue is cancelled for the replay of its instruction, in which the lanes resume in the middle of their clauses (R41, R50,
R85). -/
def cancelIssue (s : State) (iss : Issue) (places : List ErrLoc) : State :=
  { s.mapLanes iss.gid iss.lanes fun t => { t with entered := false, resume := true } with
    corrected := places.map (·, iss.pc, false) ++ s.corrected }

/-- The check bits of the operands (R84-R86): an uncorrectable error traps; a correctable one cancels the issue for its replay,
and one that the replay meets again is corrected, counted and reported. -/
def checkBits (s : State) (iss : Issue) (g : Group) (rg : Regs) : Check :=
  match errAt g iss rg true with
  | some loc =>
    let code := (errCode loc).1
    let s := tallyErrs (healthPush s 0x01 g.core code) [loc] true
    .stop (takeTrap s iss 0x30 { info0 := BitVec.ofNat 32 code, lanes := errLanes g iss rg loc })
  | none =>
    let soft := softPlaces g iss rg
    let fresh := soft.filter fun l => !s.corrected.any fun x => x.1 == l && x.2.1 == iss.pc
    if fresh.isEmpty then
      .go (replayed (soft.foldl (fun s l => healthPush { tallyErrs (s.clearReg l) [l] false with cntReg := satInc s.cntReg } 0x02 g.core (errCode l).1) s) iss)
    else .stop (cancelIssue s iss fresh)

/-- The checks that precede an instruction's own, in order: registers and tiles, privilege (R48, R49), the scoreboard, which
orders register reads after the writes before them (R77), check bits (R85, R86), and deferred errors (R416), before which a
flush point awaits the outcomes of the lanes' transfers (R329). -/
def precheck (s : State) (iss : Issue) (g : Group) (i : Instr) : Check :=
  let rg := regsOf iss.snap i
  let slide := slideOf s g
  if (rg.vr ++ rg.vw).any (fun r => decide (g.regs ≤ r)) || tilesBad (tilesOf s g) i || (slide && slideBad i) then
    .stop (takeTrap s iss 0x01)
  else if needsPriv i && !s.privOf g then .stop (takeTrap s iss 0x04)
  else if regsPending s iss (operRegs s iss g i) then .stop (holdRegs s iss (operRegs s iss g i))
  else match checkBits s iss g (operRegs s iss g i) with
  | .stop s => .stop s
  | .go s =>
    if slide && detOf s g && laneBad i then .stop (takeTrap s iss 0x48)
    else if flushPoint i then
      if xferOpen s iss.gid iss.lanes then .stop (hold s iss .drained)
      else match takeDeferred s iss g with
        | some t => .stop t
        | none => .go s
    else .go s

/-- The group of the current issue. -/
def State.curGroup (s : State) : Option (Issue × Group) := s.cur.bind fun iss => (s.group? iss.gid).map fun g => (iss, g)

/-- An instruction executed for the current issue: the common checks, then its effect. -/
def issued (i : Instr) (eff : Issue → Group → State → State) (s : State) : Out :=
  match s.curGroup with
  | none => .fault .noIssue
  | some (iss, g) =>
    match precheck s iss g i with
    | .stop s' => .next s'
    | .go s' => .next (eff iss g s')

/-- A register-only lane effect, then the advance (R77). -/
def laneEff (i : Instr) (f : RegFile → Thread → Thread) (s : State) : Out :=
  issued i (fun iss _ s => advance (s.mapLanes iss.gid iss.lanes (f iss.snap)) iss (wordsOf i)) s

/-- A uniform effect, then the advance (R78). -/
def uniEff (i : Instr) (f : RegFile → Nat → State → State) (s : State) : Out :=
  issued i (fun iss _ s => advance (f iss.snap iss.gid s) iss (wordsOf i)) s

end Sys2Proof.Machine
end

