-- ==== Sys2Proof/Machine/Flags.lean ====
section
/-! DEFINITION. Floating-point formats, exact values, the one rounding step and its flags (R53-R65), and the elementary
functions correctly rounded from integer arithmetic (R118). -/

namespace Sys2Proof.Machine

/-- Exception flags in the order of FCTL[12:8]: bit 0 NV, 1 DZ, 2 OF, 3 UF, 4 NX (R60, R62). -/
abbrev Fl := BitVec 5
def flNV : Fl := 1
def flDZ : Fl := 2
def flOF : Fl := 4
def flUF : Fl := 8
def flNX : Fl := 16

/-- A rounding mode (R60): 0 nearest-even, 1 toward +∞, 2 toward −∞, 3 toward 0. -/
abbrev Mode := Nat

/-- A format (R53): fraction bits, exponent bits, bias; `e4` is fp8e4, which has no infinity (R54). -/
structure FSpec where
  w : Nat
  eb : Nat
  bias : Nat
  e4 : Bool := false
  deriving DecidableEq, Repr

def spec32 : FSpec := ⟨23, 8, 127, false⟩
def spec64 : FSpec := ⟨52, 11, 1023, false⟩
def specB : FSpec := ⟨7, 8, 127, false⟩
def specE4 : FSpec := ⟨3, 4, 7, true⟩
def specE5 : FSpec := ⟨2, 5, 15, false⟩

def fspec : Fmt → FSpec
  | .f32 => spec32
  | .f64 => spec64
  | .bf16 => specB
def ffspec : FFmt → FSpec
  | .f32 => spec32
  | .f64 => spec64
  | .bf16 => specB
  | .f8e4 => specE4
  | .f8e5 => specE5

/-- An exact value: NaN, an infinity, or (−1)^neg · m · 2^e (R54). -/
inductive FV where
  | nan (sig : Bool)
  | inf (neg : Bool)
  | fin (neg : Bool) (m : Nat) (e : Int)
  deriving DecidableEq, Repr

/-- The value of a bit pattern (R54). -/
def fval (f : FSpec) (x : Nat) : FV :=
  let neg := x.testBit (f.w + f.eb)
  let e := x / 2 ^ f.w % 2 ^ f.eb
  let fr := x % 2 ^ f.w
  if e = 0 then .fin neg fr (1 - f.bias - f.w)
  else if e = 2 ^ f.eb - 1 ∧ ¬ f.e4 then (if fr = 0 then .inf neg else .nan (!fr.testBit (f.w - 1)))
  else if f.e4 ∧ e = 15 ∧ fr = 7 then .nan false
  else .fin neg (2 ^ f.w + fr) ((e : Int) - f.bias - f.w)

/-- The canonical NaN (R55). -/
def canonNaN (f : FSpec) : Nat :=
  if f.e4 then 0x7F else (2 ^ f.eb - 1) * 2 ^ f.w + 2 ^ (f.w - 1)
/-- A sign bit in its place. -/
def signAt (f : FSpec) (neg : Bool) : Nat := if neg then 2 ^ (f.w + f.eb) else 0
/-- Infinity, or for fp8e4 its NaN (R64). -/
def infBits (f : FSpec) (neg : Bool) : Nat := if f.e4 then 0x7F else signAt f neg + (2 ^ f.eb - 1) * 2 ^ f.w
/-- The largest finite number (R53). -/
def maxBits (f : FSpec) (neg : Bool) : Nat :=
  signAt f neg + (if f.e4 then 0x7E else (2 ^ f.eb - 1) * 2 ^ f.w - 1)

/-- Number of bits of a number. -/
def bitLen (n : Nat) : Nat := if n = 0 then 0 else Nat.log2 n + 1

/-- m · 2^k as a comparison-ready pair: whether m · 2^e ≥ n · 2^f. -/
def geScaled (m : Nat) (e : Int) (n : Nat) (f : Int) : Bool :=
  if e ≥ f then decide (m * 2 ^ (e - f).toNat ≥ n) else decide (m ≥ n * 2 ^ (f - e).toNat)

/-- The multiple of 2^q that the mode picks for (−1)^neg · (m · 2^e, and a little more when `st`), and whether it is
inexact (R61). -/
def roundTo (mode : Mode) (neg : Bool) (m : Nat) (e q : Int) (st : Bool) : Nat × Bool :=
  if e ≥ q then (m * 2 ^ (e - q).toNat + (if st && decide ((mode = 1 ∧ ¬ neg) ∨ (mode = 2 ∧ neg)) then 1 else 0), st)
  else
    let k := (q - e).toNat
    let n := m / 2 ^ k
    let r := m % 2 ^ k
    let inexact := decide (r ≠ 0) || st
    let half := 2 ^ (k - 1)
    let up := match mode with
      | 0 => decide (r > half) || (decide (r = half) && (st || decide (n % 2 = 1)))
      | 1 => inexact && !neg
      | 2 => inexact && neg
      | _ => false
    (if up then n + 1 else n, inexact)

/-- The rounding step of R61 for a nonzero finite value, with fp8's `.sat` (R64): bits and flags. -/
def roundFin (f : FSpec) (mode : Mode) (neg : Bool) (m : Nat) (e : Int) (st sat : Bool) : Nat × Fl :=
  let ex := e + bitLen m - 1
  let emin : Int := 1 - f.bias
  let q := max ex emin - f.w
  let (n, inexact) := roundTo mode neg m e q st
  let (nu, _) := roundTo mode neg m e (ex - f.w) st
  let tiny := !geScaled nu (ex - f.w) 1 emin
  let emax : Int := if f.e4 then 8 else f.bias
  let maxM := if f.e4 then 14 else 2 ^ (f.w + 1) - 1
  if geScaled n q (maxM + 1) (emax - f.w) then
    let toInf := mode = 0 ∨ (mode = 1 ∧ ¬ neg) ∨ (mode = 2 ∧ neg)
    (if sat then maxBits f neg else if toInf then infBits f neg else maxBits f neg, flOF ||| flNX)
  else
    -- n < 2^(w+1): with the exponent field implied by q; n = 2^(w+1) carries into the field by itself
    let field := (q - (emin - f.w)).toNat
    let bits := if n < 2 ^ f.w then n else field * 2 ^ f.w + n
    let fl := (if inexact then flNX else 0) ||| (if tiny && inexact then flUF else 0)
    (signAt f neg + bits, fl)

/-- RoundFmt of R35 and R61 for any value; an exact zero keeps its sign. -/
def roundV (f : FSpec) (mode : Mode) (v : FV) : Nat × Fl :=
  match v with
  | .nan _ => (canonNaN f, 0)
  | .inf neg => (infBits f neg, 0)
  | .fin neg m e => if m = 0 then (signAt f neg, 0) else roundFin f mode neg m e false false

def FV.isNaN : FV → Bool
  | .nan _ => true
  | _ => false
def FV.isSig : FV → Bool
  | .nan s => s
  | _ => false
def FV.neg : FV → FV
  | .nan s => .nan s
  | .inf n => .inf (!n)
  | .fin n m e => .fin (!n) m e
def FV.sign : FV → Bool
  | .nan _ => false
  | .inf n => n
  | .fin n _ _ => n

/-- An exact product, and whether it is 0 × ∞ (R112). -/
def mulV (a b : FV) : FV × Bool :=
  match a, b with
  | .nan s, _ => (.nan s, false)
  | _, .nan s => (.nan s, false)
  | .inf n, .inf k => (.inf (n != k), false)
  | .inf n, .fin k m _ => if m = 0 then (.nan false, true) else (.inf (n != k), false)
  | .fin k m _, .inf n => if m = 0 then (.nan false, true) else (.inf (n != k), false)
  | .fin n m e, .fin k l f => (.fin (n != k) (m * l) (e + f), false)

/-- The signed integer of a finite value in units of 2^q. -/
def unitsOf (q : Int) : FV → Int
  | .fin n m e => (if n then -1 else 1) * (m * 2 ^ (e - q).toNat : Nat)
  | _ => 0
def expOf : FV → Int
  | .fin _ _ e => e
  | _ => 0

/-- An exact sum, and whether it is ∞ − ∞; an exact zero follows the zero rule of R61. With a NaN among the terms the sum is a NaN and
∞ − ∞ is not looked for: R112 gives both the NaN operand and ∞ − ∞ the canonical NaN, and says only of 0 × ∞ that a quiet NaN term
leaves it invalid (DEDUCED, log entry 54). -/
def sumV (mode : Mode) (ts : List FV) : FV × Bool :=
  if ts.any (·.isNaN) then (.nan false, false)
  else
    let pinf := ts.any fun t => match t with | .inf n => !n | _ => false
    let ninf := ts.any fun t => match t with | .inf n => n | _ => false
    if pinf && ninf then (.nan false, true)
    else if pinf then (.inf false, false)
    else if ninf then (.inf true, false)
    else
      let q := ts.foldl (fun q t => min q (expOf t)) ((ts.head?.map expOf).getD 0)
      let v := ts.foldl (fun x t => x + unitsOf q t) 0
      if v = 0 then
        let allNeg := ts.all (·.sign)
        let allPos := ts.all fun t => !t.sign
        (.fin (if allNeg then true else if allPos then false else decide (mode = 2)) 0 q, false)
      else (.fin (decide (v < 0)) v.natAbs q, false)

/-- a sum of products and terms, rounded once: NaN operands and invalid cases by R112. -/
def fmaR (f : FSpec) (mode : Mode) (prods : List (FV × FV)) (terms : List FV) : Nat × Fl :=
  let ps := prods.map fun (a, b) => mulV a b
  let sig := prods.any (fun (a, b) => a.isSig || b.isSig) || terms.any (·.isSig)
  let (v, inv) := sumV mode (terms ++ ps.map (·.1))
  let (r, fl) := roundV f mode v
  (r, fl ||| (if sig || inv || ps.any (·.2) then flNV else 0))

/-- The quotient of nonzero finite values with enough bits for any format, and whether it is inexact. -/
def quot (m : Nat) (e : Int) (n : Nat) (g : Int) : Nat × Int × Bool :=
  let k := 130 + bitLen n
  let x := m * 2 ^ k
  (x / n, e - g - k, decide (x % n ≠ 0))

/-- FDIV (R112). -/
def fdivR (f : FSpec) (mode : Mode) (a b : FV) : Nat × Fl :=
  let nv : Fl := if a.isSig || b.isSig then flNV else 0
  match a, b with
  | .nan _, _ => (canonNaN f, nv)
  | _, .nan _ => (canonNaN f, nv)
  | .inf _, .inf _ => (canonNaN f, flNV)
  | .inf n, .fin k _ _ => (infBits f (n != k), 0)
  | .fin n _ _, .inf k => (signAt f (n != k), 0)
  | .fin n m e, .fin k l g =>
    if l = 0 then (if m = 0 then (canonNaN f, flNV) else (infBits f (n != k), flDZ))
    else if m = 0 then (signAt f (n != k), 0)
    else
      let (x, ex, st) := quot m e l g
      roundFin f mode (n != k) x ex st false

/-- FSCALE (R112). -/
def fscaleR (f : FSpec) (mode : Mode) (a : FV) (n : Int) : Nat × Fl :=
  match a with
  | .nan s => (canonNaN f, if s then flNV else 0)
  | .inf k => (infBits f k, 0)
  | .fin k m e =>
    if m = 0 then (signAt f k, 0)
    else
      -- beyond ±8,192 the result is the same overflow or underflow
      let n := max (-8192) (min 8192 n)
      roundFin f mode k m (e + n) false false

/-- Order of two numbers, −0 below +0 when `z` (R113). -/
def ltV (z : Bool) (a b : FV) : Bool :=
  match a, b with
  | .inf n, .inf k => n && !k
  | .inf n, .fin _ _ _ => n
  | .fin _ _ _, .inf k => !k
  | .fin n m e, .fin k l g =>
    let q := min e g
    let x := unitsOf q (.fin n m e)
    let y := unitsOf q (.fin k l g)
    if x = 0 ∧ y = 0 then z && n && !k else decide (x < y)
  | _, _ => false

/-- FMIN or FMAX on bit patterns (R113). -/
def fminR (f : FSpec) (mx : Bool) (x y : Nat) : Nat × Fl :=
  let a := fval f x
  let b := fval f y
  let fl : Fl := if a.isSig || b.isSig then flNV else 0
  if a.isNaN && b.isNaN then (canonNaN f, fl)
  else if a.isNaN then (y, fl)
  else if b.isNaN then (x, fl)
  else if (if mx then ltV true a b else ltV true b a) then (y, 0) else (x, 0)

/-- FCMP's condition and NV (R119). -/
def fcmpR (c : FCond) (a b : FV) : Bool × Fl :=
  let un := a.isNaN || b.isNaN
  let sg : Fl := if a.isSig || b.isSig then flNV else 0
  let anyN : Fl := if un then flNV else 0
  let lt := ltV false a b
  let gt := ltV false b a
  match c with
  | .eq => (!un && !lt && !gt, sg)
  | .ne => (un || lt || gt, sg)
  | .lt => (!un && lt, anyN)
  | .le => (!un && !gt, anyN)
  | .gt => (!un && gt, anyN)
  | .ge => (!un && !lt, anyN)
  | .un => (un, sg)
  | .or => (!un, sg)

/-- FCLASS's bit (R117). -/
def fclassR (f : FSpec) (x : Nat) : Nat :=
  match fval f x with
  | .nan true => 2 ^ 8
  | .nan false => 2 ^ 9
  | .inf true => 2 ^ 0
  | .inf false => 2 ^ 7
  | .fin n m e =>
    if m = 0 then (if n then 2 ^ 3 else 2 ^ 4)
    else if m < 2 ^ f.w ∧ e = 1 - f.bias - f.w then (if n then 2 ^ 2 else 2 ^ 5)
    else (if n then 2 ^ 1 else 2 ^ 6)

/-- A value rounded to an integer by the mode, and whether it changed; for finite values (R65). -/
def toIntegral (mode : Mode) (neg : Bool) (m : Nat) (e : Int) : Int × Bool :=
  let (n, ix) := roundTo mode neg m e 0 false
  (if neg then -(n : Int) else n, ix)

/-- FRND (R120). -/
def frndR (f : FSpec) (mode : Mode) (x : Nat) : Nat × Fl :=
  match fval f x with
  | .nan s => (canonNaN f, if s then flNV else 0)
  | .inf n => (infBits f n, 0)
  | .fin n m e =>
    let (v, ix) := toIntegral mode n m e
    if v = 0 then (signAt f n, if ix then flNX else 0)
    else ((roundFin f 3 n v.natAbs 0 false false).1, if ix then flNX else 0)

/-- Range of an integer type (R65). -/
def itypeRange : IType → Int × Int
  | .s32 => (-(2 ^ 31), 2 ^ 31 - 1)
  | .u32 => (0, 2 ^ 32 - 1)
  | .s64 => (-(2 ^ 63), 2 ^ 63 - 1)
  | .u64 => (0, 2 ^ 64 - 1)

/-- CVTFI (R65). -/
def cvtfiR (f : FSpec) (it : IType) (mode : Mode) (x : Nat) : Int × Fl :=
  let (lo, hi) := itypeRange it
  match fval f x with
  | .nan _ => (0, flNV)
  | .inf n => (if n then lo else hi, flNV)
  | .fin n m e =>
    let (v, ix) := toIntegral mode n m e
    if v > hi then (hi, flNV) else if v < lo then (lo, flNV) else (v, if ix then flNX else 0)

/-- CVTIF (R63): an exact integer through R61, fp8 in the `.nosat` column. -/
def cvtifR (f : FSpec) (mode : Mode) (v : Int) : Nat × Fl :=
  if v = 0 then (0, 0) else roundFin f mode (decide (v < 0)) v.natAbs 0 false false

/-- Whether a format is fp8. -/
def FSpec.is8 (f : FSpec) : Bool := decide (f.w ≤ 3)

/-- A value into a format by R61, or R64 for fp8 (R63, R120, R121, R228). -/
def cvtffR (dst : FSpec) (sat : Bool) (mode : Mode) (v : FV) : Nat × Fl :=
  match v with
  | .nan s => (canonNaN dst, if s then flNV else 0)
  | .inf n =>
    if dst.is8 && sat then (maxBits dst n, 0)
    else if dst.e4 then (0x7F, flNV) else (infBits dst n, 0)
  | .fin n m e => if m = 0 then (signAt dst n, 0) else roundFin dst mode n m e false (dst.is8 && sat)

/-! ### Roots and elementary functions (R118) -/

/-- The integer square root, bit by bit from bit `k` down. -/
def isqrtFrom (n : Nat) : Nat → Nat → Nat
  | 0, r => r
  | k + 1, r => let c := r + 2 ^ k
                isqrtFrom n k (if c * c ≤ n then c else r)
def isqrt (n : Nat) : Nat := isqrtFrom n (bitLen n / 2 + 1) 0

/-- √(m · 2^e) of a positive value. -/
def sqrtParts (m : Nat) (e : Int) : Nat × Int × Bool :=
  let k : Nat := 160 + (if e % 2 = 0 then 0 else 1)
  let x := m * 2 ^ k
  let r := isqrt x
  (r, (e - k) / 2, decide (r * r ≠ x))

def fsqrtR (f : FSpec) (mode : Mode) (a : FV) : Nat × Fl :=
  match a with
  | .nan s => (canonNaN f, if s then flNV else 0)
  | .inf n => if n then (canonNaN f, flNV) else (infBits f false, 0)
  | .fin n m e =>
    if m = 0 then (signAt f n, 0)
    else if n then (canonNaN f, flNV)
    else
      let (r, ex, st) := sqrtParts m e
      roundFin f mode false r ex st false

def frcpR (mode : Mode) (a : FV) : Nat × Fl :=
  match a with
  | .nan s => (canonNaN spec32, if s then flNV else 0)
  | .inf n => (signAt spec32 n, 0)
  | .fin n m e =>
    if m = 0 then (infBits spec32 n, flDZ)
    else
      let (x, ex, st) := quot 1 0 m e
      roundFin spec32 mode n x ex st false

def frsqR (mode : Mode) (a : FV) : Nat × Fl :=
  match a with
  | .nan s => (canonNaN spec32, if s then flNV else 0)
  | .inf n => if n then (canonNaN spec32, flNV) else (0, 0)
  | .fin n m e =>
    if m = 0 then (infBits spec32 n, flDZ)
    else if n then (canonNaN spec32, flNV)
    else
      -- 1/√(m·2^e) = √(2^(2K − e')/m) · 2^…, with e made even
      let (m, e) := if e % 2 = 0 then (m, e) else (2 * m, e - 1)
      let x := 2 ^ 240 / m
      let r := isqrt x
      roundFin spec32 mode false r (-120 - e / 2) (decide (2 ^ 240 % m ≠ 0) || decide (r * r ≠ x)) false

/-- Fixed-point precision of the elementary functions. -/
def fxP : Nat := 400

/-- ln 2 in fixed point: the sum of 1 / (k · 2^k). -/
def ln2Fx : Nat := (List.range 420).foldl (fun s i => s + 2 ^ (fxP + 40) / ((i + 1) * 2 ^ (i + 1))) 0 / 2 ^ 40

/-- arctan (1/n) in fixed point. -/
def atanInv (n : Nat) : Int :=
  ((List.range 300).foldl (fun (s, p) i =>
    (if i % 2 = 0 then s + ((p / (2 * i + 1) : Nat) : Int) else s - ((p / (2 * i + 1) : Nat) : Int), p / (n * n)))
    ((0 : Int), 2 ^ (fxP + 40) / n)).1

/-- π in fixed point (Machin's formula). -/
def piFx : Nat := ((4 * (4 * atanInv 5 - atanInv 239)) / 2 ^ 40).toNat

/-- e^t for a fixed-point t in [0, 1). -/
def expFx (t : Nat) : Nat :=
  ((List.range 90).foldl (fun (s, p) i => (s + p, p * t / 2 ^ fxP / (i + 1))) (0, 2 ^ fxP)).1

/-- sin t for a fixed-point t in [0, 2). -/
def sinFx (t : Nat) : Nat :=
  let t2 := t * t / 2 ^ fxP
  (((List.range 60).foldl (fun (s, p) i =>
    (if i % 2 = 0 then s + (p : Int) else s - (p : Int), p * t2 / 2 ^ fxP / ((2 * i + 2) * (2 * i + 3))))
    ((0 : Int), t)).1).toNat

/-- ln y for a fixed-point y in [1, 2), by 2·artanh((y−1)/(y+1)). -/
def lnFx (y : Nat) : Nat :=
  let z := (y - 2 ^ fxP) * 2 ^ fxP / (y + 2 ^ fxP)
  let z2 := z * z / 2 ^ fxP
  2 * ((List.range 140).foldl (fun (s, p) i => (s + p / (2 * i + 1), p * z2 / 2 ^ fxP)) (0, z)).1

/-- Whole part and fraction (in fixed point, exact while e ≥ −fxP) of a signed finite value. -/
def splitFx (n : Bool) (m : Nat) (e : Int) : Int × Nat :=
  let v : Int := (if n then -1 else 1) * (m : Int)
  if e ≥ 0 then (v * 2 ^ e.toNat, 0)
  else
    let x := v * 2 ^ ((fxP : Int) + e).toNat
    (x / 2 ^ fxP, (x % 2 ^ fxP).toNat)

def fex2R (mode : Mode) (a : FV) : Nat × Fl :=
  match a with
  | .nan s => (canonNaN spec32, if s then flNV else 0)
  | .inf n => if n then (0, 0) else (infBits spec32 false, 0)
  | .fin n m e =>
    if m = 0 then (roundFin spec32 mode false 1 0 false false)
    else
      -- outside ±512 every result overflows or underflows alike
      let big := geScaled m e 512 0
      let (i, f) := if big then (if n then -512 else 512, 0) else splitFx n m e
      if f = 0 then roundFin spec32 mode false 1 i false false
      else roundFin spec32 mode false (expFx (f * ln2Fx / 2 ^ fxP)) (i - fxP) true false

def flg2R (mode : Mode) (a : FV) : Nat × Fl :=
  match a with
  | .nan s => (canonNaN spec32, if s then flNV else 0)
  | .inf n => if n then (canonNaN spec32, flNV) else (infBits spec32 false, 0)
  | .fin n m e =>
    if m = 0 then (infBits spec32 true, flDZ)
    else if n then (canonNaN spec32, flNV)
    else
      let ex := e + bitLen m - 1
      if m = 2 ^ (bitLen m - 1) then cvtifR spec32 mode ex
      else
        let y := m * 2 ^ fxP / 2 ^ (bitLen m - 1)
        let v : Int := ex * 2 ^ fxP + ((lnFx y * 2 ^ fxP / ln2Fx : Nat) : Int)
        roundFin spec32 mode (decide (v < 0)) (if v < 0 then v.natAbs - 1 else v.natAbs) (-(fxP : Int)) true false

/-- sin (π · r) for r = i + f/2^fxP, sign and fixed-point magnitude; `none` for an exact 0, 2^fxP for an exact ±1. -/
def sinPi (i : Int) (f : Nat) : Bool × Option Nat :=
  let neg := decide (i % 2 = 1)
  if f = 0 then (neg, none)
  else
    let f := if f > 2 ^ (fxP - 1) then 2 ^ fxP - f else f
    if f = 2 ^ (fxP - 1) then (neg, some (2 ^ fxP)) else (neg, some (sinFx (f * piFx / 2 ^ fxP)))

def fsinpR (mode : Mode) (a : FV) : Nat × Fl :=
  match a with
  | .nan s => (canonNaN spec32, if s then flNV else 0)
  | .inf _ => (canonNaN spec32, flNV)
  | .fin n m e =>
    if m = 0 then (signAt spec32 n, 0)
    else
      let (i, f) := splitFx n m e
      match sinPi i f with
      | (_, none) => (signAt spec32 n, 0)
      | (neg, some x) => roundFin spec32 mode neg x (-(fxP : Int)) (decide (x ≠ 2 ^ fxP)) false

def fcospR (mode : Mode) (a : FV) : Nat × Fl :=
  match a with
  | .nan s => (canonNaN spec32, if s then flNV else 0)
  | .inf _ => (canonNaN spec32, flNV)
  | .fin n m e =>
    if m = 0 then roundFin spec32 mode false 1 0 false false
    else
      -- cos(πx) = sin(π(x + 1/2))
      let (i, f) := splitFx n m e
      let g := f + 2 ^ (fxP - 1)
      let (i, f) := if g ≥ 2 ^ fxP then (i + 1, g - 2 ^ fxP) else (i, g)
      match sinPi i f with
      | (_, none) => (0, 0)
      | (neg, some x) => roundFin spec32 mode neg x (-(fxP : Int)) (decide (x ≠ 2 ^ fxP)) false

end Sys2Proof.Machine
end

