-- ==== Sys2Proof/Machine/IntMix.lean ====
section
/-! DEFINITION. Integer, logic, bit, move, select, compare, predicate and fixed-point instructions of class MIX
(R88-R107). -/

namespace Sys2Proof.Machine

/-- FCTL.SAT set (R60). -/
def Thread.setSat (t : Thread) : Thread := { t with fctl := t.fctl ||| 0x4000#32 }

/-- A 32-bit instruction of R90: `op a b d` with a flag for a clamp; `rd` when it reads d. -/
def int32 (i : Instr) (x : Bx) (rd : Bool) (op : Word → Word → Word → Word × Bool) (s : State) : Out :=
  if x.u then
    uniEff i (fun sf gid s =>
      let a := sget {} sf x.a.toNat
      let b := ubval sf x.b
      let d := sget {} sf x.d.toNat
      let (r, sat) := op a.w b.w d.w
      let s := if sat then s.mapLanes gid ((s.cur.map fun c => c.lanes).getD []) Thread.setSat else s
      s.setS gid x.d.toNat ⟨r, a.poi || b.poi || (rd && d.poi)⟩) s
  else
    laneEff i (fun sf t =>
      let a := t.vget x.a.toNat
      let b := bval sf t x.b
      let d := t.vget x.d.toNat
      let (r, sat) := op a.w b.w d.w
      let t := if sat then t.setSat else t
      t.vset x.d.toNat ⟨r, a.poi || b.poi || (rd && d.poi)⟩) s

/-- The same for an operation without clamp that does not read d. -/
def int2 (i : Instr) (x : Bx) (op : Word → Word → Word) (s : State) : Out :=
  int32 i x false (fun a b _ => (op a b, false)) s

/-- An integer clamped to [lo, hi], with the mark that it was clamped (R92, R105). -/
def clampInt (v lo hi : Int) : Int × Bool := if v > hi then (hi, true) else if v < lo then (lo, true) else (v, false)

/-- SADD and SSUB (R92). -/
def satOp (uns sub : Bool) (a b : Word) : Word × Bool :=
  let f (x y : Int) := if sub then x - y else x + y
  let (v, c) := if uns then clampInt (f a.toNat b.toNat) 0 (2 ^ 32 - 1)
                else clampInt (f a.toInt b.toInt) (-(2 ^ 31)) (2 ^ 31 - 1)
  (BitVec.ofInt 32 v, c)

/-- Quotient and remainder (R91). -/
def divOp (uns : Bool) (a b : Word) : Word :=
  if b = 0 then BitVec.allOnes 32
  else if uns then BitVec.ofNat 32 (a.toNat / b.toNat) else BitVec.ofInt 32 (a.toInt.tdiv b.toInt)
def remOp (uns : Bool) (a b : Word) : Word :=
  if b = 0 then a
  else if uns then BitVec.ofNat 32 (a.toNat % b.toNat) else BitVec.ofInt 32 (a.toInt.tmod b.toInt)

/-- Minimum and maximum in the view `.uns` selects (R90). -/
def minOp (uns : Bool) (a b : Word) : Word := if (if uns then b.ult a else b.slt a) then b else a
def maxOp (uns : Bool) (a b : Word) : Word := if (if uns then a.ult b else a.slt b) then b else a

/-- Shifts by the whole unsigned b (R90). -/
def shlOp (a b : Word) : Word := if b.toNat < 32 then a <<< b.toNat else 0
def shrOp (a b : Word) : Word := if b.toNat < 32 then a >>> b.toNat else 0
def sarOp (a b : Word) : Word := a.sshiftRight (min b.toNat 32)

/-- IMULH (R90). -/
def mulhOp (uns : Bool) (a b : Word) : Word :=
  if uns then BitVec.ofNat 32 (a.toNat * b.toNat / 2 ^ 32) else BitVec.ofInt 32 (a.toInt * b.toInt / 2 ^ 32)

def execIadd (x : Bx) (s : State) : Out := int2 (.iadd x) x (· + ·) s
def execIsub (x : Bx) (s : State) : Out := int2 (.isub x) x (· - ·) s
def execImul (x : Bx) (s : State) : Out := int2 (.imul x) x (· * ·) s
def execImulh (x : Bx) (s : State) : Out := int2 (.imulh x) x (mulhOp x.f) s
def execImad (x : Bx) (s : State) : Out := int32 (.imad x) x true (fun a b d => (a * b + d, false)) s
def execImin (x : Bx) (s : State) : Out := int2 (.imin x) x (minOp x.f) s
def execImax (x : Bx) (s : State) : Out := int2 (.imax x) x (maxOp x.f) s
def execSadd (x : Bx) (s : State) : Out := int32 (.sadd x) x false (fun a b _ => satOp x.f false a b) s
def execSsub (x : Bx) (s : State) : Out := int32 (.ssub x) x false (fun a b _ => satOp x.f true a b) s
def execIdiv (x : Bx) (s : State) : Out := int2 (.idiv x) x (divOp x.f) s
def execIrem (x : Bx) (s : State) : Out := int2 (.irem x) x (remOp x.f) s
def execAnd (x : Bx) (s : State) : Out := int2 (.and x) x (· &&& ·) s
def execOr (x : Bx) (s : State) : Out := int2 (.or x) x (· ||| ·) s
def execXor (x : Bx) (s : State) : Out := int2 (.xor x) x (· ^^^ ·) s
def execAndn (x : Bx) (s : State) : Out := int2 (.andn x) x (fun a b => a &&& ~~~b) s
def execShl (x : Bx) (s : State) : Out := int2 (.shl x) x shlOp s
def execShr (x : Bx) (s : State) : Out := int2 (.shr x) x shrOp s
def execSar (x : Bx) (s : State) : Out := int2 (.sar x) x sarOp s
def execRotl (x : Bx) (s : State) : Out := int2 (.rotl x) x (fun a b => a.rotateLeft (b.toNat % 32)) s

/-- A unary instruction of R93. -/
def int1 (i : Instr) (x : Un) (f : Word → Word) (s : State) : Out :=
  if x.u then uniEff i (fun sf gid s => let a := sget {} sf x.a.toNat
                                        s.setS gid x.d.toNat ⟨f a.w, a.poi⟩) s
  else laneEff i (fun _ t => let a := t.vget x.a.toNat
                             t.vset x.d.toNat ⟨f a.w, a.poi⟩) s

/-- The number of 1 bits, of leading 0 bits, and the bits in reverse (R93). -/
def popcOp (a : Word) : Word := BitVec.ofNat 32 ((List.range 32).filter fun i => a.getLsbD i).length
def clzOp (a : Word) : Word := BitVec.ofNat 32 ((List.range 32).takeWhile fun i => !a.getMsbD i).length
def brevOp (a : Word) : Word := (List.range 32).foldl (fun r i => if a.getLsbD i then r ||| (1#32 <<< (31 - i)) else r) 0

def execIabs (x : Un) (s : State) : Out := int1 (.iabs x) x (fun a => if a.msb then -a else a) s
def execIneg (x : Un) (s : State) : Out := int1 (.ineg x) x (fun a => -a) s
def execPopc (x : Un) (s : State) : Out := int1 (.popc x) x popcOp s
def execClz (x : Un) (s : State) : Out := int1 (.clz x) x clzOp s
def execBrev (x : Un) (s : State) : Out := int1 (.brev x) x brevOp s

/-- A 64-bit instruction of R94. -/
def int64 (i : Instr) (x : Bx) (rd : Bool) (op : DWord → DWord → DWord → DWord) (s : State) : Out :=
  if x.u then
    uniEff i (fun sf gid s =>
      let a := spair sf x.a.toNat
      let b := ubval64 sf x.b
      let d := spair sf x.d.toNat
      s.setS64 gid x.d.toNat ⟨op a.w b.w d.w, a.poi || b.poi || (rd && d.poi)⟩) s
  else
    laneEff i (fun sf t =>
      let a := vpair t x.a.toNat
      let b := bval64 sf t x.b
      let d := vpair t x.d.toNat
      t.vset64 x.d.toNat ⟨op a.w b.w d.w, a.poi || b.poi || (rd && d.poi)⟩) s

def execIadd64 (x : Bx) (s : State) : Out := int64 (.iadd64 x) x false (fun a b _ => a + b) s
def execIsub64 (x : Bx) (s : State) : Out := int64 (.isub64 x) x false (fun a b _ => a - b) s
def execImad64 (x : Bx) (s : State) : Out := int64 (.imad64 x) x true (fun a b d => a * b + d) s

/-- A 64-bit shift, whose b is a 32-bit operand (R95). -/
def sh64 (i : Instr) (x : Bx) (op : DWord → Nat → DWord) (s : State) : Out :=
  if x.u then
    uniEff i (fun sf gid s =>
      let a := spair sf x.a.toNat
      let b := ubval sf x.b
      s.setS64 gid x.d.toNat ⟨op a.w b.w.toNat, a.poi || b.poi⟩) s
  else
    laneEff i (fun sf t =>
      let a := vpair t x.a.toNat
      let b := bval sf t x.b
      t.vset64 x.d.toNat ⟨op a.w b.w.toNat, a.poi || b.poi⟩) s

/-- 64-bit shifts by a whole amount (R95). -/
def shl64Op (a : DWord) (n : Nat) : DWord := if n < 64 then a <<< n else 0
def shr64Op (sx : Bool) (a : DWord) (n : Nat) : DWord :=
  if sx then a.sshiftRight (min n 64) else if n < 64 then a >>> n else 0

def execShl64 (x : Bx) (s : State) : Out := sh64 (.shl64 x) x shl64Op s
def execShr64 (x : Bx) (s : State) : Out := sh64 (.shr64 x) x (shr64Op x.f) s

/-- A form with sources A and a bv operand B (R96, R97, R105, R106). -/
def int2v (i : Instr) (u : Bool) (d a : Nat) (b : Opv) (rd : Bool) (op : Word → Word → Word → Word × Bool) (s : State) :
    Out :=
  if u then
    uniEff i (fun sf gid s =>
      let a := sget {} sf a
      let b := uovval sf b
      let o := sget {} sf d
      let (r, sat) := op a.w b.w o.w
      let s := if sat then s.mapLanes gid ((s.cur.map fun c => c.lanes).getD []) Thread.setSat else s
      s.setS gid d ⟨r, a.poi || b.poi || (rd && o.poi)⟩) s
  else
    laneEff i (fun sf t =>
      let a := t.vget a
      let b := ovval sf t b
      let o := t.vget d
      let (r, sat) := op a.w b.w o.w
      let t := if sat then t.setSat else t
      t.vset d ⟨r, a.poi || b.poi || (rd && o.poi)⟩) s

/-- Position and length of a bit field (R96). -/
def fieldOf (b : Word) : Nat × Nat :=
  let pos := b.toNat % 32
  (pos, min (bits b.toNat 13 8) (32 - pos))

/-- BFE and BFI (R96). -/
def bfeOp (sx : Bool) (a b : Word) : Word :=
  let (pos, len) := fieldOf b
  let f := a.toNat / 2 ^ pos % 2 ^ len
  if sx && decide (0 < len) && f.testBit (len - 1) then BitVec.ofInt 32 ((f : Int) - 2 ^ len) else BitVec.ofNat 32 f
def bfiOp (a b d : Word) : Word :=
  let (pos, len) := fieldOf b
  BitVec.ofNat 32 (d.toNat - d.toNat / 2 ^ pos % 2 ^ len * 2 ^ pos + a.toNat % 2 ^ len * 2 ^ pos)

def execBfe (x : Bf) (s : State) : Out :=
  int2v (.bfe x) x.u x.d.toNat x.a.toNat x.b false (fun a b _ => (bfeOp x.sx a b, false)) s
def execBfi (x : Bf) (s : State) : Out :=
  int2v (.bfi x) x.u x.d.toNat x.a.toNat x.b true (fun a b d => (bfiOp a b d, false)) s
def execLea (x : LeaF) (s : State) : Out :=
  int2v (.lea x) x.u x.d.toNat x.a.toNat x.b false (fun a b _ => (b + (a <<< x.sh.toNat), false)) s

/-- Rounding of an exact quotient n / 2^k to an integer, by M[1:0] (R105). -/
def shiftRound (r : QRnd) (n : Int) (k : Nat) : Int :=
  let q := n / 2 ^ k
  let rem := n - q * 2 ^ k
  match r with
  | .rmi => q
  | .rz => n.tdiv (2 ^ k)
  | .rne => if 2 * rem > 2 ^ k ∨ (2 * rem = 2 ^ k ∧ q % 2 = 1) then q + 1 else q

/-- QMUL and QSHR (R105, R106). -/
def qmulOp (r : QRnd) (k : Nat) (a b : Word) : Word × Bool :=
  let (v, c) := clampInt (shiftRound r (a.toInt * b.toInt) k) (-(2 ^ 31)) (2 ^ 31 - 1)
  (BitVec.ofInt 32 v, c)
def execQmul (x : QmulF) (s : State) : Out :=
  int2v (.qmul x) x.u x.d.toNat x.a.toNat x.b false (fun a b _ => qmulOp x.rnd x.shift.toNat a b) s
def execQshr (x : QshrF) (s : State) : Out :=
  int2v (.qshr x) x.u x.d.toNat x.a.toNat x.b false
    (fun a b _ => (BitVec.ofInt 32 (shiftRound x.rnd a.toInt (b.toNat % 64)), false)) s

/-- A move of one value (R98). -/
def moveTo (i : Instr) (u : Bool) (d : Nat) (uv : RegFile → Reg) (lv : RegFile → Thread → Reg) (s : State) : Out :=
  if u then uniEff i (fun sf gid s => s.setS gid d (uv sf)) s
  else laneEff i (fun sf t => t.vset d (lv sf t)) s

def execMov (x : MovF) (s : State) : Out :=
  moveTo (.mov x) x.u x.d.toNat (fun sf => uovval sf x.b) (fun sf t => ovval sf t x.b) s
def execMovi (x : MoviF) (s : State) : Out :=
  moveTo (.movi x) x.u x.d.toNat (fun _ => ⟨x.imm.signExtend 32, false⟩) (fun _ _ => ⟨x.imm.signExtend 32, false⟩) s
def execMovl (x : MovlF) (s : State) : Out :=
  moveTo (.movl x) x.u x.d.toNat (fun _ => ⟨x.lit, false⟩) (fun _ _ => ⟨x.lit, false⟩) s

/-- POCAUSE of a record (R83). -/
def poCause (p : PoRec) : Word :=
  if p.v then BitVec.ofNat 32 (2 ^ 31 + p.sub % 256 * 2 ^ 16 + p.cause % 256) else 0

/-- TFCAUSE of a frame (R419). -/
def tfCause (f : Frame) : Word :=
  if f.v then BitVec.ofNat 32 (2 ^ 31 + (if f.dfr then 2 ^ 30 else 0) + f.resume * 2 ^ 28 + f.sub % 256 * 2 ^ 16 + f.cause % 256)
  else 0

/-- Special registers that a uniform MOVS may read (R80, R99). -/
def groupSpecial (n : Nat) : Bool := decide (2 ≤ n ∧ n ≤ 0x0A) || decide (0x0C ≤ n ∧ n ≤ 0x0F)

/-- A special register of a thread (R80, R83, R418). NACT counts visible lanes of the issue. -/
def special (s : State) (g : Group) (iss : Issue) (t : Thread) (n : Nat) : Word :=
  let w (x : Nat) : Word := BitVec.ofNat 32 x
  let f := t.frame
  let inH (x : Word) : Word := if t.handler then x else 0
  match n with
  | 0x00 => w (if slideOf s g then t.ident.laneId else visible g.coursed t.lane)
  | 0x01 => w t.ident.grpId
  | 0x02 => w t.ident.wgX
  | 0x03 => w t.ident.wgY
  | 0x04 => w t.ident.wgZ
  | 0x05 => w t.ident.gangId
  | 0x06 => w t.ident.gangWg
  | 0x07 => w g.core
  | 0x08 => w (g.core / 4)
  | 0x09 => w Config.peerId
  | 0x0C => w t.ident.ticket
  | 0x0D => match t.fret with | some r => w r | none => BitVec.allOnes 32
  | 0x0E => w (visCount g.coursed iss.lanes)
  | 0x0F => w (s.ctxOf g)
  | 0x10 => poCause t.po
  | 0x11 => if t.po.v then w t.po.addr else 0
  | 0x12 => if t.po.v then w (t.po.addr / 2 ^ 32 % 2 ^ 25) else 0
  | 0x13 => if t.po.v then t.po.code else 0
  | 0x40 => inH (tfCause f)
  | 0x41 => inH f.pc
  | 0x42 => inH (w f.addr)
  | 0x43 => inH (w (f.addr / 2 ^ 32 % 2 ^ 25))
  | 0x44 => inH (f.mask.setWidth 32)
  | 0x45 => inH ((f.mask >>> 32).setWidth 32)
  | 0x46 => inH f.lane
  | 0x47 => inH f.info0
  | 0x48 => inH f.info1
  | 0x49 => inH f.info2
  | 0x4A => inH f.info3
  | _ => 0

/-- MOVS (R99). The decoder has refused unlisted numbers and per-thread numbers in U form. In slide mode a group's threads may carry
different workgroup, gang and ticket numbers; the U form then reads the first active thread's (DESIGN CHOICE, log entry 53). -/
def execMovs (x : MovsF) (s : State) : Out :=
  issued (.movs x) (fun iss g s =>
    let n := x.num.toNat
    let d := x.d.toNat
    let cyc : Val64 := ⟨BitVec.ofNat 64 s.cycle, false⟩
    let s' :=
      if x.u then
        if n = 0x0A then s.setS64 iss.gid d cyc
        else
          let t := (g.threads.find? fun t => iss.lanes.contains t.lane).getD {}
          s.setS iss.gid d ⟨special s g iss t n, false⟩
      else
        s.mapLanes iss.gid iss.lanes fun t =>
          if n = 0x0A then t.vset64 d cyc else t.vset d ⟨special s g iss t n, false⟩
    advance s' iss) s

/-- MOVS of POTAKE: POCAUSE, and the record is emptied in the same step (R80, R82). -/
def execPotake (d : VReg) (s : State) : Out :=
  laneEff (.potake d) (fun _ t => { t.vset d.toNat ⟨poCause t.po, false⟩ with po := {} }) s

/-- SEL (R100). -/
def execSel (x : SelF) (s : State) : Out :=
  laneEff (.sel x) (fun _ t =>
    let v := if t.pval x.p.toNat then t.vget x.a.toNat else t.vget x.b.toNat
    t.vset x.d.toNat ⟨v.w, v.poi || t.ppoi x.p.toNat⟩) s

/-- Conditions of ICMP (R46, R101). -/
def icond (c : ICond) {n : Nat} (a b : BitVec n) : Bool :=
  match c with
  | .eq => a == b
  | .ne => a != b
  | .lt => a.slt b
  | .le => a.sle b
  | .gt => b.slt a
  | .ge => b.sle a
  | .ltu => a.ult b
  | .leu => a.ule b
  | .gtu => b.ult a
  | .geu => b.ule a

def execIcmp (x : IcmpF) (s : State) : Out :=
  laneEff (.icmp x) (fun sf t =>
    if x.w64 then
      let a := vpair t x.a.toNat
      let b := bval64 sf t x.b
      t.pset x.p.toNat (icond x.c a.w b.w) (a.poi || b.poi)
    else
      let a := t.vget x.a.toNat
      let b := bval sf t x.b
      t.pset x.p.toNat (icond x.c a.w b.w) (a.poi || b.poi)) s

/-- PLOP (R102): result, and whether it reads A and B. -/
def plopOp (o : PlopOp) (a b : Bool) : Bool × Bool × Bool :=
  match o with
  | .and => (a && b, true, true)
  | .or => (a || b, true, true)
  | .xor => (a != b, true, true)
  | .andn => (a && !b, true, true)
  | .orn => (a || !b, true, true)
  | .not => (!a, true, false)
  | .set => (true, false, false)
  | .clr => (false, false, false)

def execPlop (x : PlopF) (s : State) : Out :=
  laneEff (.plop x) (fun _ t =>
    let (r, ra, rb) := plopOp x.op (t.pval x.a.toNat) (t.pval x.b.toNat)
    t.pset x.d.toNat r ((ra && t.ppoi x.a.toNat) || (rb && t.ppoi x.b.toNat))) s

def execPmov (x : PmovF) (s : State) : Out :=
  laneEff (.pmov x) (fun _ t =>
    if x.tov then t.vset x.v.toNat ⟨if t.pval x.p.toNat then 1 else 0, t.ppoi x.p.toNat⟩
    else t.pset x.p.toNat ((t.vget x.v.toNat).w != 0) (t.vget x.v.toNat).poi) s

def execPchk (x : PchkF) (s : State) : Out :=
  laneEff (.pchk x) (fun _ t =>
    t.pset x.p.toNat ((t.vget x.a.toNat).poi || (x.w64 && (t.vget (x.a.toNat + 1)).poi)) false) s

end Sys2Proof.Machine
end

