-- ==== Sys2Proof/Machine/Access.lean ====
section
/-! DEFINITION. Buffer records, from index to line, translation, and the race detector (R156-R169, R179-R184,
R344-R350, R377, R437). -/

namespace Sys2Proof.Machine

/-- A buffer record (R156). -/
structure Rec where
  stride : Nat := 0
  extent : Nat := 0
  esz : Nat := 0
  kind : Nat := 0
  base : Nat := 0
  scope : Nat := 0
  cache : Nat := 0
  track : Bool := false
  swz : Nat := 0
  res : Bool := false
  poi : Bool := false
  deriving DecidableEq, Repr

/-- The record of four registers (R156). -/
def recAt (sf : RegFile) (r : RecN) : Rec :=
  let n := 4 * r.toNat
  let w (i : Nat) := (sget {} sf (n + i)).w.toNat
  { stride := bits (w 3) 31 16, extent := w 2, esz := bits (w 1) 31 29, kind := bits (w 1) 28 25,
    base := bits (w 1) 24 0 * 2 ^ 32 + w 0, scope := bits (w 3) 8 7, cache := bits (w 3) 6 5, track := (w 3).testBit 4,
    swz := bits (w 3) 3 0, res := decide (bits (w 3) 15 9 ≠ 0) || (decide (1 ≤ bits (w 1) 28 25 ∧ bits (w 1) 28 25 ≤ 5) &&
      decide (bits (w 1) 24 0 ≠ 0)),
    poi := (List.range 4).any fun i => (sget {} sf (n + i)).poi }

/-- Element size in bytes, and the effective stride (R156, R164). -/
def Rec.es (r : Rec) : Nat := 2 ^ r.esz
def Rec.t (r : Rec) : Nat := if r.stride = 0 then r.es else r.stride

/-- The resolved scope: 0 .blk, 1 .qrt, 2 .dev, 3 .sys (R46, R156). -/
def Rec.sc (r : Rec) : Sc → Nat
  | .dflt => r.scope
  | .blk => 0
  | .qrt => 1
  | .dev => 2
  | .sys => 3

/-- Scopes that a kind permits (R176). -/
def scopeOk (kind sc : Nat) : Bool :=
  match kind with
  | 0 => true
  | 1 => sc == 0
  | 2 => decide (sc ≤ 1)
  | 3 => true
  | 6 => sc == 3
  | 7 => decide (2 ≤ sc)
  | _ => true

/-- The lowest subcode of R159 that holds: the kinds the instruction accepts, and whether width and scope are
permitted. -/
def recBad (r : Rec) (kinds : List Nat) (ok8 : Bool) : Option Nat :=
  if !kinds.contains r.kind then some 1
  else if r.res then some 2
  else if 5 ≤ r.esz ∨ (r.kind = 7 ∧ r.esz ≠ 2 ∧ r.esz ≠ 3) then some 3
  else if 6 ≤ r.swz ∨ (r.swz ≠ 0 ∧ r.kind ≠ 1 ∧ r.kind ≠ 2) ∨ (r.cache ≠ 0 ∧ r.kind ≠ 0 ∧ r.kind ≠ 7) ∨
      (r.track ∧ r.kind ≠ 0 ∧ r.kind ≠ 1 ∧ r.kind ≠ 7) then some 4
  else if r.stride % r.es ≠ 0 then some 5
  else if r.base % r.es ≠ 0 then some 6
  else if !ok8 then some 8
  else none

/-- The swizzle of a byte offset (R160): the 8-byte unit moves within its 256-byte row. -/
def swizzle (m o : Nat) : Nat :=
  if m = 0 then o
  else
    let lo := bits o (m + 2) 3
    o - lo * 8 + Nat.xor lo (bits o (m + 7) 8) * 8

/-- The unswizzled byte offset and the byte address of an index (R164). The swizzle moves units within the rows of the record's
own offsets, to which the base is then added, as R164 gives it; with a base that is no multiple of 256 the moved unit may lie
past the allocation's end, which R160 takes not to happen and R166 does not check (DEDUCED, log entry 43). -/
def Rec.off (r : Rec) (i : Nat) : Nat := i * r.t
def Rec.addr (r : Rec) (i : Nat) : Nat := r.base + swizzle r.swz (r.off i)

/-- The scratchpad bytes a workgroup's records may reach: its allocation without its exchange window (R166, R216). A Joining
workgroup's window is excluded from the boundary on, at which R217 gives it the window (DESIGN CHOICE, log entry 63). -/
def allocOf (s : State) (w : Wg) : Nat :=
  match w.xm with
  | some x => if x.pending then w.size else w.size - 4096 * (((s.ctx? w.ctx).map fun c => (sget {} c.xgroups x.grp).win).getD 0)
  | none => w.size

/-- Workgroups of a gang by GANGWG. -/
def gangWgs (s : State) (gang : Nat) : List Wg := s.wgs.filter fun w => w.gang = gang
/-- Size of a gang window (R162): every member has the same allocation. -/
def gangWindow (s : State) (w : Wg) : Nat := (gangWgs s w.gang).length * w.size
/-- Bank size in bytes of a workgroup's exchange window; 0 for a non-member (R219). -/
def bankSize (s : State) (w : Wg) : Nat :=
  match w.xm with
  | some x => if x.pending then 0 else 2048 * (((s.ctx? w.ctx).map fun c => (sget {} c.xgroups x.grp).win).getD 0)
  | none => 0

/-- The key of a scratchpad byte: the core and its offset. -/
def scratchKey (w : Wg) (off : Nat) : Nat := w.core * Config.scratchSpan + w.base + off
/-- The member that holds a gang-window byte, and its local offset there (R162). -/
def gangPlace (s : State) (w : Wg) (o : Nat) : Wg × Nat :=
  let n := max 1 (gangWgs s w.gang).length
  match (gangWgs s w.gang).find? fun x => x.ident.gangWg = o / 128 % n with
  | some x => (x, o / (128 * n) * 128 + o % 128)
  | none => (w, o)
/-- The key of a gang-window byte (R162). -/
def gangKey (s : State) (w : Wg) (o : Nat) : Nat := scratchKey (gangPlace s w o).1 (gangPlace s w o).2
/-- Bytes of the gang window that records may reach: inside it, and outside its member's exchange window (R166, R216). -/
def gangIn (s : State) (w : Wg) (o n : Nat) : Bool :=
  decide (o + n ≤ gangWindow s w) && decide ((gangPlace s w o).2 + n ≤ allocOf s (gangPlace s w o).1)
/-- The workgroup is a member of an exchange group (R215). -/
def Wg.member (w : Wg) : Bool := w.xm.elim false fun x => !x.pending

/-- In range (R166). An XST of a workgroup in no exchange group meets no bank size: its lines fail at step 9 (R219). -/
def inRange (s : State) (w : Wg) (r : Rec) (i wid : Nat) (store : Bool) : Bool :=
  let o := r.off i
  decide (i < r.extent) && decide (o + wid ≤ (r.extent - 1) * r.t + r.es) &&
  (match r.kind with
   | 1 => decide (r.base + o + wid ≤ allocOf s w)
   | 2 => gangIn s w (r.base + o) wid
   | 3 => if store then !w.member || decide (r.addr i % 65536 < bankSize s w) else decide (r.addr i < bankSize s w)
   | _ => true)

/-! ### Translation (R344-R350) -/

/-- Eight bytes of device memory. -/
def read64 (s : State) (a : Nat) : Nat := ofLE (s.read .dev a 8)

/-- A table pointer's target, or none where it is not valid (R344, R346). -/
def tablePtr (e : Nat) : Option Nat := if bits e 0 0 = 1 ∧ bits e 31 1 = 0 then some (bits e 63 32 * 65536) else none

/-- The device address of a page's leaf entry (R344). -/
def leafAt (s : State) (root va : Nat) : Option Nat :=
  (tablePtr (read64 s (root + 8 * bits va 56 42))).bind fun mid =>
    (tablePtr (read64 s (mid + 8 * bits va 41 29))).map fun lf => lf + 8 * bits va 28 16

/-- A table pointer that the walk caches hold for an address of a context (R349). -/
def walkHit (s : State) (ctx level idx : Nat) : Option Nat :=
  (s.walkCache.find? fun e => e.ctx == ctx && e.level == level && e.idx == idx).map (·.table)
/-- The middle and the leaf table of an address, as a walk of a context finds them. -/
def walkMid (s : State) (c : Context) (va : Nat) : Option Nat :=
  match walkHit s c.id 0 (va / 2 ^ 42) with
  | some m => some m
  | none => tablePtr (read64 s (c.ptroot + 8 * bits va 56 42))
def walkLeafTable (s : State) (c : Context) (va : Nat) : Option Nat :=
  match walkHit s c.id 1 (va / 2 ^ 29) with
  | some m => some m
  | none => (walkMid s c va).bind fun mid => tablePtr (read64 s (mid + 8 * bits va 41 29))

/-- Fields of a leaf (R345). -/
def leafPeer (l : Nat) : Nat := bits l 20 9
def leafMode (l : Nat) : Nat := bits l 8 7
def leafPfn (l : Nat) : Nat := bits l 63 32

/-- The walk (R344, R346, R349): the leaf, or none for cause 0x0A. -/
def walk (s : State) (c : Context) (va : Nat) : Option Nat :=
  ((walkLeafTable s c va).map fun lf => lf + 8 * bits va 28 16).bind fun a =>
    let l := read64 s a
    let grp := a - 8 * (bits va 20 16)
    let bigBad := l.testBit 29 && (!(List.range 32).all fun i => read64 s (grp + 8 * i) == l) || (l.testBit 29 && bits l 36 32 != 0)
    if !l.testBit 0 || bits l 31 30 != 0 || bigBad || (leafMode l == 3 && l.testBit 29) || (leafMode l == 2 && l.testBit 5) ||
        (leafMode l == 0 && leafPeer l != Config.peerId) then none
    else some l

/-- Fields of a range entry (R347). -/
def rngBase (ws : List Word) : Nat := wnat ws 0 + 2 ^ 32 * wnat ws 1
def rngLimit (ws : List Word) : Nat := wnat ws 2 + 2 ^ 32 * wnat ws 3
def rngOffset (ws : List Word) : Nat := wnat ws 4 + 2 ^ 32 * wnat ws 5

/-- The valid range entries that a context's RSMASK names for host ranges or for the others, in ascending number (R347, R348). -/
def rangesOf (s : State) (c : Context) (host : Bool) : List (Nat × List Word) :=
  ((List.range 48).map fun i => (i, sget [] s.ranges i)).filter fun e =>
    c.rsmask.getLsbD e.1 && (wnat e.2 6).testBit 0 && ((wnat e.2 6).testBit 4 == host)

/-- The range entry that gives an address's stage 2 result (R348): the lowest-numbered one that covers it with permission; `need` is a
mask of R 1, W 2, X 4. -/
def rangeFor (l : List (Nat × List Word)) (need p : Nat) : Option (Nat × List Word) :=
  l.find? fun e => (bits (wnat e.2 6) 3 1 &&& need == need) && decide (rngBase e.2 ≤ p ∧ p ≤ rngLimit e.2)

/-- The stage 2 result among some range entries (R348): the address and the host port. -/
def stage2In (l : List (Nat × List Word)) (need p : Nat) : Option (Nat × Nat) :=
  (rangeFor l need p).map fun e => ((p + rngOffset e.2) % 2 ^ 64, bits (wnat e.2 6) 5 5)

/-- Stage 2 with the range table as it stands (R347, R348). -/
def stage2 (s : State) (c : Context) (host : Bool) (need p : Nat) : Option (Nat × Nat) := stage2In (rangesOf s c host) need p

/-- A translation-cache entry holds a page of a context (R349). -/
def TlbE.holds (e : TlbE) (ctx page : Nat) : Bool := e.ctx == ctx && decide (e.page ≤ page ∧ page < e.page + e.size)

/-- The physical address of a page's first byte under a leaf (R344): a 2 MiB page takes VA[20:16] as PA[20:16]. -/
def leafBase (l page : Nat) : Nat := (leafPfn l + (if l.testBit 29 then page % 32 else 0)) * 65536

/-- The entry that a walk of a page gives (R349). -/
def walkEntry (s : State) (c : Context) (va l : Nat) : TlbE :=
  let size := if l.testBit 29 then 32 else 1
  let page := va / 65536 / size * size
  { ctx := c.id, page := page, leaf := l, size := size,
    s2 := (rangesOf s c false).filter fun e => (List.range size).any fun k =>
      decide (rngBase e.2 ≤ leafBase l (page + k) ∧ leafBase l (page + k) ≤ rngLimit e.2) }

/-- The entry that the core's or its quartet's TLB or a walk gives for an address (R349). -/
def lookup (s : State) (core : Nat) (c : Context) (va : Nat) : Option TlbE :=
  let hit (l : List TlbE) := l.find? fun e => e.holds c.id (va / 65536)
  match hit (s.core core).tlb with
  | some e => some e
  | none => match hit (sget [] s.qtlb (core / 4)) with
    | some e => some e
    | none => (walk s c va).map (walkEntry s c va)

/-- The leaf the core's translation caches or a walk give (R349). -/
def leafOf (s : State) (core : Nat) (c : Context) (va : Nat) : Option Nat := (lookup s core c va).map (·.leaf)

/-- A TLB with an entry added; a full one drops its oldest (log entry 8). -/
def tlbAdd (cap : Nat) (e : TlbE) (l : List TlbE) : List TlbE :=
  let l := l.filter fun x => !(x.holds e.ctx e.page || e.holds x.ctx x.page)
  e :: l.take (cap - 1)

/-- The walk caches with the table pointers that a walk read (R349); full ones drop their oldest (log entry 8). -/
def walkFill (s : State) (c : Context) (va : Nat) : State :=
  let put (level idx : Nat) (t : Option Nat) (l : List WalkE) : List WalkE :=
    t.elim l fun m => ⟨c.id, level, idx, m⟩ :: l.filter fun e => !(e.ctx == c.id && e.level == level && e.idx == idx)
  let l := put 1 (va / 2 ^ 29) (walkLeafTable s c va) (put 0 (va / 2 ^ 42) (walkMid s c va) s.walkCache)
  { s with walkCache := l.take Config.walkCacheEntries }

/-- The core and quartet TLBs, and after a walk the walk caches, after a lookup of a page (R349). -/
def tlbFill (s : State) (core : Nat) (c : Context) (va : Nat) : State :=
  match lookup s core c va with
  | none => s
  | some e =>
    let held (t : List TlbE) : Bool := t.any fun x => x.holds c.id (va / 65536)
    let s := if held (s.core core).tlb || held (sget [] s.qtlb (core / 4)) then s else walkFill s c va
    let s := s.modCore core fun k => { k with tlb := tlbAdd Config.coreTlbEntries e k.tlb }
    { s with qtlb := sset [] s.qtlb (core / 4) (tlbAdd Config.quartetTlbEntries e (sget [] s.qtlb (core / 4))) }

/-- The peer checks (R377): the first failing subcode. -/
def peerBad (s : State) (c : Context) (peer : Nat) : Option Nat :=
  if !s.populated.contains peer then some 1
  else if !s.enabled.contains peer || !(s.links.any fun (_, l) => decide (l.state = .up)) then some 2
  else if !(c.partition_.contains peer || peer == Config.peerId) then some 3
  else none

/-- A translation's answer (R35, R168): a device address with its leaf, the peer that owns the page, or a fault. -/
inductive Tr where
  | here (pa : Nat) (leaf : Nat)
  | peer (p : Nat) (leaf : Nat)
  | fault (cause sub : Nat)
  deriving DecidableEq, Repr

/-- The owner of a mode 11 page as the owner cache or the leaf names it (R350, R352). -/
def ownerOf (s : State) (ctx page leaf : Nat) : Nat :=
  match s.owners.find? fun e => e.ctx == ctx && e.page == page with
  | some e => if leafMode leaf = 3 then e.owner else leafPeer leaf
  | none => leafPeer leaf

/-- Whether a device address lies in a secure region or is homed at a secure slice (R432). -/
def secureAt (s : State) (pa : Nat) : Bool :=
  (s.secureRegions.any fun (b, l) => decide (b ≤ pa / 65536 ∧ pa / 65536 ≤ l)) || s.secureSlices.contains (homeSlice pa)

/-- Every link that is Up is a secure one (R432), so that a packet of a non-secure context would have to take it. -/
def linksSecure (s : State) : Bool :=
  let up := s.links.filter fun l => decide (l.2.state = .up)
  !up.isEmpty && up.all fun l => s.secureLinks.contains l.1

/-- Translation of kinds 0 and 7 for a context (R168, R346-R350, R437), `need` as in `rangeFor`. What R322 asks of a field page comes
after it: on a page whose owning peer is absent too, cause 0x0C is taken and not R322's 0x0B or 0x28, whose place R437 does not
give (DESIGN CHOICE, log entry 62). -/
def translate (s : State) (core : Nat) (c : Context) (need va : Nat) : Tr :=
  if va ≥ Config.virtualBytes then .fault 0x0A 0
  else match lookup s core c va with
  | none => .fault 0x0A 0
  | some e =>
    let l := e.leaf
    if l.testBit 4 && !c.world then .fault 0x0D 0
    else
      let own := leafMode l = 0 ∨ leafPeer l = Config.peerId
      let pa := leafBase l (va / 65536) + va % 65536
      let st2 := stage2In e.s2 need pa
      let sec := !c.world && (if own then (match st2 with | some (a, _) => secureAt s a | none => false) else linksSecure s)
      if sec then .fault 0x0D 0
      else if bits l 3 1 &&& need ≠ need then .fault 0x0B 0
      else if own then
        match st2 with
        | some (a, _) => if a < Config.deviceBytes then .here a l else .fault 0x0B 0
        | none => .fault 0x0B 0
      else
        let p := ownerOf s c.id (va / 65536) l
        match peerBad s c p with
        | some sub => .fault 0x0C sub
        | none => .peer p l

/-- Where a lane's bytes are. -/
inductive Loc where
  | at_ (sp : Space) (keys : List Nat) (leaf : Nat)
  | fault (cause sub : Nat)
  deriving DecidableEq, Repr

/-- Consecutive keys. -/
def keysFrom (a n : Nat) : List Nat := (List.range n).map (a + ·)

/-- The port that presents a context's function (R429): VF c, or the PF of port 0 for context 0. -/
def functionPort (s : State) (ctx : Nat) : Nat := if s.dualHost ∧ 32 ≤ ctx then 1 else 0

/-- A host port's link is up. -/
def portUp (s : State) (port : Nat) : Bool := if port = 0 then s.hostUp0 else s.hostUp1

/-- The stream of a function's TLPs through a port is insecure (R430): its selective stream, or where no key of that has been set, the
port's link stream (DEDUCED, log entry 71). -/
def streamBad (s : State) (ctx port : Nat) : Bool :=
  s.insecure.contains (.function ctx) || (!s.keyed.contains (.function ctx) && s.insecure.contains (.port port))

/-- A port whose link is down, or a stream that is not secure, is an absent peer (R380, R430). A context's accesses carry the requester ID
of its own function (R429), so that its stream counts. -/
def hostDown (s : State) (c : Context) (port : Nat) : Bool := !portUp s port || streamBad s c.id port

/-- The location of an access of `wid` bytes at index `i` (R162, R164, R168, R219). For an XST the member named by the
address; a line of a window that is no Member's is cause 0x0E, and what is written to an Arrived member whose gang has retired is
discarded with its window (R218). -/
def locate (s : State) (core : Nat) (w : Wg) (c : Context) (r : Rec) (i wid need : Nat) : Loc :=
  let a := r.addr i
  match r.kind with
  | 1 => .at_ .scratch ((List.range wid).map fun k => scratchKey w (r.base + swizzle r.swz (r.off i + k))) 0
  | 2 => .at_ .scratch ((List.range wid).map fun k => gangKey s w (r.base + swizzle r.swz (r.off i + k))) 0
  | 3 =>
    if need = 1 then
      match w.xm with
      | some x => .at_ .scratch (keysFrom (scratchKey w (x.base + x.bank * bankSize s w + a)) wid) 0
      | none => .fault 0x0E 0
    else
      match if w.member then w.xm else none with
      | none => .fault 0x0E 0
      | some x =>
        match s.wgs.find? fun v => v.ctx == w.ctx && (v.xm.elim false fun y => y.grp == x.grp && !y.pending &&
            y.member == a / 65536) with
        | some v =>
          let y := v.xm.getD {}
          .at_ .scratch (keysFrom (scratchKey v (y.base + (1 - y.bank) * bankSize s v + a % 65536)) wid) 0
        | none => if (sget {} c.xgroups x.grp : XGroup).gone.contains (a / 65536) then .at_ .scratch [] 0 else .fault 0x0E 0
  | 4 => .at_ .weight (keysFrom (core * 524288 + a) wid) 0
  | 6 =>
    if a ≥ Config.virtualBytes then .fault 0x0A 0
    else if !c.world && s.secureFunctions.contains c.id then .fault 0x0D 0
    else match stage2 s c true need a with
      | none => .fault 0x0B 0
      | some (p, port) => if hostDown s c port then .fault 0x0C 2 else .at_ .host (keysFrom p wid) port
  | _ =>
    match translate s core c need a with
    | .here pa l => .at_ .dev (keysFrom pa wid) l
    | .peer p l => .at_ (.remote p) (keysFrom a wid) l
    | .fault cs sub => .fault cs sub

/-! ### The race detector (R179-R184) -/

/-- The detector entries that a place's accesses go to. -/
def detOfSpace (s : State) (sp : Space) (line : Nat) : List Det :=
  match sp with
  | .scratch => (s.core (line * 128 / Config.scratchSpan)).det
  | _ => s.sliceDet

/-- Whether an access names a scope instance that holds the other thread (R181). -/
def scopeHolds (sc wg gang ctx wg' gang' ctx' : Nat) : Bool :=
  match sc with
  | 0 => wg == wg'
  | 1 => gang == gang'
  | _ => ctx == ctx'

/-- One lane's tracked access: place, words, write, and its scope when it synchronises. -/
structure Touch where
  lane : Nat
  sp : Space
  line : Nat
  words : List Nat
  write : Bool
  sync : Option Nat
  va : Nat

/-- The words of a 128-byte line that keys touch. -/
def touchOf (lane : Nat) (sp : Space) (keys : List Nat) (write : Bool) (sync : Option Nat) (va : Nat) : List Touch :=
  let lines := dedup (keys.map (· / 128))
  lines.map fun l => ⟨lane, sp, l, dedup ((keys.filter fun k => k / 128 == l).map fun k => k % 128 / 4), write, sync, va⟩

/-- Two accesses of different threads both synchronise and each one's scope instance contains the other's thread (R181). -/
def bothSync (sync : Option Nat) (wg gang ctx sd : Nat) (d : Det) : Bool :=
  sync.elim false fun sc => scopeHolds sc wg gang ctx d.wg d.gang d.ctx && scopeHolds sd d.wg d.gang d.ctx wg gang ctx

/-- How an earlier region's accesses to a word conflict with an access (R181): whether the one that does wrote. -/
def wordConflict (gang ctx wg : Nat) (t : Touch) (d : Det) (w : Nat) : Option Bool :=
  if d.writes.contains w then some true
  else
    let syncs := d.syncs.filter fun x => x.1 == w && !bothSync t.sync wg gang ctx x.2.1 d
    if syncs.any fun x => x.2.2 then some true
    else if t.write && (d.reads.contains w || !syncs.isEmpty) then some false else none

/-- The lane of an entry's thread that is none of some threads of a group and whose region, or whose share of a command's
interval, overlaps one that opened at a time (R182, R183). -/
def Det.meets (d : Det) (gid opened : Nat) (lanes : List Nat) : Option Nat :=
  let laps (c : Option Nat) : Bool := c.elim true fun c => decide (opened < c)
  let parts := if d.owners.isEmpty then [(d.lane, d.closed)] else d.owners
  (parts.find? fun p => !(d.gid == gid && lanes.contains p.1) && laps p.2).map (·.1)

/-- A conflicting earlier access of another thread in an overlapping region (R181, R182), for an access that counts for some
lanes of a group: the entry, its lane, the word, and whether it wrote. The spec leaves open which of several the frame names; the
model takes the entry that was made first (DESIGN CHOICE, log entry 44). -/
def conflict (s : State) (gid gang ctx wg opened : Nat) (lanes : List Nat) (t : Touch) : Option (Det × Nat × Nat × Bool) :=
  (detOfSpace s t.sp t.line).findSome? fun d =>
    if decide (d.space = t.sp) && d.line == t.line then
      (d.meets gid opened lanes).bind fun l => t.words.findSome? fun w => (wordConflict gang ctx wg t d w).map fun wrote => (d, l, w, wrote)
    else none

/-- An entry of a thread's own open region, or of a command, for a line. -/
def detMine (gid : Nat) (th : Thread) (cmd : Option Cmd) (t : Touch) (d : Det) : Bool :=
  d.space == t.sp && d.line == t.line && decide (d.cmd = cmd.map (·.id)) && d.closed.isNone &&
    (cmd.isSome || (d.gid == gid && d.lane == t.lane && d.region == th.region))

/-- The entry of a thread's region, or of a command's interval, for a line with the words added. -/
def detAdd (s : State) (g : Group) (w : Wg) (th : Thread) (cmd : Option Cmd) (t : Touch) : State :=
  let upd (d : Det) : Det :=
    match t.sync with
    | some sc => { d with syncs := dedupT (t.words.map (fun x => (x, sc, t.write)) ++ d.syncs) }
    | none => { d with reads := if t.write then d.reads else dedup (t.words ++ d.reads),
                       writes := if t.write then dedup (t.words ++ d.writes) else d.writes }
  let new : Det := upd { space := t.sp, line := t.line, gid := g.gid, lane := t.lane, wg := w.id, gang := w.gang, ctx := w.ctx,
                         ticket := th.ident.ticket, grpId := th.ident.grpId, region := th.region,
                         opened := (cmd.map (·.opened)).getD th.opened, cmd := cmd.map (·.id),
                         owners := (cmd.map fun c => c.owners.map fun o => (o.2, none)).getD [] }
  let mine := detMine g.gid th cmd t
  let add (l : List Det) : List Det := if l.any mine then l.map fun d => if mine d then upd d else d else l ++ [new]
  match t.sp with
  | .scratch => s.modCore (t.line * 128 / Config.scratchSpan) fun c => { c with det := add c.det }
  | _ => { s with sliceDet := add s.sliceDet }
where
  dedupT (l : List (Nat × Nat × Bool)) : List (Nat × Nat × Bool) := l.foldr (fun x r => if r.contains x then r else x :: r) []

/-- The entries that share a place's capacity (R184). -/
def detRoom (s : State) (t : Touch) : Nat :=
  match t.sp with
  | .scratch => Config.scratchDetectorEntries - (detOfSpace s t.sp t.line).length
  | _ => Config.sliceDetectorEntries - (s.sliceDet.filter fun d => homeSlice (d.line * 128) == homeSlice (t.line * 128)).length

/-- Whether a touch needs an entry that its place has no room for (R184). -/
def detFull (s : State) (g : Group) (th : Thread) (cmd : Option Cmd) (t : Touch) : Bool :=
  !((detOfSpace s t.sp t.line).any (detMine g.gid th cmd t)) && decide (detRoom s t = 0)

/-- Whether a record's accesses are tracked (R183). -/
def tracked (r : Rec) (sc : Nat) : Bool := r.track && (r.kind == 0 || r.kind == 1) && decide (sc ≤ 2)

/-- The touches that the detectors see: those of pages owned here and of scratchpads (R183). -/
def localTouches (ts : List Touch) : List Touch :=
  ts.filter fun t => match t.sp with | .dev => true | .scratch => true | _ => false

/-- What the detectors say of an engine element's accesses (R182-R184). -/
inductive CmdRace where
  | race
  | full
  | ok (s : State)

/-- The tracked accesses of an engine command's element, which count for every thread that issued it (R183) and are ordered after
all those threads' own (R236): a conflict, an entry that finds no room, or the entries made. -/
def cmdRace (s : State) (c : Cmd) (ts : List Touch) : CmdRace :=
  match c.owners.head?.bind fun o => (s.group? o.1).map fun g => (g, o.2), s.wg? c.wg with
  | some (g, l), some w =>
    let ts := (localTouches ts).map fun t => { t with lane := l }
    let th := (g.thread? l).getD {}
    if ts.any fun t => (conflict s g.gid w.gang w.ctx w.id c.opened (c.owners.map (·.2)) t).isSome then .race
    else
      let (s', miss) := ts.foldl (fun (s, miss) t => if detFull s g th (some c) t then (s, true) else (detAdd s g w th (some c) t, miss)) (s, false)
      if miss then .full else .ok s'
  | _, _ => .ok s

/-- Touches enter the detectors one after the other; the ones that found no room are left miss (R184). -/
def detAddAll (s : State) (g : Group) (w : Wg) (cmd : Option Cmd) (ts : List Touch) : State × List Touch :=
  ts.foldl (fun (s, miss) t =>
    let th := (g.thread? t.lane).getD {}
    if detFull s g th cmd t then (s, miss ++ [t]) else (detAdd s g w th cmd t, miss)) (s, [])

/-- Step 10 of R167 for an issue: cause 0x20, the stall of R184, or the entries added. The frame names X's physical lane, also
in coursed launch, and of several lanes that find no room the lowest one's address (DESIGN CHOICE, log entry 44). -/
def raceCheck (s : State) (iss : Issue) (g : Group) (w : Wg) (ts : List Touch) : Check :=
  let ts := localTouches ts
  let op (l : Nat) := ((g.thread? l).map fun t => t.opened).getD 0
  let hits := ts.filterMap fun t => (conflict s g.gid w.gang w.ctx w.id (op t.lane) [t.lane] t).map fun c => (t, c)
  let low := (minOf (hits.map fun h => h.1.lane)).bind fun l => hits.find? fun h => h.1.lane == l
  match low with
  | some (t, d, lane, word, wrote) =>
    .stop (takeTrap s iss 0x20
      { addr := t.va / 128 * 128 + 4 * word, info0 := (if wrote then 1 else 0),
        info1 := BitVec.ofNat 32 d.ticket, info2 := BitVec.ofNat 32 (lane * 256 + d.grpId), lanes := hits.map fun h => h.1.lane })
  | none =>
    let goUntracked := g.threads.any fun t => iss.lanes.contains t.lane && (match t.wait with | .detector 0 _ _ => true | _ => false)
    if goUntracked then .go s
    else match detAddAll s g w none ts with
    | (s', []) => .go s'
    | (_, t0 :: r) =>
      let already := g.threads.any fun t => iss.lanes.contains t.lane && (match t.wait with | .detector _ _ _ => true | _ => false)
      let t := (t0 :: r).foldl (fun a t => if t.lane < a.lane then t else a) t0
      .stop (if already then s else hold s iss (.detector (s.cycle + Config.detectorStall) t.va (dedup ((t0 :: r).map (·.lane)))))

/-- Whether a closed entry's region overlaps no region still open (R184). -/
def detDone (s : State) (d : Det) : Bool :=
  match d.closed with
  | none => false
  | some c => !(s.groups.any fun g => g.threads.any fun t => !t.exited && decide (t.opened < c)) &&
      !(s.cmds.any fun x => decide (x.state = .running) && decide (x.opened < c))

/-! ### Checks common to the accesses (R145, R167) -/

/-- Pairs of a coursed issue whose listed v-registers or poison bits differ (R145): the visible lanes. -/
def coursedDiff (g : Group) (iss : Issue) (regs : List Nat) : List Nat :=
  if !g.coursed then []
  else g.threads.filterMap fun t =>
    if iss.lanes.contains t.lane && decide (t.lane % 2 = 0) &&
        (match g.thread? (t.lane + 1) with
         | some u => regs.any fun r => decide (t.vget r ≠ u.vget r)
         | none => false) then some t.lane else none

/-- The lanes that make an access: every active lane, or the even lane of each pair (R144). -/
def acting (g : Group) (iss : Issue) : List Thread :=
  g.threads.filter fun t => iss.lanes.contains t.lane && (!g.coursed || t.lane % 2 == 0)

/-- A lane together with its shadow (R144). -/
def withShadow (g : Group) (lanes : List Nat) : List Nat :=
  if g.coursed then lanes.flatMap fun l => [l, l + 1] else lanes

/-- Whether a thread's earlier accesses have all ended; and its transfers too, as a release needs (R180, R191 note e). -/
def accsDone (s : State) (gid : Nat) (lanes : List Nat) : Bool :=
  !(s.accs.any fun a => a.gid == gid && a.lanes.any fun l => lanes.contains l.lane)
def drained (s : State) (gid : Nat) (lanes : List Nat) : Bool := accsDone s gid lanes && !xferOpen s gid lanes

/-- A queue has no room for another entry, or is being flushed (R284, R299, R314). -/
def queueFull (s : State) (q : Nat) : Bool :=
  (s.queue? q).elim false fun x => decide (Config.queueEntries ≤ x.entries.length) || x.state == 5

/-- Nothing that arrived earlier waits at a graph's header (R308). -/
def graphTurn (s : State) (ctx graph since : Nat) : Bool :=
  !(s.groups.any fun g => s.ctxOf g == ctx && g.threads.any fun t => match t.wait with
    | .graph h n _ _ => h == graph && decide (n < since)
    | _ => false)

/-- The deadline stamp of a sweep's or a group's packets, and its queue (R292). -/
def sweepStamp (s : State) (x : Option Sweep) : Nat × Option Nat :=
  match x.bind fun x => x.queue with
  | some q => ((s.cycle + ((s.queue? q).map fun q => q.budget).getD 32767) % 65536, some q)
  | none => ((s.cycle + 32767) % 65536, none)
def stampOf (s : State) (g : Group) : Nat × Option Nat := sweepStamp s (s.sweepOf g)

/-- The host port that an access of kind 6 uses (R348, R380). -/
def hostPortAt (s : State) (ctx : Nat) (op : AccOp) (va : Nat) : Nat :=
  let need := match op with | .load => 1 | .store => 2 | .atomic _ _ => 3
  match s.ctx? ctx with
  | some c => ((stage2 s c true need va).map (·.2)).getD 0
  | none => 0

/-- The points that serve an access of a core or of an engine to a line (R14, R18, R292). -/
def routeOf (s : State) (core ctx : Nat) (op : AccOp) (sp : Space) (line va : Nat) : List Nat :=
  match sp with
  | .dev => let r := homeRouter (homeSlice (line * 128)); toSlice (entryRouter s core r) (line * 128)
  | .remote _ => outFabric s core (portDie s ctx)
  | .host => toHost s core (hostPortAt s ctx op va)
  | .scratch => toScratch s core (line * 128)
  | .weight => []

/-- Lines of lane accesses become outstanding accesses, one per space and line (R168). -/
def addAccs (s : State) (iss : Issue) (g : Group) (w : Wg) (op : AccOp) (wid : Nat) (sync alloc : Bool)
    (ls : List (Space × LaneAcc)) (sc : Nat := 0) : State × List Nat :=
  let lineOf (l : LaneAcc) := (l.keys.headD 0) / 128
  let tags := (ls.map fun (sp, l) => (sp, lineOf l)).foldl (fun acc x => if acc.contains x then acc else acc ++ [x]) []
  let (stamp, q) := stampOf s g
  tags.foldl (fun (s, ids) (sp, line) =>
    let (id, s) := s.fresh
    let a : Acc := { id := id, gid := g.gid, core := g.core, ctx := w.ctx, pc := iss.pc, op := op, space := sp, line := line,
                     wid := wid, lanes := (ls.filter fun (p, l) => decide (p = sp) && lineOf l == line).map (·.2), sync := sync,
                     alloc := alloc, stamp := some stamp, queue := q, born := s.cycle, sc := sc, 
                     route := routeOf s g.core w.ctx op sp line (((ls.filter fun (p, l) => decide (p = sp) && lineOf l == line).head?.map (·.2.va)).getD 0) }
    ({ s with accs := s.accs ++ [a] }, ids ++ [id])) (s, [])

/-- The core read cache loses its kind 0 and 7 lines (R195). -/
def dropCache (s : State) (core : Nat) : State := s.modCore core fun c => { c with cache := [] }

/-- The workgroup and context of a group. -/
def placeOf (s : State) (g : Group) : Wg × Context :=
  let w := (s.wg? g.wg).getD {}
  (w, (s.ctx? w.ctx).getD {})

end Sys2Proof.Machine
end

