-- ==== Sys2Proof/Machine/Token.lean ====
section
/-! DEFINITION. Commands of a batch and the status of a token (R230-R235, R239), and a thread's departure toward a fret
(R382, R383, R387-R393, R396). -/

namespace Sys2Proof.Machine

/-! ### Batches and tokens -/

/-- The commands of a token, in batch order. -/
def tokenCmds (s : State) (k : Token) : List Cmd := k.ids.filterMap fun i => s.cmd? i

/-- The failed command of a token with its index in the batch (R232). -/
def tokenFailed (s : State) (k : Token) : Option (Nat × Cmd) :=
  (k.ids.mapIdx fun i id => (i, s.cmd? id)).findSome? fun (i, c) => c.bind fun c => if c.state = .failed then some (i, c) else none

/-- A token is Errored, or Pending (R231). -/
def tokenErr (s : State) (k : Token) : Bool := (tokenFailed s k).isSome
def tokenPend (s : State) (k : Token) : Bool := !tokenErr s k && (tokenCmds s k).any fun c => decide (c.state = .running)

/-- Errored with TRP = 1 (R240). -/
def tokenTraps (s : State) (k : Token) : Bool := (tokenFailed s k).elim false fun (_, c) => c.trap

/-- A number capped at 2^32 - 1. -/
def sat32 (n : Nat) : Word := BitVec.ofNat 32 (min n (2 ^ 32 - 1))

/-- Bit n as a number. -/
def bitAt (b : Bool) (n : Nat) : Nat := if b then 2 ^ n else 0

/-- Elements that a command has delivered in order: an MMA or MMAS delivers none (R254), and an element of a COPYR that waits in a
reorder store is not delivered (R231, R238). -/
def cmdElems (s : State) (c : Cmd) : Nat :=
  match c.kind with
  | .mma _ _ => 0
  | .mmas _ _ _ _ => 0
  | _ => (minOf ((s.held.filter fun h => h.cmd == c.id).map (·.pos))).getD c.pos

/-- The write pointer of a batch: the elements delivered before the first command that has not ended, and that command's (R233). -/
def writePointer (s : State) : List Cmd → Nat
  | [] => 0
  | c :: r => cmdElems s c + (if c.state = .running ∨ c.state = .failed then 0 else writePointer s r)

/-- The eight status words of a token (R232). -/
def tokenWords (s : State) (k : Token) : List Word :=
  if k.ids.isEmpty then (if k.last.isEmpty then List.replicate 8 0 else k.last)
  else
    let cs := tokenCmds s k
    let f := tokenFailed s k
    let w0 := bitAt (tokenPend s k) 31 + bitAt (cs.any (·.void_)) 27 + bitAt (cs.any (·.clamp)) 26 +
      (match f with
       | some (i, c) => 2 ^ 30 + bitAt c.trap 28 + c.code * 2 ^ 16 + (i % 256) * 2 ^ 8 + c.detail
       | none => 0)
    let iv (d : Nat) : Word := BitVec.ofNat 32 ((f.map fun (_, c) => c.iv.getD d 0).getD 0)
    [BitVec.ofNat 32 w0, sat32 ((cs.map (·.bytes)).sum), BitVec.ofNat 32 (writePointer s cs)] ++ (List.range 5).map iv

/-- The gang of a workgroup runs (R136). -/
def wgRuns (s : State) (wg : Nat) : Bool := (s.wg? wg).elim false fun w => (s.gang? w.gang).elim true fun x => decide (x.state = .running)

/-- A command that does not hold up the later commands of its batch: it has ended or been dropped, or the slices hold the rest
of its elements (R233, R234, R238). -/
def cmdPast (x : Cmd) : Bool := decide (x.state = .ended) || decide (x.state = .dropped) || (x.allSent && decide (x.state = .running))

/-- The array of a core holds instructions behind a DRAIN that this command is, or stands before in a batch: while the gang is being
pre-empted it goes on, so that they can complete in order (R252, R256). -/
def neededBySave (s : State) (c : Cmd) : Bool :=
  match (s.core c.core).arr.queue with
  | .cmd d :: _ :: _ =>
    ((s.wg? c.wg).elim false fun w => (s.gang? w.gang).elim false fun x => decide (x.state = .preempting)) &&
    (c.id == d || (s.cmd? d).elim false fun x => x.prior.contains c.id)
  | _ => false

/-- The number of an array instruction that reads the weight buffer (R253). -/
def ArrOp.num : ArrOp → Option Nat
  | .ldw _ _ _ id _ _ => some id
  | .cmd id => some id
  | _ => none

/-- A command may run: its gang does (R235), every command before it in a batch that holds it is past (R233, R234), the accesses
that its threads had outstanding at its issue have ended (R187-R190), and the LDW and MMAS of those threads that were accepted before
a copy into the weight buffer have read it (R253). -/
def cmdReady (s : State) (c : Cmd) : Bool :=
  decide (c.state = .running) && !c.allSent && (wgRuns s c.wg || neededBySave s c) && (c.after.all fun i => (s.acc? i).isNone) &&
  (c.arrAfter.all fun i => !((s.core c.core).arr.queue.any fun op => op.num == some i)) && c.prior.all fun i => (s.cmd? i).elim true cmdPast

/-- Unfinished engine commands of a core (R230). -/
def cmdCount (s : State) (core : Nat) : Nat :=
  (s.cmds.filter fun c => c.core == core && decide (c.state = .running)).length

/-- The detector interval of a command closes for some lanes of a group (R183). -/
def closeCmd (s : State) (ids : List Nat) (sel : Nat → Nat → Bool) : State :=
  let now := s.time
  let fin (d : Det) : Det := if d.cmd.elim false fun c => ids.contains c then d.end_ now (sel d.gid) else d
  { s with sliceDet := s.sliceDet.map fin, cores := s.cores.map fun (k, c) => (k, { c with det := c.det.map fin }) }

/-- A COPYR's retiring marker reaches every home slice (R238). -/
def markSeq (s : State) (c : Cmd) : State :=
  match c.kind with
  | .copyr _ region seq => if s.markers.contains (c.ctx, region, seq) then s else { s with markers := (c.ctx, region, seq) :: s.markers }
  | _ => s

/-- The fetched bytes of a command are used up. -/
def dropFetched (s : State) (key : Nat) : State := { s with fetched := s.fetched.filter fun f => f.key != key }

/-- A command ends in a state: with all its owners gone its detector interval ends too (R183). -/
def endCmd (s : State) (c : Cmd) : State :=
  let s := s.modCmd c.id fun _ => c
  if c.owners.any fun (g, l) => (s.thread? g l).elim false fun t => !t.exited then s else closeCmd s [c.id] fun _ _ => true

/-- A command stops with an engine error at an iteration vector (R234). A COPYR still retires its sequence number, and its elements
from the vector on leave the reorder stores (R238); commands that nothing can resume end with it (R135). -/
def failCmd (s : State) (c : Cmd) (code detail : Nat) (iv : List Nat) : State :=
  let s := markSeq (dropFetched s c.id) c
  let s : State := { s with held := s.held.filter fun h => h.cmd != c.id || decide (h.pos < c.pos) }
  dropDead (endCmd s { c with state := .failed, code := code, detail := detail, iv := iv, route := [], out := false, allSent := false, since := none, turn := none })

/-- The commands of a thread's batch behind its failed one are dropped with it, unless another thread holds them (R239, R242): they
never run. No command that may still run is stopped. -/
def dropBatch (s : State) (gid lane : Nat) (k : Token) : State :=
  let held (i : Nat) : Bool := s.groups.any fun g => g.threads.any fun t =>
    !(g.gid == gid && t.lane == lane) && t.batches.any fun b => b.contains i
  k.ids.foldl (fun s i =>
    if held i then s else s.modCmd i fun c => if c.state = .running ∧ behindFailed s c then { c with state := .dropped } else c) s

/-- The SEAL table's Complete row for one thread (R239): the open batch becomes the token's. -/
def Thread.bind (k : Nat) (t : Thread) : Thread := { t.kset k { ids := t.batch } with batch := [] }

/-- Lanes whose token in a set of tokens traps at a wait (R240). -/
def trapTokens (s : State) (t : Thread) (ks : List Nat) : Option Nat := ks.find? fun k => tokenTraps s (t.kget k)
def pendTokens (s : State) (t : Thread) (ks : List Nat) : Bool := ks.any fun k => tokenPend s (t.kget k)

/-- A wait on tokens has passed for lanes of a group: the detector intervals of their commands end, and the next region
opens (R180, R183). -/
def passTokens (s : State) (gid : Nat) (lanes : List Nat) (ks : List Nat) : State :=
  let ids (l : Nat) : List Nat := (s.thread? gid l).elim [] fun t => ks.flatMap fun k => (t.kget k).ids
  let s := lanes.foldl (fun s l => closeCmd s (ids l) fun g x => g == gid && x == l) s
  newRegion s gid lanes

/-! ### Frets and departures -/

/-- Fields of a fret's image (R383). -/
def Fret.w (f : Fret) (i : Nat) : Nat := wnat f.words i
def Fret.valid (f : Fret) : Bool := (f.w 0).testBit 31
def Fret.nrep (f : Fret) : Nat := bits (f.w 0) 26 24 + 1
def Fret.carry (f : Fret) : Nat := bits (f.w 0) 23 16
def Fret.ucarry (f : Fret) : Nat := bits (f.w 0) 14 8
def Fret.qcap (f : Fret) : Nat := if bits (f.w 1) 26 16 = 0 then 1024 else bits (f.w 1) 26 16
def Fret.start (f : Fret) : Nat := f.w 2
def Fret.len (f : Fret) : Nat := bits (f.w 1) 14 0 + 1
def Fret.coreOf (f : Fret) (r : Nat) : Nat := bits (f.w (3 + r / 4)) (8 * (r % 4) + 7) (8 * (r % 4))
def Fret.cores (f : Fret) : List Nat := (List.range f.nrep).map f.coreOf
def Fret.ringAt (f : Fret) : Nat := waddr f.words 5
def Fret.rcap (f : Fret) : Nat := bits (f.w 7) 19 0
/-- The fret covers a code address (R383). -/
def Fret.covers (f : Fret) (pc : Nat) : Bool := decide (f.start ≤ pc ∧ pc < f.start + 4 * f.len)

/-- The fret of a context's running slide sweep that covers a code address. -/
def fretAt (c : Context) (pc : Nat) : Option Nat := (c.frets.find? fun (_, f) => decide (f.state = .inUse) && f.covers pc).map (·.1)

def State.fret (s : State) (ctx id : Nat) : Fret := ((s.ctx? ctx).map fun c => sget {} c.frets id).getD {}
def State.modFret (s : State) (ctx id : Nat) (f : Fret → Fret) : State :=
  s.modCtx ctx fun c => { c with frets := sset {} c.frets id (f (sget {} c.frets id)) }

/-- Free queue slots of a core (R391). -/
def queueFree (s : State) (core cap : Nat) : Nat :=
  cap - ((s.core core).arrivals.length + (s.travel.filter fun x => x.1 == core).length)

/-- Records that still wait in a ring, parked ones included (R393); and a record that replica r may take (R391), a parked one only for the head thread (R396). -/
def Fret.waiting (f : Fret) : List RingRec := f.ring.filter fun x => !x.taken
def mayTake (det : Bool) (head : Option Nat) (r : Nat) (x : RingRec) : Bool :=
  !x.taken && (!x.parked || head == some x.thread.stn) && (!det || x.r == r)

/-- What a thread carries to a fret (R389). -/
def carried (f : Fret) (id : Nat) (sf : RegFile) (pc : Word) (t : Thread) : Thread :=
  { t with pc := pc, v := t.v.filter fun x => decide (x.1 < f.carry), carry := sf.filter fun x => decide (x.1 < f.ucarry), batch := [],
           verr := t.verr.filter fun e => decide (e.1 < f.carry), derr := none, wait := .none, clause := if t.resume then t.clause else [], entered := false, passed := false, fret := some id, prod := [] }

/-- Threads of a group that may not depart yet (R388). -/
def departBlocked (s : State) (g : Group) (lanes : List Nat) : Bool :=
  !drained s g.gid lanes ||
  g.threads.any fun t => lanes.contains t.lane && (pendTokens s t (List.range 8))

/-- Cores that a context's running slide sweep reserves (R385). -/
def slideCores (s : State) (ctx : Nat) : List Nat :=
  ((s.ctx? ctx).map fun c => c.frets.flatMap fun (_, f) => if f.state = .inUse then f.cores else []).getD []

/-- The threads of a slide sweep that are not Exited, wherever they are. -/
def slideThreads (s : State) (x : Sweep) : List Thread :=
  let cs := slideCores s x.ctx
  (s.groups.flatMap fun g => if (s.wg? g.wg).elim false fun w => w.sweep == x.id then g.threads else []) ++
  (s.travel.flatMap fun (k, t) => if cs.contains k then [t] else []) ++
  (cs.flatMap fun k => (s.core k).arrivals) ++
  ((s.ctx? x.ctx).map fun c => c.frets.flatMap fun (_, f) => f.waiting.map (·.thread)).getD []
  |>.filter fun t => !t.exited

/-- The head thread of a deterministic slide sweep (R406): its station number. -/
def headStn (s : State) (x : Sweep) : Option Nat :=
  let held := s.cores.flatMap fun (_, c) => (c.stage.filter fun e =>
    ((s.wg? e.wg).elim false fun w => w.sweep == x.id)).map (·.stn)
  minOf ((slideThreads s x).map (·.stn) ++ held)

end Sys2Proof.Machine
end

