-- ==== Sys2Proof/Machine/Staging.lean ====
section
/-! DEFINITION. Atomic operations on bytes (R198), and the stage buffers of deterministic sweeps: what an issue stages,
the room it needs, and what a load of a staged byte reads (R403-R409). -/

namespace Sys2Proof.Machine

/-! ### Tensor formats (R224) -/

/-- Half-bytes of an element (R224); 0 for an invalid code. -/
def fmtNibs (f : Nat) : Nat :=
  match f with
  | 0 | 8 | 9 => 8
  | 1 | 10 | 11 => 16
  | 2 | 13 => 4
  | 3 | 4 | 5 | 12 => 2
  | 6 => 1
  | _ => 0

/-- A float format of an entry (R228). -/
def isFloat (f : Nat) : Bool := decide (f ≤ 4)
/-- A float format of an entry. -/
def eSpec (f : Nat) : FSpec :=
  match f with
  | 0 => spec32
  | 1 => spec64
  | 2 => specB
  | 3 => specE4
  | _ => specE5

/-- COPYR's reduction of one element (R238). -/
def reduceElem (op : ROp) (fmt o x : Nat) : Nat :=
  let n := fmtNibs fmt * 4
  let sg (v : Nat) : Int := (BitVec.ofNat n v).toInt
  let signed := fmt == 8 || fmt == 10
  match op with
  | .add => if isFloat fmt then (fmaR (eSpec fmt) 0 [] [fval (eSpec fmt) o, fval (eSpec fmt) x]).1 else (o + x) % 2 ^ n
  | .min => if isFloat fmt then (fminR (eSpec fmt) false o x).1 else if signed then (if sg x < sg o then x else o) else min o x
  | .max => if isFloat fmt then (fminR (eSpec fmt) true o x).1 else if signed then (if sg o < sg x then x else o) else max o x

/-- The new value of an atomic from the old bytes and the operand bytes, compare then swap for ACAS (R198). -/
def aopNew (op : AOp) (o x : List Byte) : List Byte :=
  let n := o.length
  let a := ofLE o
  let b := ofLE x
  let sg (v : Nat) : Int := if n = 8 then (BitVec.ofNat 64 v).toInt else (BitVec.ofNat 32 v).toInt
  match op with
  | .add => toLE n (a + b)
  | .min => if sg b < sg a then toLE n b else o
  | .max => if sg a < sg b then toLE n b else o
  | .and => toLE n (a &&& b)
  | .or => toLE n (a ||| b)
  | .xor => toLE n (Nat.xor a b)
  | .xch => toLE n b
  | .cas => if ofLE (x.take n) = a then x.drop n else o
  | .red op fmt => toLE n (reduceElem op fmt a b)
  | .fadd =>
    let f := if n = 8 then spec64 else spec32
    toLE n (fmaR f 0 [] [fval f a, fval f b]).1

/-- Entries in the stage buffers of a sweep: they leave when they are released. -/
def stagedOf (s : State) (sweep : Nat) : List Staged :=
  s.cores.flatMap fun (_, c) => c.stage.filter fun e => ((s.wg? e.wg).elim false fun w => w.sweep == sweep)

/-- Release order of entries of one workgroup: epoch, GRPID, lane, program order (R406); in a slide sweep STN first.
`grp` gives an entry's GRPID. -/
def relLe (slide : Bool) (grp : Staged → Nat) (a b : Staged) : Bool :=
  let key (e : Staged) : List Nat := if slide then [e.ticket, e.stn, e.epoch, e.seq] else [e.ticket, e.epoch, grp e, e.lane, e.seq]
  lexLe (key a) (key b)
where
  lexLe : List Nat → List Nat → Bool
    | [], _ => true
    | _ :: _, [] => false
    | x :: xs, y :: ys => if x < y then true else if y < x then false else lexLe xs ys

/-- Insertion into a sorted list, and sorting by insertion. -/
def insertBy {α : Type} (le : α → α → Bool) (x : α) : List α → List α
  | [] => [x]
  | y :: ys => if le x y then x :: y :: ys else y :: insertBy le x ys
def sortBy {α : Type} (le : α → α → Bool) : List α → List α
  | [] => []
  | x :: xs => insertBy le x (sortBy le xs)

/-- GRPID of an entry's group. -/
def grpOf (s : State) (e : Staged) : Nat := ((s.group? e.gid).map fun g => g.grpId).getD 0

/-- Epoch flush points passed: the epochs below a workgroup's counter are closed (R405): every thread that is not Exited
has passed them. In a slide sweep each thread closes its own. -/
def closedEpoch (s : State) (e : Staged) : Bool :=
  match (s.wg? e.wg).bind fun w => s.sweep? w.sweep with
  | none => true
  | some x =>
    if x.slide then (slideThreads s x).all fun t => t.stn != e.stn || decide (e.epoch < t.epoch)
    else s.groups.all fun g => g.wg != e.wg || g.threads.all fun t => t.exited || decide (e.epoch < t.epoch)

/-- The bytes of a 16-byte block with an entry applied: a store's data, or an atomic's new value. -/
def applyEntry (base : Nat) (blk : List Byte) (e : Staged) : List Byte :=
  if e.va < base ∨ base + blk.length < e.va + e.wid ∨ e.xfer.isSome then blk
  else
    let o := e.va - base
    let old := (blk.drop o).take e.wid
    let new := match e.op with
      | some op => aopNew op old e.data
      | none => e.data.take e.wid
    blk.take o ++ new ++ blk.drop (o + e.wid)

/-- The gang that an entry's workgroup belongs to. -/
def gangOf (s : State) (e : Staged) : Option Gang := (s.wg? e.wg).bind fun w => s.gang? w.gang

/-- The entry counts for a reader: it is of the same run, or of another gang's run whose stream is released. A shadow reads memory as its
primary does (R411). -/
def concerns (s : State) (g : Group) (e : Staged) : Bool :=
  match (s.wg? g.wg).bind fun w => s.gang? w.gang, gangOf s e with
  | some a, some b => a.id == b.id || (b.run == 0 && a.index != b.index)
  | _, _ => true

/-- The entry is of one of some lanes' threads, or of their workgroup: in a slide sweep the slide thread number and the ticket tell. -/
def ownEntry (slide : Bool) (g : Group) (lanes : List Nat) (e : Staged) : Bool :=
  if slide then g.threads.any fun t => lanes.contains t.lane && t.stn == e.stn else e.gid == g.gid && lanes.contains e.lane
def wgEntry (slide : Bool) (g : Group) (lanes : List Nat) (e : Staged) : Bool :=
  if slide then g.threads.any fun t => lanes.contains t.lane && t.ident.ticket == e.ticket else e.wg == g.wg

/-- What a load of `n` bytes at `va` reads over the memory's 16-byte block: closed epochs of the workgroup in release
order, then the own staged stores of the threads that it counts for (R409). -/
def overlayOf (s : State) (g : Group) (lanes : List Nat) (va n : Nat) (blk : List Byte) : List Byte :=
  let base := va / 16 * 16
  let es := match s.wg? g.wg with
    | some w => stagedOf s w.sweep
    | none => []
  let slide := (s.sweepOf g).elim false (·.slide)
  let wgEs := sortBy (relLe slide (grpOf s)) (es.filter fun e => wgEntry slide g lanes e && closedEpoch s e)
  let own := sortBy (fun a b => decide (a.seq ≤ b.seq)) (es.filter fun e => ownEntry slide g lanes e && e.op.isNone)
  let blk := (wgEs ++ own).foldl (applyEntry base) blk
  (blk.drop (va - base)).take n
/-- The same for one thread. -/
def overlay (s : State) (g : Group) (lane va n : Nat) (blk : List Byte) : List Byte := overlayOf s g [lane] va n blk

/-- The value of a watched element as its lane sees it (R212, R409), and the comparison. -/
def watchValue (s : State) (g : Group) (lane : Nat) (w : Watch) : Nat :=
  let k0 := w.keys.headD 0
  if detOf s g && decide (w.sp = .dev) then ofLE (overlay s g lane w.va w.wid (s.read .dev (k0 - w.va % 16) 16))
  else ofLE (w.keys.map fun k => (s.mem w.sp).get k)
def watchCond (w : Watch) (v : Nat) : Bool :=
  if w.wid = 8 then icond w.cond (BitVec.ofNat 64 v) w.cmp else icond w.cond (BitVec.ofNat 32 v) (w.cmp.setWidth 32)

/-- A lane's WAITM still follows an earlier access of its thread to the line that it watches (R185, R190): nothing is compared yet. -/
def watchBehind (s : State) (g : Group) (lane : Nat) (w : Watch) : Bool :=
  s.accs.any fun b => b.req.isNone && b.gid == g.gid && decide (b.id < w.issue) && decide (b.space = w.sp) && b.line == w.keys.headD 0 / 128 &&
    b.lanes.any fun l => l.lane == lane

/-- Every watched element among the keys written is compared with its new value (R212), but where the watch still follows an access of its
own thread. -/
def watchTouch (s : State) (sp : Space) (keys : List Nat) : State :=
  let upd (g : Group) (t : Thread) : Thread :=
    match t.wait with
    | .waitm w =>
      if !g.saved && w.res.isNone && !w.remote && !watchBehind s g t.lane w && decide (w.sp = sp) && (w.keys.any fun k => keys.contains k) && decide (s.cycle ≤ w.until_) &&
          watchCond w (watchValue s g t.lane w) then { t with wait := .waitm { w with seen := true } }
      else t
    | _ => t
  { s with groups := s.groups.map fun g => { g with threads := g.threads.map (upd g) } }

/-- The outcome of R409 for a read of a staged byte: cause 0x48 for the thread's own atomic or transfer, cause 0x20 for a
tracked conflict with another's entry, whose frame names the first word shared with the staged write (R182, R415). The read counts for
the lanes: several for a copy's. -/
def stagedConflict (s : State) (g : Group) (lanes : List Nat) (va n sc : Nat) (track sync kind7 : Bool) : Option (Nat × TrapInfo) :=
  match s.wg? g.wg with
  | none => none
  | some w =>
    let slide := (s.sweepOf g).elim false (·.slide)
    ((stagedOf s w.sweep).filter (concerns s g)).findSome? fun e =>
      let at_ (b : Nat) : Option Nat := if b < va + n ∧ va < b + e.wid then some (max b va / 4 * 4) else none
      let other := e.xfer.bind fun (dva, _, _) => at_ dva
      match (at_ e.va).orElse fun _ => other with
      | none => none
      | some word =>
        let race : Option (Nat × TrapInfo) :=
          some (0x20, { addr := word, info0 := 1, info1 := BitVec.ofNat 32 e.ticket, lanes := lanes,
                        info2 := BitVec.ofNat 32 (e.lane * 256 + grpOf s e) })
        if ownEntry slide g lanes e then
          (if e.op.isSome || e.xfer.isSome then some (0x48, { lanes := lanes }) else none)
        else if kind7 then (if track && !wgEntry slide g lanes e then race else none)
        else if wgEntry slide g lanes e && closedEpoch s e then none
        else
          let both := sync && e.sync && (match s.wg? e.wg with
            | some v => scopeHolds sc w.id w.gang w.ctx v.id v.gang v.ctx && scopeHolds e.sc v.id v.gang v.ctx w.id w.gang w.ctx
            | none => false)
          if track && !both then race else none

/-- The trap of R409 for the lanes of an issue: the first lane's, with every lane of the same cause. -/
def stagedStop (s : State) (iss : Issue) (hits : List (Nat × TrapInfo)) : Option State :=
  match hits with
  | [] => none
  | (cs, i) :: _ => some (takeTrap s iss cs { i with lanes := (hits.filter fun h => h.1 == cs).flatMap fun h => h.2.lanes })

/-- A workgroup's share of its core's stage buffer (R404): 2,048 over the sweep's residency, 2,048 for a slide sweep.
The residency is that of R305 on an empty core. -/
def residency (x : Sweep) : Nat :=
  let gpw := x.gpw
  let perQuad := min Config.slotsPerQuadrant (Config.regsPerQuadrant / (64 * max 1 x.regs))
  let bySlots := Config.numQuadrants * perQuad / gpw
  let sc := (x.scratch + 2047) / 2048 * 2048
  let byScratch := if sc = 0 then 16 else Config.scratchBytes / sc
  let byTiles := if x.tiles = 0 then 16 else 1
  max 1 (min (min bySlots Config.workgroupSlots) (min byScratch byTiles))
def stageShare (x : Sweep) : Nat := if x.slide then Config.stageEntries else Config.stageEntries / residency x

/-- The head ticket of a sweep (R406): the lowest whose entries are not all released or whose threads still run; a shadow's
are never released (R411). -/
def headTicket (s : State) (x : Sweep) : Nat :=
  let busy := (s.wgs.filter fun w => w.sweep == x.id && ((s.gang? w.gang).elim true fun g => g.run == 0) && (decide (w.state ≠ .done) ||
    (s.cores.any fun (_, c) => c.stage.any fun e => e.wg == w.id))).map fun w => w.ident.ticket
  (minOf busy).getD x.placedTickets

end Sys2Proof.Machine
end

