-- ==== Sys2Proof/Machine/Bytes.lean ====
section
/-! DEFINITION. Bytes of memory and their errors (R169, R422), the queues' counters (R286), and the accesses and writes that the
module makes for itself. -/

namespace Sys2Proof.Machine

/-! ### Poison and errors -/

/-- Data poison of a place (R169, R422): SUB 1 for a marked line, SUB 2 for an uncorrectable sector or word. -/
def dataPoison (s : State) (sp : Space) (keys : List Nat) : Option Nat :=
  let unc (l : ErrLoc) := s.softErrs.any fun e => e.1 == l && e.2
  match sp with
  | .dev =>
    if keys.any fun k => s.marks.contains (k / 128) then some 1
    else if keys.any fun k => unc (.sector (k / 64)) then some 2 else none
  | .scratch => if keys.any fun k => unc (.scratch (k / 8)) then some 2 else none
  | .weight => if keys.any fun k => unc (.weight (k / 8)) then some 2 else none
  | _ => none

/-- The line is marked poisoned and reported once (R422); its uncorrectable sectors count, or the line itself, as one error. -/
def markLine (s : State) (line : Nat) : State :=
  if s.marks.contains line then s
  else
    let bad := s.softErrs.filterMap fun e => if e.2 && (e.1 == .sector (2 * line) || e.1 == .sector (2 * line + 1)) then some e.1 else none
    let s := tallyErrs s (if bad.isEmpty then [.sector (2 * line)] else bad) true
    healthPush { s with marks := line :: s.marks, cntUnc := satInc s.cntUnc } 0x03 (homeSlice (line * 128)) (line % 2 ^ 32)

/-- The places of errors, correctable or not, that a read of some bytes meets. -/
def errsAt (s : State) (sp : Space) (keys : List Nat) (uncorrectable : Bool) : List ErrLoc :=
  s.softErrs.filterMap fun e =>
    if e.2 == uncorrectable && (match sp, e.1 with
      | .dev, .sector p => keys.any fun k => k / 64 == p
      | .scratch, .scratch p => keys.any fun k => k / 8 == p
      | .weight, .weight p => keys.any fun k => k / 8 == p
      | _, _ => false) then some e.1 else none

/-- The correctable errors that a read meets are repaired and each is counted (R422, R427). -/
def fixRead (s : State) (sp : Space) (keys : List Nat) : State :=
  let ls := errsAt s sp keys false
  if ls.isEmpty then s else countErrs { s with softErrs := s.softErrs.filter fun e => e.2 || !ls.contains e.1 } ls false

/-- A read that met a fresh uncorrectable sector marks its line, and an uncorrectable word of a core counts; correctable errors are
repaired and each is counted (R422, R427). -/
def noteRead (s : State) (sp : Space) (keys : List Nat) : State :=
  fixRead (match sp with
    | .dev => if dataPoison s sp keys = some 2 then markLine s (keys.headD 0 / 128) else s
    | _ => countErrs s (errsAt s sp keys true) true) sp keys

/-! ### Queue entries and their waits (R285, R286) -/

def QEntry.w (e : QEntry) (i : Nat) : Nat := wnat e.words i
def QEntry.nwait (e : QEntry) : Nat := bits (e.w 0) 6 5
def QEntry.sig (e : QEntry) : Bool := (e.w 0).testBit 4
def QEntry.typ (e : QEntry) : Nat := bits (e.w 0) 3 0
def QEntry.addr (e : QEntry) (i : Nat) : Nat := e.w i + 2 ^ 32 * e.w (i + 1)
def QEntry.body (e : QEntry) : Nat := e.addr 2
/-- Address and value of wait n. -/
def QEntry.adr (e : QEntry) (n : Nat) : Nat := e.addr (4 + 4 * n)
def QEntry.val (e : QEntry) (n : Nat) : Nat := e.addr (6 + 4 * n)
def QEntry.sigadr (e : QEntry) : Nat := e.addr 12
def QEntry.sigamt (e : QEntry) : Nat := e.addr 14

/-- What a counter holds: a value here, another module's page, or a read that fails. -/
inductive Counter64 where
  | here (v : Nat)
  | remote
  | bad
  deriving DecidableEq, Repr

/-- A counter read by a queue of a context (R286). -/
def readCounter (s : State) (ctx a : Nat) : Counter64 :=
  match s.ctx? ctx with
  | none => .bad
  | some c => match translate s noCore c 1 a with
    | .here pa _ => if (dataPoison s .dev (keysFrom pa 8)).isSome then .bad else .here (ofLE (s.read .dev pa 8))
    | .peer _ _ => .remote
    | .fault _ _ => .bad

/-- Whether wait n of a queue's head holds as memory stands: the value here, or what the last read of a remote counter gave. -/
def waitHolds (s : State) (q : Queue) (e : QEntry) (n : Nat) : Bool :=
  match readCounter s q.owner (e.adr n) with
  | .here v => decide (e.val n ≤ v)
  | .remote => q.held.getD n false
  | .bad => false

/-- A write at device keys has let waits of queues' heads hold: the counter's read is repeated at every write to its word (R286). -/
def waitTouch (s : State) (sp : Space) (keys : List Nat) : State :=
  let near (q : Queue) (e : QEntry) (n : Nat) : Bool := match (s.ctx? q.owner).map fun c => translate s noCore c 1 (e.adr n) with
    | some (.here pa _) => keys.any fun k => k / 8 == pa / 8
    | _ => false
  let look (q : Queue) : Queue := match q.state, q.entries with
    | 2, e :: _ => { q with seen := (List.range e.nwait).map fun n => q.seen.getD n false || (near q e n && waitHolds s q e n) }
    | _, _ => q
  if sp = .dev ∧ s.queues.any (fun q => q.state == 2) then { s with queues := s.queues.map look } else s

/-! ### Reads and writes -/

/-- A memory write replaces the bytes and the check bits of whole words it covers (R86, R422). -/
def putKeys (s : State) (sp : Space) (keys : List Nat) (bs : List Byte) : State :=
  let m := (keys.zip bs).foldl (fun m (k, b) => sset 0 m k b) (s.mem sp)
  let s := s.setMem sp m
  let clear (e : ErrLoc × Bool) : Bool := match sp, e.1 with
    | .scratch, .scratch p => keys.any fun k => k / 8 == p
    | .weight, .weight p => keys.any fun k => k / 8 == p
    | _, _ => false
  waitTouch (watchTouch { s with softErrs := s.softErrs.filter fun e => !clear e } sp keys) sp keys

/-- The bytes at keys. -/
def getKeys (s : State) (sp : Space) (keys : List Nat) : List Byte := keys.map fun k => (s.mem sp).get k

/-- An access for a command or a uniform instruction: for whom, from which core, what it does at a place. -/
def sendFetch (s : State) (key : Nat) (gid lane core ctx : Nat) (op : AccOp) (sp : Space) (keys : List Nat) (va : Nat) (data : List Byte)
    (stamp : Nat × Option Nat) : State × Nat :=
  let (id, s) := s.fresh
  let a : Acc := { id := id, gid := gid, core := core, ctx := ctx, pc := 0, op := op, space := sp, line := keys.headD 0 / 128,
                   wid := keys.length, lanes := [{ lane := lane, va := va, keys := keys, data := data }], stamp := some stamp.1,
                   queue := stamp.2, born := s.cycle, sc := 2, route := routeOf s core ctx op sp (keys.headD 0 / 128) va, fetch := some key }
  ({ s with accs := s.accs ++ [a] }, id)

/-! ### Writes of the device itself -/

/-- The places of `n` bytes from a virtual address (R168), or the lowest fault: cause, subcode, address. -/
def placesAt (s : State) (core : Nat) (c : Context) (need a n : Nat) : Except (Nat × Nat × Nat) (List (Space × Nat)) :=
  let pages := (List.range ((a % 65536 + n + 65535) / 65536)).map fun k => max a ((a / 65536 + k) * 65536)
  let tr := pages.map fun p => (p, translate s core c need p)
  let bad := tr.findSome? fun (p, t) => match t with
    | .fault cs sub => some (cs, sub, p)
    | .here _ l => if 2 ≤ need ∧ l.testBit 5 then some (0x28, 0, p) else none
    | .peer _ l => if 2 ≤ need ∧ l.testBit 5 then some (0x28, 0, p) else none
  match bad with
  | some b => .error b
  | none => .ok (tr.flatMap fun (p, t) =>
      let m := min (a + n) ((p / 65536 + 1) * 65536) - p
      match t with
      | .here pa _ => (keysFrom pa m).map fun k => (Space.dev, k)
      | .peer q _ => (keysFrom p m).map fun k => (Space.remote q, k)
      | .fault _ _ => [])

/-- Places by line, in order of appearance: the space and the keys. -/
def byLine : List (Space × Nat) → List (Space × List Nat)
  | [] => []
  | (sp, k) :: r => match byLine r with
    | (sq, q :: qs) :: l => if sp = sq ∧ k / 128 = q / 128 then (sq, k :: q :: qs) :: l else (sp, [k]) :: (sq, q :: qs) :: l
    | l => (sp, [k]) :: l

/-- A read of places by the device or a uniform instruction: errors it meets are repaired or marked (R422). -/
def noteLocs (s : State) (locs : List (Space × Nat)) : State := (byLine locs).foldl (fun s l => noteRead s l.1 l.2) s
def fixLocs (s : State) (locs : List (Space × Nat)) : State := (byLine locs).foldl (fun s l => fixRead s l.1 l.2) s

/-- Whether a place's bytes cannot be written at once in this module's memory: another module holds them, or replicas of them (R193), or a
migration has frozen their page (R355). -/
def farPlace (s : State) (ctx : Nat) (sp : Space) (va : Nat) : Bool :=
  match sp with
  | .remote _ => true
  | .dev => (s.repsets.any fun r => r.ctx == ctx && r.page == va / 65536 && !r.peers.isEmpty) ||
      s.migs.any fun m => m.ctx == ctx && m.page == va / 65536
  | _ => false

/-- A line that is written whole has no mark, and its sectors have new check bits (R422). -/
def renewLine (s : State) (line : Nat) : State :=
  { s with marks := s.marks.filter (· != line),
           softErrs := s.softErrs.filter fun e => match e.1 with
             | .sector p => decide (p / 2 ≠ line)
             | _ => true }

/-- Bytes that a core or an engine writes from a virtual address for a context, with no thread; `key` says for whom the answers are kept,
0 for nobody. Another module's bytes are sent to it, those of a replicated page go through its home slice (R193), and those of a frozen
page wait there (R355). The packets belong to no queue (R292). A marked line is written only whole (R422). -/
def deviceWrite (s : State) (key core ctx va : Nat) (locs : List (Space × Nat)) (bs : List Byte) : State :=
  let z := (byLine locs).foldl (fun (s, n) (sp, ks) =>
    let part := (bs.drop n).take ks.length
    let s := if part.isEmpty then s
      else if farPlace s ctx sp (va + n) then
        (sendFetch s key 0 0 core ctx .store sp (ks.take part.length) (va + n) part ((s.cycle + 32767) % 65536, none)).1
      else if sp = .dev ∧ part.length = 128 then putKeys (renewLine s (ks.headD 0 / 128)) sp ks part
      else if sp = .dev ∧ s.marks.contains (ks.headD 0 / 128) then s
      else putKeys s sp (ks.take part.length) part
    (s, n + ks.length)) (s, 0)
  z.1

end Sys2Proof.Machine
end

