-- ==== Sys2Proof/Machine/Depart.lean ====
section
/-! DEFINITION. Departures of slide mode (R388-R393), and staging with the room that it needs (R396, R404, R407). -/

namespace Sys2Proof.Machine

/-! ### Departures (R388-R393) -/

/-- The outcome of one departure (R391, R393). -/
inductive Dep where
  | ok (s : State)
  | full (fret : Nat)
  | fault (cause sub addr : Nat)

/-- HEAD and TAIL as the ring header holds them. -/
def putRingHeader (s : State) (core : Nat) (c : Context) (ctx id : Nat) : State :=
  let f := s.fret ctx id
  match placesAt s core c 2 f.ringAt 8 with
  | .ok locs => deviceWrite s 0 core ctx f.ringAt locs (toLE 4 f.head ++ toLE 4 f.tail)
  | .error _ => s

/-- The bytes of the record at TAIL are written (R391, R393): their layout belongs to the device, so that they are free values (log
entry 11). -/
def putRecord (s : State) (core : Nat) (c : Context) (ctx id : Nat) : State :=
  let f := s.fret ctx id
  let at_ := f.ringAt + 1024 + 1024 * (f.tail % max 1 f.rcap)
  match placesAt s core c 2 at_ 1024 with
  | .ok locs =>
    deviceWrite { s with freeCount := s.freeCount + 1024 } 0 core ctx at_ locs
      ((List.range 1024).map fun i => (Config.freeValue (s.freeCount + i)).setWidth 8)
  | .error _ => s

/-- A record is written at TAIL (R391, R393). -/
def spill (s : State) (core ctx id r : Nat) (parked : Bool) (t : Thread) : Dep :=
  let f := s.fret ctx id
  let c := (s.ctx? ctx).getD {}
  if f.rcap - f.nrep * f.qcap ≤ f.waiting.length then .full id
  else
    let at_ := f.ringAt + 1024 + 1024 * (f.tail % max 1 f.rcap)
    match placesAt s core c 2 at_ 1024, placesAt s core c 2 f.ringAt 8 with
    | .error (cs, sub, a), _ => .fault cs sub a
    | _, .error (cs, sub, a) => .fault cs sub a
    | .ok _, .ok _ =>
      .ok (putRingHeader ((putRecord s core c ctx id).modFret ctx id fun f =>
        { f with ring := f.ring ++ [{ n := f.tail, r := r, parked := parked, thread := t }], tail := (f.tail + 1) % 2 ^ 32 }) core c ctx id)

/-- The replica that a departing thread chooses (R390). -/
def chooseReplica (s : State) (f : Fret) (det : Bool) (stn : Nat) : Nat :=
  if det then stn % f.nrep
  else (List.range f.nrep).foldl (fun best r =>
    if queueFree s (f.coreOf best) f.qcap < queueFree s (f.coreOf r) f.qcap then r else best) 0

/-- The head thread of a context's running slide sweep (R406). -/
def headOf (s : State) (ctx : Nat) : Option Nat := (s.sweeps.find? fun x => x.ctx == ctx && x.slide && x.slideOn).bind (headStn s)

/-- One thread, already holding what it carries and its target counter, reserves a slot or spills (R390, R391). -/
def departOne (s : State) (core ctx id : Nat) (det : Bool) (t : Thread) : Dep :=
  let f := s.fret ctx id
  let r := chooseReplica s f det t.stn
  let k := f.coreOf r
  if 0 < queueFree s k f.qcap ∧ !(f.waiting.any (mayTake det (headOf s ctx) r)) then .ok { s with travel := s.travel ++ [(k, t)] }
  else spill s core ctx id r false t

/-- The departures of an issue, in ascending lane order (R388): each lane with its target fret and the thread as it
leaves; the lanes leave the group, whose departure counts as a release. -/
def departAll (s : State) (g : Group) (ctx : Nat) (det parked : Bool) (ls : List (Nat × Nat × Word)) : Dep :=
  let s0 := newRegion s g.gid (ls.map (·.1))
  let go : Dep := ls.foldl (fun acc (l, id, pc) =>
    match acc with
    | .ok s =>
      let f := s.fret ctx id
      let t := carried f id g.s pc ((g.thread? l).getD {})
      if parked then spill s g.core ctx id (if det then t.stn % f.nrep else 0) true t else departOne s g.core ctx id det t
    | x => x) (.ok s0)
  match go with
  | .ok s =>
    let gone := ls.map (·.1)
    .ok (s.modGroup g.gid fun g => { g with threads := g.threads.filter fun t => !gone.contains t.lane })
  | x => x

/-- The trap that ends departing lanes' issue when the headroom or a spill's write fails (R393): q0 receives event 6. -/
def departTrap (s : State) (gid : Nat) (active : List Nat) (pc : Word) (ctx : Nat) : Dep → State
  | .ok s => s
  | .full id => trapAt (q0Push s ctx (eventItem 6 id 0)) gid active pc 0x40 { info0 := BitVec.ofNat 32 id }
  | .fault cs sub a => trapAt s gid active pc cs { sub := sub, addr := a }

/-! ### Staging (R396, R403, R404, R407) -/

/-- The course of a deterministic slide sweep's staging issue without room (R396, R407): a thread that comes from a parked record stalls
for the release of its closed epochs, and the others depart to their own counter as parked records. -/
def park (s : State) (iss : Issue) (g : Group) (x : Sweep) (room : Nat → Bool) : State :=
  let ts := g.threads.filter fun t => iss.lanes.contains t.lane
  let stay := (ts.filter (·.parked)).map (·.lane)
  let go := (ts.filter fun t => !t.parked).map (·.lane)
  let sub : Issue := { iss with lanes := go }
  if stay.any fun l => !room l then takeTrap s iss 0x48
  else
    let s := s.mapLanes g.gid stay fun t => { t with wait := .stage }
    if go.isEmpty then s
    else match takeDeferred s sub g with
    | some t => t
    | none =>
      if departBlocked s g go then hold s sub (.slide go)
      else
        let gid := g.gid
        let g := (s.group? gid).getD g
        let g := g.mapLanes go fun t => { t with resume := true }
        let id (l : Nat) := ((g.thread? l).bind (·.fret)).getD 0
        let d := departAll s g x.ctx true true (go.map fun l => (l, id l, iss.pc))
        departTrap s gid go iss.pc x.ctx d

/-- An issue's entries staged together (R404): room is needed for all, else R407 and R396 decide. `ok` continues. -/
def stageAll (s : State) (iss : Issue) (g : Group) (es : List Staged) (ok : State → State) : State :=
  match s.sweepOf g with
  | none => s
  | some x =>
    let e := stageShare x
    let mine := (stagedOf s x.id).filter fun e => e.wg == g.wg
    let held := if x.slide then (s.core g.core).stage.length else mine.length
    if held + es.length ≤ e then
      let n := s.nextId
      let s : State := { s.mapLanes g.gid iss.lanes fun t => { t with parked := false } with nextId := n + es.length }
      ok (s.modCore g.core fun c => { c with stage := c.stage ++ es.mapIdx fun i e => { e with id := n + i } })
    else if x.slide then
      park s iss g x fun l =>
        let stn := ((g.thread? l).map (·.stn)).getD 0
        decide (((stagedOf s x.id).filter fun e => e.stn == stn && !closedEpoch s e).length + (es.filter fun n => n.lane == l).length ≤ e)
    else if e < (mine.filter fun e => !closedEpoch s e).length + es.length then takeTrap s iss 0x48
    else hold s iss .stage

/-- The entry of one lane (R403, R404). -/
def stagedFor (g : Group) (iss : Issue) (t : Thread) (id : Nat) : Staged :=
  { id := id, wg := g.wg, gid := g.gid, lane := t.lane, ticket := t.ident.ticket, epoch := t.epoch, seq := t.dseq, stn := t.stn,
    pc := iss.pc }

end Sys2Proof.Machine
end

