-- ==== Sys2Proof/Machine/Port.lean ====
section
/-! DEFINITION. The fabric port's packets (R372-R376), leaf fields, page records and owner cache (R345, R351-R354), and
replicas (R363), as the accesses use them. The payloads and tags are the model's own (log entry 16). -/

namespace Sys2Proof.Machine

/-! ### Packets -/

/-- A tag that names a number of this module's. -/
def tagOf (id : Nat) : Nat := id * 4096 + Config.peerId

/-- Bytes of data that a packet of 16 flits holds beside its header, the tag and the model's own payload fields (R372, log entry
16). -/
def packetRoom : Nat := 967

/-- The payload's bytes (log entry 16). -/
def packetPayload (p : Packet) : List Byte :=
  toLE 8 p.tag ++ toLE 2 p.part ++ toLE 4 p.after ++ [BitVec.ofNat 8 (if p.cont then 1 else 0)] ++ toLE 2 p.data.length ++ p.data

/-- The number of flits less one that a packet needs (R372). -/
def packetFlits (p : Packet) : Nat := ((packetPayload p).length + 40 + 63) / 64 - 1

/-- A reserved field is nonzero (R372). -/
def packetReserved (p : Packet) : Bool := p.res0 != 0 || p.res1 != 0 || p.res2 != 0 || p.res5 != 0 || p.res7 != 0

/-- The header's words w0 to w7 (R372). -/
def packetHeader (p : Packet) : List Word :=
  let f (v n lo : Nat) : Nat := v % 2 ^ n * 2 ^ lo
  [p.res0, p.res1,
   BitVec.ofNat 32 (f (p.res2.toNat / 16) 4 28 + f p.src 12 16 + f p.res2.toNat 4 12 + f p.dst 12 0),
   BitVec.ofNat 32 (f p.typ.toNat 8 24 + f p.len 4 20 + f p.hops 2 18 + f p.ctx 6 12 + f p.opw 4 8 + f p.nreq 8 0),
   BitVec.ofNat 32 p.va,
   BitVec.ofNat 32 (f p.res5.toNat 7 25 + f (p.va / 2 ^ 32) 25 0),
   p.seq,
   BitVec.ofNat 32 (f p.res7.toNat 16 16 + p.deadline.toNat)]

/-- The bytes of a packet before its tag: the header in bytes 0 to 31 of flit 0, then the payload, zeros after it (R372). -/
def packetBytes (p : Packet) : List Byte :=
  let b := wordsToBytes (packetHeader p) ++ (packetPayload p)
  b ++ List.replicate (64 * (p.len + 1) - 8 - b.length) 0

/-- A packet fits its header's fields and its flits (R372). -/
def packetFits (p : Packet) : Bool :=
  decide (p.src < 4096 ∧ p.dst < 4096 ∧ p.ctx < 64 ∧ p.va < 2 ^ 57 ∧ p.hops < 4 ∧ p.nreq < 256 ∧ p.opw < 16 ∧ p.len < 16) &&
  decide (p.tag < 2 ^ 64 ∧ p.part < 2 ^ 16 ∧ p.after < 2 ^ 32 ∧ (packetFlits p) ≤ p.len)

/-- A byte enters the CRC-64 of the ECMA-182 polynomial, most significant bit first (R372; log entry 64). -/
def crcByte (c : BitVec 64) (b : Byte) : BitVec 64 :=
  (List.range 8).foldl (fun c _ => if c.msb then (c <<< 1) ^^^ 0x42F0E1EBA9EA3693 else c <<< 1) (c ^^^ (b.setWidth 64 <<< 56))

/-- The integrity tag of a packet (R372). -/
def packetCrc (p : Packet) : BitVec 64 := (packetBytes p).foldl crcByte 0

/-- Bytes of a packet on its link: whole flits (R372). -/
def packetLength (p : Packet) : Nat := 64 * (p.len + 1)

/-- A packet enters the source port's buffer under the next number of its pair (R375); its bytes count for its context (R276). -/
def sendPacket (s : State) (p : Packet) (needs : Bool) (parts : List (Nat × Nat) := []) : State :=
  let n := sget 0 s.outSeq p.dst
  let p := { p with src := Config.peerId, seq := BitVec.ofNat 32 n, len := packetFlits p }
  let s := s.usage p.ctx 8 (packetLength p)
  { s with outSeq := sset 0 s.outSeq p.dst ((n + 1) % 2 ^ 32),
           sent := s.sent ++ [{ pkt := p, link := planeOf s p.ctx, at_ := s.cycle, needs := needs, parts := parts }] }

/-- A packet with the fields that most kinds have; its source and sequence number are the port's. -/
def mkPacket (s : State) (typ dst ctx va tag : Nat) (data : List Byte) : Packet :=
  { typ := BitVec.ofNat 8 typ, src := Config.peerId, dst := dst, ctx := ctx, seq := 0, va := va, hops := 0, nreq := 0, opw := 0,
    deadline := BitVec.ofNat 16 (s.cycle + 32767), tag := tag, after := 0, data := data }

/-- The code of an atomic in a request's payload. -/
def aopCode : AOp → Nat
  | .add => 0 | .min => 1 | .max => 2 | .and => 3 | .or => 4 | .xor => 5 | .xch => 6 | .cas => 7 | .fadd => 8 | .red _ _ => 10
/-- The atomic of a code. -/
def aopOf : Nat → Option AOp
  | 0 => some .add | 1 => some .min | 2 => some .max | 3 => some .and | 4 => some .or | 5 => some .xor | 6 => some .xch
  | 7 => some .cas | 8 => some .fadd | _ => none

/-- A byte of a number. -/
def byteOf (n : Nat) : Byte := BitVec.ofNat 8 n

/-- The wrapped sum of a word's amounts (R379). -/
def sumOf (wid : Nat) (ls : List LaneAcc) : Nat := (ls.foldl (fun n l => n + ofLE l.data) 0) % 2 ^ (8 * wid)

/-- Whether an access goes out as fetch-and-add packets (R379). -/
def isFaa (a : Acc) : Bool := (match a.op with | .atomic .add _ => true | _ => false) && decide (2 ≤ a.sc)

/-- Groups of at most `n` elements, in order. -/
def chunksOf {α : Type} (n : Nat) : Nat → List α → List (List α)
  | 0, _ => []
  | _, [] => []
  | f + 1, l => l.take n :: chunksOf n f (l.drop n)

/-- The lanes of each part of an access's request (R372, R379): those of one word for a fetch-and-add, else as many as have their
operands and old values in one packet. -/
def Acc.parts (a : Acc) : List (List LaneAcc) :=
  if isFaa a then (dedup (a.lanes.map (·.va))).map fun v => a.lanes.filter fun l => l.va == v
  else if a.lanes.isEmpty then [[]]
  else chunksOf (max 1 (940 / (1 + a.lanes.foldl (fun n l => max n l.data.length) a.wid))) 64 a.lanes

/-- The count of R357 that the next direct request for a page carries. -/
def directCount (s : State) (ctx page : Nat) : Nat := ((s.owners.find? fun e => e.ctx == ctx && e.page == page).map (·.count)).getD 0

/-- The packet of one part of an access to another module (R372, R379). -/
def partPacket (s : State) (a : Acc) (peer : Nat) (ls : List LaneAcc) : Packet :=
  let base := a.line * 128
  let off (l : LaneAcc) : Byte := byteOf (l.va % 128)
  match a.op with
  | .load => mkPacket s 0x01 peer a.ctx base (tagOf a.id) (byteOf a.wid :: ls.map off)
  | .store => mkPacket s 0x02 peer a.ctx base (tagOf a.id) (byteOf a.wid :: ls.flatMap fun l => off l :: l.data)
  | .atomic op ret =>
    if isFaa a then
      { mkPacket s 0x21 peer a.ctx ((ls.head?.map (·.va)).getD 0) (tagOf a.id) (toLE a.wid (sumOf a.wid ls)) with nreq := 1, opw := if a.wid = 8 then 3 else 2 }
    else mkPacket s 0x20 peer a.ctx base (tagOf a.id)
      (byteOf a.wid :: byteOf (aopCode op) :: byteOf (if ret then 1 else 0) :: ls.flatMap fun l => off l :: l.data)

/-- The request packets of an access to another module, the owner's peer number given (R372, R379): all its parts, or those that have
to be sent again (R358). A first direct request carries the count of R357. -/
def requestsOf (s : State) (a : Acc) (peer : Nat) : List Packet :=
  let va := (a.lanes.head?.map (·.va)).getD 0
  let after := if a.hops = 0 then directCount s a.ctx (va / 65536) else 0
  let ps := a.parts.mapIdx fun i ls => { partPacket s a peer ls with part := i, hops := a.hops, after := after, cont := a.cont,
                                                                     deadline := BitVec.ofNat 16 (a.stamp.getD 0) }
  ps.filter fun p => a.again.isEmpty || a.again.contains p.part

/-- What the lanes of a request gave, each the subcode of a poisoned word or 0 and the bytes read: the bytes alone where no word
was poisoned, and else a mark with each lane's subcode before its bytes (log entry 16). -/
def lanesAnswer (ls : List (Nat × List Byte)) : Nat × List Byte :=
  if ls.all fun x => x.1 == 0 then (0, ls.flatMap (·.2)) else (0xFE, ls.flatMap fun x => byteOf x.1 :: x.2)

/-- An answer: the packet's kind, then the cause and subcode of a fault or zeros, then the bytes read. -/
def answer (s : State) (p : Packet) (cause sub : Nat) (bs : List Byte) : State :=
  let typ := if p.typ = 0x01 then 0x03 else if p.typ = 0x02 then 0x10 else 0x22
  sendPacket s { mkPacket s typ (p.tag % 4096) p.ctx p.va p.tag (byteOf cause :: byteOf sub :: bs) with part := p.part } false

/-- Requests that still await an answer. -/
def unanswered (s : State) (tag : Nat) : Bool := s.sent.any fun e => e.needs && e.pkt.tag == tag
/-- The buffered packets of a tag leave. -/
def dropSent (s : State) (tag : Nat) : State := { s with sent := s.sent.filter fun e => !(e.needs && e.pkt.tag == tag) }

/-! ### Leaves and page records -/

/-- A field of a leaf set. -/
def setField (l hi lo v : Nat) : Nat := l - bits l hi lo * 2 ^ lo + v % 2 ^ (hi + 1 - lo) * 2 ^ lo

/-- The leaf that memory holds for a page of a context (R344), 0 where the tables do not reach one. -/
def leafNow (s : State) (ctx page : Nat) : Nat :=
  match s.ctx? ctx with
  | some c => ((leafAt s c.ptroot (page * 65536)).map (read64 s)).getD 0
  | none => 0

/-- A leaf that a walk accepts as a valid one (R346): V is 1 and the reserved bits are 0. -/
def leafValid (l : Nat) : Bool := l.testBit 0 && bits l 31 30 == 0
/-- A mode 11 page owned here (R345, R346). -/
def ownedHere (l : Nat) : Bool := leafValid l && leafMode l == 3 && !l.testBit 29 && leafPeer l == Config.peerId
def isCapo (l : Nat) : Bool := l.testBit 27

/-- Translation-cache entries of a context's page, or of all its pages, leave every TLB (R349, R365). -/
def dropTlb (s : State) (f : TlbE → Bool) : State :=
  { s with cores := s.cores.map fun (k, c) => (k, { c with tlb := c.tlb.filter fun e => !f e }),
           qtlb := s.qtlb.map fun (k, l) => (k, l.filter fun e => !f e) }

/-- The page record (R353). -/
def pageRec (s : State) (ctx page : Nat) : PageRec := (s.pages.find? fun r => r.ctx == ctx && r.page == page).getD { ctx := ctx, page := page }

/-- A record that a new one may replace (R353): the least recently counted one, unpinned and not in capo. -/
def replaceable (s : State) : Option PageRec :=
  let l := s.pages.filter fun r => !r.pinned && !isCapo (leafNow s r.ctx r.page)
  l.foldl (fun b r => match b with
    | none => some r
    | some x => if r.touched < x.touched then some r else some x) none

/-- The table with a record, or none where it is full and no record can be replaced. -/
def putRec (s : State) (r : PageRec) : Option State :=
  if s.pages.any fun x => x.ctx == r.ctx && x.page == r.page then
    some { s with pages := s.pages.map fun x => if x.ctx == r.ctx && x.page == r.page then r else x }
  else if s.pages.length < Config.pageRecords then some { s with pages := s.pages ++ [r] }
  else (replaceable s).map fun o => { s with pages := s.pages.filter (fun x => !(x.ctx == o.ctx && x.page == o.page)) ++ [r] }

/-- A module's peers for a page (R353): up to 16, then the overflow mark. -/
def addPeer (l : List Nat) (p : Nat) : List Nat × Bool :=
  if l.contains p then (l, false) else if l.length < 16 then (l ++ [p], false) else (l, true)

/-- The threshold of a leaf (R345). -/
def leafThr (l : Nat) : Nat := 2 ^ (bits l 23 21 + 4)

/-- A request of another module was served at a page (R354): COUNT of an unpinned page that is not in capo grows, and the
crossing starts a migration toward the requester. A request that came in a freeze that was refused does not count (R381). -/
def countRemote (s : State) (ctx page peer id : Nat) : State :=
  let l := leafNow s ctx page
  let r := pageRec s ctx page
  if !ownedHere l || isCapo l || r.pinned || (s.thawed.any fun x => x.1 == ctx && x.2.1 == page && decide (x.2.2.1 ≤ id ∧ id < x.2.2.2)) then s
  else
    let (ps, o) := addPeer r.access peer
    let r := { r with count := r.count + 1, access := ps, overflow := r.overflow || o, touched := s.cycle }
    match putRec s r with
    | none => s
    | some s => if r.count = leafThr l then { s with agenda := s.agenda ++ [.migrationStart ctx page peer] } else s

/-- Whether a request counts at its page (R354): each line-sized one once, whatever packets carry it. -/
def countsOnce (p : Packet) : Bool := !p.cont && (p.part == 0 || p.typ == 0x21)

/-- The migration and the stub of a page at this module. -/
def migOf (s : State) (ctx page : Nat) : Option Migration := s.migs.find? fun m => m.ctx == ctx && m.page == page
def stubOf (s : State) (ctx page : Nat) : Option Stub := s.stubs.find? fun m => m.ctx == ctx && m.page == page
def modStub (s : State) (ctx page : Nat) (f : Stub → Stub) : State :=
  { s with stubs := s.stubs.map fun m => if m.ctx == ctx && m.page == page then f m else m }

/-- The stub of a page has relayed one more request of a peer, which, unless it is the owner itself (R381), is told the owner and how
many of its requests have been relayed (R357). -/
def redirect (s : State) (ctx page x owner tag : Nat) : State :=
  match stubOf s ctx page with
  | none => s
  | some st =>
    let n := sget 0 st.counts x + 1
    let (tr, o) := if x = owner then (st.tracked, false) else addPeer st.tracked x
    let s := modStub s ctx page fun st => { st with counts := sset 0 st.counts x n, tracked := tr, overflow := st.overflow || o }
    if x = owner then s else sendPacket s (mkPacket s 0x40 x ctx (page * 65536) tag (toLE 2 owner ++ toLE 4 n)) false

/-- What a peer's relayed and direct requests for a page stand at (R357). -/
def relayOf (s : State) (ctx page peer : Nat) : Relay :=
  (s.relays.find? fun r => r.ctx == ctx && r.page == page && r.peer == peer).getD { ctx := ctx, page := page, peer := peer }
def setRelay (s : State) (r : Relay) : State :=
  { s with relays := r :: s.relays.filter fun x => !(x.ctx == r.ctx && x.page == r.page && x.peer == r.peer) }

/-- A direct request's count is what its page's relayed ones have to reach (R357). -/
def noteAfter (s : State) (ctx page peer after hops : Nat) : State :=
  if after = 0 ∨ hops ≠ 0 then s else setRelay s { relayOf s ctx page peer with need := after }
/-- A relayed request has been applied (R357). -/
def noteRelayed (s : State) (ctx page peer hops : Nat) : State :=
  let r := relayOf s ctx page peer
  if hops = 0 then s else setRelay s { r with done := r.done + 1 }

/-- A direct request that waits for relayed ones of its requester (R357). -/
def awaitsRelays (s : State) (ctx : Nat) (req : Option Packet) : Bool :=
  match req with
  | none => false
  | some p =>
    let r := relayOf s ctx (p.va / 65536) (p.tag % 4096)
    p.hops == 0 && decide (r.done < r.need)

/-! ### Replicas -/

/-- The replica of a line that this module holds (R363). -/
def replicaFor (s : State) (ctx va : Nat) : Option Replica := s.replicas.find? fun r => r.ctx == ctx && r.va == va / 128 * 128
/-- The first address of an access. -/
def Acc.va (a : Acc) : Nat := (a.lanes.head?.map (·.va)).getD 0
/-- The peers that hold replicas of an access's page here (R363). -/
def replicaPeers (s : State) (a : Acc) : List Nat :=
  if a.space = .dev then ((s.repsets.find? fun r => r.ctx == a.ctx && r.page == a.va / 65536).map (·.peers)).getD [] else []

/-- Replicas are dropped and their owners told (R363); reads that waited on them leave again. -/
def dropReplicas (s : State) (f : Replica → Bool) : State :=
  let gone := s.replicas.filter f
  let s : State := { s with replicas := s.replicas.filter fun r => !f r }
  let s : State := { s with accs := s.accs.map fun a =>
      if (gone.any fun r => r.ctx == a.ctx && r.va == a.va / 128 * 128) && !unanswered s (tagOf a.id) && (match a.space with | .remote _ => true | _ => false)
      then { a with route := routeOf s a.core a.ctx a.op a.space a.line a.va, sent := none } else a }
  gone.foldl (fun s r => sendPacket s (mkPacket s 0x60 (leafPeer (leafNow s r.ctx (r.va / 65536))) r.ctx r.va 0 [3]) false) s

/-! ### Late packets (R293) -/

/-- A packet that is served in this clock is late. -/
def isLate (s : State) (stamp : Nat) : Bool :=
  let d := (s.cycle + 2 ^ 16 - stamp % 2 ^ 16) % 2 ^ 16
  decide (1 ≤ d ∧ d ≤ 32767)

/-- A packet is served in this clock: after its stamp it is late, is counted once, and with LATEE marks the threads of a
load, store or atomic. -/
def markLate (s : State) (stamp : Nat) (queue : Option Nat) (gid : Nat) (lanes : List Nat) (va : Nat) (marks : Bool) : State :=
  match queue with
  | none => s
  | some q =>
    if !isLate s stamp then s
    else
      let latee := (s.queue? q).elim false (·.latee)
      let s := s.modQueue q fun x => { x with late := min (x.late + 1) (2 ^ 32 - 1) }
      if latee && marks then s.mapLanes gid lanes fun t => if t.late.isSome then t else { t with late := some (q, va) } else s

end Sys2Proof.Machine
end

