-- ==== Sys2Proof/Machine/Memory.lean ====
section
/-! DEFINITION. Loads, stores, fences and atomics of class MEM (R164-R202, R219), and the steps that end them. -/

namespace Sys2Proof.Machine

/-- A thread's element index operand. -/
def Thread.idx (t : Thread) (i : VReg) : Reg := t.vget i.toNat

/-- The first poisoned register of a lane among some (R415: the register code of cause 0x08). -/
def firstPoison (t : Thread) (rs : List Nat) : Option Nat := rs.find? fun r => (t.vget r).poi
/-- The first poisoned s-register among some. -/
def firstPoisonS (sf : RegFile) (rs : List Nat) : Option Nat := rs.find? fun r => (sget {} sf r).poi

/-- What distinguishes the accesses in the steps of R167. -/
structure Form where
  kinds : List Nat
  /-- Widths permitted, as a test of kind and width, and the accepted scopes beyond R176. -/
  wid : Nat
  ok8 : Bool
  sc : Nat
  need : Nat
  /-- v-registers compared in coursed launch (R145), and those whose poison traps at step 6. -/
  cmp : List Nat
  poison : List Nat
  /-- Kind 7 raises cause 0x28 at step 5; ADDR is the address of the lowest active lane (DESIGN CHOICE, log entry 17). -/
  k28 : Bool := false
  store : Bool := false

/-- Steps 3 to 9 of R167 for lanes with one index: a trap with the step that takes it, or the acting lanes in range with their
locations. A lane with a poisoned index is not among them. -/
inductive Steps where
  | stop (step : Nat) (s : State)
  | go (lanes : List (Thread × Nat × Loc)) (oob : List Nat) (poisoned : List Nat)

/-- The steps of R167 from the coursed comparison to the locations. Alignment is that of the unswizzled address, since R165 has
every `.w` access aligned and R160 places the halves of a 16-byte access separately (DEDUCED, log entry 43). A kind 7 store or
atomic takes cause 0x28 before any other fault of its record, since the spec gives no order within step 5 (DESIGN CHOICE, log
entry 17). -/
def accessSteps (s : State) (iss : Issue) (g : Group) (r : Rec) (rn : RecN) (i : VReg) (f : Form) : Steps :=
  let (w, c) := placeOf s g
  let diff := coursedDiff g iss f.cmp
  if !diff.isEmpty then .stop 3 (takeTrap s iss 0x31 { lanes := diff })
  else if r.poi then
    .stop 4 (takeTrap s iss 0x08 { info0 := BitVec.ofNat 32 (0x80 + (firstPoisonS iss.snap (recRegs rn)).getD 0) })
  else if f.k28 && r.kind == 7 then .stop 5 (takeTrap s iss 0x28 { addr := ((acting g iss).head?.map fun t => r.addr (t.idx i).w.toNat).getD r.base })
  else match recBad r f.kinds f.ok8 with
  | some sub => .stop 5 (takeTrap s iss 0x05 { sub := sub })
  | none =>
    let ts := acting g iss
    let pl := ts.filter fun t => (firstPoison t f.poison).isSome
    match pl with
    | t :: _ =>
      .stop 6 (takeTrap s iss 0x08 { info0 := BitVec.ofNat 32 ((firstPoison t f.poison).getD 0), lanes := pl.map (·.lane) })
    | [] =>
      let clean := ts.filter fun t => !(t.idx i).poi
      let ix (t : Thread) := (t.idx i).w.toNat
      let mis := clean.filter fun t => decide ((r.base + r.off (ix t)) % f.wid ≠ 0)
      if !mis.isEmpty then .stop 7 (takeTrap s iss 0x05 { sub := 7, lanes := mis.map (·.lane) })
      else
        let out := clean.filter fun t => !inRange s w r (ix t) f.wid f.store
        let oobe := out.filter fun t => t.fctl.getLsbD 21
        match oobe with
        | t :: _ => .stop 8 (takeTrap s iss 0x09 { addr := r.addr (ix t), lanes := oobe.map (·.lane) })
        | [] =>
          let inl := clean.filter fun t => inRange s w r (ix t) f.wid f.store
          .go (inl.map fun t => (t, ix t, locate s g.core w c r (ix t) f.wid f.need)) (out.map (·.lane))
            ((ts.filter fun t => (t.idx i).poi).map (·.lane))

/-- The TLB fills of an issue's pages (R349). -/
def fillFor (s : State) (core : Nat) (c : Context) (r : Rec) (ls : List (Thread × Nat × Loc)) : State :=
  if r.kind = 0 ∨ r.kind = 7 then
    (dedup (ls.map fun (_, i, _) => r.addr i / 65536)).foldl (fun s p => tlbFill s core c (p * 65536)) s
  else s

/-- The trap of a store-like issue whose lines fault (R169): the lowest lane of any faulting line; for kind 7 and field
pages cause 0x28 where `fld`. -/
def storeFault (s : State) (iss : Issue) (r : Rec) (ls : List (Thread × Nat × Loc)) (fld : Bool) : Option State :=
  let bad := ls.filterMap fun (t, i, l) => match l with
    | .fault cs sub => some (t.lane, r.addr i, cs, sub)
    | .at_ sp _ leaf => if fld && sp.paged && leaf.testBit 5 && r.kind != 7 then some (t.lane, r.addr i, 0x28, 0) else none
  match bad with
  | [] => none
  | (l, a, cs, sub) :: _ => some (takeTrap s iss cs { sub := sub, addr := a, lanes := (l :: (bad.filter fun b => b.2.2.1 == cs).map (·.1)) })

/-- Registers written with poison: Fault() of R35 at a lane's destination. -/
def Thread.fault (t : Thread) (dst n cause sub addr : Nat) (code : Word) : Thread :=
  ((List.range n).foldl (fun t k => t.vset (dst + k) ⟨0, true⟩) t).recordPo cause sub addr code

/-- Bytes loaded into the destination registers, zero-extended (R171). -/
def Thread.load (t : Thread) (dst : Nat) (bs : List Byte) : Thread :=
  t.vsets dst (bytesToWords bs (regsOfBytes bs.length))

/-- A lane and its shadow changed (R144). -/
def onLane (s : State) (g : Group) (lane : Nat) (f : Thread → Thread) : State :=
  s.mapLanes g.gid (withShadow g [lane]) f

/-- Ends the threads' wait for accesses that are gone; an acquire among them opens the next region and drops the core's
cached lines (R180, R195). -/
def settle (s : State) (gid : Nat) (lanes : List Nat) : State :=
  s.mapLanes gid lanes fun t =>
    match t.wait with
    | .accs ids => if ids.any fun i => (s.acc? i).isSome || (s.xfer? i).isSome then t else t.ready
    | _ => t

/-- A group, a WAITM's lane, a queue's signal, a mailbox message or a held element of a COPYR of a number awaits what an access gives. -/
def keeps (s : State) (k : Nat) : Bool :=
  (s.group? k).isSome || (s.groups.any fun g => g.threads.any fun t => match t.wait with | .waitm w => w.poll == k | _ => false) || (s.queues.any fun q => q.sigAcc == some k) || (s.held.any fun h => h.sent == some k) ||
  s.ctxs.any fun c => c.msgs.any fun m => m.id == k

/-- An access that moves bytes for a command or a uniform instruction has ended: what it gave is kept for its issuer, and waiting
lanes go on. -/
def keepAcc (s : State) (a : Acc) (k cause sub : Nat) (bs : List Byte) : State :=
  let s := s.dropAcc a.id
  let x : Fetched := { key := k, va := a.va, write := decide (a.op ≠ .load), bytes := bs, cause := cause, sub := sub }
  let s : State := if (s.cmd? k).elim (keeps s k) fun c => decide (c.state = .running) then { s with fetched := s.fetched ++ [x] } else s
  match s.group? a.gid with
  | some g => settle s a.gid (g.threads.map (·.lane))
  | none => s

/-- An access has ended: it leaves the list, a synchronising one ends its lanes' region, and waiting lanes go on. -/
def endAcc (s : State) (a : Acc) : State :=
  let s := s.dropAcc a.id
  match s.group? a.gid with
  | none => s
  | some g =>
    let ls := withShadow g (a.lanes.map (·.lane))
    let s := if a.sync then newRegion s a.gid ls else s
    settle s a.gid (g.threads.map (·.lane))

/-- Whether the form's register operand fits a `.w` width resolved from the record (R170, R202). -/
def regFit (d n : Nat) : Bool := decide (d % (regsOfBytes n) = 0)

/-- The lanes of an access that have a place. -/
def placedOf (ls : List (Thread × Nat × Loc)) : List (Thread × Nat × Space × List Nat) := ls.filterMap fun (t, i, l) =>
  match l with
  | .at_ sp k _ => some (t, i, sp, k)
  | .fault _ _ => none

/-- The tracked accesses of an issue's lanes. -/
def touches (r : Rec) (sc : Nat) (ls : List (Thread × Nat × Space × List Nat)) (write : Bool) (sync : Bool) : List Touch :=
  if tracked r sc then ls.flatMap fun (t, i, sp, k) => touchOf t.lane sp k write (if sync then some sc else none) (r.addr i)
  else []

/-- The form of LD and of LDACQ (R171, R176, R188). -/
def loadForm (sf : RegFile) (r : Rec) (x : LsF) (acq : Bool) : Form :=
  let wid := wdBytes sf x.wd x.r
  let sc := r.sc x.sc
  let widOk := if r.kind = 7 then wid == r.es else if acq then wid == 4 || wid == 8 else true
  { kinds := if acq then [0, 1, 2, 6, 7] else [0, 1, 2, 3, 6, 7], wid := wid,
    ok8 := widOk && scopeOk r.kind sc && regFit x.d.toNat wid, sc := sc, need := 1, cmp := [x.i.toNat], poison := [] }

/-- The form of ST, STREL and XST (R172, R176, R188, R219). -/
def storeForm (sf : RegFile) (r : Rec) (x : LsF) (rel xst : Bool) : Form :=
  let wid := wdBytes sf x.wd x.r
  let sc := r.sc x.sc
  let data := span x.d.toNat (regsOfBytes wid)
  let widOk := if rel then wid == 4 || wid == 8 else true
  { kinds := if xst then [3] else [0, 1, 2, 6, 7], wid := wid,
    ok8 := widOk && (xst || scopeOk r.kind sc) && regFit x.d.toNat wid, sc := sc, need := 2,
    cmp := x.i.toNat :: data, poison := x.i.toNat :: data, k28 := !xst, store := true }

/-- LD and LDACQ (R171): poisoned indices and faulting lines poison, lanes out of range read 0, the rest become
accesses; an acquire first awaits the thread's earlier synchronisation and then holds the thread until it has returned. -/
def loadEff (x : LsF) (acq : Bool) (iss : Issue) (g : Group) (s : State) : State :=
  let (w, c) := placeOf s g
  let r := recAt iss.snap x.r
  let wid := wdBytes iss.snap x.wd x.r
  let sc := r.sc x.sc
  match accessSteps s iss g r x.r x.i (loadForm iss.snap r x acq) with
  | .stop _ s => s
  | .go ls oob poi =>
    let s := fillFor s g.core c r ls
    let good := ls.filterMap fun (t, i, l) => match l with
      | .at_ sp k leaf => if r.kind = 7 ∧ ¬ leaf.testBit 5 then none else some (t, i, sp, k)
      | .fault _ _ => none
    let bad := ls.filterMap fun (t, i, l) => match l with
      | .at_ _ _ leaf => if r.kind = 7 ∧ ¬ leaf.testBit 5 then some (t, i, 0x0B, 0) else none
      | .fault cs sub => some (t, i, cs, sub)
    let det := detOf s g
    let stg := if det ∧ (r.kind = 0 ∨ r.kind = 7) then
        good.filterMap fun (t, i, _, _) => stagedConflict s g [t.lane] (r.addr i) wid sc r.track acq (r.kind == 7)
      else []
    match stagedStop s iss stg with
    | some s => s
    | none =>
      if acq && !accsDone s iss.gid iss.lanes then hold s iss .drained
      else
        match raceCheck s iss g w (touches r sc good false acq) with
        | .stop s => s
        | .go s =>
          let n := regsOfBytes wid
          let d := x.d.toNat
          let s := poi.foldl (fun s l => onLane s g l fun t => (List.range n).foldl (fun t k => t.vset (d + k) ⟨0, true⟩) t) s
          let s := oob.foldl (fun s l => onLane s g l fun t => ((List.range n).foldl (fun t k => t.vset (d + k) {}) t).setOob) s
          let s := if bad.any fun b => b.2.2.1 == 0x0D then noteWorld s else s
          let s := bad.foldl (fun s (t, i, cs, sub) => onLane s g t.lane fun t => t.fault d n cs sub (r.addr i) iss.pc) s
          let alloc := (r.kind == 0 || r.kind == 7) && r.cache == 0 && (!acq || sc == 0) && !slideOf s g
          let (s, ids) := addAccs s iss g w .load wid acq alloc
            (good.map fun (t, i, sp, k) => (sp, { lane := t.lane, va := r.addr i, keys := k, dst := d }))
          let s := advance s iss
          if acq then
            let s := if sc ≥ 1 then dropCache s g.core else s
            let hit := withShadow g (good.map fun (t, _, _, _) => t.lane)
            let s := newRegion s iss.gid (iss.lanes.filter fun l => !hit.contains l)
            if ids.isEmpty then s else s.mapLanes iss.gid iss.lanes fun t => { t with wait := .accs ids }
          else s

def execLd (x : LsF) (s : State) : Out := issued (.ld x) (loadEff x false) s
def execLdacq (x : LsF) (s : State) : Out := issued (.ldacq x) (loadEff x true) s

/-- Bytes of `n` registers from `d`. -/
def Thread.bytesOf (t : Thread) (d n wid : Nat) : List Byte :=
  (wordsToBytes ((List.range n).map fun k => (t.vget (d + k)).w)).take wid

/-- Host writes of the issuing threads that a release has to await, by port: a zero-length read on each (R380). -/
def hostFlush (s : State) (iss : Issue) (g : Group) (w : Wg) : Option State :=
  let mine (p : Nat × Nat × Nat) : Bool := p.1 == g.gid && iss.lanes.contains p.2.1
  let ports := dedup ((s.posted.filter mine).map (·.2.2))
  if ports.isEmpty then none
  else
    let s := { s with posted := s.posted.filter fun p => !mine p }
    let (s, ids) := ports.foldl (fun (s, ids) port =>
      let (id, s) := s.fresh
      ({ s with accs := s.accs ++ [{ id := id, gid := g.gid, core := g.core, ctx := w.ctx, pc := iss.pc, op := .load,
                                     space := .host, line := port, wid := 0, lanes := [] }] }, ids ++ [id])) (s, [])
    some (hold s iss (.accs ids))

/-- A lane of an XST addresses a member whose gang is Saved (R219). -/
def xstStalled (s : State) (w : Wg) (r : Rec) (ls : List (Thread × Nat × Loc)) : Bool :=
  ls.any fun (_, i, _) => s.wgs.any fun v => v.ctx == w.ctx && decide (v.state = .saved) &&
    (v.xm.elim false fun y => some y.grp == w.xm.map (·.grp) && y.member == r.addr i / 65536)

/-- What a staged synchronisation does at its issue: lanes that make no access end their region (R180), and an acquire of .qrt or
wider drops the core's cached lines (R195). -/
def stagedSync (s : State) (iss : Issue) (g : Group) (sync drop : Bool) (oob : List Nat) : State :=
  let s := if drop then dropCache s g.core else s
  if sync && !oob.isEmpty then newRegion s iss.gid (withShadow g oob) else s

/-- ST, STREL and XST (R172, R219): any faulting line traps the issue; the rest become store accesses. A release awaits
the thread's earlier accesses and holds the thread until it is performed. -/
def storeEff (x : LsF) (rel xst : Bool) (iss : Issue) (g : Group) (s : State) : State :=
  let (w, c) := placeOf s g
  let r := recAt iss.snap x.r
  let wid := wdBytes iss.snap x.wd x.r
  let sc := r.sc x.sc
  let n := regsOfBytes wid
  match accessSteps s iss g r x.r x.i (storeForm iss.snap r x rel xst) with
  | .stop _ s => s
  | .go ls oob _ =>
    match storeFault s iss r ls true with
    | some s => s
    | none =>
      let good := placedOf ls
      let s := fillFor s g.core c r ls
      if xst && xstStalled s w r ls then hold s iss .retry
      else
        let mark (s : State) := oob.foldl (fun s l => onLane s g l Thread.setOob) s
        let lines := good.filterMap fun (_, _, sp, k) => match sp with | .dev => some (k.headD 0 / 128) | _ => none
        let uncache (s : State) : State := s.modCore g.core fun k => { k with cache := k.cache.filter fun l => !lines.contains l }
        if detOf s g && r.kind == 0 then
          match raceCheck s iss g w (touches r sc good true rel) with
          | .stop s => s
          | .go s => stageAll s iss g (good.map fun (t, i, _, _) =>
            { stagedFor g iss t 0 with
              kind := if rel then 0x23 else 0x21, va := r.addr i, wid := wid, data := t.bytesOf x.d.toNat n wid, sc := sc, sync := rel,
              m := (match x.wd with | .w => 0 | .x1 => 1 | .x2 => 2 | .x4 => 3 | .x8 => 4 | .x16 => 5), track := r.track })
            fun s => advance (stagedSync ((mark (uncache s)).mapLanes iss.gid iss.lanes fun t => { t with dseq := t.dseq + 1 }) iss g rel false oob) iss
        else if rel && !drained s iss.gid iss.lanes then hold s iss .drained
        else match (if rel && sc == 3 then hostFlush s iss g w else none) with
        | some s => s
        | none =>
          match raceCheck s iss g w (touches r sc good true rel) with
          | .stop s => s
          | .go s =>
            let (s, ids) := addAccs (mark s) iss g w .store wid rel false
              (good.map fun (t, i, sp, k) => (sp, { lane := t.lane, va := r.addr i, keys := k, data := t.bytesOf x.d.toNat n wid }))
            let s := uncache s
            let s := if r.kind == 6 && !good.isEmpty then
                { s with posted := s.posted ++ ls.filterMap fun (t, _, l) => match l with | .at_ .host _ p => some (g.gid, t.lane, p) | _ => none }
              else s
            let s := advance s iss
            if rel then
              let hit := withShadow g (good.map fun (t, _, _, _) => t.lane)
              let s := newRegion s iss.gid (iss.lanes.filter fun l => !hit.contains l)
              if ids.isEmpty then s else s.mapLanes iss.gid iss.lanes fun t => { t with wait := .accs ids }
            else s

def execSt (x : LsF) (s : State) : Out := issued (.st x) (storeEff x false false) s
def execStrel (x : LsF) (s : State) : Out := issued (.strel x) (storeEff x true false) s
def execXst (x : LsF) (s : State) : Out := issued (.xst x) (storeEff x false true) s

/-- PREF (R173): traps only at steps 1 to 5; its lines enter the read cache's tags without `.l2`, and the page's leaf the
translation caches. Lanes that a later step would stop are skipped: a fault, a page that lacks FIELD for kind 7 (R322), a race. -/
def execPref (x : PrefF) (s : State) : Out :=
  issued (.pref x) (fun iss g s =>
    let (w, c) := placeOf s g
    let r := recAt iss.snap x.r
    let diff := coursedDiff g iss [x.i.toNat]
    if !diff.isEmpty then takeTrap s iss 0x31 { lanes := diff }
    else if r.poi then takeTrap s iss 0x08 { info0 := BitVec.ofNat 32 (0x80 + (firstPoisonS iss.snap (recRegs x.r)).getD 0) }
    else match recBad r [0, 6, 7] (scopeOk r.kind (r.sc x.sc)) with
    | some sub => takeTrap s iss 0x05 { sub := sub }
    | none =>
      let ls := (acting g iss).filterMap fun t =>
        let i := (t.idx x.i).w.toNat
        if (t.idx x.i).poi || !inRange s w r i r.es false || r.kind == 6 then none
        else some (t, i, locate s g.core w c r i r.es 1)
      let s := fillFor s g.core c r ls
      let races (t : Thread) (i : Nat) (k : List Nat) : Bool := (touches r (r.sc x.sc) [(t, i, .dev, k)] false false).any fun tc =>
        (conflict s g.gid w.gang w.ctx w.id t.opened [t.lane] tc).isSome
      let lines := ls.filterMap fun (t, i, l) => match l with
        | .at_ .dev k leaf => if (r.kind = 7 ∧ ¬ leaf.testBit 5) ∨ races t i k then none else some (k.headD 0 / 128)
        | _ => none
      let s := if x.l2 || r.cache != 0 then s
        else s.modCore g.core fun k => { k with cache := dedup (lines ++ k.cache) |>.take Config.readCacheLines }
      advance s iss) s

/-- FENCE (R201): a flush point that awaits the thread's accesses and transfers, drops cached copies at .qrt or wider
(R195), flushes posted host writes at .sys (R380), and opens the next region. -/
def execFence (sc : Sc) (s : State) : Out :=
  issued (.fence sc) (fun iss g s =>
    let (w, _) := placeOf s g
    if !drained s iss.gid iss.lanes then hold s iss .drained
    else match (if sc = .sys then hostFlush s iss g w else none) with
    | some s => s
    | none =>
      let s := match sc with
        | .qrt | .dev | .sys => dropCache s g.core
        | _ => s
      advance (newRegion s iss.gid iss.lanes) iss) s

/-- Kinds an atomic accepts (R197). -/
def atKinds (op : AOp) : List Nat :=
  match op with
  | .add | .xch | .cas => [0, 1, 2, 6]
  | _ => [0, 1, 2]

/-- An atomic access (R198, R213): the operation, the code of R410, the kinds and scopes accepted, the ordering, and the
registers it reads with the operand bytes they give. -/
structure AtSpec where
  op : AOp
  opc : Nat
  kinds : List Nat
  scOk : Nat → Nat → Bool
  ok8 : Bool
  acq : Bool
  rel : Bool
  ret : Bool
  m : Nat
  sc : Sc
  d : Nat
  r : RecN
  i : VReg
  regs : List Nat
  data : Thread → List Byte

/-- The form of an atomic. -/
def AtSpec.form (x : AtSpec) (r : Rec) : Form :=
  let sc := r.sc x.sc
  { kinds := x.kinds ++ [7], wid := r.es, ok8 := (r.es == 4 || r.es == 8) && x.scOk r.kind sc && x.ok8,
    sc := sc, need := 3, cmp := x.i.toNat :: x.regs, poison := x.i.toNat :: x.regs, k28 := true, store := true }

/-- An atomic (R196-R200, R403): the old values come back, or the deferred errors arise, in ATOMIC_APPLY. -/
def atomicEff (x : AtSpec) (iss : Issue) (g : Group) (s : State) : State :=
  let (w, c) := placeOf s g
  let r := recAt iss.snap x.r
  let wid := r.es
  let sc := r.sc x.sc
  let n := regsOfBytes wid
  match accessSteps s iss g r x.r x.i (x.form r) with
  | .stop _ s => s
  | .go ls oob _ =>
    match storeFault s iss r ls true with
    | some s => s
    | none =>
      let good := placedOf ls
      let s := fillFor s g.core c r ls
      let mark (s : State) := oob.foldl (fun s l => onLane s g l fun t =>
        (if x.ret then (List.range n).foldl (fun t k => t.vset (x.d + k) {}) t else t).setOob) s
      let remote := good.any fun (_, _, sp, _) => match sp with | .remote _ => true | _ => false
      if detOf s g && (r.kind == 6 || (x.ret && remote)) then takeTrap s iss 0x48
      else if detOf s g && r.kind == 0 then
        match raceCheck s iss g w (touches r sc good true true) with
        | .stop s => s
        | .go s => stageAll s iss g (good.map fun (t, i, _, _) =>
          { stagedFor g iss t 0 with
            kind := x.opc, va := r.addr i, wid := wid, data := x.data t, op := some x.op, ret := x.ret, dst := x.d, sc := sc,
            sync := true, m := x.m, track := r.track })
          fun s =>
            let s := (mark s).mapLanes iss.gid iss.lanes fun t => { t with dseq := t.dseq + 1 }
            let s := stagedSync s iss g (x.acq || x.rel) (x.acq && decide (1 ≤ sc)) oob
            let s := advance s iss
            if x.ret then s.mapLanes iss.gid iss.lanes fun t =>
                { t with epoch := t.epoch + 1, wait := if (withShadow g oob).contains t.lane then t.wait else .staged }
            else s
      else if (x.rel && !drained s iss.gid iss.lanes) || (x.acq && !accsDone s iss.gid iss.lanes) then hold s iss .drained
      else match (if x.rel && sc == 3 then hostFlush s iss g w else none) with
      | some s => s
      | none =>
        match raceCheck s iss g w (touches r sc good true true) with
        | .stop s => s
        | .go s =>
          let (s, ids) := addAccs (mark s) iss g w (.atomic x.op x.ret) wid (x.acq || x.rel) false
            (good.map fun (t, i, sp, k) => (sp, { lane := t.lane, va := r.addr i, keys := k, dst := x.d, data := x.data t })) sc
          let s := if x.ret && detOf s g then s.mapLanes iss.gid iss.lanes fun t => { t with epoch := t.epoch + 1 } else s
          let s := advance s iss
          if x.acq || x.rel then
            let s := if x.acq && decide (1 ≤ sc) then dropCache s g.core else s
            let hit := withShadow g (good.map fun (t, _, _, _) => t.lane)
            let s := newRegion s iss.gid (iss.lanes.filter fun l => !hit.contains l)
            if ids.isEmpty then s else s.mapLanes iss.gid iss.lanes fun t => { t with wait := .accs ids }
          else s

/-- An atomic instruction of R198. -/
def atSpec (op : AOp) (opc : Nat) (x : AtF) (iss : Issue) : AtSpec :=
  let wid := (recAt iss.snap x.r).es
  let n := regsOfBytes wid
  let cas := decide (op = .cas)
  let d := x.d.toNat
  let k := if cas then 2 * n else n
  { op := op, opc := opc, kinds := atKinds op, scOk := scopeOk, ok8 := decide (d % k = 0),
    acq := (match x.ord with | .acq | .ar => true | _ => false), rel := (match x.ord with | .rel | .ar => true | _ => false),
    ret := x.ret, m := (match x.ord with | .rlx => 0 | .acq => 2 | .rel => 4 | .ar => 6) + (if x.ret then 1 else 0), sc := x.sc,
    d := d, r := x.r, i := x.i, regs := span d k,
    data := fun t => if cas then t.bytesOf d n wid ++ t.bytesOf (d + n) n wid else t.bytesOf d n wid }

/-- An atomic instruction at its issue. -/
def atEff (op : AOp) (opc : Nat) (x : AtF) (iss : Issue) (g : Group) (s : State) : State := atomicEff (atSpec op opc x iss) iss g s

def execAadd (x : AtF) (s : State) : Out := issued (.aadd x) (atEff .add 0x28 x) s
def execAmin (x : AtF) (s : State) : Out := issued (.amin x) (atEff .min 0x29 x) s
def execAmax (x : AtF) (s : State) : Out := issued (.amax x) (atEff .max 0x2A x) s
def execAand (x : AtF) (s : State) : Out := issued (.aand x) (atEff .and 0x2B x) s
def execAor (x : AtF) (s : State) : Out := issued (.aor x) (atEff .or 0x2C x) s
def execAxor (x : AtF) (s : State) : Out := issued (.axor x) (atEff .xor 0x2D x) s
def execAxch (x : AtF) (s : State) : Out := issued (.axch x) (atEff .xch 0x2E x) s
def execAcas (x : AtF) (s : State) : Out := issued (.acas x) (atEff .cas 0x2F x) s
def execAfadd (x : AtF) (s : State) : Out := issued (.afadd x) (atEff .fadd 0x30 x) s

/-! ### The steps that end an access -/

/-- Whether the access waits on a page that a migration has frozen (R355): it came after the freeze. -/
def frozen (s : State) (a : Acc) : Bool :=
  decide (a.space = .dev) && s.migs.any fun m => m.ctx == a.ctx && decide (m.born ≤ a.id) && a.lanes.any fun l => l.va / 65536 == m.page

/-- The host port that an access of kind 6 uses; a zero-length read has the port as its line (R380). -/
def hostPort (s : State) (a : Acc) : Nat :=
  if a.lanes.isEmpty then a.line else hostPortAt s a.ctx a.op a.va

/-- A request that came in a packet of a module is behind an earlier one of that module, access or transfer: the destination applies a
source's requests in the order in which its port sent them (R375). -/
def behindSource (s : State) (id src : Nat) : Bool :=
  (s.accs.any fun b => decide (b.id < id) && b.req.elim false fun p => p.src == src) ||
  s.xfers.any fun x => decide (x.id < id) && x.stage == 0 && x.remote.elim false fun p => p.src == src

/-- A posted write is behind an earlier one through its host port, and a zero-length read behind every one (R380). -/
def behindPosted (s : State) (a : Acc) : Bool :=
  decide (a.space = .host) && (decide (a.op = .store) || a.lanes.isEmpty) &&
    s.accs.any fun b => decide (b.id < a.id) && decide (b.space = .host) && decide (b.op = .store) && hostPort s b == hostPort s a

/-- Whether an access has to wait for an earlier one: of the same group to the line (R174, R185), of the same source module (R375), or
through the same host port (R380). -/
def behind (s : State) (a : Acc) : Bool :=
  behindPosted s a || match a.req with
  | some p => behindSource s a.id p.src
  | none => s.accs.any fun b => b.req.isNone && b.gid == a.gid && decide (b.id < a.id) && decide (b.space = a.space) && b.line == a.line

/-- The locks of a change of a replicated line leave (R193). -/
def sendLocks (s : State) (a : Acc) : State :=
  (replicaPeers s a).foldl (fun s p => sendPacket s (mkPacket s 0x60 p a.ctx (a.va / 128 * 128) (tagOf a.id) [0]) true)
    (s.modAcc a.id fun a => { a with locking := true })

/-- A change of the same replicated line has locks out (R193): the owner takes changes one after the other. -/
def lineLocked (s : State) (a : Acc) : Bool := decide (a.space = .dev) && s.accs.any fun b => b.locking && b.id != a.id &&
  b.ctx == a.ctx && decide (b.space = .dev) && b.line == a.line

/-- Whether an access on this module may end now: a remote load only from an unlocked replica (R193, R363). -/
def accReady (s : State) (a : Acc) : Bool :=
  a.served && !frozen s a && !behind s a && !awaitsRelays s a.ctx a.req && !(a.req.isSome && a.op == .load && lineLocked s a) && (match a.space with
    | .remote _ => decide (a.op = .load) && !unanswered s (tagOf a.id) &&
        (replicaFor s a.ctx a.va).elim false fun r => r.locked.isNone
    | .host => decide (a.op = .store)
    | _ => true)

/-- Whether a change of a replicated page has passed what R193 asks: without replicas at once, else its commit point and
every acknowledgement. -/
def locksOver (s : State) (a : Acc) : Bool :=
  if a.committed then !unanswered s (tagOf a.id) else (replicaPeers s a).isEmpty && !lineLocked s a

/-- What a released entry of a selected gang gives is kept for the gang's other runs (R411): a cause and subcode, or its bytes. -/
def noteVal (s : State) (tail : Option (Nat × List Nat)) (v : Nat × Nat × List Byte) : State :=
  match tail with
  | some (x, k) => if k.isEmpty then s else s.modSweep x fun x => if x.slide then x else { x with vals := (k, v) :: x.vals }
  | none => s

/-- The slide sweep and the number of the thread whose staged entry an access or a transfer releases. -/
def tailStn (s : State) (tail : Option (Nat × List Nat)) : Option (Sweep × Nat) :=
  tail.bind fun (x, k) => (s.sweep? x).bind fun x => if x.slide then k.head?.map fun n => (x, n) else none

/-- A slide thread changed wherever it stands: in a group, travelling, queued, or in a ring (R386). -/
def modStn (s : State) (x : Sweep) (stn : Nat) (f : Thread → Thread) : State :=
  let cs := slideCores s x.ctx
  let upd (t : Thread) : Thread := if t.stn = stn then f t else t
  let s : State := { s with
    groups := s.groups.map fun g => if (s.wg? g.wg).elim false fun w => w.sweep == x.id then { g with threads := g.threads.map upd } else g,
    travel := s.travel.map fun p => if cs.contains p.1 then (p.1, upd p.2) else p,
    cores := s.cores.map fun p => if cs.contains p.1 then (p.1, { p.2 with arrivals := p.2.arrivals.map upd }) else p }
  s.modCtx x.ctx fun c => { c with frets := c.frets.map fun p =>
    (p.1, { p.2 with ring := p.2.ring.map fun r => if r.taken then r else { r with thread := upd r.thread } }) }

/-- The thread that an access or a transfer is for, and its shadow, changed: a slide thread's, wherever it has gone since. -/
def onOwner (s : State) (tail : Option (Nat × List Nat)) (gid lane : Nat) (f : Thread → Thread) : State :=
  match tailStn s tail with
  | some (x, n) => modStn s x n f
  | none => (s.group? gid).elim s fun g => onLane s g lane f

/-- Delivery of a load's lane: its data or Fault() (R169, R171). -/
def deliver (s : State) (g : Group) (a : Acc) (l : LaneAcc) (bs : Option (List Byte)) (cause sub : Nat) : State :=
  onLane (noteVal s a.tail (match bs with | some bs => (0, 0, bs) | none => (cause, sub, []))) g l.lane fun t => match bs with
    | some bs => t.load l.dst bs
    | none => t.fault l.dst (regsOfBytes a.wid) cause sub l.va a.pc

/-- Bytes that another module gave for an address as a thread sees them: under the staged entries of a deterministic sweep (R409). -/
def underStaged (s : State) (g : Group) (lane va : Nat) (bs : List Byte) : List Byte :=
  if detOf s g then overlay s g lane va bs.length (List.replicate (va % 16) 0 ++ bs ++ List.replicate 16 0) else bs

/-- A load's data as its lanes see them: the memory's bytes under the staged entries of a deterministic sweep (R409), or
a replica's (R363). -/
def loadBytes (s : State) (g : Group) (a : Acc) (l : LaneAcc) : List Byte :=
  let k0 := l.keys.headD 0
  match a.space with
  | .remote _ => underStaged s g l.lane l.va ((((replicaFor s a.ctx l.va).map (·.data)).getD []).drop (l.va % 128) |>.take a.wid)
  | .dev => if detOf s g then overlay s g l.lane l.va a.wid (s.read .dev (k0 - l.va % 16) 16) else getKeys s a.space l.keys
  | _ => getKeys s a.space l.keys

/-- The next change of a line begins its turn when one has ended. -/
def nextLock (s : State) (a : Acc) : State :=
  if !a.locking then s
  else match (sortBy (fun x y => decide (x.born ≤ y.born)) (s.accs.filter fun b => b.served && !b.locking && decide (b.op ≠ .load) &&
      decide (b.space = .dev) && b.ctx == a.ctx && b.line == a.line && !behind s b)).head? with
    | some b => sendLocks s b
    | none => s

/-- A reader of a replicated page joins its set of up to 64, as its answer leaves (R363). -/
def joinReplicas (s : State) (a : Acc) (p : Packet) : State :=
  let page := a.va / 65536
  let l := leafNow s a.ctx page
  let r := (s.repsets.find? fun r => r.ctx == a.ctx && r.page == page).getD { ctx := a.ctx, page := page }
  let x := p.tag % 4096
  if decide (a.op ≠ .load) || leafMode l != 2 || !l.testBit 6 || r.peers.contains x || decide (64 ≤ r.peers.length) then s
  else { s with repsets := { r with peers := r.peers ++ [x] } :: s.repsets.filter fun y => !(y.ctx == a.ctx && y.page == page) }

/-- Another module's request, which has a number here, has been served at its page (R354, R357). -/
def servedRemote (s : State) (ctx : Nat) (p : Packet) (id : Nat) : State :=
  let peer := p.tag % 4096
  let page := p.va / 65536
  let s := noteRelayed s ctx page peer p.hops
  if countsOnce p then countRemote s ctx page peer id else s

/-- An access has ended: one of this module's threads goes on; another module's is answered with what its lanes gave, and counts
at its page (R200, R354, R357). -/
def finishAcc (s : State) (a : Acc) (cause sub : Nat) (ls : List (Nat × List Byte)) : State :=
  let done := match a.fetch, a.req with
    | some k, _ => match ls with
      | (0, bs) :: _ => keepAcc s a k cause sub bs
      | (poi, _) :: _ => keepAcc s a k 0x08 poi []
      | [] => keepAcc s a k cause sub []
    | none, none => endAcc s a
    | none, some p =>
      let (mixed, bs) := lanesAnswer ls
      servedRemote (joinReplicas (answer (s.dropAcc a.id) p (if cause = 0 then mixed else cause) sub bs) a p) a.ctx p a.id
  nextLock done a

/-- LOAD_RETURN (R171): the access's lanes receive their bytes. -/
def execLoadReturn (id : Nat) (s : State) : Out :=
  .next (match s.acc? id with
  | none => s
  | some a =>
    if decide (a.op ≠ .load) || !accReady s a then s
    else
      let keys := a.lanes.flatMap (·.keys)
      let poi (l : LaneAcc) : Option Nat := match a.space with | .remote _ => none | _ => dataPoison s a.space l.keys
      let own := match a.space with | .remote _ => false | _ => true
      match a.req.isSome || a.fetch.isSome, s.group? a.gid with
      | true, _ =>
        finishAcc (if own then noteRead s a.space keys else s) a 0 0 (a.lanes.map fun l => match poi l with
          | some sub => (sub, l.keys.map fun _ => 0)
          | none => (0, if own then getKeys s a.space l.keys else loadBytes s {} a l))
      | false, none => s.dropAcc id
      | false, some g =>
        let s' := a.lanes.foldl (fun s' l => match poi l with
          | some sub => deliver s' g a l none 0x08 sub
          | none => deliver s' g a l (some (loadBytes s g a l)) 0 0) s
        let s' := match a.space with | .remote _ => s' | _ => noteRead s' a.space keys
        let s' := if a.alloc && decide (a.space = .dev) then
            s'.modCore a.core fun k => { k with cache := (dedup (a.line :: k.cache)).take Config.readCacheLines } else s'
        endAcc s' a)

/-- The lanes of a store that meets a marked line or an error record the deferred error (R200, R422). -/
def deferAcc (s : State) (a : Acc) (sub : Nat) (info : List Word) : State :=
  a.lanes.foldl (fun s l => onOwner s a.tail a.gid l.lane fun t => t.defer ⟨0x60, sub, l.va, info⟩) s

/-- Whether a store meets a marked line that it covers only in part (R422). -/
def partMarked (s : State) (a : Acc) : Bool :=
  decide (a.space = .dev) && s.marks.contains a.line && !decide ((dedup (a.lanes.flatMap (·.keys))).length = 128)

/-- A store's bytes are written at one instant, higher lanes last (R172, R185). One that covers a marked line whole clears
the mark; one that covers part writes nothing (R422). -/
def applyStore (s : State) (a : Acc) : State :=
  if partMarked s a then
    if a.req.isSome || a.fetch.isSome then s else deferAcc s a 3 []
  else
    let whole := decide ((dedup (a.lanes.flatMap (·.keys))).length = 128)
    let dev := decide (a.space = .dev)
    let s := if whole && dev then renewLine s a.line else s
    a.lanes.foldl (fun s l => putKeys s a.space l.keys l.data) s

/-- STORE_ACK (R172): the bytes are written, unless they were at the commit point of R193, and the store is acknowledged. -/
def execStoreAck (id : Nat) (s : State) : Out :=
  .next (match s.acc? id with
  | none => s
  | some a =>
    if decide (a.op ≠ .store) || !accReady s a || !locksOver s a then s
    else
      let bad := !a.committed && partMarked s a
      finishAcc (if a.committed then s else applyStore s a) a (if bad then 0x60 else 0) (if bad then 3 else 0) [])

/-- One lane of an atomic, and what the lane reads: the subcode of a poisoned word, or the old bytes (R199, R200). -/
def atomicLane (a : Acc) (op : AOp) (ret : Bool) (x : State × List (Nat × List Byte)) (l : LaneAcc) : State × List (Nat × List Byte) :=
  let (s, out) := x
  let g := (s.group? a.gid).getD {}
  match dataPoison s a.space l.keys with
  | some sub =>
    let s := noteRead s a.space l.keys
    (if a.req.isSome || a.fetch.isSome then s
     else if ret then deliver s g a l none 0x08 sub
     else onOwner s a.tail a.gid l.lane fun t => t.defer ⟨0x60, sub, l.va, []⟩, out ++ [(sub, l.keys.map fun _ => 0)])
  | none =>
    let o := getKeys s a.space l.keys
    let s := putKeys (noteRead s a.space l.keys) a.space l.keys (aopNew op o l.data)
    (if ret && a.req.isNone && a.fetch.isNone then deliver s g a l (some o) 0 0 else s, out ++ [(0, o)])

/-- An atomic's lanes apply in ascending lane order, consecutively (R199). -/
def applyAtomic (s : State) (a : Acc) (op : AOp) (ret : Bool) : State × List (Nat × List Byte) := a.lanes.foldl (atomicLane a op ret) (s, [])

/-- ATOMIC_APPLY (R199, R200): the atomic applies, unless it did at the commit point of R193, and ends. -/
def execAtomicApply (id : Nat) (s : State) : Out :=
  .next (match s.acc? id with
  | none => s
  | some a =>
    match a.op with
    | .atomic op ret =>
      if !accReady s a || !locksOver s a then s
      else if a.committed then finishAcc s a 0 0 (a.lanes.map fun l => (l.bad, l.data))
      else
        let (s', out) := applyAtomic s a op ret
        finishAcc s' a 0 0 out
    | _ => s)

/-- A change of a replicated page whose locks have still to go out: its turn has come since it was served, or a reader has joined the
page's set since then (R193, R363). -/
def locksDue (s : State) (a : Acc) : Bool :=
  decide (a.op ≠ .load) && !a.locking && !a.committed && !(replicaPeers s a).isEmpty && !lineLocked s a && accReady s a

/-- REPLICA_COMMIT (R193): every replica has acknowledged its lock; the owner writes its own copy and sends the update. A change whose
locks are due sends them. -/
def execReplicaCommit (id : Nat) (s : State) : Out :=
  .next (match s.acc? id with
  | none => s
  | some a =>
    let ps := replicaPeers s a
    if locksDue s a then sendLocks s a
    else if a.committed || !a.locking || ps.isEmpty || unanswered s (tagOf id) || !accReady s a then s
    else
      let (s', ls) : State × List LaneAcc := match a.op with
        | .load => (s, a.lanes)
        | .store => (applyStore s a, a.lanes)
        | .atomic op ret =>
          let (s', out) := applyAtomic s a op ret
          (s', (a.lanes.zip out).map fun (l, b, o) => { l with data := o, bad := b })
      let s' := s'.modAcc id fun a => { a with committed := true, lanes := ls }
      let line := s'.read .dev (a.line * 128) 128
      ps.foldl (fun s p => sendPacket s (mkPacket s 0x60 p a.ctx (a.va / 128 * 128) (tagOf id) (1 :: line)) true) s')

/-! ### Serving packets (R292, R293) -/

/-- A waiting packet: an access, a field transfer, the element of an engine command or a packet at a base die, with its number, stamp and
arrival at its point. -/
structure Waiting where
  isAcc : Bool
  id : Nat
  stamp : Nat
  born : Nat
  isCmd : Bool := false
  isDie : Bool := false
  deriving DecidableEq, Repr

/-- The order of service of R292: a packet that has waited 16,384 clk, then the earliest stamp, then the one that arrived first. -/
def serveFirst (now : Nat) (a b : Waiting) : Bool :=
  let old (x : Waiting) : Bool := decide (x.born + 16384 ≤ now)
  let d := (b.stamp + 2 ^ 16 - a.stamp % 2 ^ 16) % 2 ^ 16
  if old a != old b then old a
  else if 1 ≤ d ∧ d ≤ 32767 then true
  else if 32768 < d then false
  else decide (a.born < b.born) || (a.born == b.born && decide (a.id ≤ b.id))

/-- The owner cache holds the page of a remote access as pending (R352): the access waits. -/
def ownerPending (s : State) (a : Acc) : Bool :=
  s.owners.any fun e => e.pending && e.ctx == a.ctx && e.page == a.va / 65536

/-- An earlier access of the same threads to the line has still to leave (R174, R375): the fabric port keeps their order. -/
def behindAtPort (s : State) (a : Acc) : Bool :=
  s.accs.any fun b => b.gid == a.gid && decide (b.id < a.id) && decide (b.space = a.space) && b.line == a.line && !b.served

/-- An access may leave through the fabric port: its owner is known, a link is Up (R371), and no earlier one of its threads waits. -/
def mayLeave (s : State) (a : Acc) : Bool := !ownerPending s a && decide (planeOf s a.ctx < 12) && !behindAtPort s a

/-- An earlier transfer of the same thread that touches one of some cells has still to be applied there (R187-R190). -/
def fxBehind (s : State) (x : Xfer) (cells : List Nat) : Bool :=
  x.remote.isNone && s.xfers.any fun y => y.remote.isNone && y.gid == x.gid && y.lane == x.lane && decide (y.id < x.id) && y.ctx == x.ctx &&
    ((decide (y.stage = 0 ∨ y.stage = 4) && cells.contains y.sva) || (decide (y.stage ≠ 3 ∧ y.stage ≠ 5) && cells.contains y.dva))

/-- A transfer's packet may leave through the fabric port: it waits while the owner-cache entry of the page it goes to is pending
(R352), and behind its thread's earlier transfers of a cell. -/
def xferMayLeave (s : State) (x : Xfer) : Bool :=
  let page := if x.stage = 4 then x.sva / 65536 else x.dva / 65536
  decide (planeOf s x.ctx < 12) && !fxBehind s x (if x.stage = 4 then [x.sva, x.dva] else [x.dva]) && !(s.owners.any fun e => e.pending && e.ctx == x.ctx && e.page == page)

/-- Packets that wait at a point. -/
def waitingAt (s : State) (n : Nat) : List Waiting :=
  ((s.accs.filter fun a => decide (a.route.head? = some n) && (n != fabricPoint || mayLeave s a)).map
    fun a => { isAcc := true, id := a.id, stamp := a.stamp.getD 0, born := a.born }) ++
  ((s.xfers.filter fun x => decide (x.route.head? = some n) && (n != fabricPoint || xferMayLeave s x)).map
    fun x => { isAcc := false, id := x.id, stamp := x.stamp, born := x.born }) ++
  ((s.cmds.filter fun c => decide (c.state = .running) && decide (c.route.head? = some n)).map fun c => { isAcc := false, id := c.id, stamp := c.stamp, born := c.born, isCmd := true }) ++
  ((s.dieTags.filter fun d => basePoint d.slice d.chan == n && !d.served && dieReady s d).map
    fun d => { isAcc := false, id := d.num, stamp := d.stamp, born := d.born, isDie := true })

/-- The points at which a packet waits. -/
def pointsWaiting (s : State) : List Nat :=
  dedup (s.accs.filterMap (·.route.head?) ++ s.xfers.filterMap (·.route.head?) ++
    (s.cmds.filter fun c => decide (c.state = .running)).filterMap (·.route.head?) ++
    (s.dieTags.filter fun d => !d.served).map fun d => basePoint d.slice d.chan)

/-- The packet that a point serves next. -/
def nextServed (s : State) (n : Nat) : Option Waiting :=
  (waitingAt s n).foldl (fun b x => match b with
    | none => some x
    | some y => if serveFirst s.cycle y x then some y else some x) none

/-- The owner-cache entry of a page is the latest used (R352), and a first direct request has carried its count (R357). -/
def useOwner (s : State) (ctx page : Nat) (carried : Bool) : State :=
  let mine (e : OwnerE) : Bool := e.ctx == ctx && e.page == page
  let used := (s.owners.filter mine).map fun e => if carried then { e with count := 0 } else e
  { s with owners := used ++ s.owners.filter fun e => !mine e }

/-- An access leaves through the fabric port: a load that a replica can answer stays (R363), the rest are sent. The
owner-cache entry of the page is the latest used (R352), and its count has been carried (R357). -/
def leavePort (s : State) (a : Acc) (peer : Nat) : State :=
  let wait := decide (a.op = .load) && (replicaFor s a.ctx a.va).isSome
  let s := if wait then s else (requestsOf s a peer).foldl (fun s p => sendPacket s p true) s
  let s := useOwner s a.ctx (a.va / 65536) !wait
  s.modAcc a.id fun a => { a with route := [], sent := some s.cycle, again := [] }

/-- An access is served at its home slice: one that changes a replicated page first sends the locks of R193. -/
def atSlice (s : State) (a : Acc) : State :=
  let s := s.modAcc a.id fun a => { a with route := [], born := s.cycle }
  if decide (a.op = .load) || (replicaPeers s a).isEmpty || lineLocked s a || behind s a then s else sendLocks s a

/-- An access is served at a point: at its last one it reaches its slice or leaves the module. A late mark is made once (R293). -/
def serveAcc (s : State) (a : Acc) : State :=
  let lanes := ((s.group? a.gid).map fun g => withShadow g (a.lanes.map (·.lane))).getD []
  let s := markLate s (a.stamp.getD 0) (if a.late then none else a.queue) a.gid lanes a.va a.fetch.isNone
  let a := { a with late := a.late || isLate s (a.stamp.getD 0) }
  match a.route with
  | _ :: p :: r => s.modAcc a.id fun _ => { a with route := p :: r, born := s.cycle }
  | _ =>
    let s := s.modAcc a.id fun _ => a
    match a.space with
    | .remote p => leavePort s a p
    | .dev => atSlice s a
    | _ => s.modAcc a.id fun a => { a with route := [], born := s.cycle }

/-- The credit of a debited transfer leaves for the module that owns its destination (R326, R332, R372): the domain, the one that
its link names there, the transfer's number and the amount (log entry 16). -/
def sendCredit (s : State) (x : Xfer) : State :=
  let far := (((s.dom? x.dom).bind fun d => d.links.find? fun l => l.1 == x.peer).map (·.2)).getD 0
  let page := x.dva / 65536
  sendPacket (useOwner (s.modXfer x.id fun x => { x with route := [], sent := s.cycle }) x.ctx page true)
    { mkPacket s 0x30 x.peer x.ctx x.dva (tagOf x.id)
        (byteOf x.dom :: byteOf far :: toLE 8 x.id ++ toLE 8 (BitVec.ofInt 64 x.amount).toNat ++ [byteOf (if x.stage = 5 then 1 else 0)]) with
      after := directCount s x.ctx page, deadline := BitVec.ofNat 16 x.stamp } true

/-- A transfer whose source another module owns leaves for it, as an atomic does (R326, R334); the first direct one carries the count of
R357. -/
def sendRelay (s : State) (x : Xfer) (hops : Nat) : State :=
  let page := x.sva / 65536
  let p := mkPacket s 0x20 x.peer x.ctx x.sva (tagOf x.id) ([byteOf x.esize, 9, 0] ++ toLE 8 x.dva ++ toLE 4 x.sidx ++ toLE 4 x.didx ++
    toLE 8 (BitVec.ofInt 64 x.amount).toNat ++ toLE 4 x.pc.toNat ++ [byteOf x.visLane])
  let after := if hops = 0 then directCount s x.ctx page else 0
  sendPacket (useOwner (s.modXfer x.id fun x => { x with route := [], sent := s.cycle }) x.ctx page (hops == 0))
    { p with hops := hops, after := after, deadline := BitVec.ofNat 16 x.stamp } true

/-- A transfer is served at a point: at its last one it arrives at its slice, behind those that came before it (R328), or leaves
through the fabric port. -/
def serveXfer (s : State) (x : Xfer) : State :=
  let late := isLate s x.stamp
  let s := markLate s x.stamp (if x.late then none else x.queue) x.gid [] x.sva false
  let x := { x with route := x.route.tail, born := s.cycle, late := x.late || late }
  if !x.route.isEmpty then s.modXfer x.id fun _ => x
  else
    let s : State := { s with xfers := s.xfers.filter (fun y => y.id != x.id) ++ [x] }
    match x.stage with
    | 2 => sendCredit s x
    | 4 => sendRelay s x 0
    | _ => s

/-- A packet of a command's element is served at a point: a late one is counted once, until its slice has served it, and never traps
(R293). -/
def serveCmd (s : State) (c : Cmd) : State :=
  let late := isLate s c.stamp
  let atEnd := decide (c.route.headD 0 < fabricPoint)
  (markLate s c.stamp (if c.late then none else c.queue) 0 [] 0 false).modCmd c.id fun c =>
    { c with route := c.route.tail, born := s.cycle, late := !atEnd && (c.late || late) }

/-- A packet of a die-to-die port is served at its base die: a late one counts for its access, once (R293), and its sectors' bytes for the
access's context (R276). -/
def serveDie (s : State) (d : DieTag) : State :=
  let s : State := match d.acc.bind fun i => s.acc? i with
    | none => s
    | some (a : Acc) =>
      let lanes := ((s.group? a.gid).map fun g => withShadow g (a.lanes.map (·.lane))).getD []
      let s' := markLate s d.stamp (if a.late then none else a.queue) a.gid lanes a.va a.fetch.isNone
      (s'.modAcc a.id fun a => { a with late := a.late || isLate s d.stamp }).usage a.ctx 7 (64 * d.sectors.length)
  { s with dieTags := s.dieTags.map fun e => if e.num = d.num then { e with served := true } else e }

/-- PACKET_SERVE (R14, R292): a router, a slice point, the fabric port or a channel's controller serves the packet that is first by
deadline. -/
def execPacketServe (point : Nat) (s : State) : Out :=
  .next (match nextServed s point with
  | none => s
  | some w =>
    if w.isAcc then (s.acc? w.id).elim s (serveAcc s)
    else if w.isCmd then (s.cmd? w.id).elim s (serveCmd s)
    else if w.isDie then (s.dieTags.find? fun d => d.num == w.id).elim s (serveDie s)
    else (s.xfer? w.id).elim s (serveXfer s))

/-- The frame of a page that a migration has frozen holds one of the keys (R355). -/
def keysFrozen (s : State) (keys : List Nat) : Bool :=
  s.migs.any fun m => keys.any fun k => k / 65536 == leafPfn (leafNow s m.ctx m.page)

/-- DETECTOR_ENTRY_RETIRE (R184): the n-th entry, slices first, retires when no region that overlapped its own is open. -/
def execDetectorEntryRetire (n : Nat) (s : State) : Out :=
  .next (
    if n < s.sliceDet.length then
      match s.sliceDet[n]? with
      | some d => if detDone s d then { s with sliceDet := s.sliceDet.eraseIdx n } else s
      | none => s
    else
      let k := n - s.sliceDet.length
      let all := s.cores.flatMap fun (c, x) => (List.range x.det.length).map fun i => (c, i)
      match all[k]? with
      | some (c, i) => match (s.core c).det[i]? with
        | some d => if detDone s d then s.modCore c fun x => { x with det := x.det.eraseIdx i } else s
        | none => s
      | none => s)

end Sys2Proof.Machine
end

