-- ==== Sys2Proof/Machine/Uniform.lean ====
section
/-! DEFINITION. Accesses that an instruction makes once per issue: a run of bytes from element 0 of a record (R243), or
from an address (R314, R315). -/

namespace Sys2Proof.Machine

/-- What a uniform access finds: the issue has ended, or fewer bytes than it needs lie in range, or the place of each
byte. -/
inductive Uni where
  | stop (s : State)
  | oob (s : State)
  | ok (s : State) (locs : List (Space × Nat))

/-- Bytes at places, for an issuer: a byte of another module is what an access for it brought; where the device reads by itself,
with no issuer, the byte is a free value (log entry 12). -/
def uniRead (s : State) (key : Nat) : List (Space × Nat) → List Byte × State
  | [] => ([], s)
  | (sp, k) :: r =>
    let got := s.fetched.find? fun f => f.key == key && !f.write && decide (f.va ≤ k ∧ k < f.va + f.bytes.length)
    let (b, s) := match sp, got with
      | .remote _, some f => (f.bytes.getD (k - f.va) 0, s)
      | .remote _, none => let (w, s) := s.free; (w.setWidth 8, s)
      | .host, _ => let (w, s) := s.free; (w.setWidth 8, s)
      | _, _ => ((s.mem sp).get k, s)
    let (bs, s) := uniRead s key r
    (b :: bs, s)

/-- Bytes written at places of this module. -/
def uniWrite (s : State) (locs : List (Space × Nat)) (bs : List Byte) : State :=
  let z := locs.zip bs
  let part (sp : Space) : List Nat × List Byte := ((z.filter fun x => decide (x.1.1 = sp)).map fun x => (x.1.2, x.2)).unzip
  (dedupSp (locs.map (·.1))).foldl (fun s sp => putKeys s sp (part sp).1 (part sp).2) s
where
  dedupSp (l : List Space) : List Space := l.foldl (fun acc x => if acc.contains x then acc else acc ++ [x]) []

/-- Bytes that a uniform instruction writes from an address (R243), after which its lanes advance: the part of a marked line that it
covers only in part is not written (R422), and the lanes wait for what leaves the core's own memory. -/
def uniStore (s : State) (iss : Issue) (g : Group) (va : Nat) (locs : List (Space × Nat)) (bs : List Byte) : State :=
  let ctx := s.ctxOf g
  let lane := (minOf iss.lanes).getD 0
  let one (x : State × List Nat × Nat) (l : Space × List Nat) : State × List Nat × Nat :=
    let (s, ids, n) := x
    let part := (bs.drop n).take l.2.length
    let at_ := va + n
    let n := n + l.2.length
    if farPlace s ctx l.1 at_ then
      let (id, s) := s.fresh
      let (stamp, q) := stampOf s g
      let a : Acc := { id := id, gid := g.gid, core := g.core, ctx := ctx, pc := iss.pc, op := .store, space := l.1, line := l.2.headD 0 / 128,
                       wid := part.length, lanes := [{ lane := lane, va := at_, keys := l.2, data := part }], stamp := some stamp, queue := q,
                       born := s.cycle, sc := 2, route := routeOf s g.core ctx .store l.1 (l.2.headD 0 / 128) at_ }
      ({ s with accs := s.accs ++ [a] }, ids ++ [id], n)
    else if l.1 = .dev ∧ s.marks.contains (l.2.headD 0 / 128) ∧ l.2.length ≠ 128 then
      (s.mapLanes iss.gid iss.lanes fun t => t.defer ⟨0x60, 3, at_, []⟩, ids, n)
    else
      let s := if l.1 = .dev ∧ l.2.length = 128 then renewLine s (l.2.headD 0 / 128) else s
      (putKeys s l.1 l.2 part, ids, n)
  let (s, ids, _) := (byLine locs).foldl one (s, [], 0)
  let s := advance s iss
  if ids.isEmpty then s else s.mapLanes iss.gid iss.lanes fun t => { t with wait := .accs ids }

/-- A run's bytes, whose correctable errors are repaired and counted (R422). -/
def runRead (s : State) (key : Nat) (locs : List (Space × Nat)) : List Byte × State := uniRead (fixLocs s locs) key locs

/-- Data poison among the places of a read (R169). -/
def uniPoison (s : State) (locs : List (Space × Nat)) : Option Nat := locs.findSome? fun (sp, k) => dataPoison s sp [k]

/-- Places of other modules, by line; and the fault that an owner or the fabric gave for one of them. -/
def farLines (locs : List (Space × Nat)) : List (Space × List Nat) := (byLine locs).filter fun l => match l.1 with | .remote _ => true | _ => false
def fetchedLine (s : State) (key : Nat) (l : Space × List Nat) : Option Fetched :=
  s.fetched.find? fun f => f.key == key && !f.write && f.va == l.2.headD 0
def farFault (s : State) (key : Nat) (locs : List (Space × Nat)) : Option Fetched :=
  ((farLines locs).filterMap (fetchedLine s key)).find? fun f => f.cause != 0

/-- Another module's bytes that a uniform instruction of a group reads have been brought; or else the lanes wait for them, or the
fault that their owner answered with is taken (R350). -/
def uniFetch (s : State) (iss : Issue) (g : Group) (locs : List (Space × Nat)) : Option State :=
  match farFault s g.gid locs with
  | some f => some (takeTrap s iss f.cause { sub := f.sub, addr := f.va })
  | none =>
    match (farLines locs).filter fun l => (fetchedLine s g.gid l).isNone with
    | [] => none
    | need =>
      let (s, ids) := need.foldl (fun (s, ids) l =>
        let (s, id) := sendFetch s g.gid g.gid ((minOf iss.lanes).getD 0) g.core (s.ctxOf g) .load l.1 l.2 (l.2.headD 0) [] (stampOf s g)
        (s, ids ++ [id])) (s, ([] : List Nat))
      some (hold s iss (.accs ids))

/-- What accesses brought for a uniform instruction is used up when its lanes no longer wait for more. -/
def uniTidy (iss : Issue) (s : State) : State :=
  let waits := (s.group? iss.gid).elim false fun g => g.threads.any fun t => iss.lanes.contains t.lane && (match t.wait with | .accs _ => true | _ => false)
  if (s.fetched.any fun f => f.key == iss.gid) && !waits then dropFetched s iss.gid else s

/-- An instruction that makes uniform accesses (R243). -/
def uniIssued (i : Instr) (eff : Issue → Group → State → State) (s : State) : Out :=
  issued i (fun iss g s => uniTidy iss (eff iss g s)) s

/-- The TLB fills of a uniform access (R349). -/
def uniFill (s : State) (core : Nat) (c : Context) (r : Rec) (n : Nat) : State :=
  if r.kind = 1 then s else (List.range ((r.base % 65536 + n + 65535) / 65536)).foldl (fun s k => tlbFill s core c ((r.base / 65536 + k) * 65536)) s

/-- A uniform access of `n` bytes from element 0 of a record (R243): the checks of R167, bounds for the whole run, and
the places of its bytes. The base's own alignment (R156) is the only one asked (log entry 14). It follows the accesses that the
threads have outstanding, and with TRACK = 1 it counts as an access of the lowest active lane (R183; DESIGN CHOICE, log entry
44). -/
def uniAccess (s : State) (iss : Issue) (g : Group) (rn : RecN) (n : Nat) (kinds : List Nat) (need : Nat) : Uni :=
  let (w, c) := placeOf s g
  let r := recAt iss.snap rn
  if r.poi then .stop (takeTrap s iss 0x08 { info0 := BitVec.ofNat 32 (0x80 + (firstPoisonS iss.snap (recRegs rn)).getD 0) })
  else match recBad r kinds true with
  | some sub => .stop (takeTrap s iss 0x05 { sub := sub })
  | none =>
    if !inRange s w r 0 n false then
      match lanesThat' g iss fun t => t.fctl.getLsbD 21 with
      | [] => .oob (s.mapLanes iss.gid iss.lanes Thread.setOob)
      | ls => .stop (takeTrap s iss 0x09 { addr := r.base, lanes := ls })
    else
      let places : Except (Nat × Nat × Nat) (List (Space × Nat)) :=
        if r.kind = 1 then .ok ((List.range n).map fun k => (Space.scratch, scratchKey w (r.base + swizzle r.swz k)))
        else placesAt s g.core c need r.base n
      match places with
      | .error (cs, sub, a) => .stop (takeTrap s iss cs { sub := sub, addr := a })
      | .ok locs =>
        match (if need = 1 then uniPoison s locs else none) with
        | some sub => .stop (takeTrap (noteLocs s locs) iss 0x08 { sub := sub, addr := r.base })
        | none =>
          if !accsDone s iss.gid iss.lanes then .stop (hold s iss .drained)
          else
            let lane := (minOf iss.lanes).getD 0
            let ts := if tracked r r.scope then
                (byLine locs).flatMap fun (sp, ks) => touchOf lane sp ks (decide (2 ≤ need)) none (r.base + (locs.idxOf (sp, ks.headD 0)))
              else []
            match raceCheck (uniFill s g.core c r n) iss g w ts with
            | .stop s => .stop s
            | .go s => match (if need = 1 then uniFetch s iss g locs else none) with
              | some s => .stop s
              | none => .ok (if need = 1 then fixLocs s locs else s) locs
where
  lanesThat' (g : Group) (iss : Issue) (f : Thread → Bool) : List Nat :=
    (g.threads.filter fun t => iss.lanes.contains t.lane && f t).map (·.lane)

/-- The first poisoned s-register among some: cause 0x08. -/
def sPoison (s : State) (iss : Issue) (rs : List Nat) : Option State :=
  (firstPoisonS iss.snap rs).map fun r => takeTrap s iss 0x08 { info0 := BitVec.ofNat 32 (0x80 + r) }

/-- An s-register's value at issue. -/
def Issue.sv (iss : Issue) (r : SReg) : Nat := (sget {} iss.snap r.toNat).w.toNat
/-- A pair of s-registers as a 57-bit address, high word's upper bits ignored. -/
def Issue.saddr (iss : Issue) (r : SReg) : Nat :=
  (sget {} iss.snap r.toNat).w.toNat + 2 ^ 32 * ((sget {} iss.snap (r.toNat + 1)).w.toNat % 2 ^ 25)

end Sys2Proof.Machine
end

