-- ==== Sys2Proof/Machine/Copy.lean ====
section
/-! DEFINITION. The copy engine: tensor entries, the walk, conversion, COPY, COPYL, COPYR, and the token instructions
(R222-R244, R409). -/

namespace Sys2Proof.Machine

/-! ### Tensor entries (R223, R224, R226) -/

/-- Fields of an entry. -/
def eFmt (e : List Word) : Nat := bits (wnat e 0) 3 0
def eRank (e : List Word) : Nat := bits (wnat e 0) 7 4
def eSpace (e : List Word) : Nat := bits (wnat e 0) 15 12
def eSwz (e : List Word) : Nat := bits (wnat e 0) 19 16
def eClip (e : List Word) (d : Nat) : Bool := (wnat e 0).testBit (20 + d)
def eValid (e : List Word) : Bool := (wnat e 0).testBit 31
def eIdxv (e : List Word) : Bool := (wnat e 1).testBit 11
def eIdxDim (e : List Word) : Nat := bits (wnat e 1) 10 8
def eIdxId (e : List Word) : Nat := bits (wnat e 1) 7 0
def eSpv (e : List Word) : Bool := (wnat e 1).testBit 24
def eSpid (e : List Word) : Nat := bits (wnat e 1) 23 16
def eBase (e : List Word) : Nat := waddr e 2
def eFill (e : List Word) : Nat := wnat e 4 + 2 ^ 32 * wnat e 5
def eRscl (e : List Word) : Nat := waddr e 6
def eCscl (e : List Word) : Nat := waddr e 8
def eSize (e : List Word) (d : Nat) : Nat := wnat e (10 + d)
def eStride (e : List Word) (d : Nat) : Nat := wnat e (14 + d)
def eBox (e : List Word) (d : Nat) : Nat := wnat e (19 + d)

/-- The entry's own faults (R226) for a role's spaces. -/
def entBad (e : List Word) (spaces : List Nat) : Bool :=
  let n := fmtNibs (eFmt e)
  let align (a : Nat) : Bool := n == 0 || decide (2 * a % n ≠ 0)
  !eValid e || bits (wnat e 0) 30 25 != 0 || bits (wnat e 0) 11 8 != 0 || bits (wnat e 1) 31 25 != 0 || bits (wnat e 1) 15 12 != 0 ||
  bits (wnat e 3) 31 25 != 0 || bits (wnat e 7) 31 25 != 0 || bits (wnat e 9) 31 25 != 0 ||
  ((List.range 8).any fun i => wnat e (24 + i) != 0) || n == 0 || eRank e == 0 || decide (5 < eRank e) ||
  ((List.range 5).any fun d => eSize e d == 0 || eBox e d == 0 || (decide (eRank e ≤ d) && (eSize e d != 1 || eBox e d != 1))) ||
  align (eBase e) || ((List.range 4).any fun d => align (eStride e (d + 1))) ||
  (eFmt e == 6 && (eSize e 0 % 2 == 1 || eBox e 0 % 2 == 1)) ||
  decide (5 < eSwz e) || (eSwz e != 0 && eSpace e != 1 && eSpace e != 2) || !spaces.contains (eSpace e) ||
  (eIdxv e && decide (eRank e ≤ eIdxDim e))

/-- An index entry's faults (R226). -/
def idxBad (e x : List Word) : Bool :=
  eIdxv e && (entBad x [0, 1, 2, 6, 7] || eRank x != 1 || eFmt x != 8 || eIdxv x)

/-- Format classes of R228. -/
def isRq (f : Nat) : Bool := f == 5 || f == 6
def pairOk (a b : Nat) : Bool := a == b || (isFloat a && (isFloat b || isRq b)) || (isRq a && (isFloat b || isRq b))

/-- A residue code's value, and whether it is void (R57). -/
def rqVal (f x : Nat) : Int × Bool :=
  if f = 5 then (if x = 0x80 then (0, true) else ((BitVec.ofNat 8 x).toInt, false))
  else if x = 8 then (0, true) else ((BitVec.ofNat 4 x).toInt, false)
/-- An integer clamped into a residue format, and whether it clamped. -/
def rqClamp (f : Nat) (v : Int) : Nat × Bool :=
  let m : Int := if f = 5 then 127 else 7
  let c := max (-m) (min m v)
  (if f = 5 then (BitVec.ofInt 8 c).toNat else (BitVec.ofInt 4 c).toNat, decide (c ≠ v))

/-- Conversion of an element (R228): bits, VOID, CLAMP. A residue value that an fp8 format cannot hold is rounded to nearest-even,
with no CLAMP: R228 says 'the exact value' and gives no rounding there (DESIGN CHOICE, log entry 59). -/
def convElem (a b x : Nat) : Nat × Bool × Bool :=
  if a = b then (x, false, false)
  else if isFloat a then
    let v := fval (eSpec a) x
    if isFloat b then
      let r := cvtffR (eSpec b) true 0 v
      let inf := match v with | .inf _ => (eSpec b).is8 | _ => false
      (r.1, false, inf || ((eSpec b).is8 && (r.2 &&& flOF) != 0))
    else match v with
      | .fin neg m e => let r := rqClamp b (toIntegral 0 neg m e).1
                        (r.1, false, r.2)
      | .inf neg => ((rqClamp b (if neg then -1000 else 1000)).1, false, true)
      | .nan _ => (0, false, true)
  else
    let v := rqVal a x
    if isFloat b then ((cvtffR (eSpec b) true 0 (.fin (decide (v.1 < 0)) v.1.natAbs 0)).1, v.2, false)
    else
      let r := rqClamp b v.1
      (r.1, v.2, r.2)

/-! ### The walk (R227) -/

/-- The iteration vector of a position in loop order. -/
def ivOf (e : List Word) (k : Nat) : List Nat :=
  let b := eBox e
  [k % b 0, k / b 0 % b 1, k / (b 0 * b 1) % b 2, k / (b 0 * b 1 * b 2) % b 3, k / (b 0 * b 1 * b 2 * b 3)]
/-- Elements of the box. -/
def boxTotal (e : List Word) : Nat := eBox e 0 * eBox e 1 * eBox e 2 * eBox e 3 * eBox e 4

/-- A place: its space, the key of each byte, and its address. -/
structure Side where
  sp : Space
  keys : List Nat
  va : Nat
  deriving DecidableEq, Repr

/-- Codes that an engine error has for a cause of R168 or of the owner or fabric (R234, R350, R376). -/
def engineCode (cs sub : Nat) : Nat × Nat := if cs = 0x0C then (4, sub) else if cs = 0x08 then (3, 0) else (1, cs)

/-- A place of `n` bytes at an offset of a space (R229), or an engine error and its detail (R234). No keys: bytes past the
workgroup's memory, which as a source the spec gives no value (log entry 12). -/
def ePlace (s : State) (core : Nat) (w : Wg) (c : Context) (space swz base off n need : Nat) : Except (Nat × Nat) Side :=
  let a := base + swizzle swz off
  let err (cs sub : Nat) : Except (Nat × Nat) Side := .error (engineCode cs sub)
  match space with
  | 1 => .ok ⟨.scratch, if a + n ≤ allocOf s w then keysFrom (scratchKey w a) n else [], a⟩
  | 2 => .ok ⟨.scratch, if gangIn s w a n then (keysFrom a n).map (gangKey s w) else [], a⟩
  | 4 => .ok ⟨.weight, if a + n ≤ Config.weightBytes then keysFrom (core * 524288 + a) n else [], a⟩
  | 6 =>
    if Config.virtualBytes ≤ a then err 0x0A 0
    else match stage2 s c true need a with
      | none => err 0x0B 0
      | some (p, port) => if hostDown s c port then err 0x0C 2 else .ok ⟨.host, keysFrom p n, a⟩
  | _ =>
    let field (l : Nat) (x : Side) : Except (Nat × Nat) Side :=
      if need = 2 ∧ l.testBit 5 then err 0x28 0 else if space = 7 ∧ ¬ l.testBit 5 then err 0x0B 0 else .ok x
    match translate s core c need a with
    | .here pa l => field l ⟨.dev, keysFrom pa n, a⟩
    | .peer p l => field l ⟨.remote p, keysFrom a n, a⟩
    | .fault cs sub => err cs sub

/-- A place whose bytes another module or the host holds. -/
def Side.far (x : Side) : Bool :=
  match x.sp with
  | .remote _ => true
  | .host => true
  | _ => false

/-- An element of one side: clipped, at a place and in which half of its byte, an engine error, or an index element that has still
to be brought. -/
inductive Elem where
  | clip
  | at_ (x : Side) (hi : Bool)
  | err (code detail : Nat)
  | need (x : Side)
  deriving DecidableEq, Repr

/-- What an access for a command read at an address, if it has. -/
def fetchedAt (s : State) (id va n : Nat) : Option Fetched :=
  s.fetched.find? fun f => f.key == id && !f.write && f.va == va && (f.cause != 0 || f.bytes.length == n)

/-- An index element (R227): its value, an engine error, or the place it has still to be brought from. -/
inductive Idx where
  | val (j : Option Int)
  | err (code detail : Nat)
  | need (x : Side)

/-- The place of a coordinate's index element in this module: none for a clipped one and for one that another module or the host holds. -/
def idxPlace (s : State) (core : Nat) (w : Wg) (c : Context) (x : List Word) (j : Int) : Option Side :=
  let n : Int := eSize x 0
  if eClip x 0 ∧ (j < 0 ∨ n ≤ j) then none
  else match ePlace s core w c (eSpace x) (eSwz x) (eBase x) (4 * (j % n).toNat) 4 1 with
    | .ok p => if p.far then none else some p
    | .error _ => none

/-- The index element of a coordinate: none for a clipped one (R227). One past the workgroup's memory is a free value, number `k` of
the next (log entry 12). -/
def idxElem (s : State) (id core : Nat) (w : Wg) (c : Context) (x : List Word) (k : Nat) (j : Int) : Idx :=
  let n : Int := eSize x 0
  if eClip x 0 ∧ (j < 0 ∨ n ≤ j) then .val none
  else
    match ePlace s core w c (eSpace x) (eSwz x) (eBase x) (4 * (j % n).toNat) 4 1 with
    | .error (code, det) => .err code det
    | .ok p =>
      if p.keys.isEmpty then .val (some (Config.freeValue (s.freeCount + k)).toInt)
      else if p.far then
        match fetchedAt s id p.va 4 with
        | none => .need p
        | some f => if f.cause = 0 then .val (some (wordAt f.bytes 0).toInt) else .err (engineCode f.cause f.sub).1 (engineCode f.cause f.sub).2
      else if (dataPoison s p.sp p.keys).isSome then .err 3 0
      else .val (some (wordAt (getKeys s p.sp p.keys) 0).toInt)

/-- One coordinate within its size: none where it is clipped. -/
def coord (e : List Word) (d : Nat) (c : Int) : Option Nat :=
  let n : Int := eSize e d
  if 0 ≤ c ∧ c < n then some c.toNat else if eClip e d then none else some (c % n).toNat

/-- One side of a command: its entry, index entry and origin, and which of the element's free index values is its (R236). -/
structure Role where
  e : List Word
  x : List Word
  o : List Int
  k : Nat
  need : Nat
def Cmd.srcRole (c : Cmd) : Role := ⟨c.src, c.srcIdx, c.so, 1, 1⟩
def Cmd.dstRole (c : Cmd) : Role := ⟨c.dst, c.dstIdx, c.dorg, 0, 2⟩

/-- The coordinates of an iteration vector on one side, each clipped, wrapped or as it stands (R227). -/
def coordsAt (s : State) (id core : Nat) (w : Wg) (c : Context) (r : Role) (iv : List Nat) : List (Except Elem (Option Nat)) :=
  (List.range 5).map fun d =>
    let raw : Int := r.o.getD d 0 * (if d < eRank r.e then 1 else 0) + (iv.getD d 0 : Int)
    if eIdxv r.e ∧ d = eIdxDim r.e then
      match idxElem s id core w c r.x r.k raw with
      | .val v => .ok (v.bind (coord r.e d))
      | .err code det => .error (.err code det)
      | .need x => .error (.need x)
    else .ok (coord r.e d raw)

/-- The index elements that an element's coordinates read are repaired, marked or counted (R422). -/
def noteIdx (s : State) (core : Nat) (w : Wg) (c : Context) (r : Role) (iv : List Nat) : State :=
  if !eIdxv r.e then s
  else
    let d := eIdxDim r.e
    let raw : Int := r.o.getD d 0 * (if d < eRank r.e then 1 else 0) + (iv.getD d 0 : Int)
    (idxPlace s core w c r.x raw).elim s fun p => noteRead s p.sp p.keys

/-- The byte offset of coordinates in half-bytes of dimension 0 and bytes of the others (R227): the offset and the half. -/
def elemOff (e : List Word) (p : Nat → Nat) : Nat × Bool :=
  let nib := p 0 * fmtNibs (eFmt e)
  (nib / 2 + p 1 * eStride e 1 + p 2 * eStride e 2 + p 3 * eStride e 3 + p 4 * eStride e 4, nib % 2 == 1)

/-- The element of an iteration vector on one side (R227). Where one dimension clips the element and the index element of another
faults or has still to be brought, the fault or the fetch comes first: an index element takes part in faults, and R227 forms every
coordinate before it says what is clipped (DESIGN CHOICE, log entry 58). -/
def elemAt (s : State) (id core : Nat) (w : Wg) (c : Context) (r : Role) (iv : List Nat) : Elem :=
  let cs := coordsAt s id core w c r iv
  match cs.findSome? fun r => match r with | .error b => some b | .ok _ => none with
  | some b => b
  | none =>
    let ps := cs.map fun r => match r with | .ok v => v | .error _ => none
    if ps.any (·.isNone) then .clip
    else
      let (off, hi) := elemOff r.e fun d => (ps.getD d none).getD 0
      match ePlace s core w c (eSpace r.e) (eSwz r.e) (eBase r.e) off ((fmtNibs (eFmt r.e) + 1) / 2) r.need with
      | .ok p => .at_ p hi
      | .error (code, det) => .err code det

/-! ### Commands -/

/-- The roles' spaces (R229). -/
def dstSpaces : CmdKind → List Nat
  | .copyr .. => [0]
  | _ => [0, 1, 2, 4, 6]

/-- The entries that a command names, as they stand now (R222). -/
def rereadCmd (s : State) (c : Cmd) : Cmd :=
  let t := ((s.ctx? c.ctx).map (·.tensors)).getD []
  let e (i : Nat) : List Word := sget [] t i
  let src := e (bits c.ids.toNat 7 0)
  let dst := e (bits c.ids.toNat 15 8)
  match c.kind with
  | .copy | .copyr .. =>
    { c with src := src, dst := dst, srcIdx := if eIdxv src then e (eIdxId src) else [],
             dstIdx := if eIdxv dst then e (eIdxId dst) else [] }
  | _ => c

/-- Spaces whose destinations are checked at issue (R229). -/
def bounded (space : Nat) : Bool := space == 1 || space == 2 || space == 4

/-- The engine error that a COPY or COPYR meets at issue (R226, R229, R238), 0 for none. -/
def copyCheck (s : State) (c : Cmd) : Nat :=
  let w := (s.wg? c.wg).getD {}
  let cx := (s.ctx? c.ctx).getD {}
  let sum := match c.kind with
    | .copyr .. => true
    | _ => false
  let odd (e : List Word) (o : List Int) : Bool := eFmt e == 6 && o.getD 0 0 % 2 != 0
  let bad := entBad c.src [0, 1, 2, 6, 7] || entBad c.dst (dstSpaces c.kind) || idxBad c.src c.srcIdx || idxBad c.dst c.dstIdx ||
    odd c.src c.so || odd c.dst c.dorg || eRank c.src != eRank c.dst || !pairOk (eFmt c.src) (eFmt c.dst) ||
    (if sum then bits c.ids.toNat 31 28 != 0 || eFmt c.src != eFmt c.dst || !([0, 1, 8, 9, 10, 11].contains (eFmt c.src))
     else bits c.ids.toNat 31 16 != 0)
  if bad then 7
  else
    let n := (fmtNibs (eFmt c.dst) + 1) / 2
    let within (a : Nat) : Bool := match eSpace c.dst with
      | 1 => decide (a + n ≤ allocOf s w)
      | 2 => gangIn s w a n
      | 4 => decide (a + n ≤ Config.weightBytes)
      | _ => true
    let past (k : Nat) : Bool := (offsetOf s c.id c.core w cx c.dstRole (ivOf c.dst k)).elim false fun a => !within a
    if bounded (eSpace c.dst) && (List.range (boxTotal c.dst)).any past then 2 else 0
where
  /-- The address within its space of a destination element, none where it is clipped or its index faults. -/
  offsetOf (s : State) (id core : Nat) (w : Wg) (c : Context) (r : Role) (iv : List Nat) : Option Nat :=
    let cs := (coordsAt s id core w c r iv).map fun r => match r with | .ok v => v | .error _ => none
    if cs.any (·.isNone) then none
    else some (eBase r.e + swizzle (eSwz r.e) (elemOff r.e fun d => (cs.getD d none).getD 0).1)

/-- An index element that the check of a destination at issue needs and that another module or the host holds (R229). -/
def scanNeed (s : State) (c : Cmd) : Option Side :=
  let w := (s.wg? c.wg).getD {}
  let cx := (s.ctx? c.ctx).getD {}
  if !bounded (eSpace c.dst) || !eIdxv c.dst then none
  else (List.range (boxTotal c.dst)).findSome? fun k => (coordsAt s c.id c.core w cx c.dstRole (ivOf c.dst k)).findSome? fun r => match r with
    | .error (.need x) => some x
    | _ => none

/-- A copy with entries whose check at issue found nothing yet keeps that check open while index elements have to be brought: it writes
nothing before the check is done (R229). -/
def Cmd.scanned (s : State) (c : Cmd) : Cmd :=
  match c.kind with
  | .copy | .copyr .. => { c with scan := (scanNeed s c).isSome }
  | _ => c

/-- A command writes the core's weight buffer: it waits for the LDW and MMAS that its threads had in the queue (R253). -/
def Cmd.toWeight (c : Cmd) : Bool :=
  match c.kind with
  | .copy | .copyr .. => eSpace c.dst == 4
  | .copyl _ _ rd => bits (wnat rd 1) 28 25 == 4
  | _ => false

/-- The numbers of the LDW and MMAS of some threads that the array of a core still holds (R253). -/
def arrReaders (s : State) (core gid : Nat) (lanes : List Nat) : List Nat :=
  (s.core core).arr.queue.filterMap fun op => match op with
    | .ldw _ _ _ id g ls => if g == gid && ls.any fun l => lanes.contains l then some id else none
    | .cmd id => (s.cmd? id).bind fun c => match c.kind with
      | .mmas .. => if c.owners.any fun o => o.1 == gid && lanes.contains o.2 then some id else none
      | _ => none
    | _ => none

/-- A new command joins the open batch of every active thread (R230), behind the commands there (R233); a check that failed ends it at
once. It keeps which accesses of those threads are outstanding (R187-R190), its packets' stamp (R292), and the time at which its
detector interval opens (R183). -/
def addCmd (s : State) (iss : Issue) (g : Group) (mk : Nat → Cmd) (check : State → Cmd → Nat) : State :=
  let (id, s) := s.fresh
  let c := mk id
  let c := { c with id := id, core := g.core, ctx := s.ctxOf g, wg := g.wg, owners := iss.lanes.map fun l => (g.gid, l),
                    after := (s.accs.filter fun a => a.gid == g.gid && a.lanes.any fun l => iss.lanes.contains l.lane).map (·.id),
                    stamp := (stampOf s g).1, queue := (stampOf s g).2, opened := s.time,
                    prior := dedup ((g.threads.filter fun t => iss.lanes.contains t.lane).flatMap (·.batch)),
                    arrAfter := if c.toWeight then arrReaders s g.core iss.gid iss.lanes else [] }
  let code := check s c
  let s : State := { s with cmds := s.cmds ++ [c.scanned s], time := s.time + 1 }
  let s := s.mapLanes iss.gid iss.lanes fun t => { t with batch := t.batch ++ [id] }
  let s := if code = 0 then s else failCmd s c code 0 []
  advance s iss

/-- A core that holds 256 unfinished commands stalls the issue (R230). -/
def engineFull (s : State) (g : Group) : Bool := decide (Config.maxCommands ≤ cmdCount s g.core)

/-- Signed values of five origin registers (R236). -/
def origins (sf : RegFile) (r : SReg) : List Int := (List.range 5).map fun k => (sget {} sf (r.toNat + k)).w.toInt

def execCopy (x : CopyF) (s : State) : Out :=
  issued (.copy x) (fun iss g s =>
    match sPoison s iss (span x.d.toNat 5 ++ span x.a.toNat 5 ++ [x.b.toNat]) with
    | some s => s
    | none =>
      if engineFull s g then holdStruct s iss .engine
      else
        let c : Cmd := { kind := .copy, trap := x.trp, ids := (sget {} iss.snap x.b.toNat).w, so := origins iss.snap x.a,
                         dorg := origins iss.snap x.d, ctx := s.ctxOf g }
        addCmd s iss g (fun _ => rereadCmd s c) copyCheck) s

def execCopyr (x : CopyrF) (s : State) : Out :=
  issued (.copyr x) (fun iss g s =>
    match sPoison s iss (span x.d.toNat 5 ++ span x.a.toNat 5 ++ [x.b.toNat, x.b.toNat + 1]) with
    | some s => s
    | none =>
      if engineFull s g then holdStruct s iss .engine
      else
        let ids := (sget {} iss.snap x.b.toNat).w
        let seq := (sget {} iss.snap (x.b.toNat + 1)).w.toNat
        let c : Cmd := { kind := .copyr x.op (bits ids.toNat 27 16) seq, trap := x.trp, ids := ids, so := origins iss.snap x.a,
                         dorg := origins iss.snap x.d, ctx := s.ctxOf g }
        addCmd s iss g (fun _ => rereadCmd s c) copyCheck) s

/-- A record from its four words. -/
def recOfWords (ws : List Word) : Rec := recAt (ws.mapIdx fun i w => (i, ⟨w, false⟩)) 0

/-- Bytes of COPYL's width (R237). -/
def cwidBytes : CWid → Nat
  | .x4 => 4
  | .x8 => 8
  | .x16 => 16

/-- COPYL's form of a side (R237). -/
def copylForm (x : CopylF) (r : Rec) (st : Bool) : Form :=
  let n := cwidBytes x.wd
  let d := x.d.toNat
  { kinds := if st then [0, 1, 2, 4, 6] else [0, 1, 2, 6, 7], wid := n, ok8 := n % r.es == 0, sc := 0, need := if st then 2 else 1,
    cmp := [d, d + 1], poison := [d, d + 1], store := st }

/-- What COPYL keeps of its lanes (R237): the indices in range. -/
def copylPieces (s : State) (iss : Issue) (g : Group) (x : CopylF) : List (Nat × Option Nat × Option Nat) :=
  let (w, _) := placeOf s g
  let n := cwidBytes x.wd
  let ix (t : Thread) (k : Nat) : Nat := (t.vget (x.d.toNat + k)).w.toNat
  (acting g iss).map fun t =>
    (t.lane, if inRange s w (recAt iss.snap x.src) (ix t 0) n false then some (ix t 0) else none,
             if inRange s w (recAt iss.snap x.dst) (ix t 1) n true then some (ix t 1) else none)

/-- The engine error that a COPYL meets at issue (R229): a piece that it would write past the allocation, the gang window or the weight
buffer. -/
def copylCheck (s : State) (c : Cmd) : Nat :=
  match c.kind with
  | .copyl n _ rd =>
    let w := (s.wg? c.wg).getD {}
    let r := recOfWords rd
    let at_ (j k : Nat) : Nat := r.base + swizzle r.swz (r.off j + k)
    let within (j : Nat) : Bool := (List.range n).all fun k => match r.kind with
      | 1 => decide (at_ j k < allocOf s w)
      | 2 => gangIn s w (at_ j k) 1
      | 4 => decide (at_ j k < Config.weightBytes)
      | _ => true
    if c.pieces.any fun p => p.2.2.elim false fun j => !within j then 2 else 0
  | _ => 0

/-- COPYL (R237): both records are checked, step by step of R167; of two that fail in one step the source's trap is taken, since the
spec orders the steps and not the records (DESIGN CHOICE, log entry 61). A lane's piece keeps the indices in range. -/
def execCopyl (x : CopylF) (s : State) : Out :=
  issued (.copyl x) (fun iss g s =>
    let n := cwidBytes x.wd
    let rs := recAt iss.snap x.src
    let rd := recAt iss.snap x.dst
    match accessSteps s iss g rs x.src x.d (copylForm x rs false), accessSteps s iss g rd x.dst (x.d + 1) (copylForm x rd true) with
    | .stop a s, .stop b t => if a ≤ b then s else t
    | .stop _ s, .go .. => s
    | .go .., .stop _ s => s
    | .go .., .go .. =>
      if engineFull s g then holdStruct s iss .engine
      else
        let pieces := copylPieces s iss g x
        let s := pieces.foldl (fun s (l, a, b) => if a.isNone || b.isNone then onLane s g l Thread.setOob else s) s
        let ws (r : RecN) : List Word := (recRegs r).map fun i => (sget {} iss.snap i).w
        addCmd s iss g (fun _ => { kind := .copyl n (ws x.src) (ws x.dst), trap := x.trp, pieces := pieces }) copylCheck) s

/-! ### The channel (R233, R234, R238) -/

/-- Elements of a command. -/
def cmdTotal (c : Cmd) : Nat :=
  match c.kind with
  | .copyl .. => c.pieces.length
  | .copy | .copyr .. => boxTotal c.dst
  | .drain .. => 8192
  | _ => 1

/-- The iteration vector of a command's next element (R232, R237). -/
def cmdIv (c : Cmd) : List Nat :=
  match c.kind with
  | .copyl .. => [(c.pieces.getD c.pos (0, none, none)).1]
  | .drain .. => [c.pos]
  | _ => ivOf c.dst c.pos

/-- A command's next element has been delivered; after the last, the command ends. A COPYR's ends only when no reorder store holds an
element of it (R231, R238). `fr` free values were used. -/
def stepCmd (s : State) (c : Cmd) (bytes : Nat) (vd cl : Bool) (fr : Nat := 0) : State :=
  let s := dropFetched { s with freeCount := s.freeCount + fr } c.id
  let c := { c with pos := c.pos + 1, bytes := c.bytes + bytes, void_ := c.void_ || vd, clamp := c.clamp || cl, since := none, turn := none, out := false, late := false }
  if c.pos < cmdTotal c then s.modCmd c.id fun _ => c
  else
    let s := markSeq s c
    if s.held.any fun h => h.cmd == c.id then s.modCmd c.id fun _ => { c with allSent := true } else endCmd s { c with state := .ended }

/-- How far the delivery of an element has come: it goes on with a result, or it stops in a state. -/
inductive Turn (α : Type) where
  | stop (s : State)
  | go (x : α)

/-- An access for a command's element is sent (R233, R350): nothing more happens until it has ended. The first to a line begins the line's
request, and the others go on with it (R354). -/
def askFor (s : State) (c : Cmd) (op : AccOp) (x : Side) (data : List Byte) : State :=
  let line := (decide (op ≠ .load), x.va / 128)
  let (s, id) := sendFetch s c.id 0 0 c.core c.ctx op x.sp x.keys x.va data (c.stamp, c.queue)
  (s.modAcc id fun a => { a with cont := c.asked.contains line }).modCmd c.id fun c =>
    { c with asked := (line :: c.asked.filter (· != line)).take 4 }

/-- What R409 says of a command's read of a byte that its deterministic sweep has staged: an engine error's cause. `tr`: the read is tracked. -/
def stagedRead (s : State) (c : Cmd) (x : Side) (n : Nat) (tr : Bool) : Option Nat :=
  (c.owners.head?.bind fun o => s.group? o.1).bind fun g =>
    if detOf s g && x.sp.paged then (stagedConflict s g (c.owners.map (·.2)) x.va n 0 tr false false).map (·.1) else none

/-- The bytes of a source: those of this module's memory, under the issuing threads' own staged stores in a deterministic sweep (R409);
what an access brought from another module or the host; free values past the workgroup's memory (log entry 12). -/
def srcBytes (s : State) (c : Cmd) (x : Side) (n : Nat) (iv : List Nat) (tr : Bool) : Turn (List Byte) :=
  if x.keys.isEmpty then .go ((List.range n).map fun i => (Config.freeValue (s.freeCount + 2 + i)).setWidth 8)
  else if let some cs := stagedRead s c x n tr then .stop (failCmd s c 1 cs iv)
  else if x.far then
    match fetchedAt s c.id x.va n with
    | none => .stop (askFor s c .load x [])
    | some f =>
      if f.cause = 0 then
        .go (match c.owners.head?.bind fun o => s.group? o.1 with
          | some g => if x.sp.paged ∧ detOf s g then
              overlayOf s g (c.owners.map (·.2)) x.va n (List.replicate (x.va % 16) 0 ++ f.bytes ++ List.replicate 16 0)
            else f.bytes
          | none => f.bytes)
      else .stop (failCmd s c (engineCode f.cause f.sub).1 (engineCode f.cause f.sub).2 iv)
  else if (dataPoison s x.sp x.keys).isSome then .stop (failCmd (noteRead s x.sp x.keys) c 3 0 iv)
  else
    let k0 := x.keys.headD 0
    match c.owners.head?.bind fun o => s.group? o.1 with
    | some g =>
      if x.sp = .dev ∧ detOf s g then
        .go (overlayOf s g (c.owners.map (·.2)) x.va n (s.read .dev (k0 - x.va % 16) 16))
      else .go (getKeys s x.sp x.keys)
    | none => .go (getKeys s x.sp x.keys)

/-- The points that serve a packet of a command to a line of this module's device memory (R14, R292). -/
def cmdPoints (s : State) (c : Cmd) (x : Side) : List Nat :=
  if x.sp = .dev ∧ x.keys ≠ [] ∧ !farPlace s c.ctx x.sp x.va then toSlice (coreRouter s c.core) (x.keys.headD 0) else []

/-- The packets of an element to this module's slices have been served, or they leave now. -/
def travelled (s : State) (c : Cmd) (xs : List Side) : Turn Unit :=
  let pts := xs.flatMap (cmdPoints s c)
  if c.out || pts.isEmpty then .go ()
  else .stop (s.modCmd c.id fun c => { c with out := true, route := pts, born := s.cycle, late := false })

/-- The stall mark of a command whose next element proceeds untracked (R184). -/
def untracked : Nat := 2 ^ 64

/-- The detectors let an element's accesses pass (R182-R184): a race stops the command with code 0x01 and DETAIL 0x20, since R182 lets
the access have no effect and the spec gives no code of its own (DEDUCED, log entry 47); a full one makes the element wait. -/
def detectors (s : State) (c : Cmd) (ts : List Touch) (iv : List Nat) : Turn State :=
  if c.since = some untracked then .go s
  else match cmdRace s c ts with
    | .ok s => .go s
    | .race => .stop (failCmd s c 1 0x20 iv)
    | .full => .stop (s.modCmd c.id fun c => { c with since := some (c.since.getD s.cycle) })

/-- One element's move: the source's place or the bytes that stand for it, the destination's place, the half of its byte for RQ4, the
change of the bytes with the count for BYTES and the marks of R228, the tracked accesses, its vector, whether the command covers a
marked line of the destination whole, and how many free values it uses. -/
structure Move where
  src : Option Side
  fill : List Byte := []
  n : Nat
  dst : Side
  half : Option Bool := none
  conv : List Byte → List Byte × Nat × Bool × Bool
  touches : List Touch
  iv : List Nat
  covers : Bool := false
  fr : Nat := 0
  /-- What else the delivery changes: a DRAIN's bits of the matrix status. -/
  also : State → State := id

/-- The byte that an RQ4 element leaves. -/
def halfByte (hi : Bool) (old v : Byte) : Byte :=
  let o := old.toNat
  BitVec.ofNat 8 (if hi then o % 16 + 16 * (v.toNat % 16) else o / 16 * 16 + v.toNat % 16)

/-- The destination is written (R233): here at once; at another module or on a page with replicas by an access, whose acknowledgement
delivers the element. A line operation that writes part of a marked line stops the command (R422). -/
def putMove (s : State) (c : Cmd) (m : Move) (bs : List Byte) (b : Nat) (vd cl : Bool) : State :=
  let x := m.dst
  if farPlace s c.ctx x.sp x.va then
    match m.half with
    | none => (askFor s c .store x bs).modCmd c.id fun c => { c with bytes := c.bytes + b, void_ := c.void_ || vd, clamp := c.clamp || cl }
    | some hi => match fetchedAt s c.id x.va 1 with
      | none => askFor s c .load x []
      | some f =>
        (askFor s c .store x [halfByte hi (f.bytes.headD 0) (bs.headD 0)]).modCmd c.id fun c =>
          { c with bytes := c.bytes + b, void_ := c.void_ || vd, clamp := c.clamp || cl }
  else
    let line := x.keys.headD 0 / 128
    let marked := decide (x.sp = .dev) && s.marks.contains line
    if marked && !m.covers then failCmd s c 3 0 m.iv
    else
      let s := if x.sp = .dev && m.covers then renewLine s line else s
      let bs := match m.half with
        | some hi => [halfByte hi ((getKeys s x.sp x.keys).headD 0) (bs.headD 0)]
        | none => bs
      stepCmd (putKeys s x.sp x.keys bs) c b vd cl m.fr

/-- The acknowledgement of an element's write by an access, if it has come. -/
def ackOf (s : State) (c : Cmd) (x : Side) : Option Fetched := s.fetched.find? fun f => f.key == c.id && f.write && f.va == x.va

/-- An element is delivered, as far as this step can take it: what it reads is brought, its packets are served, the detectors pass it,
and it is written. -/
def moveElem (s : State) (c : Cmd) (m : Move) : State :=
  match ackOf s c m.dst with
  | some f =>
    if f.cause = 0 then stepCmd s c 0 false false m.fr
    else failCmd s c (engineCode f.cause f.sub).1 (engineCode f.cause f.sub).2 m.iv
  | none =>
    match (match m.src with | some x => srcBytes s c x m.n m.iv (m.touches.any fun t => !t.write) | none => .go m.fill) with
    | .stop s => s
    | .go bs =>
      match travelled s c (m.src.toList ++ [m.dst]) with
      | .stop s => s
      | .go _ =>
        match detectors s c m.touches m.iv with
        | .stop s => s
        | .go s =>
          let s := match m.src with | some x => noteRead s x.sp x.keys | none => s
          let (out, b, vd, cl) := m.conv bs
          putMove (m.also s) c m out b vd cl

/-- The tracked accesses of a side of a command with entries (R183): spaces 0 and 1, whose record bits an entry does not have. The copy
litmus of R192 and R236 count them (DEDUCED, log entry 47). -/
def sideTouch (e : List Word) (x : Side) (wr : Bool) : List Touch :=
  if eSpace e = 0 ∨ eSpace e = 1 then touchOf 0 x.sp x.keys wr none x.va else []

/-- Whether a destination line that its slice has marked is written whole by this and the following elements in one line
operation (R422). -/
def coversLine (s : State) (c : Cmd) (w : Wg) (cx : Context) (k0 n : Nat) : Bool :=
  n ≠ 0 && k0 % 128 == 0 && (List.range (128 / max 1 n)).all fun i =>
    decide (c.pos + i < cmdTotal c) &&
    (match elemAt s c.id c.core w cx c.dstRole (ivOf c.dst (c.pos + i)) with
     | .at_ x _ => decide (x.sp = .dev) && x.keys.headD 0 == k0 + i * n
     | _ => false)

/-- Free values that an element's index elements may use. -/
def idxFree (c : Cmd) : Nat := if eIdxv c.src || eIdxv c.dst then 2 else 0

/-- Both sides of the next element of a COPY or COPYR (R227): a clipped destination is delivered at once, an error stops the command,
and a missing index element is fetched. -/
def elemSides (s : State) (c : Cmd) (w : Wg) (cx : Context) : Turn (Side × Bool × Option (Side × Bool)) :=
  let iv := ivOf c.dst c.pos
  match elemAt s c.id c.core w cx c.dstRole iv with
  | .err code det => .stop (failCmd s c code det iv)
  | .need x => .stop (askFor s c .load x [])
  | .clip => .stop (stepCmd s c 0 false false (idxFree c))
  | .at_ x hi => match elemAt s c.id c.core w cx c.srcRole iv with
    | .err code det => .stop (failCmd s c code det iv)
    | .need y => .stop (askFor s c .load y [])
    | .clip => .go (x, hi, none)
    | .at_ y hj => .go (x, hi, some (y, hj))

/-- One element of a COPY (R227, R228). BYTES counts a byte of an RQ4 source with the element in its low half, so that a run of 2n
elements counts n; R232 does not say how half a byte counts (DESIGN CHOICE, log entry 60). -/
def copyElem (s : State) (c : Cmd) (w : Wg) (cx : Context) : State :=
  match elemSides s c w cx with
  | .stop s => s
  | .go (x, hi, y) =>
    let fs := eFmt c.src
    let fd := eFmt c.dst
    let n := (fmtNibs fd + 1) / 2
    let m := (fmtNibs fs + 1) / 2
    let hj := y.elim false (·.2)
    let conv (bs : List Byte) : List Byte × Nat × Bool × Bool :=
      if y.isNone then (bs, 0, false, false)
      else
        let raw := if fs = 6 then (if hj then ofLE bs / 16 else ofLE bs % 16) else ofLE bs
        let (v, vd, cl) := convElem fs fd raw
        (toLE n v, if fs = 6 ∧ hj then 0 else m, vd, cl)
    moveElem s c
      { src := y.map (·.1), fill := toLE n (eFill c.src % 2 ^ (4 * fmtNibs fd)), n := m, dst := x,
        half := if fd = 6 then some hi else none, conv := conv, iv := ivOf c.dst c.pos,
        touches := (y.elim [] fun y => sideTouch c.src y.1 false) ++ sideTouch c.dst x true,
        covers := coversLine s c w cx (x.keys.headD 0) n, fr := idxFree c + (if (y.elim false fun y => y.1.keys.isEmpty) then 2 + m else 0) }

/-! ### COPYR at the slices (R238) -/

/-- The sequence state of a region at a slice (R238). -/
def regionAt (s : State) (slice ctx region : Nat) : RegionSt :=
  (s.regions.find? fun r => r.slice == slice && r.ctx == ctx && r.region == region).getD
    { slice := slice, ctx := ctx, region := region }
def setRegion (s : State) (r : RegionSt) : State :=
  { s with regions := r :: s.regions.filter fun x => !(x.slice == r.slice && x.ctx == r.ctx && x.region == r.region) }

/-- A sequence number may be applied: every earlier one is retired (R238). -/
def seqReady (next seq : Nat) : Bool := decide ((next + 2 ^ 32 - seq) % 2 ^ 32 < 2 ^ 31)

/-- A slice's reorder store has no room (R238). -/
def storeFull (s : State) (slice : Nat) : Bool := decide (Config.reorderElements ≤ (s.held.filter fun h => h.slice == slice).length)

/-- An element is applied at its home slice. -/
def applyReduce (s : State) (keys : List Nat) (op : ROp) (fmt : Nat) (bs : List Byte) : State :=
  putKeys (noteRead s .dev keys) .dev keys (toLE (fmtNibs fmt / 2) (reduceElem op fmt (ofLE (getKeys s .dev keys)) (ofLE bs)))

/-- One element of a COPYR (R238): at its home slice it is applied when its sequence number may be; else it waits in the reorder store,
and where that is full, in the channel. -/
def copyrElem (s : State) (c : Cmd) (w : Wg) (cx : Context) (op : ROp) (region seq : Nat) : State :=
  match elemSides s c w cx with
  | .stop s => s
  | .go (x, _, y) =>
    let iv := ivOf c.dst c.pos
    let fd := eFmt c.dst
    let n := fmtNibs fd / 2
    let slice := homeSlice (x.keys.headD 0)
    let r := regionAt s slice c.ctx region
    let fr := idxFree c + (if (y.elim false fun y => y.1.keys.isEmpty) then 2 + n else 0)
    let b := if y.isSome then n else 0
    if x.sp ≠ .dev then failCmd s c 1 0x0B iv
    else if r.gap then failCmd s c 6 0 iv
    else match ackOf s c x with
    | some f => if f.cause = 0 then stepCmd s c b false false fr else failCmd s c (engineCode f.cause f.sub).1 (engineCode f.cause f.sub).2 iv
    | none =>
      match (match y with | some y => srcBytes s c y.1 n iv (!(sideTouch c.src y.1 false).isEmpty) | none => .go (toLE n (eFill c.src))) with
      | .stop s => s
      | .go bs =>
        match travelled s c ((y.map (·.1)).toList ++ [x]) with
        | .stop s => s
        | .go _ =>
          let wait (s : State) : State := s.modCmd c.id fun c => { c with turn := some (c.turn.getD s.cycle) }
          if (dataPoison s .dev x.keys).isSome then failCmd (noteRead s .dev x.keys) c 3 0 iv
          else if !seqReady r.next seq && storeFull s slice then wait s
          else match detectors s c ((y.elim [] fun y => sideTouch c.src y.1 false) ++ sideTouch c.dst x true) iv with
          | .stop s => s
          | .go s =>
            let s := match y with | some y => noteRead s y.1.sp y.1.keys | none => s
            if seqReady r.next seq && farPlace s c.ctx x.sp x.va then askFor s c (.atomic (.red op fd) false) x bs
            else if seqReady r.next seq then stepCmd (applyReduce s x.keys op fd bs) c b false false fr
            else
              stepCmd { s with held := s.held ++ [{ slice := slice, ctx := c.ctx, region := region, seq := seq, cmd := c.id, pos := c.pos,
                                                    va := x.va, keys := x.keys, op := op, fmt := fd, data := bs, since := s.cycle }] } c b false false fr

/-- The last of a command's held elements is applied: with all the others sent, the command ends (R231, R238). -/
def heldOver (s : State) (id : Nat) : State :=
  match s.cmd? id with
  | some c => if c.state = .running ∧ c.allSent ∧ ¬ (s.held.any fun x => x.cmd == c.id) then endCmd s { c with state := .ended } else s
  | none => s

/-- A held element stops its command (R234, R238). -/
def failHeld (s : State) (h : Held) (code detail : Nat) : State :=
  match s.cmd? h.cmd with
  | some c => if c.state = .running then failCmd s { c with pos := h.pos } code detail (ivOf c.dst h.pos) else s
  | none => s

/-- A held element's place as its page stands now: a migration may have moved the page since it came (R238, R355). -/
def heldPlace (s : State) (h : Held) : Tr :=
  match s.ctx? h.ctx with
  | some cx => translate s ((s.cmd? h.cmd).elim noCore (·.core)) cx 2 h.va
  | none => .here (h.keys.headD 0) 0

/-- A held element's turn has come: it is applied; on a page with replicas an access carries it (R193); a page that has gone to another
module, a fault or a poisoned destination stops its command there (R234, R238). -/
def applyHeld (s : State) (h : Held) : State :=
  let gone : State := { s with held := s.held.filter (· != h) }
  match heldPlace s h with
  | .peer _ _ => failHeld gone h 1 0x0B
  | .fault cs sub => failHeld gone h (engineCode cs sub).1 (engineCode cs sub).2
  | .here pa _ =>
    let keys := keysFrom pa h.keys.length
    if (dataPoison s .dev keys).isSome then failHeld (noteRead gone .dev keys) h 3 0
    else if farPlace s h.ctx .dev h.va then
      let (key, s) := s.fresh
      let c := (s.cmd? h.cmd).getD {}
      let s : State := { s with held := s.held.map fun x => if x = h then { h with sent := some key } else x }
      (sendFetch s key 0 0 c.core h.ctx (.atomic (.red h.op h.fmt) false) .dev keys h.va h.data (c.stamp, c.queue)).1
    else heldOver (applyReduce gone keys h.op h.fmt h.data) h.cmd

/-- A held element whose access has been answered (R193, R238). -/
def settleHeld (s : State) (h : Held) : State :=
  match h.sent.bind fun key => s.fetched.find? fun f => f.key == key with
  | none => s
  | some f =>
    let s : State := { dropFetched s f.key with held := s.held.filter (· != h) }
    if f.cause = 0 then heldOver s h.cmd else failHeld s h (engineCode f.cause f.sub).1 (engineCode f.cause f.sub).2

/-- The elements of a region that wait at a slice though the sequence number lets them be applied (R238). -/
def heldDue (s : State) (r : RegionSt) : List Held :=
  s.held.filter fun h => h.slice == r.slice && h.ctx == r.ctx && h.region == r.region && seqReady r.next h.seq

/-- A slice is to retire the region's next sequence number: it has that COPYR's marker, and no element up to it waits (R238). -/
def retirable (s : State) (r : RegionSt) : Bool := s.markers.contains (r.ctx, r.region, r.next) && (heldDue s r).isEmpty

/-- The due elements of a region are settled where an access has carried them, and else applied, in the order in which they came;
those on a page that a migration has frozen wait (R355). -/
def applyDue (s : State) (r : RegionSt) : State :=
  (heldDue s r).foldl (fun s h =>
    if !s.held.contains h then s
    else if h.sent.isSome then settleHeld s h
    else if keysFrozen s h.keys then s else applyHeld s h) s

/-- Markers that every slice has used. -/
def pruneMarkers (s : State) : State :=
  { s with markers := s.markers.filter fun (c, rg, q) =>
      !((List.range Config.numSlices).all fun h => decide (((regionAt s h c rg).next + 2 ^ 32 - q - 1) % 2 ^ 32 < 2 ^ 31)) }

/-- COPYR_SEQ_RETIRE (R238): a slice applies the elements that the sequence number lets it apply, and retires the number of a COPYR whose
marker it has. -/
def execCopyrSeqRetire (slice ctx region : Nat) (s : State) : Out :=
  let r := regionAt s slice ctx region
  .next (if !retirable s r then applyDue s r
    else
      let r := { r with next := (r.next + 1) % 2 ^ 32 }
      pruneMarkers (applyDue (setRegion s r) r))

/-- COPYR_GAP_TIMEOUT (R238): when elements of a region have waited 2^20 clk at a slice, every command that waits there ends with 0x06,
and so do later ones until the region is reset. A command of a gang that does not run does not count (R235). -/
def execCopyrGapTimeout (slice ctx region : Nat) (s : State) : Out :=
  let cx := (s.ctx? ctx).getD {}
  let runs (c : Cmd) : Bool := wgRuns s c.wg
  let inStore := s.held.filter fun h => h.slice == slice && h.ctx == ctx && h.region == region && !(heldDue s (regionAt s slice ctx region)).contains h &&
    (s.cmd? h.cmd).elim true runs
  let inChannel := s.cmds.filter fun c => c.ctx == ctx && decide (c.state = .running) && runs c && c.turn.isSome && (match c.kind with
    | .copyr _ rg _ => rg == region && (match elemAt s c.id c.core ((s.wg? c.wg).getD {}) cx c.dstRole (ivOf c.dst c.pos) with
      | .at_ x _ => decide (x.sp = .dev) && homeSlice (x.keys.headD 0) == slice
      | _ => false)
    | _ => false)
  let since := inStore.map (·.since) ++ inChannel.filterMap (·.turn)
  .next (if since.any fun n => decide (n + Config.gapWait ≤ s.cycle) then
      let s := setRegion s { regionAt s slice ctx region with gap := true }
      let ids := dedup (inStore.map (·.cmd) ++ inChannel.map (·.id))
      let s := ids.foldl (fun s i => match s.cmd? i with
        | some c =>
          let p := (minOf ((inStore.filter fun h => h.cmd == i).map (·.pos))).getD c.pos
          if c.state = .running then failCmd s { c with pos := p } 6 0 (ivOf c.dst p) else s
        | none => s) s
      { s with held := s.held.filter fun h => !inStore.contains h }
    else s)

/-! ### COPYL (R237) -/

/-- The places of a COPYL's lane: none out of range. -/
def copylSide (s : State) (c : Cmd) (w : Wg) (cx : Context) (n : Nat) (r : Rec) (j need : Nat) : Except (Nat × Nat) Side :=
  match locate s c.core w cx r j n need with
  | .fault cs sub => .error (engineCode cs sub)
  | .at_ sp keys leaf =>
    if need = 2 ∧ sp.paged ∧ leaf.testBit 5 then .error (1, 0x28)
    else if need = 1 ∧ r.kind = 7 ∧ ¬ leaf.testBit 5 then .error (1, 0x0B) else .ok ⟨sp, keys, r.addr j⟩

/-- A marked destination line that this and the following lanes cover whole: the coalescer merges them into one line operation. -/
def copylCovers (s : State) (c : Cmd) (w : Wg) (cx : Context) (n : Nat) (rd : Rec) (line : Nat) : Bool :=
  let keys := (c.pieces.drop c.pos).flatMap fun (_, _, b) => match b with
    | none => []
    | some j => match copylSide s c w cx n rd j 2 with
      | .ok x => if x.sp = .dev then x.keys.filter fun k => k / 128 == line else []
      | .error _ => []
  decide ((dedup keys).length = 128)

/-- The next lane of a COPYL (R237): its destination receives zeros where its source is out of range. -/
def copylElem (s : State) (c : Cmd) (w : Wg) (cx : Context) (n : Nat) (rs rd : Rec) : State :=
  let (lane, a, b) := c.pieces.getD c.pos (0, none, none)
  let touch (r : Rec) (x : Side) (wr : Bool) : List Touch := if tracked r 0 then touchOf lane x.sp x.keys wr none x.va else []
  match b with
  | none => stepCmd s c 0 false false
  | some j =>
    match copylSide s c w cx n rd j 2, (a.map fun i => copylSide s c w cx n rs i 1) with
    | .error (code, det), _ => failCmd s c code det [lane]
    | _, some (.error (code, det)) => failCmd s c code det [lane]
    | .ok x, y =>
      let src : Option Side := y.bind fun r => match r with | .ok y => some y | .error _ => none
      moveElem s c
        { src := src, fill := List.replicate n 0, n := n, dst := x, conv := fun bs => (bs, if src.isSome then n else 0, false, false), iv := [lane],
          touches := (src.elim [] fun y => touch rs y false) ++ touch rd x true,
          covers := copylCovers s c w cx n rd (x.keys.headD 0 / 128) }

/-! ### The channel's steps -/

/-- The next element touches a page that a migration has frozen (R355). -/
def elemFrozen (s : State) (c : Cmd) (w : Wg) (cx : Context) : Bool :=
  let on (x : Side) : Bool := decide (x.sp = .dev) && keysFrozen s x.keys
  !s.migs.isEmpty && (match c.kind with
    | .copyl n rs rd =>
      let (_, a, b) := c.pieces.getD c.pos (0, none, none)
      let at_ (ws : List Word) (j : Option Nat) (need : Nat) : Bool := j.elim false fun i => match copylSide s c w cx n (recOfWords ws) i need with
        | .ok x => on x
        | .error _ => false
      at_ rs a 1 || at_ rd b 2
    | _ =>
      let at_ (r : Role) : Bool := match elemAt s c.id c.core w cx r (ivOf c.dst c.pos) with
        | .at_ x _ => on x
        | _ => false
      at_ c.srcRole || at_ c.dstRole)

/-- A command waits for its packets or for an access sent for it. -/
def cmdSent (s : State) (c : Cmd) : Bool := !c.route.isEmpty || s.accs.any fun a => a.fetch == some c.id

/-- Every copy channel of a core is a secure one (R432), so that a non-secure context's command finds none. -/
def channelsSecure (s : State) (core : Nat) : Bool :=
  (List.range Config.copyChannels).all fun n => s.secureChannels.contains (core * Config.copyChannels + n)

/-- One step of a command of the copy channels: a non-secure context's is blocked where it would have to take a secure channel, since the
core chooses a channel freely (R233, R432, log entry 56); while its check at issue is open, the next index element that the check needs is
brought, and then the check is made (R229). -/
def channelStep (s : State) (c : Cmd) (w : Wg) (cx : Context) : State :=
  let s := match c.kind with
    | .copy | .copyr .. => noteIdx (noteIdx s c.core w cx c.srcRole (cmdIv c)) c.core w cx c.dstRole (cmdIv c)
    | _ => s
  if !cx.world && channelsSecure s c.core then failCmd (noteWorld s) c 1 0x0D (cmdIv c)
  else if c.scan then
    match scanNeed s c with
    | some x => askFor s c .load x []
    | none => let code := copyCheck s c
              if code = 0 then s.modCmd c.id fun c => { c with scan := false } else failCmd s c code 0 []
  else match c.kind with
  | .copy => copyElem s c w cx
  | .copyr op region seq => copyrElem s c w cx op region seq
  | .copyl n rs rd => copylElem s c w cx n (recOfWords rs) (recOfWords rd)
  | _ => s

/-- Whether a command's next element can go on now. One that waits for a detector's room or a COPYR's turn looks again (R184, R238). -/
def channelReady (s : State) (c : Cmd) : Bool :=
  let w := (s.wg? c.wg).getD {}
  let cx := (s.ctx? c.ctx).getD {}
  cmdReady s c && !cmdSent s c && !elemFrozen s c w cx &&
    ((c.since.isNone && c.turn.isNone) ||
      ((channelStep s c w cx).cmd? c.id).elim true fun d => decide (d.since ≠ c.since) || decide (d.turn ≠ c.turn))

/-- COPY_WRITE_ACK (R233): the next element of a command is delivered. -/
def execCopyWriteAck (id : Nat) (s : State) : Out :=
  .next (match s.cmd? id with
  | none => s
  | some c =>
    if !channelReady s c then s
    else match s.wg? c.wg, s.ctx? c.ctx with
      | some w, some cx => channelStep s c w cx
      | _, _ => failCmd s c 5 0 [])

/-! ### Tokens (R239-R242) -/

/-- What a resuming SEAL checks again (R239): the failed command with its entries reread, and its error. -/
def resumeCmd (s : State) (c : Cmd) (check : State → Cmd → Nat) : State :=
  let c := rereadCmd s { c with state := .running, code := 0, detail := 0, iv := [], since := none, turn := none, opened := s.time }
  let s : State := { s with time := s.time + 1 }
  let code := check s c
  let s := s.modCmd c.id fun _ => c.scanned s
  if code = 0 then s else failCmd s c code 0 []

/-- Codes that SEAL resumes (R239). -/
def resumable (code : Nat) : Bool := [1, 3, 4, 7, 8].contains code

/-- WAIT (R240): the lanes whose token is not Pending pass, unless one of them traps. -/
def execWait (k : KReg) (s : State) : Out :=
  issued (.wait k) (fun iss g s =>
    let n := k.toNat
    let ts := g.threads.filter fun t => iss.lanes.contains t.lane
    match (ts.filter fun t => tokenTraps s (t.kget n)).map (·.lane) with
    | l :: ls => takeTrap s iss 0x38 { info0 := BitVec.ofNat 32 n, lanes := l :: ls }
    | [] =>
      let wait := (ts.filter fun t => tokenPend s (t.kget n)).map (·.lane)
      let go := (ts.map (·.lane)).filter fun l => !wait.contains l
      let s := passTokens s g.gid go [n]
      let s := s.mapLanes g.gid wait fun t => { t with wait := .token n }
      s.mapLanes g.gid go (Thread.advance 1)) s

def execTstat (d : VReg) (k : KReg) (s : State) : Out :=
  issued (.tstat d k) (fun iss _ s =>
    advance (s.mapLanes iss.gid iss.lanes fun t => t.vsets d.toNat (tokenWords s (t.kget k.toNat))) iss) s

def execCwp (d : VReg) (k : KReg) (s : State) : Out :=
  issued (.cwp d k) (fun iss _ s =>
    advance (s.mapLanes iss.gid iss.lanes fun t => t.vset d.toNat ⟨(tokenWords s (t.kget k.toNat)).getD 2 0, false⟩) iss) s

/-- The status words that CABORT leaves (R242). -/
def abortWords (ws : List Word) : List Word :=
  match ws with
  | w :: r => ((w &&& ~~~0x50000000#32) ||| 0x20000000#32) :: r
  | [] => []

/-- CABORT (R242): an Errored token becomes Complete; its batch's later commands never run. -/
def execCabort (k : KReg) (s : State) : Out :=
  issued (.cabort k) (fun iss g s =>
    let n := k.toNat
    let hit := g.threads.filter fun t => iss.lanes.contains t.lane && tokenErr s (t.kget n)
    let s' := hit.foldl (fun s' t =>
      let tk := t.kget n
      let s' := closeCmd (dropBatch s' g.gid t.lane tk) tk.ids fun gid l => gid == g.gid && l == t.lane
      s'.modThread g.gid t.lane fun t => t.kset n { last := abortWords (tokenWords s tk) }) s
    advance s' iss) s

/-! ### TDEF and TGET (R243) -/

def execTdef (a : SReg) (r : RecN) (s : State) : Out :=
  uniIssued (.tdef a r) (fun iss g s =>
    match sPoison s iss [a.toNat] with
    | some s => s
    | none => match uniAccess s iss g r 128 [0, 1] 1 with
      | .stop s => s
      | .oob s => advance s iss
      | .ok s locs =>
        let (bs, s) := uniRead s g.gid locs
        advance (s.modCtx (s.ctxOf g) fun c => { c with tensors := sset [] c.tensors (iss.sv a % 256) (bytesToWords bs 32) }) iss) s

def execTget (a : SReg) (r : RecN) (s : State) : Out :=
  uniIssued (.tget a r) (fun iss g s =>
    match sPoison s iss [a.toNat] with
    | some s => s
    | none => match uniAccess s iss g r 128 [0, 1] 2 with
      | .stop s => s
      | .oob s => advance s iss
      | .ok s locs =>
        let e := sget [] (((s.ctx? (s.ctxOf g)).map (·.tensors)).getD []) (iss.sv a % 256)
        uniStore s iss g (recAt iss.snap r).base locs (wordsToBytes ((List.range 32).map fun i => e.getD i 0))) s

end Sys2Proof.Machine
end

