-- ==== Sys2Proof/Machine/Array.lean ====
section
/-! DEFINITION. The matrix array: planes, tiles, residue passes, chunked sums, DRAIN, and the MTX instructions
(R66-R73, R245-R264). -/

namespace Sys2Proof.Machine

/-! ### Formats (R56, R57, R58, R246) -/

/-- Half-bytes of an element. -/
def mNibs : MFmt → Nat
  | .f32 => 8
  | .f64 => 16
  | .bf16 => 4
  | .f8e4 | .f8e5 | .rq8 => 2
  | .rq4 => 1
/-- K rows of a plane (R246). -/
def mRows (f : MFmt) : Nat := 256 / mNibs f
def mSpec : MFmt → FSpec
  | .f32 => spec32
  | .f64 => spec64
  | .bf16 => specB
  | .f8e4 => specE4
  | _ => specE5
def mIsRq : MFmt → Bool
  | .rq8 | .rq4 => true
  | _ => false
/-- K positions of a chunk (R68). -/
def mChunk : MFmt → Nat
  | .f8e4 | .f8e5 => 64
  | .bf16 => 32
  | _ => 8
def mCode : MFmt → Nat
  | .f32 => 0
  | .f64 => 1
  | .bf16 => 2
  | .f8e4 => 3
  | .f8e5 => 4
  | .rq8 => 5
  | .rq4 => 6
/-- The residue code of RQ8 and RQ4 as rqVal takes it. -/
def rqCode (f : MFmt) : Nat := mCode f

/-- The value of a scale8 byte (R58). -/
def scale8 (b : Byte) : FV :=
  let e := b.toNat / 8
  let m := b.toNat % 8
  if e = 0 then .fin false m (-17) else .fin false (8 + m) ((e : Int) - 18)

/-- The matrix status's bits (R263) from float flags. -/
def mFlags (f : Fl) : BitVec 7 :=
  BitVec.ofNat 7 (bitAt (f &&& flNV != 0) 3 + bitAt (f &&& flOF != 0) 4 + bitAt (f &&& flUF != 0) 5 + bitAt (f &&& flNX != 0) 6)
def mVOID : BitVec 7 := 1
def mASAT : BitVec 7 := 2
def mDSAT : BitVec 7 := 4
def mMNV : BitVec 7 := 8
def mMNX : BitVec 7 := 64

/-! ### Tiles (R66-R69, R250, R251) -/

/-- EndPass on channels (R66): the signed pass sum. -/
def passSum (x255 x256 x257 : Nat) : Int :=
  let x := (8421376 * x255 + 16711425 * x256 + 8421120 * x257) % 16776960
  if 8388480 ≤ x then (x : Int) - 16776960 else x

/-- A pass sum added to an int32 element, and ASAT. -/
def addSat (acc : Word) (x : Int) : Word × Bool :=
  let t := acc.toInt + x
  if 2 ^ 31 - 1 < t then (0x7FFFFFFF, true) else if t < -2 ^ 31 then (0x80000000, true) else (BitVec.ofInt 32 t, false)

/-- The channels and count of an open pass. -/
abbrev Chan := Nat × Nat × Nat × Nat

/-- One element of an int tile while products enter it. -/
structure RqEl where
  acc : Word
  ch : Chan
  st : BitVec 7

/-- EndPass of an element (R66). -/
def RqEl.endPass (e : RqEl) : RqEl :=
  let (a, b, c, _) := e.ch
  let (acc, sat) := addSat e.acc (passSum a b c)
  { acc := acc, ch := (0, 0, 0, 0), st := if sat then e.st ||| mASAT else e.st }

/-- A product enters an element (R66). -/
def RqEl.enter (e : RqEl) (p : Int) : RqEl :=
  let (a, b, c, n) := e.ch
  let md (x : Nat) (m : Nat) : Nat := (((x : Int) + p) % (m : Int)).toNat
  let e := { e with ch := (md a 255, md b 256, md c 257, n + 1) }
  if n + 1 = 512 then e.endPass else e

/-- The open pass of a tile closes: EndPass for every element with products (R67). -/
def Tile.close (t : Tile) : Tile × BitVec 7 :=
  let (ws, st) := t.chans.foldl (fun (ws, st) (k, ch) =>
    if ch.2.2.2 = 0 then (ws, st)
    else
      let e := RqEl.endPass ⟨sget 0 ws k, ch, st⟩
      (sset 0 ws k e.acc, e.st)) (t.words, (0 : BitVec 7))
  ({ t with words := ws, chans := [], pass := none }, st)

/-- The entries of a sparse list at keys from `lo` to `hi` replaced. -/
def setSpan {α : Type} [DecidableEq α] (dflt : α) (l : List (Nat × α)) (lo hi : Nat) (new : List (Nat × α)) : List (Nat × α) :=
  (l.filter fun x => decide (x.1 < lo)) ++ (new.filter fun x => decide (x.2 ≠ dflt)) ++ (l.filter fun x => decide (hi < x.1))

/-! ### Operands -/

/-- Element `k` of a run of bytes in a format; past its end it reads 0. -/
def rowElem (f : MFmt) (row : List Byte) (k : Nat) : Nat :=
  if f = .rq4 then (if k % 2 = 0 then (row.getD (k / 2) 0).toNat % 16 else (row.getD (k / 2) 0).toNat / 16)
  else
    let e := mNibs f / 2
    ofLE ((List.range e).map fun i => row.getD (k * e + i) 0)

/-- Row `k` of column `j` of a plane in a format (R246). -/
def planeElem (f : MFmt) (m : Memory) (k j : Nat) : Nat :=
  if f = .rq4 then
    let b := (m.get (128 * j + k / 2)).toNat
    if k % 2 = 0 then b % 16 else b / 16
  else
    let e := mNibs f / 2
    ofLE (readBytes m (128 * j + k * e) e)

/-- A bit field of a memory. -/
def bitField (m : Memory) (a bit n : Nat) : Nat := ofLE (readBytes m (a + bit / 8) 2) / 2 ^ (bit % 8) % 2 ^ n

/-- The products of a row with column `j`: dense position, the row's code and the plane's, in the order of R66, R68, R73. R260 gives
the metadata 96 × Kp bytes in all, but 24-byte fields of an fp64 `.n32` take twice that: the fields are read where R260 places each,
past the 96 × Kp bytes that the check covers, and bytes past the weight buffer read 0 (DESIGN CHOICE, log entry 48). -/
def prodsOf (f : MFmt) (row : List Byte) (plane : Memory) (j : Nat) (sparse : Option (Nat × Memory × Nat)) (byp : Bool) :
    List (Nat × Nat × Nat) :=
  match sparse with
  | none => (List.range (mRows f)).map fun k => (k, rowElem f row k, planeElem f plane k j)
  | some (n, wb, m) =>
    let kept := (List.range (mRows f)).map fun r =>
      let g := r / n
      let e := r % n
      let pos := 64 * g + bitField wb (m + (g * 128 + j) * (6 * n / 8)) (6 * e) 6
      (pos, if byp ∧ 128 ≤ pos then 0 else rowElem f row pos, planeElem f plane r j)
    sortBy (fun a b => decide (a.1 ≤ b.1)) kept

/-- Whether a value is a NaN. -/
def isNaNCode (f : FSpec) (x : Nat) : Bool := (fval f x).isNaN

/-- Float products of one chunk added to an accumulator (R68): a NaN term sets MNV, and so do infinities of both signs among the terms
whatever the accumulator holds. R68 names the terms and the accumulator apart, and a quiet NaN in the accumulator alone sets
nothing, here and in the fp64 chain (DESIGN CHOICE, log entry 49). -/
def chunkStep (f : MFmt) (acc : Nat) (ps : List (Nat × Nat × Nat)) : Nat × BitVec 7 :=
  let sp := mSpec f
  let terms := ps.map fun p => (fval sp p.2.1, fval sp p.2.2)
  let r := fmaR spec32 0 terms [fval spec32 acc]
  let nan := ps.any fun p => isNaNCode sp p.2.1 || isNaNCode sp p.2.2
  let inv := (fval spec32 acc).isNaN && ((fmaR spec32 0 terms []).2 &&& flNV) != 0
  (r.1, mFlags r.2 ||| (if nan || inv then mMNV else 0))

/-- All chunks in ascending K. -/
def chunksFrom (f : MFmt) (acc : Nat) (st : BitVec 7) : Nat → List (Nat × Nat × Nat) → Nat × BitVec 7
  | _, [] => (acc, st)
  | 0, _ => (acc, st)
  | n + 1, p :: ps =>
    let c := p.1 / mChunk f
    let now := (p :: ps).takeWhile fun q => q.1 / mChunk f == c
    let (acc, st') := chunkStep f acc now
    chunksFrom f acc (st ||| st') n ((p :: ps).dropWhile fun q => q.1 / mChunk f == c)

/-- The chain of R69. -/
def chain64 (acc : Nat) (ps : List (Nat × Nat × Nat)) : Nat × BitVec 7 :=
  ps.foldl (fun (acc, st) p =>
    let r := fmaR spec64 0 [(fval spec64 p.2.1, fval spec64 p.2.2)] [fval spec64 acc]
    let nan := isNaNCode spec64 p.2.1 || isNaNCode spec64 p.2.2
    (r.1, st ||| mFlags r.2 ||| (if nan then mMNV else 0))) (acc, 0)

/-- One row of an MMA or MMAS applied to the tiles of an array (R259, R260). -/
def Arr.row (a : Arr) (f : MFmt) (tile i : Nat) (row : List Byte) (sparse : Option (Nat × Memory × Nat)) (byp : Bool) : Arr :=
  let t : Tile := sget {} a.tiles tile
  let ps (j : Nat) := prodsOf f row a.stat j sparse byp
  let key (j : Nat) : Nat := i * 128 + j
  if mIsRq f then
    let els := (List.range 128).map fun j =>
      let rv (x : Nat) := rqVal (rqCode f) x
      let void_ := (ps j).any fun p => (rv p.2.1).2 || (rv p.2.2).2
      let e := (ps j).foldl (fun e p => e.enter ((rv p.2.1).1 * (rv p.2.2).1))
        (⟨sget 0 t.words (key j), sget (0, 0, 0, 0) t.chans (key j), 0⟩ : RqEl)
      (key j, e, void_)
    let st := els.foldl (fun st x => st ||| x.2.1.st ||| (if x.2.2 then mVOID else 0)) (0 : BitVec 7)
    let t := { t with words := setSpan 0 t.words (key 0) (key 127) (els.map fun x => (x.1, x.2.1.acc)),
                      chans := setSpan (0, 0, 0, 0) t.chans (key 0) (key 127) (els.map fun x => (x.1, x.2.1.ch)) }
    { a with tiles := sset {} a.tiles tile t, status := a.status ||| st }
  else if f = .f64 then
    let u : Tile := sget {} a.tiles (tile + 1)
    let els := (List.range 128).map fun j =>
      (key j, chain64 ((sget 0 t.words (key j)).toNat + 2 ^ 32 * (sget 0 u.words (key j)).toNat) (ps j))
    let st := els.foldl (fun st x => st ||| x.2.2) (0 : BitVec 7)
    let t := { t with words := setSpan 0 t.words (key 0) (key 127) (els.map fun x => (x.1, BitVec.ofNat 32 x.2.1)) }
    let u := { u with words := setSpan 0 u.words (key 0) (key 127) (els.map fun x => (x.1, BitVec.ofNat 32 (x.2.1 / 2 ^ 32))) }
    { a with tiles := sset {} (sset {} a.tiles tile t) (tile + 1) u, status := a.status ||| st }
  else
    let els := (List.range 128).map fun j => (key j, chunksFrom f (sget 0 t.words (key j)).toNat 0 1024 (ps j))
    let st := els.foldl (fun st x => st ||| x.2.2) (0 : BitVec 7)
    let t := { t with words := setSpan 0 t.words (key 0) (key 127) (els.map fun x => (x.1, BitVec.ofNat 32 x.2.1)) }
    { a with tiles := sset {} a.tiles tile t, status := a.status ||| st }

/-- The pass of a tile closes unless it is of that fcode (R67). -/
def Arr.closeTile (a : Arr) (tile : Nat) (keep : Option MFmt) : Arr :=
  let t : Tile := sget {} a.tiles tile
  if t.pass = none ∨ t.pass = keep then a
  else
    let (t, st) := t.close
    { a with tiles := sset {} a.tiles tile t, status := a.status ||| st }

/-- The tile as an MMA of a format begins (R250, R251): the pass of another fcode closes, the tag is set, and a residue
format opens a pass. -/
def Arr.begin (a : Arr) (f : MFmt) (tile : Nat) : Arr :=
  let a := a.closeTile tile (if mIsRq f then some f else none)
  let tag (n : Nat) (g : TTag) (a : Arr) : Arr :=
    let t : Tile := sget {} a.tiles n
    { a with tiles := sset {} a.tiles n { t with tag := g, pass := if mIsRq f then some f else none } }
  match f with
  | .f64 => tag (tile + 1) .f64h (tag tile .f64 (a.closeTile (tile + 1) none))
  | .rq8 | .rq4 => tag tile .int a
  | _ => tag tile .f32 a

/-! ### Errors in the array (R255) -/

/-- An uncorrectable error of the array's places. -/
def arrBad (s : State) (f : ErrLoc → Bool) : Bool := s.softErrs.any fun e => e.2 && f e.1
/-- A command or DRAIN.byp meets an uncorrectable word of the array's places: the first one counts (R427). -/
def arrMet (s : State) (f : ErrLoc → Bool) : State :=
  countErrs s ((s.softErrs.find? fun e => e.2 && f e.1).map (·.1)).toList true
/-- Whether an MMAS reads metadata bytes of the 8-byte word at an offset past its metadata's start: the fields of R260, of whose 24 bytes
an fp64 `.n32` reads the first 12 (log entry 48). -/
def metaWord (f : MFmt) (n16 : Bool) (o : Nat) : Bool :=
  if f = .f64 ∧ !n16 then decide (o < 3072) && decide (o % 24 < 16) else decide (o < 96 * mRows f)

/-- The word of the weight buffer at an index over all cores holds metadata that an MMAS of a core reads from an offset on. -/
def metaAt (core : Nat) (f : MFmt) (n16 : Bool) (m u : Nat) : Bool :=
  decide (core * 524288 + m ≤ u * 8) && metaWord f n16 (u * 8 - (core * 524288 + m))

/-- Correctable errors of the array's places, and of the words of the weight buffer that it reads, are repaired and each is counted
(R255). -/
def arrRepair (s : State) (core : Nat) (reads : Nat → Bool) : State :=
  let hit (e : ErrLoc × Bool) : Bool := !e.2 && (match e.1 with
    | .plane c _ _ => c == core
    | .tile c _ _ => c == core
    | .bypass c _ => c == core
    | .weight u => reads u
    | _ => false)
  let ls := (s.softErrs.filter hit).map (·.1)
  if ls.isEmpty then s else countErrs { s with softErrs := s.softErrs.filter fun e => !hit e } ls false
/-- The array of a core as it is taken, with planes and tiles freshly zeroed: no error of an earlier holder's stays (R245). -/
def freshArr (s : State) (core : Nat) : State :=
  let mine (e : ErrLoc × Bool) : Bool := match e.1 with
    | .plane c _ _ => c == core
    | .tile c _ _ => c == core
    | .bypass c _ => c == core
    | _ => false
  ({ s with softErrs := s.softErrs.filter fun e => !mine e } : State).modCore core fun c => { c with arr := { taken := true } }
/-- Uncorrectable words of a tile's places are rewritten. -/
def clearTileErrs (s : State) (core tile : Nat) (f : Nat → Bool) : State :=
  let hit (e : ErrLoc × Bool) : Bool := match e.1 with
    | .tile c t u => c == core && t == tile && f u
    | _ => false
  { s with softErrs := s.softErrs.filter fun e => !hit e }

/-- The array of a core changed. -/
def modArr (s : State) (core : Nat) (f : Arr → Arr) : State := s.modCore core fun c => { c with arr := f c.arr }

/-- The usage counter of a format's MACs (R276): one for each product of a row's plane position with a column. -/
def macCounter : MFmt → Nat
  | .f64 => 1
  | .f32 => 2
  | .bf16 => 3
  | .f8e4 | .f8e5 => 4
  | .rq8 => 5
  | .rq4 => 6

/-- Rows of an MMA from its position on, until one needs a bad word (R255). -/
def mmaRows (s : State) (c : Cmd) (f : MFmt) (tile : Nat) (sparse : Option (Nat × Nat)) : State :=
  let core := c.core
  let sp := sparse.map fun (n, m) => (n, readWeight s core, m)
  let needs (i : Nat) (l : ErrLoc) : Bool := match l with
    | .weight u => sparse.elim false fun (n, m) => metaAt core f (n == 16) m u
    | .plane k p _ => k == core && p == 0
    | .tile k t u => k == core && (t == tile || (f == .f64 && t == tile + 1)) && u / 64 == i
    | .bypass k u => k == core && c.byp && u / 16 == i
    | _ => false
  let rowBad (i : Nat) : Bool := arrBad s (needs i)
  let todo := c.rows.filter fun r => decide (c.pos ≤ r.1)
  let good := todo.takeWhile fun r => !rowBad r.1
  let s := modArr s core fun a => good.foldl (fun a r => a.row f tile r.1 r.2 sp c.byp) a
  let s := s.usage c.ctx (macCounter f) (good.length * mRows f * 128)
  match todo.drop good.length with
  | [] => endCmd s { c with state := .ended, pos := 1 }
  | r :: _ => failCmd (arrMet s (needs r.1)) { c with pos := r.1 } 3 0 [r.1]
where
  /-- The core's weight buffer with its own offsets. -/
  readWeight (s : State) (core : Nat) : Memory :=
    s.weight.filterMap fun (k, b) => if k / 524288 = core then some (k % 524288, b) else none

/-! ### DRAIN (R71, R261) -/

/-- Half-bytes of a DRAIN's destination element. -/
def drainNibs (f : MFmt) : Nat := mNibs f

/-- A tile element's value as its tag gives (R250, R261). -/
def tileValue (a : Arr) (f : MFmt) (tile i j : Nat) : FV :=
  let t : Tile := sget {} a.tiles tile
  let lo := (sget 0 t.words (i * 128 + j)).toNat
  match t.tag with
  | .int => let v := (BitVec.ofNat 32 lo).toInt
            .fin (decide (v < 0)) v.natAbs 0
  | .f64 => if f = .f64 then fval spec64 (lo + 2 ^ 32 * (sget 0 (sget {} a.tiles (tile + 1) : Tile).words (i * 128 + j)).toNat)
            else fval spec32 lo
  | _ => fval spec32 lo

/-- A scaled element in the destination format, and the status bits (R71). -/
def drainElem (f : MFmt) (v : FV) (r c : Byte) : Nat × BitVec 7 :=
  let (y1, b1) := mulV v (scale8 r)
  let (y, b2) := mulV y1 (scale8 c)
  let inv := b1 || b2
  if mIsRq f then
    match (if inv then FV.nan false else y) with
    | .nan _ => (0, mMNV)
    | .inf n => ((rqClamp (rqCode f) (if n then -1000 else 1000)).1, mDSAT)
    | .fin n m e =>
      let (z, changed) := toIntegral 0 n m e
      let (b, cl) := rqClamp (rqCode f) z
      (b, (if cl then mDSAT else 0) ||| (if changed then mMNX else 0))
  else if inv then (canonNaN (mSpec f), mMNV)
  else
    let (b, fl) := cvtffR (mSpec f) true 0 y
    let inf := match y with | .inf _ => true | _ => false
    let sat := (mSpec f).is8 && (inf || (fl &&& flOF) != 0)
    (b, mFlags fl ||| (if sat then mDSAT else 0))

/-- Reserved fields of an entry (R223), and VALID (R261). -/
def entReserved (e : List Word) : Bool :=
  !eValid e || bits (wnat e 0) 30 25 != 0 || bits (wnat e 0) 11 8 != 0 || bits (wnat e 1) 31 25 != 0 || bits (wnat e 1) 15 12 != 0 ||
  bits (wnat e 3) 31 25 != 0 || bits (wnat e 7) 31 25 != 0 || bits (wnat e 9) 31 25 != 0 || (List.range 8).any fun i => wnat e (24 + i) != 0

/-- What a scale vector is: its bytes with their places, or a faulting or unreadable byte with its cause, subcode and address. -/
inductive ScaleVec where
  | ok (s : State) (bs : List Byte) (locs : List (Space × Nat))
  | fault (s : State) (cause sub addr : Nat)

/-- What the scale word of a DRAIN gives: the row and column vectors with their places, a bad entry, or a fault. -/
inductive Scales where
  | ok (s : State) (rows cols : List Byte) (locs : List (Space × Nat))
  | bad
  | fault (s : State) (cause sub addr : Nat)

/-- `n` scale bytes at a base, all 1.0 for base 0 (R71). -/
def scaleVec (s : State) (key core : Nat) (c : Context) (base n : Nat) : ScaleVec :=
  if base = 0 then .ok s (List.replicate n 0x78) []
  else match placesAt s core c 1 base n with
  | .error (cs, sub, a) => .fault s cs sub a
  | .ok locs => match uniPoison s locs, farFault s key locs with
    | some sub, _ => .fault (noteLocs s locs) 0x08 sub base
    | none, some f => .fault s f.cause f.sub f.va
    | none, none => let (bs, s) := uniRead (noteLocs s locs) key locs
                    .ok s bs locs

/-- The engine error and DETAIL of a scale read that meets a cause (R234, R255): 0x03 for an unreadable or marked line, else 0x01 with
the cause. -/
def scaleCode (cs : Nat) : Nat × Nat := if cs = 0x08 then (3, 0) else (1, cs)

/-- The scale vectors of s[I] (R261). -/
def scalesOf (s : State) (key core : Nat) (c : Context) (w : Nat) : Scales :=
  if bits w 31 17 ≠ 0 then .bad
  else if w.testBit 16 then .ok s (List.replicate 64 0x78) (List.replicate 128 0x78) []
  else
    let re := sget [] c.tensors (bits w 7 0)
    let ce := sget [] c.tensors (bits w 15 8)
    if entReserved re || entReserved ce then .bad
    else match scaleVec s key core c (eRscl re) 64 with
    | .fault s cs sub a => .fault s cs sub a
    | .ok s rows l => match scaleVec s key core c (eCscl ce) 128 with
      | .fault s cs sub a => .fault s cs sub a
      | .ok s cols m => .ok s rows cols (l ++ m)

/-- A tile whose tag forbids the DRAIN (R261). -/
def drainTagBad (a : Arr) (f : MFmt) (tile : Nat) : Bool :=
  match (sget {} a.tiles tile : Tile).tag with
  | .f64h => true
  | .f64 => f != .f64
  | _ => false

/-- The byte offset of an element of a DRAIN's destination (R261). -/
def drainOff (r : Rec) (f : MFmt) (i j : Nat) : Nat :=
  i * (if r.stride = 0 then 64 * drainNibs f else r.stride) + j * drainNibs f / 2

/-- The check of R261 and R229 at issue. -/
def drainPast (s : State) (w : Wg) (r : Rec) (f : MFmt) : Bool :=
  let top := drainOff r f 63 127 + (drainNibs f + 1) / 2
  decide (r.extent * r.es < top) || (r.kind == 1 && decide (allocOf s w < r.base + top)) ||
  (r.kind == 2 && (List.range 8192).any fun n => !gangIn s w (r.base + swizzle r.swz (drainOff r f (n / 128) (n % 128))) ((drainNibs f + 1) / 2))

/-- The next element of a DRAIN with a record, in row-major order (R254, R255, R261). -/
def drainStep (s : State) (c : Cmd) (f : MFmt) (tile : Nat) (rw : List Word) (rows cols : List Byte) : State :=
  let r := recOfWords rw
  let i := c.pos / 128
  let j := c.pos % 128
  let a := (s.core c.core).arr
  let w := (s.wg? c.wg).getD {}
  let cx := (s.ctx? c.ctx).getD {}
  let n := (drainNibs f + 1) / 2
  let both := decide (f = .f64 ∧ (sget {} a.tiles tile : Tile).tag = .f64)
  let needs (l : ErrLoc) : Bool := match l with
    | .tile k t u => k == c.core && (t == tile || (both && t == tile + 1)) && u == (i * 128 + j) / 2
    | _ => false
  if drainTagBad a f tile then failCmd s c 7 0 [0]
  else if arrBad s needs then failCmd (arrMet s needs) c 3 0 [c.pos]
  else match ePlace s c.core w cx r.kind r.swz r.base (drainOff r f i j) n 2 with
  | .error (code, det) => failCmd s c code det [c.pos]
  | .ok x =>
    let (v, st) := drainElem f (tileValue a f tile i j) (rows.getD i 0x78) (cols.getD j 0x78)
    moveElem s c
      { src := none, fill := toLE n v, n := n, dst := x, half := if f = .rq4 then some (j % 2 == 1) else none,
        conv := fun bs => (bs, 0, false, false), iv := [c.pos],
        touches := if tracked r 0 then touchOf 0 x.sp x.keys true none x.va else [],
        covers := decide (f ≠ .rq4 ∧ x.keys.headD 0 % 128 = 0 ∧ j + 128 / n ≤ 128),
        also := fun s => modArr s c.core fun a => { a with status := a.status ||| st } }

/-! ### Accepting an instruction (R252) -/

/-- Instructions that the array holds at most (R256). -/
def arrFull (s : State) (g : Group) : Bool := decide (4 ≤ (s.core g.core).arr.queue.length)
def arrPush (s : State) (core : Nat) (op : ArrOp) : State := modArr s core fun a => { a with queue := a.queue ++ [op] }

/-- The row blocks of an MMA (R248): each active visible lane with its bytes, or the poison and coursed traps. -/
def rowBlocks (s : State) (iss : Issue) (g : Group) (a n : Nat) : Except State (List (Nat × List Byte)) :=
  let regs := span a n
  let diff := coursedDiff g iss regs
  if !diff.isEmpty then .error (takeTrap s iss 0x31 { lanes := diff })
  else
    let ts := acting g iss
    match ts.filter fun t => (firstPoison t regs).isSome with
    | t :: r => .error (takeTrap s iss 0x08
        { info0 := BitVec.ofNat 32 ((firstPoison t regs).getD 0), lanes := (t :: r).map (·.lane) })
    | [] => .ok (ts.map fun t => (visible g.coursed t.lane, t.bytesOf a n (4 * n)))

/-- The row blocks that the armed bypass supplies (R249). -/
def bypRows (s : State) (iss : Issue) (g : Group) : List (Nat × List Byte) :=
  let m := (s.core g.core).arr.bypBytes
  (acting g iss).map fun t =>
    let i := visible g.coursed t.lane
    (i, readBytes m (128 * i) 128)

/-- MMA or MMAS accepted (R249, R254, R259, R260). -/
def mmaEff (kind : CmdKind) (a n : Nat) (iss : Issue) (g : Group) (s : State) : State :=
  if arrFull s g || engineFull s g then holdStruct s iss .engine
  else
    let armed := (s.core g.core).arr.armed
    match (if armed then .ok (bypRows s iss g) else rowBlocks s iss g a n) with
    | .error s => s
    | .ok rows =>
      let id := s.nextId
      let s := addCmd s iss g (fun _ => { kind := kind, rows := rows, byp := armed }) fun _ _ => 0
      let s := if armed then modArr s g.core fun a => { a with bypBy := some id } else s
      arrPush s g.core (.cmd id)

def execMma (x : MmaF) (s : State) : Out :=
  issued (.mma x) (mmaEff (.mma x.fmt x.t.toNat) x.a.toNat 32) s

def execMmas (x : MmasF) (s : State) : Out :=
  issued (.mmas x) (fun iss g s =>
    let diff := if (s.core g.core).arr.armed then [] else coursedDiff g iss (span x.a.toNat (if x.n16 then 128 else 64))
    match (if diff.isEmpty then sPoison s iss [x.b.toNat] else some (takeTrap s iss 0x31 { lanes := diff })) with
    | some s => s
    | none =>
      let m := iss.sv x.b % 2 ^ 19
      if m % 128 ≠ 0 then takeTrap s iss 0x05 { sub := 7 }
      else if Config.weightBytes < m + 96 * mRows x.fmt then takeTrap s iss 0x05 { sub := 9 }
      else mmaEff (.mmas x.fmt x.n16 x.t.toNat m) x.a.toNat (if x.n16 then 128 else 64) iss g s) s

def execLdw (x : LdwF) (s : State) : Out :=
  issued (.ldw x) (fun iss g s =>
    match sPoison s iss [x.a.toNat] with
    | some s => s
    | none =>
      let o := iss.sv x.a % 2 ^ 19
      if o % 128 ≠ 0 then takeTrap s iss 0x05 { sub := 7 }
      else if 507904 < o then takeTrap s iss 0x05 { sub := 9 }
      else if arrFull s g then holdStruct s iss .engine
      else
        let (id, s) := s.fresh
        advance (arrPush s g.core (.ldw x.fmt x.tr o id g.gid iss.lanes)) iss) s

def execWflip (s : State) : Out :=
  issued .wflip (fun iss g s => if arrFull s g then holdStruct s iss .engine else advance (arrPush s g.core .wflip) iss) s

def execAccz (t : TReg) (s : State) : Out :=
  issued (.accz t) (fun iss g s =>
    if arrFull s g then holdStruct s iss .engine else advance (arrPush s g.core (.accz t.toNat)) iss) s

def execAccrd (x : AccF) (s : State) : Out :=
  issued (.accrd x) (fun iss g s =>
    if arrFull s g then holdStruct s iss .engine
    else
      let (id, s) := s.fresh
      let s := arrPush s g.core (.accrd id g.gid iss.lanes x.v.toNat x.t.toNat x.c.toNat)
      (advance s iss).mapLanes iss.gid iss.lanes fun t => { t with wait := .array id }) s

def execAccwr (x : AccF) (s : State) : Out :=
  issued (.accwr x) (fun iss g s =>
    match rowBlocks s iss g x.v.toNat 8 with
    | .error s => s
    | .ok rows =>
      if arrFull s g then holdStruct s iss .engine
      else advance (arrPush s g.core (.accwr x.t.toNat x.c.toNat (rows.map fun r => (r.1, bytesToWords r.2 8)))) iss) s

def execMstat (d : SReg) (sel : BitVec 2) (s : State) : Out :=
  issued (.mstat d sel) (fun iss g s =>
    if arrFull s g then holdStruct s iss .engine
    else
      let (id, s) := s.fresh
      let s := (arrPush s g.core (.mstat id g.gid d.toNat sel.toNat)).owe g.gid d.toNat (.array id)
      (advance s iss).mapLanes iss.gid iss.lanes fun t => { t with wait := .array id }) s

/-- Element size that a DRAIN's record must have (R261). -/
def drainEs (f : MFmt) : Nat := (drainNibs f + 1) / 2

def execDrain (x : DrainF) (s : State) : Out :=
  uniIssued (.drain x) (fun iss g s =>
    let (w, c) := placeOf s g
    let r := recAt iss.snap x.r
    match sPoison s iss (recRegs x.r ++ [x.b.toNat]) with
    | some s => s
    | none => match recBad r [0, 1, 2] (r.es == drainEs x.fmt) with
    | some sub => takeTrap s iss 0x05 { sub := sub }
    | none =>
      if arrFull s g || engineFull s g then holdStruct s iss .engine
      else
        let rw := (recRegs x.r).map fun i => (sget {} iss.snap i).w
        let id := s.nextId
        let add (s : State) (rows cols : List Byte) : State :=
          addCmd s iss g (fun _ => { kind := .drain x.fmt x.t.toNat rw rows cols, ids := (sget {} iss.snap x.b.toNat).w }) fun _ _ => 0
        let fails (s : State) (code det : Nat) : State :=
          let s := add s [] []
          (s.cmd? id).elim s fun c => failCmd s c code det [0]
        match scalesOf s g.gid g.core c (iss.sv x.b) with
        | .bad => fails s 7 0
        | .fault s cs _ _ => fails s (scaleCode cs).1 (scaleCode cs).2
        | .ok s' rows cols locs =>
          if !locs.isEmpty && !accsDone s iss.gid iss.lanes then hold s iss .drained
          else match uniFetch s iss g locs with
          | some s => s
          | none => if drainPast s' w r x.fmt then fails s' 2 0 else arrPush (add s' rows cols) g.core (.cmd id)) s

/-- DRAIN.byp (R249, R261): it has the array in order to itself, so its traps are precise; the whole tile goes to the
bypass buffer. -/
def execDrainByp (x : DrainBypF) (s : State) : Out :=
  uniIssued (.drainByp x) (fun iss g s =>
    let (_, c) := placeOf s g
    let f : MFmt := if x.rq8 then .rq8 else .f8e4
    let t := x.t.toNat
    let s := if (s.core g.core).arr.queue.isEmpty then arrRepair s g.core fun _ => false else s
    let a := (s.core g.core).arr
    match sPoison s iss [x.b.toNat] with
    | some s => s
    | none =>
      if !a.queue.isEmpty then holdStruct s iss .engine
      else if drainTagBad a f t then takeTrap s iss 0x01
      else match scalesOf s g.gid g.core c (iss.sv x.b) with
      | .bad => takeTrap s iss 0x01
      | .fault s cs sub ad => takeTrap s iss cs { sub := sub, addr := ad }
      | .ok s' rows cols locs =>
        if !locs.isEmpty && !accsDone s iss.gid iss.lanes then hold s iss .drained
        else match uniFetch s iss g locs with
        | some s => s
        | none =>
        let s := s'
        let needs (l : ErrLoc) : Bool := match l with | .tile k u _ => k == g.core && u == t | _ => false
        if arrBad s needs then takeTrap (arrMet s needs) iss 0x08
        else
          let a := a.closeTile t none
          let els := (List.range 8192).map fun n =>
            drainElem f (tileValue a f t (n / 128) (n % 128)) (rows.getD (n / 128) 0x78) (cols.getD (n % 128) 0x78)
          let st := els.foldl (fun st e => st ||| e.2) (0 : BitVec 7)
          let bytes := (els.mapIdx fun n e => (n, BitVec.ofNat 8 e.1)).filter fun x => x.2 != (0 : Byte)
          let s := modArr s g.core fun _ => { a with byp := some f, bypBy := none, bypBytes := bytes, status := a.status ||| st }
          let s : State := { s with softErrs := s.softErrs.filter fun e => match e.1 with | .bypass k _ => k != g.core | _ => true }
          advance s iss) s

/-! ### ARRAY_EXECUTE -/

/-- The shadow plane after an LDW (R247), and VOID. -/
def ldwPlane (s : State) (core : Nat) (f : MFmt) (tr : Bool) (o : Nat) : Memory × Bool :=
  let kp := mRows f
  let src (k j : Nat) : Nat :=
    let n := if tr then j * kp + k else k * 128 + j
    if f = .rq4 then
      let b := (s.weight.get (core * 524288 + o + n / 2)).toNat
      if n % 2 = 0 then b % 16 else b / 16
    else
      let e := mNibs f / 2
      ofLE (readBytes s.weight (core * 524288 + o + n * e) e)
  let fix (x : Nat) : Nat := if mIsRq f ∧ (rqVal (rqCode f) x).2 then 0 else x
  let void_ := mIsRq f && (List.range 128).any fun j => (List.range kp).any fun k => (rqVal (rqCode f) (src k j)).2
  let col (j : Nat) : List Byte :=
    if f = .rq4 then (List.range 128).map fun b => BitVec.ofNat 8 (fix (src (2 * b) j) + 16 * fix (src (2 * b + 1) j))
    else (List.range kp).flatMap fun k => toLE (mNibs f / 2) (fix (src k j))
  let bytes := (List.range 128).flatMap fun j => (col j).mapIdx fun b v => (128 * j + b, v)
  (bytes.filter fun x => x.2 != (0 : Byte), void_)

/-- Plane words that an LDW leaves with the weight buffer's bad check bits (R255). -/
def ldwErrs (s : State) (core : Nat) (o : Nat) : List (ErrLoc × Bool) :=
  s.softErrs.filterMap fun e => match e.1, e.2 with
    | .weight u, true =>
      let lo := core * 524288 + o
      if lo ≤ u * 8 ∧ u * 8 < lo + 16384 then some (.plane core 1 ((u * 8 - lo) / 8), true) else none
    | _, _ => none

/-- The threads that wait for the array's answer go on. -/
def arrWake (s : State) (gid id : Nat) : State :=
  s.modGroup gid fun g => { g with threads := g.threads.map fun t => if t.wait = .array id then t.ready else t }

/-- The status and array words (R263). -/
def statusWord (a : Arr) : Word := a.status.setWidth 32
def arrayWord (a : Arr) : Word :=
  let open_ := (a.tiles.filter fun t => t.2.pass.isSome).foldl (fun n t => n + 2 ^ t.1) 0
  BitVec.ofNat 32 (open_ * 256 + (a.byp.elim 0 fun f => 2 * mCode f + 1))

/-- A DRAIN's scale vectors are read again (R239): the next line of them that another module holds is brought, and then its checks are
made with the entries as they stand. -/
def rescale (s : State) (c : Cmd) : State :=
  match c.kind with
  | .drain f t rw _ _ =>
    let cx := (s.ctx? c.ctx).getD {}
    match scalesOf s c.id c.core cx c.ids.toNat with
    | .bad => failCmd s c 7 0 [0]
    | .fault s cs _ _ => failCmd s c (scaleCode cs).1 (scaleCode cs).2 [0]
    | .ok s' rows cols locs =>
      match (farLines locs).find? fun l => (fetchedLine s c.id l).isNone with
      | some l => askFor s c .load ⟨l.1, l.2, l.2.headD 0⟩ []
      | none =>
        let c := { c with kind := .drain f t rw rows cols, scan := false }
        let s := dropFetched (s'.modCmd c.id fun _ => c) c.id
        if drainPast s ((s.wg? c.wg).getD {}) (recOfWords rw) f then failCmd s c 2 0 [] else s
  | _ => s

/-- Whether a DRAIN's next element can go on now: no packet of it is under way, no migration holds its page (R355), and a wait for a
detector's room looks again (R184). -/
def drainReady (s : State) (c : Cmd) (f : MFmt) (tile : Nat) (rw : List Word) (rows cols : List Byte) : Bool :=
  let r := recOfWords rw
  let frozen := !s.migs.isEmpty &&
    (match ePlace s c.core ((s.wg? c.wg).getD {}) ((s.ctx? c.ctx).getD {}) r.kind r.swz r.base (drainOff r f (c.pos / 128) (c.pos % 128))
      ((drainNibs f + 1) / 2) 2 with
     | .ok x => decide (x.sp = .dev) && keysFrozen s x.keys
     | .error _ => false)
  cmdReady s c && !cmdSent s c && (c.scan || (!frozen && (c.since.isNone || ((drainStep s c f tile rw rows cols).cmd? c.id).elim true fun d => decide (d.since ≠ c.since))))

/-- Whether the array's oldest instruction can execute. -/
def arrReady (s : State) (core : Nat) : Bool :=
  match (s.core core).arr.queue with
  | [] => false
  | .cmd id :: _ => (s.cmd? id).elim true fun c => match c.kind with
    | .drain f tile rw rows cols => decide (c.state ≠ .running) || behindFailed s c || drainReady s c f tile rw rows cols
    | _ => true
  | _ :: _ => true

/-- The words of the weight buffers that an accepted instruction of a core reads (R253). -/
def arrReads (s : State) (core : Nat) (op : ArrOp) (u : Nat) : Bool :=
  match op with
  | .ldw _ _ o _ _ _ => decide (core * 524288 + o ≤ u * 8 ∧ u * 8 < core * 524288 + o + 16384)
  | .cmd id => (s.cmd? id).elim false fun c => match c.kind with
    | .mmas f n16 _ m => metaAt core f n16 m u
    | _ => false
  | _ => false

/-- ARRAY_EXECUTE (R252): the oldest accepted instruction; a DRAIN delivers one element. -/
def execArrayExecute (core : Nat) (s : State) : Out :=
  .next (match (s.core core).arr.queue with
  | [] => s
  | op :: rest =>
    let s := arrRepair s core (arrReads s core op)
    let pop (s : State) : State := modArr s core fun a =>
      let a := { a with queue := rest }
      match op with
      | .cmd id => if a.bypBy = some id then { a with byp := none, bypBy := none } else a
      | _ => a
    match op with
    | .ldw f tr o _ _ _ =>
      let (m, v) := ldwPlane s core f tr o
      let errs := ldwErrs s core o
      let s : State := { s with softErrs := errs ++ s.softErrs.filter fun e => match e.1 with | .plane c p _ => !(c == core && p == 1) | _ => true }
      pop (modArr s core fun a => { a with shadow := m, status := if v then a.status ||| mVOID else a.status })
    | .wflip =>
      let swap (e : ErrLoc × Bool) : ErrLoc × Bool := match e.1 with
        | .plane c p u => if c = core then (.plane c (1 - p) u, e.2) else e
        | _ => e
      pop (modArr { s with softErrs := s.softErrs.map swap } core fun a => { a with stat := a.shadow, shadow := a.stat })
    | .accz t =>
      pop (modArr (clearTileErrs s core t fun _ => true) core fun a =>
        let a := a.closeTile t none
        let x : Tile := sget {} a.tiles t
        { a with tiles := sset {} a.tiles t { x with words := [] } })
    | .accrd id gid lanes v t blk =>
      let s := modArr s core fun a => a.closeTile t none
      let x : Tile := sget {} (s.core core).arr.tiles t
      let crs := (s.group? gid).elim false (·.coursed)
      let s := s.mapLanes gid lanes fun th =>
        th.vsets v ((List.range 8).map fun k => sget 0 x.words (visible crs th.lane * 128 + 8 * blk + k))
      pop (arrWake s gid id)
    | .accwr t blk rows =>
      let s := modArr s core fun a =>
        let a := a.closeTile t none
        let x : Tile := sget {} a.tiles t
        let ws := rows.foldl (fun ws r =>
          (r.2.mapIdx fun k w => (r.1 * 128 + 8 * blk + k, w)).foldl (fun ws p => sset 0 ws p.1 p.2) ws) x.words
        { a with tiles := sset {} a.tiles t { x with words := ws } }
      pop (clearTileErrs s core t fun u => rows.any fun r => decide (r.1 * 64 + 4 * blk ≤ u ∧ u < r.1 * 64 + 4 * blk + 4))
    | .mstat id gid d sel =>
      let a := (s.core core).arr
      let s := if s.samples.contains ⟨gid, d, .array id⟩ then s.setS gid d ⟨if sel = 2 then arrayWord a else statusWord a, false⟩ else s
      let s := if sel = 1 then modArr s core fun a => { a with status := 0 } else s
      pop (arrWake s gid id)
    | .cmd id =>
      match s.cmd? id with
      | none => pop s
      | some c =>
        if c.state ≠ .running ∨ behindFailed s c then pop s
        else match c.kind with
        | .mma f t => pop (mmaRows (modArr s core fun a => a.begin f t) c f t none)
        | .mmas f n16 t m => pop (mmaRows (modArr s core fun a => a.begin f t) c f t (some (if n16 then 16 else 32, m)))
        | .drain f t rw rows cols =>
          if !drainReady s c f t rw rows cols then s
          else if c.scan then
            let s := rescale s c
            if (s.cmd? id).elim true fun c => decide (c.state ≠ .running) then pop s else s
          else
            let s := modArr s core fun a =>
              let a := a.closeTile t none
              if f = .f64 ∧ (sget {} a.tiles t : Tile).tag = .f64 then a.closeTile (t + 1) none else a
            let s := drainStep s c f t rw rows cols
            if (s.cmd? id).elim true fun c => decide (c.state ≠ .running) then pop s else s
        | _ => pop s)

/-- After a resuming SEAL, the array's commands of the batch that did not run are accepted again (R234, R239, R255). -/
def requeue (s : State) (ids : List Nat) : State :=
  ids.foldl (fun s i => match s.cmd? i with
    | none => s
    | some c =>
      let mine := match c.kind with
        | .mma .. | .mmas .. | .drain .. => true
        | _ => false
      if mine && decide (c.state = .running) && !((s.core c.core).arr.queue.contains (.cmd i)) then arrPush s c.core (.cmd i)
      else s) s

/-- A failed command resumes (R239): its entries are reread and its checks repeated; a DRAIN's scale entries and scale bytes are, and
the check of its destination, before it goes on. -/
def resumeAny (s : State) (c : Cmd) : State :=
  match c.kind with
  | .drain .. =>
    let s := resumeCmd s { c with scan := true } fun _ _ => 0
    (s.cmd? c.id).elim s (rescale s)
  | .copy | .copyr .. => resumeCmd s c copyCheck
  | .copyl .. => resumeCmd s c copylCheck
  | _ => resumeCmd s c fun _ _ => 0

/-- SEAL (R239), lane by lane: lanes whose token is Pending wait. -/
def execSeal (k : KReg) (s : State) : Out :=
  issued (.seal k) (fun iss g s =>
    let n := k.toNat
    let ts := g.threads.filter fun t => iss.lanes.contains t.lane
    let wait := (ts.filter fun t => tokenPend s (t.kget n)).map (·.lane)
    let go := ts.filter fun t => !wait.contains t.lane
    let s0 := s
    let one (s : State) (t : Thread) : State :=
      match tokenFailed s0 (t.kget n) with
      | some (_, c) =>
        if resumable c.code then
          let s := s.modThread g.gid t.lane fun t => { t.kset n { ids := (t.kget n).ids ++ t.batch } with batch := [] }
          let s := t.batch.foldl (fun s i => s.modCmd i fun x => { x with prior := dedup (x.prior ++ (t.kget n).ids) }) s
          let s := if (s.cmd? c.id).elim false fun x => decide (x.state = .failed) then resumeAny s c else s
          requeue s (t.kget n).ids
        else (closeCmd (dropBatch s g.gid t.lane (t.kget n)) (t.kget n).ids fun gid l => gid == g.gid && l == t.lane).modThread g.gid t.lane (Thread.bind n)
      | none =>
        (closeCmd s (t.kget n).ids fun gid l => gid == g.gid && l == t.lane).modThread g.gid t.lane (Thread.bind n)
    let s := go.foldl one s
    let s := s.mapLanes g.gid wait fun t => { t with wait := .token n }
    s.mapLanes g.gid (go.map (·.lane)) (Thread.advance 1)) s

/-- A command of a running gang (R235) whose next element has met a full detector for 4,096 clk (R184). -/
def cmdStalled (s : State) (c : Cmd) : Bool :=
  decide (c.state = .running) && wgRuns s c.wg && c.since.elim false fun n => decide (n + Config.detectorStall ≤ s.cycle)

/-- DETECTOR_STALL_TIMEOUT (R184): the issue of a group whose stall has lasted 4,096 clk raises cause 0x21, and its
threads' engine commands so stalled stop with 0x08; with the context's mask they proceed untracked. -/
def execDetectorStallTimeout (gid : Nat) (s : State) : Out :=
  .next (match s.group? gid with
  | none => s
  | some g =>
    let stall (t : Thread) : Nat × Nat × List Nat := match t.wait with | .detector n a ls => (n, a, ls) | _ => (0, 0, [])
    let expired (t : Thread) : Bool := decide (0 < (stall t).1 ∧ (stall t).1 ≤ s.cycle)
    let masked := ((s.ctx? (s.ctxOf g)).map fun c => c.mask21).getD false
    let cs := s.cmds.filter fun c => cmdStalled s c && c.owners.any fun o => o.1 == gid
    let s := cs.foldl (fun s c => if masked then s.modCmd c.id fun c => { c with since := some untracked } else failCmd s c 8 0 (cmdIv c)) s
    match g.threads.find? expired with
    | none => s
    | some t0 =>
      let lanes := (g.threads.filter fun t => expired t && t.pc == t0.pc).map (·.lane)
      if masked then s.mapLanes gid lanes fun t => { t with wait := .detector 0 0 [] }
      else trapAt s gid lanes t0.pc 0x21 { addr := (stall t0).2.1, lanes := (stall t0).2.2 })

end Sys2Proof.Machine
end

