-- ==== Sys2Proof/Machine/Control.lean ====
section
/-! DEFINITION. Clauses and control: entry of a clause (R38-R41, R50, R240), the transfers (R147-R153, R387, R399), TRET
(R421), GETFC and SETFC (R154). -/

namespace Sys2Proof.Machine

/-! ### Fetching -/

/-- The end of a code section, where the loader's table gives it (log entry 6). -/
def codeEnd (s : State) (ctx code : Nat) : Option Nat := (s.codes.find? fun x => x.1 == ctx && x.2.1 == code).map (·.2.2)

/-- A code address lies outside the program's code section (R39). -/
def outside (s : State) (ctx code pc : Nat) : Bool := (codeEnd s ctx code).elim false fun e => decide (e ≤ pc)

/-- A word of code, or the fetch's cause, subcode and virtual address (R50, R302). R50 names no cause for a word of a line that is
marked poisoned or has an uncorrectable sector; the model reads the stored bytes (DESIGN CHOICE, log entry 45). -/
def fetchWord (s : State) (core : Nat) (c : Context) (code pc : Nat) : Except (Nat × Nat × Nat) Word :=
  match translate s core c 4 (code + pc) with
  | .here pa _ => .ok (BitVec.ofNat 32 (ofLE (s.read .dev pa 4)))
  | .peer _ _ => .ok (Config.codeWord (code + pc) s.time)
  | .fault cs sub => .error (cs, sub, code + pc)

/-- `n` consecutive words; the lowest faulting word decides (R50). -/
def fetchWords (s : State) (core : Nat) (c : Context) (code : Nat) : Nat → Nat → Except (Nat × Nat × Nat) (List Word)
  | _, 0 => .ok []
  | pc, n + 1 =>
    match fetchWord s core c code pc with
    | .error e => .error e
    | .ok w => match fetchWords s core c code (pc + 4) n with
      | .error e => .error e
      | .ok ws => .ok (w :: ws)

/-- A clause whole: the header and its N words. -/
def fetchClause (s : State) (core : Nat) (c : Context) (code pc : Nat) : Except (Nat × Nat × Nat) (List Word) :=
  match fetchWord s core c code pc with
  | .error e => .error e
  | .ok h => match fetchWords s core c code (pc + 4) (headerN h) with
    | .error e => .error e
    | .ok ws => .ok (h :: ws)

/-- The last two cases of R38 on the words after a header. -/
def bodyBad (c : Class) : List Word → Bool
  | [] => false
  | [w] => takesLiteral c w
  | w :: x :: r =>
    if takesLiteral c w then (isTransfer c w && !r.isEmpty) || bodyBad c r
    else isTransfer c w || bodyBad c (x :: r)

/-- The illegal clauses of R38. -/
def clauseBad (ws : List Word) : Bool :=
  let h := ws.headD 0
  headerN h == 0 || headerReserved h != 0 || (Class.ofCode (headerC h)).elim true fun c => bodyBad c ws.tail

/-- The code section of a group's sweep. -/
def codeOf (s : State) (g : Group) : Nat := ((s.sweepOf g).map fun x => x.code).getD 0

/-- Why a transfer's target is refused (R39, R50): cause, subcode, address, and whether it is a fetch fault. -/
def targetBad (s : State) (g : Group) (c : Context) (pc : Nat) : Option (Nat × Nat × Nat × Bool) :=
  if pc % 4 ≠ 0 ∨ outside s c.id (codeOf s g) pc then some (0x03, 0, pc, false)
  else match fetchWord s g.core c (codeOf s g) pc with
  | .error (cs, sub, va) => some (cs, sub, va, true)
  | .ok h => if headerT h then none else some (0x03, 0, pc, false)

/-- The same in a slide sweep, where a target in no fret comes first (R387). -/
def slideTargetBad (s : State) (g : Group) (c : Context) (slide : Bool) (pc : Nat) : Option (Nat × Nat × Nat × Bool) :=
  if slide && (fretAt c pc).isNone then some (0x41, 0, pc, false) else targetBad s g c pc

/-- Whether a thread's target lies in its current fret, or the sweep has none. -/
def inFret (c : Context) (slide : Bool) (t : Thread) (pc : Nat) : Bool := !slide || fretAt c pc == t.fret

/-! ### Entry of a clause -/

/-- The group may run: its gang is Running and it is resident (R136). -/
def groupRuns (s : State) (g : Group) : Bool :=
  !g.saved && ((s.wg? g.wg).bind fun w => s.gang? w.gang).elim true fun x => decide (x.state = .running)

/-- A thread waits in a QPOP of a list. -/
def waitsFor (n : Nat) (t : Thread) : Bool :=
  match t.wait with
  | .items ls _ => ls == [n]
  | _ => false

/-- A running thread of the group's context that passes a test waits in a QPOP of a list. -/
def queuedPop (s : State) (g : Group) (n : Nat) (f : Group → Thread → Bool) : Bool :=
  s.groups.any fun h => s.ctxOf h == s.ctxOf g && groupRuns s h && h.threads.any fun u => !u.exited && waitsFor n u && f h u

/-- Lanes of a group that pass a test, ascending. -/
def lanesThat (g : Group) (f : Thread → Bool) : List Nat := (g.threads.filter f).map (·.lane)

/-- Why a fall-through out of the current fret of a slide sweep is refused (R39, R387): cause, address, and RESUME where it is not the
cause's own. -/
def fallBad (s : State) (g : Group) (c : Context) (pc : Nat) : Option (Nat × Nat × Option Nat) :=
  if (fretAt c pc).isNone then some (0x41, pc, none)
  else if outside s c.id (codeOf s g) pc then some (0x03, pc, some 2)
  else none

/-- The departure of threads that fall through, or enter their handler, into another fret (R387, R395). -/
def enterElsewhere (s : State) (g : Group) (c : Context) (lanes : List Nat) (pc : Word) (needT : Bool) : State :=
  let x := (s.sweepOf g).getD {}
  let bad := if needT then (slideTargetBad s g c true pc.toNat).map fun (cs, sub, a, _) => (cs, sub, a, none)
    else (fallBad s g c pc.toNat).map fun (cs, a, r) => (cs, 0, a, r)
  match bad with
  | some (cs, sub, a, r) => trapAt s g.gid lanes (if needT then pc else pc - 4) cs { sub := sub, addr := a, resume := r }
  | none =>
    match takeDeferred s { gid := g.gid, pc := pc, lanes := lanes } g with
    | some s => s
    | none =>
      if departBlocked s g lanes then s
      else
        let id := (fretAt c pc.toNat).getD 0
        let g' := g.mapLanes lanes fun t => { t with needT := false }
        departTrap s g.gid lanes pc c.id (departAll s g' c.id x.det false (lanes.map fun l => (l, id, pc)))

/-- CLAUSE_ENTRY (R38, R39, R41, R50): the threads of a group that stand unentered at a counter fetch the clause's words,
or the rest of it where they resume, and the header is checked. -/
def execClauseEntry (gid : Nat) (pc : Word) (s : State) : Out :=
  .next (match s.group? gid with
  | none => s
  | some g =>
    let at_ (t : Thread) : Bool := !t.exited && !t.entered && decide (t.wait = .none) && t.pc == pc
    match g.threads.find? at_ with
    | none => s
    | some t0 =>
      if !groupRuns s g then s
      else
        let lanes := lanesThat g fun t => at_ t && t.resume == t0.resume && t.needT == t0.needT && (!t.resume || t.hdr == t0.hdr) && t.fret == t0.fret
        let (_, c) := placeOf s g
        let code := codeOf s g
        let slide := slideOf s g
        if !inFret c slide t0 pc.toNat then enterElsewhere s g c lanes pc t0.needT
        else if !t0.resume && outside s c.id code pc.toNat then
          if t0.needT then trapAt s gid lanes pc 0x03 { addr := pc.toNat }
          else trapAt s gid lanes (pc - 4) 0x03 { addr := pc.toNat, resume := some 2 }
        else
          let s' := tlbFill s g.core c (code + pc.toNat)
          if t0.resume then
            let k := (pc.toNat - t0.hdr.toNat) / 4
            match fetchWords s g.core c code pc.toNat (t0.clause.length - k) with
            | .error (cs, sub, va) => trapAt s' gid lanes pc cs { sub := sub, addr := va, resume := some 0 }
            | .ok ws => s'.mapLanes gid lanes fun t =>
                { t with clause := t.clause.take k ++ ws, entered := true, passed := true, resume := false, needT := false }
          else match fetchClause s g.core c code pc.toNat with
          | .error (cs, sub, va) => trapAt s' gid lanes pc cs { sub := sub, addr := va, resume := some 0, atEntry := true }
          | .ok ws =>
            if t0.needT && !headerT (ws.headD 0) then trapAt s' gid lanes pc 0x03 { addr := pc.toNat }
            else if clauseBad ws then trapAt s' gid lanes pc 0x02 { addr := pc.toNat, atEntry := true }
            else
              let free := headerKW (ws.headD 0) == 0
              let s' := if free then s'.modGroup gid fun g => g.moveCounter pc (pc + 4) else s'
              s'.mapLanes gid lanes fun t =>
                { t with hdr := pc, clause := ws, entered := true, passed := free, needT := false, pc := if free then pc + 4 else pc })

/-- The tokens that a wait mask names. -/
def kwTokens (h : Word) : List Nat := (List.range 8).filter fun n => (headerKW h).getLsbD n

/-- CLAUSE_WAIT_MET (R41, R240): threads at an entered header whose named tokens are not Pending pass the wait, or trap
with cause 0x38. -/
def execClauseWaitMet (gid : Nat) (pc : Word) (s : State) : Out :=
  .next (match s.group? gid with
  | none => s
  | some g =>
    if !groupRuns s g then s
    else
      let ks (t : Thread) := kwTokens (t.clause.headD 0)
      let done (t : Thread) : Bool :=
        !t.exited && t.entered && !t.passed && decide (t.wait = .none) && t.pc == pc && !pendTokens s t (ks t)
      let bad := lanesThat g fun t => done t && (trapTokens s t (ks t)).isSome
      match bad with
      | l :: _ =>
        let k := ((g.thread? l).bind fun t => trapTokens s t (ks t)).getD 0
        trapAt s gid bad pc 0x38 { info0 := BitVec.ofNat 32 k, lanes := bad, atEntry := true }
      | [] =>
        let ok := lanesThat g done
        let kall := ((g.threads.find? done).map ks).getD []
        ((passTokens s gid ok kall).modGroup gid fun g => g.moveCounter pc (pc + 4)).mapLanes gid ok fun t =>
          { t with passed := true, pc := t.hdr + 4 })

/-! ### Transfers -/

/-- Pairs of a coursed issue whose targets differ (R146). -/
def coursedTargets (g : Group) (iss : Issue) (tgt : Thread → Option Word) : List Nat :=
  if !g.coursed then []
  else g.threads.filterMap fun t =>
    if iss.lanes.contains t.lane && decide (t.lane % 2 = 0) &&
        (g.thread? (t.lane + 1)).elim false (fun u => decide (tgt t ≠ tgt u)) then some t.lane else none

/-- A control transfer (R147, R387): `tgt` is a lane's target, or none where it continues at the next clause header; `upd` what else
the transfer changes in a lane that goes; `always` that it departs even to its current fret (R399). The whole issue traps before any
lane moves, and departs in one step (R388). -/
def transfer (tgt : Thread → Option Word) (upd : Thread → Thread) (always : Bool) (words : Nat) (iss : Issue) (g : Group)
    (s : State) : State :=
  let (_, c) := placeOf s g
  let x := (s.sweepOf g).getD {}
  let slide := slideOf s g
  let act := g.threads.filter fun t => iss.lanes.contains t.lane
  let diff := coursedTargets g iss tgt
  if !diff.isEmpty then takeTrap s iss 0x31 { lanes := diff }
  else
    let move (t : Thread) : Thread := match tgt t with
      | some pc => (upd t).goto pc
      | none => t.advance words
    let leaves (t : Thread) : Bool := ((tgt t).isSome && always) || !inFret c slide t (move t).pc.toNat
    let bad (t : Thread) : Option (Nat × Nat × Nat × Option Nat) := match tgt t with
      | some pc => (slideTargetBad s g c slide pc.toNat).map fun (cs, sub, a, fetch) => (cs, sub, a, if fetch then some 0 else none)
      | none => if leaves t then (fallBad s g c (move t).pc.toNat).map fun (cs, a, r) => (cs, 0, a, r) else none
    let bads := act.filterMap fun t => (bad t).map fun b => (t.lane, b)
    match bads with
    | (_, cs, sub, a, r) :: _ =>
      takeTrap s iss cs { sub := sub, addr := a, lanes := (bads.filter fun b => b.2.1 == cs).map (·.1), resume := r }
    | [] =>
      let dep := act.filter leaves
      if dep.isEmpty then s.mapLanes iss.gid iss.lanes move
      else
        let gone := dep.map (·.lane)
        match takeDeferred s { iss with lanes := gone } g with
        | some _ => (takeDeferred s iss { g with threads := g.threads.map fun t => if gone.contains t.lane then t else { t with derr := none } }).getD s
        | none =>
          if departBlocked s g gone then hold s iss (.slide gone)
          else
            let ls := dep.map fun t => (t.lane, (fretAt c (move t).pc.toNat).getD 0, (move t).pc)
            match departAll s (g.mapLanes gone move) c.id x.det false ls with
            | .ok s => s.mapLanes iss.gid (iss.lanes.filter fun l => !gone.contains l) move
            | d => departTrap s iss.gid iss.lanes iss.pc c.id d

/-- The target of a relative transfer: the clause header and the signed word offset (R52). -/
def relTarget (t : Thread) (off : BitVec 14) : Word := t.hdr + off.signExtend 32 * 4

/-- Lanes whose predicate carries poison: cause 0x08 (R148). -/
def predPoison (s : State) (iss : Issue) (g : Group) (p : PReg) : Option State :=
  match lanesThat g fun t => iss.lanes.contains t.lane && t.ppoi p.toNat with
  | [] => none
  | ls => some (takeTrap s iss 0x08 { info0 := BitVec.ofNat 32 (0x100 + p.toNat), lanes := ls })

def execBr (off : BitVec 14) (s : State) : Out :=
  issued (.br off) (transfer (fun t => some (relTarget t off)) id false 1) s

def execBrp (p : PReg) (off : BitVec 14) (s : State) : Out :=
  issued (.brp p off) (fun iss g s => (predPoison s iss g p).getD
    (transfer (fun t => if t.pval p.toNat then some (relTarget t off) else none) id false 1 iss g s)) s

def execBrnp (p : PReg) (off : BitVec 14) (s : State) : Out :=
  issued (.brnp p off) (fun iss g s => (predPoison s iss g p).getD
    (transfer (fun t => if t.pval p.toNat then none else some (relTarget t off)) id false 1 iss g s)) s

def execJmp (target : Word) (s : State) : Out :=
  issued (.jmp target) (transfer (fun _ => some target) id false 2) s

def execJmpInd (a : VReg) (s : State) : Out :=
  issued (.jmpInd a) (fun iss g s =>
    match lanesThat g fun t => iss.lanes.contains t.lane && (t.vget a.toNat).poi with
    | [] => transfer (fun t => some (t.vget a.toNat).w) id false 1 iss g s
    | ls => takeTrap s iss 0x08 { info0 := BitVec.ofNat 32 a.toNat, lanes := ls }) s

/-- CALL (R150): the return point is the address after the CALL; a full stack loses its oldest entry. -/
def execCall (off : BitVec 14) (s : State) : Out :=
  issued (.call off) (fun iss =>
    transfer (fun t => some (relTarget t off)) (fun t => { t with stack := ((iss.pc + 4) :: t.stack).take 16 }) false 1 iss) s

/-- RET (R150): an empty stack in any active lane is cause 0x03 with target 0xFFFF_FFFF. -/
def execRet (s : State) : Out :=
  issued .ret (fun iss g s =>
    match lanesThat g fun t => iss.lanes.contains t.lane && t.stack.isEmpty with
    | [] => transfer (fun t => some (t.stack.headD 0)) (fun t => { t with stack := t.stack.tail }) false 1 iss g s
    | ls => takeTrap s iss 0x03 { addr := 0xFFFFFFFF, lanes := ls }) s

/-- SLIDE (R399). -/
def execSlide (fret : BitVec 8) (s : State) : Out :=
  issued (.slide fret) (fun iss g s =>
    let f := s.fret (s.ctxOf g) fret.toNat
    if !slideOf s g || decide (f.state ≠ .inUse) then takeTrap s iss 0x41 { addr := f.start }
    else transfer (fun _ => some (BitVec.ofNat 32 f.start)) id true 1 iss g s) s

/-- EXIT (R151), whose flush point the common checks made; it completes when every access of the region before it has been performed
(R180). -/
def execExit (s : State) : Out :=
  issued .exit (fun iss _ s => if accsDone s iss.gid iss.lanes then exitLanes s iss.gid iss.lanes else hold s iss .drained) s

/-- YIELD (R152): its group counts as chosen, and the counter that issued it is held for the quadrant's next 4 clocks; a counter
already at the next word becomes one with it (R141). -/
def execYield (s : State) : Out :=
  issued .yield (fun iss _ s =>
    let s := advance s iss
    s.modGroup iss.gid fun g =>
      { g with last := some s.cycle }.setCounter { g.counter (iss.pc + 4) with hold := s.cycle + 4 }) s

def execNop (s : State) : Out := issued .nop (fun iss _ s => advance s iss) s

/-- TRAP and BKPT (R153): the other active lanes form the mask. -/
def execTrap (code : BitVec 8) (s : State) : Out :=
  issued (.trap code) (fun iss _ s => takeTrap s iss 0x50 { info0 := code.setWidth 32, lanes := iss.lanes }) s
def execBkpt (code : BitVec 8) (s : State) : Out :=
  issued (.bkpt code) (fun iss _ s => takeTrap s iss 0x51 { info0 := code.setWidth 32, lanes := iss.lanes }) s

def execGetfc (d : VReg) (s : State) : Out :=
  laneEff (.getfc d) (fun _ t => t.vset d.toNat ⟨t.fctl, false⟩) s

/-- The bits that SETFC writes (R60, R154). -/
def fctlMask : Word := 0x003F7F03

def execSetfc (b : Src) (s : State) : Out :=
  laneEff (.setfc b) (fun sf t =>
    let x := bval sf t b
    if x.poi then t else { t with fctl := (t.fctl &&& ~~~fctlMask) ||| (x.w &&& fctlMask) }) s

/-! ### TRET -/

/-- Why TRET fails for a lane before it leaves the Handler state (R38, R39, R387, R420), with the address it returns to and the code
address of the failure: at the TRET its fret is missing; at the last word left the next clause lies past the code section; at its
header the next clause fails R38. -/
def tretBad (s : State) (g : Group) (c : Context) (at_ : Word) (t : Thread) : Option (Nat × Nat × Word) :=
  let u := t.tret
  if t.frame.resume = 2 then none
  else if slideOf s g && (fretAt c u.pc.toNat).isNone then some (0x41, u.pc.toNat, at_)
  else if u.resume then none
  else if outside s c.id (codeOf s g) u.pc.toNat then some (0x03, u.pc.toNat, u.pc - 4)
  else match fetchClause s g.core c (codeOf s g) u.pc.toNat with
  | .ok ws => if clauseBad ws then some (0x02, u.pc.toNat, u.pc) else none
  | .error _ => none

/-- TRET (R421, R395): each lane by its own frame. -/
def execTret (s : State) : Out :=
  issued .tret (fun iss g s =>
    let act := g.threads.filter fun t => iss.lanes.contains t.lane
    let (_, c) := placeOf s g
    let x := (s.sweepOf g).getD {}
    match (act.filter fun t => !t.handler).map (·.lane) with
    | l :: ls => takeTrap s iss 0x01 { lanes := l :: ls }
    | [] =>
      match act.filterMap fun t => (tretBad s g c iss.pc t).map fun b => (t.lane, b) with
      | (l, cs, a, pc) :: _ => trapAt s iss.gid iss.lanes pc cs { addr := a, lanes := [l] }
      | [] =>
        let ends := (act.filter fun t => t.frame.resume == 2).map (·.lane)
        let back := act.filter fun t => t.frame.resume != 2
        let slide := slideOf s g
        let dep := back.filter fun t => !inFret c slide t t.tret.pc.toNat
        let gone := dep.map (·.lane)
        let stay := (back.map (·.lane)).filter fun l => !gone.contains l
        if dep.any fun t => t.derr.isSome then
          (takeDeferred s iss { g with threads := g.threads.map fun t => if gone.contains t.lane then t else { t with derr := none } }).getD s
        else if departBlocked s g gone && !gone.isEmpty then hold s iss (.slide gone)
        else
          let target (t : Thread) : Nat := (fretAt c t.tret.pc.toNat).getD 0
          let ls := dep.map fun t => (t.lane, target t, t.tret.pc)
          match if ls.isEmpty then Dep.ok s else departAll s (g.mapLanes gone Thread.tret) c.id x.det false ls with
          | .ok s =>
            let s := s.mapLanes iss.gid stay Thread.tret
            if ends.isEmpty then s else exitLanes s iss.gid ends
          | d => departTrap s iss.gid iss.lanes iss.pc c.id d) s

/-- A place is a register of a group. -/
def ownReg (gid : Nat) : ErrLoc → Bool
  | .sreg g _ => g == gid
  | .vreg g _ _ => g == gid
  | _ => false

/-- A correctable error is written back and counted, if the register still has one. -/
def correct (s : State) (gid : Nat) (l : ErrLoc) : State :=
  if (s.group? gid).elim false fun g => regErr g l == some false then { tallyErrs (s.clearReg l) [l] false with cntReg := satInc s.cntReg } else s

/-- REGISTER_REPLAY (R85): the corrected words of a cancelled issue are written back, once, and counted; the instruction then
issues again. -/
def execRegisterReplay (gid : Nat) (s : State) : Out :=
  let mine (x : ErrLoc × Word × Bool) : Bool := ownReg gid x.1 && !x.2.2
  let s' := ((s.corrected.filter mine).map (·.1)).foldl (fun s l => correct s gid l) s
  .next { s' with corrected := s'.corrected.map fun x => if mine x then (x.1, x.2.1, true) else x }

end Sys2Proof.Machine
end

