-- ==== Sys2Proof/Machine/Sync.lean ====
section
/-! DEFINITION. Barriers, flags and exchange groups (R203-R221), and DFLUSH (R413). -/

namespace Sys2Proof.Machine

/-! ### Named barriers (R207-R209) and the gang barrier (R211) -/

/-- Which of Arrive and Await an instruction does for each lane. -/
inductive BarOp where
  | both
  | arrive
  | await
  deriving DecidableEq, Repr

/-- Masks after Arrive (R207) for lanes' bit numbers: an old completion is discarded, and a lane arrives once. -/
structure BarMasks (w : Nat) where
  arrived : BitVec w
  doneM : BitVec w
  wait : BitVec w
  count : Nat

/-- Arrive and then Await for the lanes' bits (R207): the masks, and the bits that wait. -/
def barStep {w : Nat} (op : BarOp) (crs noWait : Bool) (bs : List Nat) (b : BarMasks w) : BarMasks w × List Nat :=
  let arr := match op with
    | .both => bs.filter fun t => !b.doneM.getLsbD t
    | .arrive => bs
    | .await => []
  let fresh := arr.filter fun t => !b.arrived.getLsbD t
  let b := { b with doneM := b.doneM &&& ~~~(maskOf w arr), arrived := b.arrived ||| maskOf w arr, count := b.count + visCount crs fresh }
  match op with
  | .arrive => (b, [])
  | _ =>
    let consumed := if noWait then [] else bs.filter fun t => b.doneM.getLsbD t
    let waits := if noWait then [] else bs.filter fun t => !b.doneM.getLsbD t && b.arrived.getLsbD t
    ({ b with doneM := b.doneM &&& ~~~(maskOf w consumed), wait := b.wait ||| maskOf w waits }, waits)

/-- A barrier instruction on a named entry (R207): a release first awaits the thread's accesses. `lim` is BART's end
clock and predicate; `noWait` its poisoned limit. -/
def barEff (op : BarOp) (n : BReg) (lim : Option (Nat × Nat)) (noWait : Bool) (iss : Issue) (g : Group) (s : State) : State :=
  if decide (op ≠ .await) && !drained s iss.gid iss.lanes then hold s iss .drained
  else
    let (w, _) := placeOf s g
    let b : Barrier := sget {} w.barriers n.toNat
    let bs := iss.lanes.map fun l => g.grpId * 64 + l
    let (m, waits) := barStep op g.coursed noWait bs ⟨b.arrived, b.doneM, b.wait, b.count⟩
    let b' : Barrier := { b with arrived := m.arrived, doneM := m.doneM, wait := m.wait, count := m.count }
    let s := s.modWg w.id fun w => { w with barriers := sset {} w.barriers n.toNat b' }
    let s := advance s iss
    let waiting (l : Nat) : Bool := waits.contains (g.grpId * 64 + l)
    let s := newRegion s iss.gid (iss.lanes.filter fun l => !waiting l)
    let s := s.mapLanes iss.gid iss.lanes fun t =>
      if waiting t.lane then { t with wait := .bar n.toNat (lim.map (·.1)) ((lim.map (·.2)).getD 0) }
      else match lim with
        | some (_, p) => if noWait then (t.pset p false true).pset (p + 1) false true else (t.pset p true false).pset (p + 1) false false
        | none => t
    barTest s w.id n.toNat

def execBar (b : BReg) (s : State) : Out := issued (.bar b) (barEff .both b none false) s
def execBara (b : BReg) (s : State) : Out := issued (.bara b) (barEff .arrive b none false) s
def execBarw (b : BReg) (s : State) : Out := issued (.barw b) (barEff .await b none false) s

/-- A limit in clk from an s-register; 0xFFFF_FFFF is no limit (R209, R212): a clock that never comes. -/
def limitEnd (s : State) (n : Word) : Nat := if n = 0xFFFFFFFF then 2 ^ 80 else s.cycle + n.toNat

def execBart (b : BReg) (a : SReg) (p : PReg) (s : State) : Out :=
  issued (.bart b a p) (fun iss g s =>
    let lim := sget {} iss.snap a.toNat
    barEff .both b (some (limitEnd s lim.w, p.toNat)) lim.poi iss g s) s

/-- BART_TIMEOUT (R209): at the end of clock c + n the lane ends with both predicates 0 and keeps its arrival. -/
def execBartTimeout (gid lane : Nat) (s : State) : Out :=
  .next (match s.group? gid, s.thread? gid lane with
  | some g, some t =>
    match t.wait with
    | .bar n (some u) p =>
      if s.cycle < u || !groupRuns s g then s
      else
        let ls := withShadow g [lane / (if g.coursed then 2 else 1) * (if g.coursed then 2 else 1)]
        let bits_ := maskOf 1024 (ls.map fun l => g.grpId * 64 + l)
        let leave (b : Barrier) : Barrier := { b with wait := b.wait &&& ~~~bits_ }
        let s := s.modWg g.wg fun w => { w with barriers := sset {} w.barriers n (leave (sget {} w.barriers n)) }
        (newRegion s gid ls).mapLanes gid ls fun t => ((t.pset p false false).pset (p + 1) false false).ready
    | _ => s
  | _, _ => s)

def execGbar (s : State) : Out :=
  issued .gbar (fun iss g s =>
    if !drained s iss.gid iss.lanes then hold s iss .drained
    else
      let (w, _) := placeOf s g
      let b := ((s.gang? w.gang).map (·.bar)).getD {}
      let base := 1024 * w.ident.gangWg + g.grpId * 64
      let (m, waits) := barStep .both g.coursed false (iss.lanes.map fun l => base + l) ⟨b.arrived, b.doneM, b.wait, b.count⟩
      let b' : Barrier4 := { b with arrived := m.arrived, doneM := m.doneM, wait := m.wait, count := m.count }
      let s := s.modGang w.gang fun x => { x with bar := b' }
      let s := advance (dropCache s g.core) iss
      let s := newRegion s iss.gid (iss.lanes.filter fun l => !waits.contains (base + l))
      let s := s.mapLanes iss.gid iss.lanes fun t => if waits.contains (base + t.lane) then { t with wait := .gbar } else t
      gbarTest s w.gang) s

/-! ### WAITM (R212) and CSIG (R213) -/

/-- Lanes of one WAITM issue. -/
def watchersOf (g : Group) (issue : Nat) : List (Thread × Watch) :=
  g.threads.filterMap fun t => match t.wait with
    | .waitm w => if w.issue = issue then some (t, w) else none
    | _ => none

/-- A WAITM issue whose lanes have all ended writes its predicates and goes on (R212): lanes that return 1 acquire. -/
def watchEnd (s : State) (gid issue : Nat) : State :=
  match s.group? gid with
  | none => s
  | some g =>
    let ws := watchersOf g issue
    if ws.any fun x => x.2.res.isNone then s
    else
      let won := ws.filter fun x => x.2.res == some (true, false)
      let s := if won.any fun x => decide (1 ≤ Watch.sc x.2) then dropCache s g.core else s
      let s := newRegion s gid (won.map fun x => x.1.lane)
      s.mapLanes gid (ws.map fun x => x.1.lane) fun t => match t.wait with
        | .waitm w => (t.pset w.p (w.res.getD (false, false)).1 (w.res.getD (false, false)).2).advance 2
        | _ => t

/-- A lane's watch changed. -/
def setWatch (s : State) (g : Group) (lane : Nat) (f : Watch → Watch) : State :=
  s.mapLanes g.gid (withShadow g [lane]) fun t => match t.wait with
    | .waitm w => { t with wait := .waitm (f w) }
    | _ => t

/-- The end of one lane of a WAITM: its one tracked access (R182, R184, R212), then its result. -/
def watchResult (s : State) (g : Group) (lane : Nat) (w : Watch) (hit : Bool) : State :=
  let (wg, c) := placeOf s g
  let th := (g.thread? lane).getD {}
  let done (s : State) : State := watchEnd (setWatch s g lane fun w => { w with res := some (hit, false) }) g.gid w.issue
  let lanes := (watchersOf g w.issue).map fun x => x.1.lane
  if !w.track then done s
  else
    let ts := localTouches (touchOf lane w.sp w.keys false (if hit then some w.sc else none) w.va)
    match ts.findSome? fun t => (conflict s g.gid wg.gang wg.ctx wg.id th.opened [lane] t).map fun x => (t, x) with
    | some (t, d, other, word, wrote) =>
      trapAt s g.gid lanes th.pc 0x20
        { addr := t.va / 128 * 128 + 4 * word, info0 := (if wrote then 1 else 0), info1 := BitVec.ofNat 32 d.ticket,
          info2 := BitVec.ofNat 32 (other * 256 + d.grpId), lanes := [lane] }
    | none =>
      if ts.any (detFull s g th none) then
        match w.stall with
        | none => setWatch s g lane fun w => { w with stall := some (s.cycle + Config.detectorStall), seen := hit }
        | some u =>
          if s.cycle < u then s
          else if c.mask21 then done s
          else trapAt s g.gid lanes th.pc 0x21 { addr := w.va, lanes := [lane] }
      else done (ts.foldl (fun s t => detAdd s g wg th none t) s)

/-- The comparison that a lane's watch makes now, if it makes one: every value of an element held here (R212), once the thread's own
earlier accesses to the line have been performed. -/
def watchNow (s : State) (g : Group) (t : Thread) (w : Watch) : Bool :=
  !watchBehind s g t.lane w &&
  (w.seen || (!w.remote && (w.first || decide (s.cycle ≤ w.until_)) && watchCond w (watchValue s g t.lane w)))

/-- A lane of a WAITM whose element cannot be read: its predicate is poisoned (R212, R350, R376). -/
def failWatch (s : State) (g : Group) (lane : Nat) (w : Watch) (cause sub : Nat) : State :=
  let s := onLane s g lane fun t => t.recordPo cause sub w.va t.pc
  watchEnd (setWatch s g lane fun w => { w with res := some (false, true) }) g.gid w.issue

/-- A lane's read of an element that another module or the host holds leaves (R212, R350, R375), ordered after the thread's earlier
accesses to the line. -/
def sendPoll (s : State) (g : Group) (lane : Nat) (w : Watch) : State :=
  let (key, s) := s.fresh
  let (s, _) := sendFetch s key g.gid lane g.core (s.ctxOf g) .load w.sp w.keys w.va [] (stampOf s g)
  setWatch s g lane fun w => { w with poll := key }

/-- Whether a lane's read is under way. -/
def pollOpen (s : State) (w : Watch) : Bool := w.poll != 0 && s.accs.any fun a => a.fetch == some w.poll

/-- A lane's read has brought a value (R212): it ends with 1, or the next read leaves while the limit allows one. -/
def pollValue (s : State) (g : Group) (lane : Nat) (w : Watch) (v : Nat) : State :=
  if (w.first || decide (s.cycle ≤ w.until_)) && watchCond w v then watchResult s g lane w true
  else
    let s := setWatch s g lane fun w => { w with first := false }
    if s.cycle ≤ w.until_ then sendPoll s g lane w else s

/-- One step of a lane that watches another module's or the host's element: its read leaves, or what it brought is looked at. -/
def pollStep (s : State) (g : Group) (t : Thread) (w : Watch) : State :=
  match (if w.poll = 0 then none else s.fetched.find? fun f => f.key == w.poll) with
  | some f =>
    let s := dropFetched s f.key
    if f.cause ≠ 0 then failWatch s g t.lane w f.cause f.sub
    else
      let v := if f.bytes.length = w.wid then ofLE (underStaged s g t.lane w.va f.bytes) else 0
      pollValue s g t.lane w v
  | none => if pollOpen s w || (!w.first && decide (w.until_ < s.cycle)) then s else sendPoll s g t.lane w

/-- The form of WAITM (R212). -/
def waitForm (r : Rec) (x : WaitmF) : Form :=
  { kinds := [0, 1, 2, 6, 7], wid := r.es,
    ok8 := (r.es == 4 || r.es == 8) && scopeOk r.kind (r.sc x.sc) && (r.es != 8 || x.cmp.toNat % 2 == 0),
    sc := r.sc x.sc, need := 1, cmp := [x.i.toNat], poison := [] }

/-- WAITM's comparand, at the element's width (R212). -/
def waitCmp (r : Rec) (x : WaitmF) (sf : RegFile) : Val64 :=
  if r.es = 8 then spair sf x.cmp.toNat
  else
    let v := sget {} sf x.cmp.toNat
    ⟨v.w.setWidth 64, v.poi⟩

def execWaitm (x : WaitmF) (s : State) : Out :=
  issued (.waitm x) (fun iss g s =>
    let (_, c) := placeOf s g
    let r := recAt iss.snap x.r
    let wid := r.es
    let sc := r.sc x.sc
    let cmp := waitCmp r x iss.snap
    let lim := sget {} iss.snap x.lim.toNat
    match accessSteps s iss g r x.r x.i (waitForm r x) with
    | .stop _ s => s
    | .go ls oob poi =>
      let stg := if detOf s g ∧ (r.kind = 0 ∨ r.kind = 7) then
          ls.filterMap fun (t, i, _) => stagedConflict s g [t.lane] (r.addr i) wid sc r.track true (r.kind == 7)
        else []
      match stagedStop s iss stg with
      | some s => s
      | none =>
        let s := fillFor s g.core c r ls
        let (id, s) := s.fresh
        let base : Watch := { issue := id, sp := .dev, keys := [], va := 0, wid := wid, cond := x.c, cmp := cmp.w, p := x.p.toNat,
                              sc := sc, track := tracked r sc, until_ := limitEnd s lim.w, remote := false }
        let put (s : State) (l : Nat) (u : Watch) : State := onLane s g l fun t => { t with wait := .waitm u }
        let ended (v p : Bool) : Watch := { base with track := false, res := some (v, p) }
        let bad := cmp.poi || lim.poi
        let s := poi.foldl (fun s l => put s l (ended false true)) s
        let s := oob.foldl (fun s l =>
          put (if bad then s else onLane s g l Thread.setOob) l (ended false bad)) s
        let s := ls.foldl (fun s (t, i, l) =>
          if bad then put s t.lane (ended false true)
          else match l with
          | .fault cs sub => put (onLane s g t.lane fun t => t.recordPo cs sub (r.addr i) iss.pc) t.lane (ended false true)
          | .at_ sp k leaf =>
            if r.kind = 7 ∧ ¬ leaf.testBit 5 then
              put (onLane s g t.lane fun t => t.recordPo 0x0B 0 (r.addr i) iss.pc) t.lane (ended false true)
            else
              let far := match sp with | .remote _ => true | .host => true | _ => false
              let w := { base with sp := sp, keys := k, va := r.addr i, remote := far }
              let s := put s t.lane w
              if far then sendPoll s g t.lane w else s) s
        watchEnd s g.gid id) s

/-- WAITM_WAKE (R212): a lane whose comparison is true, or was true of a value written since, ends with 1; one that reads poison ends
with it (R169, R422); one whose element is not here reads it again. -/
def execWaitmWake (gid lane : Nat) (s : State) : Out :=
  .next (match s.group? gid, s.thread? gid lane with
  | some g, some t =>
    match t.wait with
    | .waitm w =>
      if w.res.isSome || !groupRuns s g then s
      else if w.remote then pollStep s g t w
      else if watchBehind s g lane w then s
      else match (if w.seen then none else dataPoison s w.sp w.keys) with
      | some sub => failWatch (noteRead s w.sp w.keys) g lane w 0x08 sub
      | none =>
        if watchNow s g t w then watchResult s g lane w true
        else setWatch s g lane fun w => { w with first := false }
    | _ => s
  | _, _ => s)

/-- The number of the access that carries a lane's read. -/
def pollAcc (s : State) (w : Watch) : Option Acc := s.accs.find? fun a => w.poll != 0 && a.fetch == some w.poll

/-- WAITM_REMOTE_POLL (R212, R350, R375): the read of an element that another module or the host holds is answered with a value. -/
def execWaitmRemotePoll (gid lane : Nat) (value : BitVec 64) (s : State) : Out :=
  .next (match s.group? gid, s.thread? gid lane with
  | some g, some t =>
    match t.wait with
    | .waitm w =>
      match pollAcc s w with
      | none => s
      | some a =>
        if w.res.isSome || !w.remote || !groupRuns s g || a.sent.isNone && decide (a.space ≠ .host) || behind s a then s
        else pollValue ((dropSent s (tagOf a.id)).dropAcc a.id) g lane w value.toNat
    | _ => s
  | _, _ => s)

/-- WAITM_TIMEOUT (R212): after clock c + n, with its first comparison made, a lane ends with 0. -/
def execWaitmTimeout (gid lane : Nat) (s : State) : Out :=
  .next (match s.group? gid, s.thread? gid lane with
  | some g, some t =>
    match t.wait with
    | .waitm w =>
      if w.res.isSome || !groupRuns s g || s.cycle < w.until_ || w.seen || (w.remote && w.first) || watchBehind s g lane w || watchNow s g t w then s
      else watchResult s g lane w false
    | _ => s
  | _, _ => s)

/-- CSIG (R213): a non-returning AADD with `.rel` ordering of a 32-bit amount. -/
def csigSpec (x : CsigF) (iss : Issue) : AtSpec :=
  { op := .add, opc := 0xA9, kinds := [0, 6], scOk := fun k sc => scopeOk k sc && decide (2 ≤ sc), ok8 := true,
    acq := false, rel := true, ret := false, m := 0, sc := x.sc, d := x.d.toNat, r := x.r, i := x.i, regs := [x.d.toNat],
    data := fun t => toLE (recAt iss.snap x.r).es (t.vget x.d.toNat).w.toNat }

def execCsig (x : CsigF) (s : State) : Out := issued (.csig x) (fun iss g s => atomicEff (csigSpec x iss) iss g s) s

/-! ### Exchange groups (R214-R218) -/

/-- Fields of the group word (R214). -/
def gwGid (w : Word) : Nat := bits w.toNat 7 0
def gwQuorum (w : Word) : Nat := bits w.toNat 15 8
def gwWin (w : Word) : Nat := bits w.toNat 21 16

def xgroup (s : State) (ctx grp : Nat) : XGroup := ((s.ctx? ctx).map fun c => sget {} c.xgroups grp).getD {}
def setXgroup (s : State) (ctx grp : Nat) (x : XGroup) : State :=
  s.modCtx ctx fun c => { c with xgroups := sset {} c.xgroups grp x }

/-- Workgroups of an exchange group, joining ones included. -/
def xmembers (s : State) (ctx grp : Nat) : List Wg :=
  s.wgs.filter fun w => w.ctx == ctx && w.xm.elim false fun x => x.grp == grp

/-- XJOIN (R216). -/
def execXjoin (d a : SReg) (s : State) : Out :=
  issued (.xjoin d a) (fun iss g s =>
    let gw := sget {} iss.snap a.toNat
    let (w, _) := placeOf s g
    let grp := gwGid gw.w
    let x := xgroup s w.ctx grp
    let ms := xmembers s w.ctx grp
    if gw.poi then takeTrap s iss 0x08 { info0 := BitVec.ofNat 32 (0x80 + a.toNat) }
    else
      let fail := advance (s.setS iss.gid d.toNat ⟨0xFFFFFFFF, false⟩) iss
      let finish (s : State) (y : XMember) : State :=
        let s := advance (s.setS iss.gid d.toNat ⟨BitVec.ofNat 32 y.member, false⟩) iss
        if y.pending then s.mapLanes iss.gid iss.lanes fun t => { t with wait := .xchange grp } else s
      let win := gwWin gw.w
      if bits gw.w.toNat 31 22 ≠ 0 ∨ win < 1 ∨ 32 < win ∨ gwQuorum gw.w < 1 ∨ 64 < gwQuorum gw.w then fail
      else match w.xm with
      | some y => if y.grp = grp ∧ x.win = win then finish s y else fail
      | none =>
        let absent := ms.isEmpty && x.gone.isEmpty
        if (!absent && x.win != win) || decide (64 ≤ ms.length + x.gone.length) || decide (w.size < 4096 * win) then fail
        else
          let used := x.gone ++ ms.map fun v => (v.xm.getD {}).member
          let num := ((List.range 64).find? fun i => !used.contains i).getD 0
          let y : XMember := { grp := grp, member := num, pending := !absent && x.open_, base := w.size - 4096 * win }
          let s := if absent then setXgroup s w.ctx grp { quorum := gwQuorum gw.w, win := win } else s
          finish (s.modWg w.id fun w => { w with xm := some y }) y) s

/-- The threads of workgroups that wait at an exchange group become Ready, and their regions follow (R217). -/
def xwake (s : State) (grp : Nat) (ws : List Nat) : State :=
  let waits (g : Group) (t : Thread) : Bool := ws.contains g.wg && decide (t.wait = .xchange grp)
  let s := regionStep s fun gid l => (s.group? gid).elim false fun g => (g.thread? l).elim false (waits g)
  let s : State := { s with groups := s.groups.map fun g =>
    let w (t : Thread) := waits g t
    { g with threads := g.threads.map fun t => if w t then t.ready else t } }
  (dedup ((s.wgs.filter fun w => ws.contains w.id).map (·.core))).foldl dropCache s

/-- A member arrives with the lanes of an issue, and marks them to leave (R217, R218). -/
def xarrive (leave : Bool) (grp : Nat) (iss : Issue) (g : Group) (s : State) : State :=
  if !drained s iss.gid iss.lanes then hold s iss .drained
  else
    let m := maskOf 1024 (iss.lanes.map fun l => g.grpId * 64 + l)
    let s := s.modWg g.wg fun w => { w with xm := w.xm.map fun y =>
      { y with arrived := y.arrived ||| m, left := if leave then y.left ||| m else y.left } }
    (advance s iss).mapLanes iss.gid iss.lanes fun t => { t with wait := .xchange grp }

def execXbar (s : State) : Out :=
  issued .xbar (fun iss g s =>
    match (s.wg? g.wg).bind (·.xm) with
    | none => takeTrap s iss 0x0E
    | some y => xarrive false y.grp iss g s) s

/-- XLEAVE (R218). The spec names no effect of poison in s[A]; the model reads the stored group word (DESIGN CHOICE, log entry 55). -/
def execXleave (a : SReg) (s : State) : Out :=
  issued (.xleave a) (fun iss g s =>
    match (s.wg? g.wg).bind (·.xm) with
    | none => takeTrap s iss 0x0E
    | some y => if gwGid (sget {} iss.snap a.toNat).w = y.grp then xarrive true y.grp iss g s else takeTrap s iss 0x0E) s

/-- Live threads of a workgroup that are in a mask. -/
def allIn (s : State) (w : Wg) (m : BitVec 1024) : Bool := (liveBits s w.id).all fun b => m.getLsbD b

/-- Members that are Gone at once: of a Forming group all whose threads left or exited (R215). -/
def xgone (s : State) (ctx grp : Nat) : List Wg :=
  if (xgroup s ctx grp).open_ then []
  else (xmembers s ctx grp).filter fun w => decide (w.state ≠ .saved) && allIn s w (w.xm.getD {}).left

/-- The boundary's condition (R215, R217): enough members in Forming, all arrived, all XSTs of the members performed. A Joining
workgroup is not counted, but for one whose threads have all exited, which R215 makes Arrived. An Open group that has no counted member,
because all were killed, has a boundary at once, since none has still to arrive; the spec does not say what becomes of a workgroup that
is Joining there (DESIGN CHOICE, log entry 65). -/
def xclosed (s : State) (ctx grp : Nat) : Bool :=
  let x := xgroup s ctx grp
  let all := xmembers s ctx grp
  let ms := all.filter fun w => !(w.xm.getD {}).pending || (liveBits s w.id).isEmpty
  (if x.open_ then !all.isEmpty || !x.gone.isEmpty else !ms.isEmpty && decide (x.quorum ≤ ms.length)) && (ms.all fun w => allIn s w (w.xm.getD {}).arrived) &&
  !(s.accs.any fun a => decide (a.op = .store ∧ a.space = .scratch) && (s.group? a.gid).elim false fun g => ms.any fun w => w.id == g.wg)

/-- XCHANGE_BOUNDARY (R215, R217, R218): members of a Forming group that leave are Gone at once; and the boundary, in one
step for every member. Both banks of a member that leaves keep the bytes that stand in them, those of the phase's XSTs among them,
though R218 calls the XSTs of that phase discarded with the window (DESIGN CHOICE, log entry 66). XBAR or XLEAVE of another group of a
workgroup that is still Joining marks its threads as arrived, the marks are cleared at the boundary, and the threads become Ready there
(DESIGN CHOICE, log entry 67). -/
def execXchangeBoundary (ctx grp : Nat) (s : State) : Out :=
  .next (
    let gone := (xgone s ctx grp).map (·.id)
    let ids := (xmembers s ctx grp).map (·.id)
    let tidy (s : State) : State := if (xmembers s ctx grp).isEmpty && (xgroup s ctx grp).gone.isEmpty then setXgroup s ctx grp {} else s
    if !gone.isEmpty then
      let s := gone.foldl (fun s i => s.modWg i fun w => { w with xm := none }) s
      tidy (xwake s grp gone)
    else if !xclosed s ctx grp then s
    else
      let x := xgroup s ctx grp
      let next (w : Wg) : Wg := match w.xm with
        | none => w
        | some y =>
          if (liveBits s w.id).isEmpty then { w with xm := none }
          else if y.pending then { w with xm := some { y with pending := false, arrived := 0, left := 0, bank := 0 } }
          else if y.left ≠ 0 then { w with xm := none }
          else { w with xm := some { y with bank := 1 - y.bank, arrived := 0, left := 0 } }
      let s' := ids.foldl (fun s i => s.modWg i next) s
      let s' := setXgroup s' ctx grp { x with open_ := true, phase := x.phase + 1, gone := [] }
      tidy (xwake s' grp ids))

/-! ### DFLUSH (R413) -/

def execDflush (s : State) : Out :=
  issued .dflush (fun iss g s =>
    let s := advance s iss
    if detOf s g then s.mapLanes iss.gid iss.lanes fun t => { t with epoch := t.epoch + 1, wait := .epoch } else s) s

/-- The thread's last passed epoch has closed (R405): every live thread of its workgroup has passed it; in a slide sweep
each thread closes its own. -/
def epochOver (s : State) (g : Group) (t : Thread) : Bool :=
  slideOf s g || s.groups.all fun h => h.wg != g.wg || h.threads.all fun u => u.exited || decide (t.epoch ≤ u.epoch)

/-- EPOCH_CLOSE (R405, R413): threads that wait in DFLUSH for an epoch of the workgroup that has closed go on. -/
def execEpochClose (wg : Nat) (s : State) : Out :=
  .next { s with
    groups := s.groups.map fun g =>
      let over_ (t : Thread) : Bool := decide (t.wait = .epoch) && epochOver s g t
      if g.wg = wg then { g with threads := g.threads.map fun t => if over_ t then t.ready else t } else g
    wgs := s.wgs.map fun w =>
      let live := s.groups.flatMap fun g => if g.wg = wg then (g.threads.filter fun t => !t.exited).map (·.epoch) else []
      if w.id = wg then { w with epoch := (minOf live).getD w.epoch } else w }

end Sys2Proof.Machine
end

