-- ==== Sys2Proof/Machine/Place.lean ====
section
/-! DEFINITION. Sweeps and gangs: resources of a core (R132, R133, R245, R305), the parameter block (R301, R302, R384),
starting a sweep, the dispatcher's choice (R289-R291, R304-R307, R438), placing a gang, its end and its kill (R135-R137,
R299), its save and restore (R272-R275). -/

namespace Sys2Proof.Machine

/-! ### Resources -/

/-- Scratchpad bytes that an allocation takes (R132). -/
def scratchTake (n : Nat) : Nat := (n + 2047) / 2048 * 2048

/-- Workgroups that hold resources of a core, and its groups that hold a slot (R134, R137). -/
def heldWgs (s : State) (k : Nat) : List Wg := s.wgs.filter fun w => w.core == k && decide (w.state ≠ .saved)
def heldGroups (s : State) (k : Nat) : List Group :=
  s.groups.filter fun g => g.core == k && !g.saved && g.threads.any fun t => !t.exited

/-- Slots taken on a core: quadrant, slot, registers. -/
def takenSlots (s : State) (k : Nat) : List (Nat × Nat × Nat) :=
  (heldGroups s k).map fun g => (g.quadrant, g.slot, 64 * g.regs)

/-- The quadrant and slot that the next group takes beside others (R133). Which free slot of the quadrant it is, the spec does not say,
and R139's ties go by it: the lowest (DESIGN CHOICE, log entry 68). -/
def nextSlot (used : List (Nat × Nat × Nat)) (regs : Nat) : Option (Nat × Nat) :=
  let free (q : Nat) : Nat := Config.regsPerQuadrant - ((used.filter fun u => u.1 == q).map fun u => u.2.2).sum
  let slot (q : Nat) : Option Nat := (List.range Config.slotsPerQuadrant).find? fun i => !(used.any fun u => u.1 == q && u.2.1 == i)
  let open_ := (List.range Config.numQuadrants).filter fun q => (slot q).isSome
  let best := open_.foldl (fun b q => match b with
    | none => some q
    | some p => if free p < free q then some q else some p) none
  best.bind fun q => if 64 * regs ≤ free q then (slot q).map fun i => (q, i) else none

/-- Quadrants and slots for `n` groups in ascending GRPID, or none when one finds no place (R133). -/
def assignSlots (used : List (Nat × Nat × Nat)) (regs : Nat) : Nat → Option (List (Nat × Nat))
  | 0 => some []
  | n + 1 => match nextSlot used regs with
    | none => none
    | some (q, i) => (assignSlots ((q, i, 64 * regs) :: used) regs n).map fun r => (q, i) :: r

/-- A context's slide sweep is Saved whole (R397). -/
def slideSaved (s : State) (ctx : Nat) : Bool :=
  s.sweeps.any fun x => x.ctx == ctx && x.slide && x.slideOn && (s.gangs.any fun g => g.sweep == x.id) &&
    s.gangs.all fun g => g.sweep != x.id || decide (g.state = .saved)

/-- Cores that slide sweeps reserve, but for a Saved one's (R385, R397). -/
def reservedCores (s : State) : List Nat :=
  s.ctxs.flatMap fun c => if slideSaved s c.id then [] else slideCores s c.id

/-- A core is there and in the context's mask (R12, R302, R425). -/
def coreInMask (s : State) (c : Context) (k : Nat) : Bool :=
  decide (k < Config.numCores) && s.qmask.getLsbD (k / 4) && !(s.core k).disabled && c.cmask.getLsbD k
/-- A core that may take work of a context: one of its mask, and of its world (R304, R432). Secure work goes to secure cores only, and a
non-secure context reaches neither a secure core nor a core of a secure quartet (DEDUCED, log entry 56). -/
def coreUsable (s : State) (c : Context) (k : Nat) : Bool :=
  coreInMask s c k && (if c.world then s.secureCores.contains k else !s.secureCores.contains k && !s.secureQuartets.contains (k / 4))

/-- A deterministic workgroup's share of the core's stage buffer is free (R404): resident ones hold their shares, and
entries of others their places. -/
def stageFree (s : State) (x : Sweep) (k : Nat) : Bool :=
  if !x.det || x.slide then true
  else
    let here := (heldWgs s k).filter fun w => (s.sweep? w.sweep).elim false fun y => y.det
    let shares := (here.map fun w => ((s.sweep? w.sweep).map stageShare).getD 0).sum
    let left := ((s.core k).stage.filter fun e => !(here.any fun w => w.id == e.wg)).length
    decide (shares + left + stageShare x ≤ Config.stageEntries)

/-- A core admits a workgroup of a sweep (R132, R133, R245): the slots of its groups. -/
def admits (s : State) (c : Context) (x : Sweep) (k : Nat) : Option (List (Nat × Nat)) :=
  let ws := heldWgs s k
  if coreUsable s c k && !((reservedCores s).contains k) && decide (ws.length < Config.workgroupSlots) &&
      decide ((ws.map (·.size)).sum + scratchTake x.scratch ≤ Config.scratchBytes) &&
      decide ((ws.map (·.tiles)).sum + x.tiles ≤ Config.tilesPerCore) && (x.tiles == 0 || !(s.core k).arr.taken) && stageFree s x k then
    assignSlots (takenSlots s k) x.regs x.gpw
  else none

/-- Members of a gang on the cores of a quartet (R304 step 2). -/
def membersOn (s : State) (c : Context) (x : Sweep) : Nat → List Nat → Option (List (Nat × List (Nat × Nat)))
  | 0, _ => some []
  | n + 1, ks =>
    let cand := ks.filterMap fun k => (admits s c x k).map fun sl => (k, sl, Config.slotsPerQuadrant * 4 - (heldGroups s k).length)
    match cand with
    | [] => none
    | a :: r =>
      let b := r.foldl (fun b y => if b.2.2 < y.2.2 then y else b) a
      (membersOn s c x n (ks.filter (· != b.1))).map fun m => (b.1, b.2.1) :: m

/-- The cores of a quartet that a context may use. -/
def quartetCores (s : State) (c : Context) (q : Nat) : List Nat := ((List.range 4).map (4 * q + ·)).filter (coreUsable s c)

/-- The first quartet where every member finds a core (R304), among the quartets of a list. -/
def placeOn (s : State) (c : Context) (x : Sweep) (qs : List Nat) : Option (Nat × List (Nat × List (Nat × Nat))) :=
  qs.findSome? fun q => (membersOn s c x x.wpg (quartetCores s c q)).map fun m => (q, m)

/-- The quartets where a run of a gang may be placed (R304, R411, R412): a shadow or third run goes to a quartet where no
other run of the gang is, when the mask offers one. -/
def quartetsFor (s : State) (c : Context) (x : Sweep) (index run : Nat) : List Nat :=
  let all := List.range Config.numQuartets
  if run = 0 then all
  else
    let used := (s.gangs.filter fun g => g.sweep == x.id && g.index == index).map (·.quartet)
    let other := all.filter fun q => !used.contains q && decide (x.wpg ≤ (quartetCores s c q).length)
    if other.isEmpty then all else other

/-! ### The parameter block -/

/-- One workgroup fits an empty core (R302, R132, R245). -/
def fitsEmpty (x : Sweep) : Bool :=
  (assignSlots [] x.regs x.gpw).isSome && decide (scratchTake x.scratch ≤ Config.scratchBytes) && decide (x.tiles ≤ Config.tilesPerCore)

/-- What R384 asks of a slide sweep's block. -/
def slideBlockBad (s : State) (c : Context) (x : Sweep) : Bool :=
  let fs := (c.frets.map (·.2)).filter fun f => decide (f.state ≠ .unmapped)
  let meets (a b : Fret) : Bool := decide (a.start < b.start + 4 * b.len ∧ b.start < a.start + 4 * a.len)
  let cores := fs.flatMap (·.cores)
  let clash := (List.range fs.length).any fun i => (List.range i).any fun j =>
    match fs[i]?, fs[j]? with
    | some a, some b => meets a b
    | _, _ => false
  x.wpg != 1 || fs.isEmpty || clash || !(fs.any fun f => f.covers x.entry.toNat) || !(fs.any fun f => f.covers 0) ||
  (cores.any fun k => !coreInMask s c k) || decide ((dedup cores).length ≠ cores.length) ||
  (fs.any fun f => decide (f.rcap ≤ f.nrep * f.qcap)) || !(nextSlot [] x.regs).isSome ||
  decide (Config.scratchBytes < scratchTake x.scratch) || decide (Config.tilesPerCore < x.tiles)

/-- The invalid blocks of R302 and R384. -/
def blockBad (s : State) (c : Context) (x : Sweep) : Bool :=
  let w := x.w
  let half (m : Nat) : Nat := bits (w (10 + m / 2)) (16 * (m % 2) + 15) (16 * (m % 2))
  bits (w 0) 31 21 != 0 || bits (w 1) 31 19 != 0 || bits (w 6) 31 25 != 0 || bits (w 8) 31 7 != 0 ||
  ((List.range 16).any fun m => decide (1024 < half m)) || half 0 != 0 || ((List.range 14).any fun i => w (18 + i) != 0) ||
  x.regs % 8 != 0 || x.regs == 0 || decide (128 < x.regs) || x.w 2 == 0 || x.w 3 == 0 || x.w 4 == 0 ||
  decide (262144 < x.scratch) || decide (8 < x.tiles) || decide (64 < x.nsreg) || x.code % 4 != 0 || x.entry.toNat % 4 != 0 ||
  decide (2 ^ 32 < x.total) || x.total % x.wpg != 0 || (x.slide && x.coursed) ||
  (if x.slide then slideBlockBad s c x
   else !fitsEmpty x || !((List.range Config.numQuartets).any fun q => decide (x.wpg ≤ (((List.range 4).map (4 * q + ·)).filter (coreInMask s c)).length)))

/-- 384 bytes of a parameter block as words, or none where a part cannot be read (R302). -/
def readBlock (s : State) (c : Context) (a n : Nat) : Option (List Word × State) :=
  match placesAt s noCore c 1 a n with
  | .error _ => none
  | .ok locs =>
    if (uniPoison s locs).isSome then none
    else
      let (bs, s) := runRead s 0 locs
      some (bytesToWords bs (n / 4), s)

/-- What a failed read of a block leaves: a fresh uncorrectable sector among its bytes marks its line (R422). -/
def blockNote (s : State) (c : Context) (a n : Nat) : State :=
  match placesAt s noCore c 1 a n with
  | .ok locs => noteLocs s locs
  | .error _ => s

/-- The sweep of a block, or none for an invalid one. -/
def readSweep (s : State) (c : Context) (a : Nat) : Option (Sweep × State) :=
  if a % 128 ≠ 0 then none
  else (readBlock s c a 384).bind fun (ws, s) =>
    let x : Sweep := { ctx := c.id, params := ws }
    if blockBad s c x then none else some ({ x with gangs := if x.slide then 1 else x.total / x.wpg }, s)

/-- A slide sweep of the context is under way (R382). -/
def slideRunning (s : State) (ctx : Nat) : Bool := s.sweeps.any fun x => x.ctx == ctx && x.slide

/-- A valid sweep becomes a candidate of the dispatcher. -/
def addSweep (s : State) (x : Sweep) : State :=
  let (id, s) := s.fresh
  { s with sweeps := s.sweeps ++ [{ x with id := id, readySince := s.cycle }] }

/-! ### Fair share (R290) -/

/-- A context holds work: gangs of it are there, or an entry is Ready. -/
def holdsWork (s : State) (ctx : Nat) : Bool :=
  (s.gangs.any fun g => g.ctx == ctx) || s.sweeps.any fun x => x.ctx == ctx

/-- The served count of a context that becomes Active or gains work (R290). -/
def fairBump (s : State) (ctx : Nat) : State :=
  match s.ctx? ctx with
  | none => s
  | some c =>
    let others := s.ctxs.filter fun o => o.id != ctx && decide (o.state = .active) && o.cls == c.cls && holdsWork s o.id
    match minOf (others.map fun o => o.served * c.weight / max 1 o.weight) with
    | none => s
    | some m => s.modCtx ctx fun c => { c with served := max c.served m }

/-- Virtual times compared exactly (R290): -1, 0 or 1 as 0, 1, 2. -/
def vtLt (a b : Context) : Bool := decide (a.served * b.weight < b.served * a.weight)

/-! ### The save of a context (R267, R268) -/

/-- The CTXINFO word without the state code. -/
def ctxWord (c : Context) : Nat :=
  c.weight + c.cls * 2 ^ 8 + bitAt c.world 10 + bitAt c.priv 11 + bitAt c.mask21 12
/-- 32 flags as a word. -/
def flagWord (f : Nat → Bool) : Nat := ((List.range 32).map fun i => bitAt (f i) i).sum

/-- The header of a saved image (R267). -/
def headerOf (c : Context) : List Word :=
  let two (a : Nat) : List Nat := [a % 2 ^ 32, a / 2 ^ 32]
  (([2 ^ 28 + c.id, 0, ctxWord c] ++ two c.ptroot ++ two c.rsmask.toNat ++ two c.mbring ++
    ((List.range 8).map fun i => flagWord fun b => c.cmask.getLsbD (32 * i + b)) ++ two c.entry ++ two c.param ++ [c.saveSize]).map
      (BitVec.ofNat 32)) ++ List.replicate 42 0

/-- The bytes of a header and its tensor table. -/
def areaImage (c : Context) : List Byte :=
  wordsToBytes (headerOf c) ++ (List.range 256).flatMap fun n =>
    let e : List Word := sget [] c.tensors n
    wordsToBytes ((List.range 32).map fun i => e.getD i 0)

/-- A context whose every gang is Saved becomes Saved (R268): the header and tensor table have been written, and CSAVE's
threads go on. -/
def saveDone (s : State) (ctx : Nat) : State :=
  match s.ctx? ctx with
  | none => s
  | some c =>
    if c.state = .saving ∧ (s.gangs.all fun g => g.ctx != ctx || decide (g.state = .saved)) then
      let img := areaImage c
      let s := match s.ctx? c.saver with
        | some v => match placesAt s noCore v 2 c.saveAt img.length with
          | .ok locs => deviceWrite s 0 noCore v.id c.saveAt locs img
          | .error _ => s
        | none => s
      let s := s.modCtx ctx fun c => { c with state := .saved }
      let ready (t : Thread) : Thread := if t.wait = .ctxop ctx then t.ready else t
      { s with groups := s.groups.map fun g => { g with threads := g.threads.map ready } }
    else s

/-! ### Ends of gangs -/

/-- An exchange group without members is Absent (R215). -/
def tidyX (s : State) (ctx grp : Nat) : State :=
  if (xmembers s ctx grp).isEmpty && (xgroup s ctx grp).gone.isEmpty then setXgroup s ctx grp {} else s

/-- A workgroup that is Done and a member of an Open exchange group keeps its number there until the boundary (R215). -/
def leaveX (s : State) (w : Wg) : State :=
  match w.xm with
  | some y => let x := xgroup s w.ctx y.grp; if x.open_ then setXgroup s w.ctx y.grp { x with gone := x.gone ++ [y.member] } else s
  | none => s

/-- The host ports to which threads of some groups have posted writes are noted for their queue (R287, R380). -/
def notePosted (s : State) (gids : List Nat) (queue : Option Nat) : State :=
  let ps := (s.posted.filter fun p => gids.contains p.1).map (·.2.2)
  { s with posted := s.posted.filter (fun p => !gids.contains p.1),
           postedQ := match queue with
             | some q => s.postedQ ++ (dedup ps).map fun p => (q, p)
             | none => s.postedQ }

/-- A gang's members give back all that they hold (R137), and their records end; a killed member is Gone from its exchange
group at once (R215). A context whose last unsaved gang it was is Saved (R268). -/
def freeGang (s : State) (gang : Nat) : State :=
  let ws := gangWgs s gang
  let ids := ws.map (·.id)
  let cores := (ws.filter fun w => decide (w.state ≠ .saved ∧ w.tiles ≠ 0)).map (·.core)
  let s := cores.foldl (fun s k => s.modCore k fun c => { c with arr := {} }) s
  let gone (g : Group) : Bool := ids.contains g.wg
  let s := notePosted s ((s.groups.filter gone).map (·.gid)) ((s.gang? gang).bind fun g => (s.sweep? g.sweep).bind (·.queue))
  let s' : State := { s with
    groups := s.groups.filter fun g => !gone g
    wgs := s.wgs.filter fun w => !ids.contains w.id
    gangs := s.gangs.filter fun g => g.id != gang
    cmds := s.cmds.filter fun c => !ids.contains c.wg || decide (c.state = .running)
    issues := s.issues.filter fun i => !(s.groups.any fun g => g.gid == i.gid && gone g)
    cores := s.cores.map fun (k, c) => (k, { c with stage := c.stage.filter fun e => !ids.contains e.wg }) }
  let s' := ws.foldl (fun s w => match w.xm with
    | some y => tidyX s w.ctx y.grp
    | none => s) s'
  (s.gang? gang).elim s' fun g => saveDone s' g.ctx

/-- One more gang of a sweep has freed its resources on some cores in this clock (R307). -/
def noteFreed (s : State) (cores : List Nat) (x : Sweep) : Sweep :=
  { x with freed := match x.freed with
      | some (t, n, ks) => if t = s.cycle then some (t, n + 1, ks ++ cores) else some (s.cycle, 1, cores)
      | none => some (s.cycle, 1, cores) }

/-- A gang that is Retired (R136): its members keep their places in Open exchange groups (R215); the sweep counts it, and remembers when
its resources became free (R307). -/
def retireGang (s : State) (gang : Nat) : State :=
  match s.gang? gang with
  | none => s
  | some g =>
    let cores := (gangWgs s gang).map (·.core)
    let s := freeGang ((gangWgs s gang).foldl leaveX s) gang
    s.modSweep g.sweep fun x => noteFreed s cores (if g.run = 0 then { x with retired := x.retired + 1 } else x)

/-- The threads of some groups become Exited by a kill, with their detector intervals (R135, R183). -/
def killThreads (s : State) (gids : List Nat) : State :=
  let s := regionStep s fun g _ => gids.contains g
  let now := s.time
  let fin (d : Det) : Det := if gids.contains d.gid && d.closed.isNone then { d with closed := some now } else d
  { s with
    groups := s.groups.map fun g => if gids.contains g.gid then { g with threads := g.threads.map fun t =>
      { t with exited := true, wait := .none, derr := none, prod := [], handler := false, frame := {} } } else g
    sliceDet := s.sliceDet.map fin
    cores := s.cores.map fun (k, c) => (k, { c with det := c.det.map fin }) }

/-- A gang is killed (R135, R136, R234): its threads are Exited, its commands end with error 0x05, it is Retired. -/
def killGang (s : State) (gang : Nat) : State :=
  let ids := (gangWgs s gang).map (·.id)
  let s := killThreads s ((s.groups.filter fun g => ids.contains g.wg).map (·.gid))
  let s := (s.cmds.filter fun c => ids.contains c.wg && decide (c.state = .running)).foldl (fun s c => failCmd s c 5 0 []) s
  freeGang s gang

/-- Threads of a slide sweep that travel, are queued or stand in a ring end with it (R397, R135), and its frets are
Mapped again (R382). -/
def endSlide (s : State) (x : Sweep) : State :=
  if !x.slide || !x.slideOn then s
  else
    let cs := slideCores s x.ctx
    let s := cs.foldl (fun s k => s.modCore k fun c => { c with arrivals := [] }) s
    let s : State := { s with travel := s.travel.filter fun p => !cs.contains p.1 }
    s.modCtx x.ctx fun c => { c with frets := c.frets.map fun (i, f) =>
      (i, if f.state = .inUse then { f with state := .mapped, ring := [] } else f) }

/-- Every gang of a sweep is killed and the sweep is over (R299). -/
def killSweep (s : State) (sweep : Nat) : State :=
  let gs := s.gangs.filter fun g => g.sweep == sweep
  let s := gs.foldl (fun s g => killGang s g.id) s
  let s := match s.sweep? sweep with
    | some x => endSlide s x
    | none => s
  { s with sweeps := s.sweeps.filter fun x => x.id != sweep }

/-! ### Candidates of the dispatcher -/

/-- What a sweep has for the dispatcher: a saved gang, a run of a gang of that index, or its slide start. -/
inductive Next where
  | saved (gang : Nat)
  | run (index run : Nat)
  | slide
  deriving DecidableEq, Repr

/-- A sweep's next candidate (R306, R411): its saved gangs in ascending number, then wanted shadow and third runs, then
its lowest unplaced gang. -/
def nextOf (s : State) (x : Sweep) : Option Next :=
  let sv := s.gangs.filter fun g => g.sweep == x.id && decide (g.state = .saved)
  let key (g : Gang) : Nat := g.index * 4 + g.run
  match sv with
  | g :: r => some (.saved (r.foldl (fun b g => if key g < key b then g else b) g).id)
  | [] =>
    if x.slide then (if x.slideOn then none else some .slide)
    else match x.wants with
      | (i, r) :: _ => some (.run i r)
      | [] => if x.placed < x.gangs then some (.run x.placed 0) else none

/-- A candidate is of a Running entry (R288, R289 step 1), or of a resident sweep that has begun. -/
def begun (s : State) (x : Sweep) : Bool :=
  match x.queue with
  | some q => (s.queue? q).elim false fun q => q.state == 4
  | none => decide (0 < x.placed) || x.slideOn || s.gangs.any fun g => g.sweep == x.id

/-- The clock in which a sweep's entry became Ready (R289 step 4). -/
def readyAt (s : State) (x : Sweep) : Nat := ((x.queue.bind s.queue?).map (·.readySince)).getD x.readySince
/-- The queue number of a sweep; a resident gang comes before every queue (R438). -/
def queueRank (x : Sweep) : Nat := (x.queue.map (· + 1)).getD 0

/-- The cores of a context's frets that a slide sweep takes. -/
def fretCores (s : State) (ctx : Nat) : List Nat :=
  ((s.ctx? ctx).map fun c => c.frets.flatMap fun (_, f) => if f.state = .unmapped then [] else f.cores).getD []

/-- An FXFERW status of a gang is outstanding (R272): its restore waits for it. -/
def statusOpen (s : State) (gang : Nat) : Bool :=
  s.groups.any fun g => ((s.wg? g.wg).elim false fun w => w.gang == gang) && g.threads.any fun t => match t.wait with
    | .xfer _ => true
    | _ => false

/-- The gangs that are pre-empted with one: a slide sweep goes whole (R397). -/
def gangsWith (s : State) (gang : Nat) : List Nat :=
  match (s.gang? gang).bind fun g => s.sweep? g.sweep with
  | some x => if x.slide then (s.gangs.filter fun g => g.sweep == x.id).map (·.id) else [gang]
  | none => [gang]

/-- The cores of a saved gang's members or of a new run, where it fits (R132, R133, R275, R304). A saved gang asks for slots and
registers of all its groups, the Exited ones too, which hold none afterwards; the spec does not say whether those need room (DESIGN
CHOICE, log entry 69). -/
def fitOf (s : State) (x : Sweep) (n : Next) : Option (Nat × List (Nat × List (Nat × Nat))) :=
  (s.ctx? x.ctx).bind fun c => match n with
    | .saved g => if (gangsWith s g).any (statusOpen s) then none else if x.slide then
        let ws := s.wgs.filter fun w => w.sweep == x.id
        let free := ws.all fun w => coreUsable s c w.core && (heldWgs s w.core).isEmpty && !((reservedCores s).contains w.core)
        if free then some (0, (gangWgs s g).map fun w => (w.core, [])) else none
      else placeOn s c x (quartetsFor s c x ((s.gang? g).map (·.index) |>.getD 0) 0)
    | .run i r => placeOn s c x (quartetsFor s c x i r)
    | .slide =>
      let ks := fretCores s x.ctx
      if ks.all fun k => coreUsable s c k && (heldWgs s k).isEmpty && !((reservedCores s).contains k) then some (0, []) else none

/-- The next run of a sweep would take cores that its own gangs have freed in this clock: it goes first (R307). -/
def frees (s : State) (x : Sweep) : Bool :=
  match x.freed with
  | some (t, n, ks) => decide (t = s.cycle ∧ 0 < n) && (match nextOf s x with
    | some (.run i r) => (fitOf s x (.run i r)).elim false fun m => m.2.any fun k => ks.contains k.1
    | _ => false)
  | none => false

/-- The dispatcher's order (R289), with the preference of R307 for the sweep whose gang has just freed its resources. -/
def before (s : State) (first : List Nat) (a b : Sweep) : Bool :=
  let ca := (s.ctx? a.ctx).getD {}
  let cb := (s.ctx? b.ctx).getD {}
  let fa := first.contains a.id
  let fb := first.contains b.id
  let ra := if begun s a then 0 else 1
  let rb := if begun s b then 0 else 1
  if ca.cls ≠ cb.cls then decide (ca.cls < cb.cls)
  else if fa ≠ fb then fa
  else if ca.id ≠ cb.id ∧ vtLt ca cb then true
  else if ca.id ≠ cb.id ∧ vtLt cb ca then false
  else if ca.id = cb.id ∧ ra ≠ rb then decide (ra < rb)
  else if readyAt s a ≠ readyAt s b then decide (readyAt s a < readyAt s b)
  else if queueRank a ≠ queueRank b then decide (queueRank a < queueRank b)
  else decide (a.id ≤ b.id)

/-- The candidates in the dispatcher's order. -/
def candidates (s : State) : List (Sweep × Next) :=
  let xs := s.sweeps.filter fun x => (s.ctx? x.ctx).elim false fun c => decide (c.state = .active)
  (sortBy (before s ((xs.filter (frees s)).map (·.id))) xs).filterMap fun x => (nextOf s x).map fun n => (x, n)

/-- The first candidate that fits (R289): while a slide sweep ranks first and waits, nothing is placed on its cores
(R385). -/
def chosen (s : State) : Option (Sweep × Next × Nat × List (Nat × List (Nat × Nat))) :=
  let cs := candidates s
  let blocked : List Nat := match cs with
    | (x, .slide) :: _ => if (fitOf s x .slide).isNone then fretCores s x.ctx else []
    | _ => []
  let first := cs.head?.map (·.1.id)
  let view (x : Sweep) : State :=
    if blocked.isEmpty || first = some x.id then s
    else s.modCtx x.ctx fun c => { c with cmask := c.cmask &&& ~~~(maskOf 256 blocked) }
  cs.findSome? fun (x, n) => (fitOf (view x) x n).map fun (q, m) => (x, n, q, m)

/-! ### Placing a gang -/

/-- The place of a new allocation on a core: its lowest free workgroup slot (log entry 15). -/
def freeBase (s : State) (k : Nat) : Nat :=
  ((List.range Config.workgroupSlots).find? fun i => !((heldWgs s k).any fun w => w.base == i * Config.scratchBytes)).getD 0 *
    Config.scratchBytes

/-- The s-registers that a group begins with (R302). -/
def sImage (x : Sweep) : RegFile :=
  (List.range x.nsreg).foldl (fun f n => sset {} f n ⟨x.params.getD (32 + n) 0, false⟩) []

/-- A new thread (R75, R80). -/
def newThread (x : Sweep) (id : Ident) (lane stn : Nat) : Thread :=
  { lane := lane, pc := x.entry, stn := stn, ident := { id with laneId := visible x.coursed lane } }

/-- A member workgroup with its groups on a core (R131, R203, R245, R302, R303). -/
def addWg (s : State) (x : Sweep) (gang index member core : Nat) (slots : List (Nat × Nat)) : State :=
  let (id, s) := s.fresh
  let t := index * x.wpg + member
  let ident : Ident := { wgX := t % x.w 2, wgY := t / x.w 2 % x.w 3, wgZ := t / (x.w 2 * x.w 3), gangId := index, gangWg := member, ticket := t }
  let bars := (List.range 16).foldl (fun b m => sset {} b m { expect := x.expect m }) []
  let w : Wg := { id := id, gang := gang, sweep := x.id, ctx := x.ctx, core := core, ident := ident, base := freeBase s core,
                  size := scratchTake x.scratch, tiles := x.tiles, groups := x.gpw, barriers := bars }
  let now := s.time
  let s := (slots.mapIdx fun i qs => (i, qs)).foldl (fun s (i, q, sl) =>
    let (gid, s) := s.fresh
    let th (l : Nat) : Thread := { newThread x { ident with grpId := i } l (t * 64 * x.gpw + i * 64 + l) with opened := now }
    let g : Group := { gid := gid, wg := id, core := core, quadrant := q, slot := sl, grpId := i, regs := x.regs, coursed := x.coursed,
                       s := sImage x, threads := (List.range 64).map th }
    ({ s with groups := s.groups ++ [g] } : State)) { s with wgs := s.wgs ++ [w], time := now + 1 }
  let s := if x.tiles = 0 then s else freshArr s core
  (List.range 16).foldl (fun s n => if x.expect n = 0 then s else barTest s id n) s

/-- Whether the unison check selects a gang (R411). -/
def selected (x : Sweep) (index : Nat) : Bool :=
  x.det && !x.slide && (Nat.xor index (x.w 9) * 0x9E3779B1 % 2 ^ 32) / 2 ^ 22 == 0

/-- A run of a gang is placed whole (R133, R304, R411). -/
def placeGang (s : State) (x : Sweep) (index run quartet : Nat) (ms : List (Nat × List (Nat × Nat))) : State :=
  let (id, s) := s.fresh
  let primary := if run = 0 then none else (s.gangs.find? fun g => g.sweep == x.id && g.index == index && g.run == 0).map (·.id)
  let g : Gang := { id := id, sweep := x.id, ctx := x.ctx, index := index, quartet := quartet, run := run, primary := primary }
  let s : State := { s with gangs := s.gangs ++ [g] }
  let s := (ms.mapIdx fun m ks => (m, ks)).foldl (fun s (m, k, sl) => addWg s x id index m k sl) s
  let s := s.modSweep x.id fun y =>
    let y := { y with freed := y.freed.map fun (t, n, ks) => (t, n - 1, ks) }
    if run = 0 then { y with placed := y.placed + 1, placedTickets := (y.placed + 1) * y.wpg,
                             wants := if selected x index then y.wants ++ [(index, 1)] else y.wants }
    else { y with wants := y.wants.filter fun p => p != (index, run) }
  let s := if run = 0 then s else s.usage x.ctx 10 1
  match x.queue with
  | some q => s.modQueue q fun q => if q.state = 3 then { q with state := 4 } else q
  | none => s

/-! ### Pre-emption, save and restore (R272-R275) -/

/-- The queued threads of a pre-empted slide sweep are appended to their frets' rings, with the replica that each was queued
at; those on their way are among them (R391, R397). -/
def queuesToRings (s : State) (x : Sweep) : State :=
  let cs := slideCores s x.ctx
  let all := cs.flatMap fun k => ((s.core k).arrivals ++ (s.travel.filter fun p => p.1 == k).map (·.2)).map fun t => (k, t)
  let s := cs.foldl (fun s k => s.modCore k fun c => { c with arrivals := [] }) s
  let s : State := { s with travel := s.travel.filter fun p => !cs.contains p.1 }
  let c := (s.ctx? x.ctx).getD {}
  all.foldl (fun s (k, t) =>
    let id := t.fret.getD 0
    let r := ((s.fret x.ctx id).cores.findIdx? (· == k)).getD 0
    let rec_ (f : Fret) : RingRec := { n := f.tail, r := r, acked := true, thread := t }
    putRingHeader ((putRecord s noCore c x.ctx id).modFret x.ctx id fun f => { f with ring := f.ring ++ [rec_ f], tail := (f.tail + 1) % 2 ^ 32 }) noCore c x.ctx id) s

/-- Pre-emption begins (R272 step 1, R397): issue stops. -/
def preemptGang (s : State) (gang : Nat) : State :=
  let stop (s : State) (id : Nat) : State :=
    s.modGang id fun g => if g.state = .running then { g with state := .preempting, stopAt := s.cycle } else g
  match (s.gang? gang).bind fun g => s.sweep? g.sweep with
  | some x => if x.slide then queuesToRings ((gangsWith s gang).foldl stop s) x else stop s gang
  | none => stop s gang

/-- The groups of a gang. -/
def gangGroups (s : State) (gang : Nat) : List Group :=
  s.groups.filter fun g => (s.wg? g.wg).elim false fun w => w.gang == gang

/-- Outstanding loads of a gang (R272 step 2); remote and host reads are among them. -/
def gangLoads (s : State) (gang : Nat) : List Acc :=
  let ids := (gangGroups s gang).map (·.gid)
  s.accs.filter fun a => ids.contains a.gid && decide (a.op = .load)

/-- An accepted instruction that stays in the array's queue through a save: a DRAIN with a record (R256). -/
def isDrain (s : State) : ArrOp → Bool
  | .cmd id => (s.cmd? id).elim false fun c => match c.kind with
    | .drain .. => true
    | _ => false
  | _ => false

/-- What a save waits for beside loads: the array's queue (R256) and accesses of the members' own scratchpads. -/
def saveReady (s : State) (gang : Nat) : Bool :=
  let ids := (gangGroups s gang).map (·.gid)
  !(s.accs.any fun a => ids.contains a.gid && decide (a.space = .scratch ∨ a.space = .weight)) &&
  (gangWgs s gang).all fun w => w.tiles == 0 || (s.core w.core).arr.queue.all (isDrain s)

/-- The keys of a memory in a range, from its start. -/
def cutRange (m : Memory) (lo n : Nat) : Memory :=
  (m.filter fun p => decide (lo ≤ p.1 ∧ p.1 < lo + n)).map fun p => (p.1 - lo, p.2)
def dropRange (m : Memory) (lo n : Nat) : Memory := m.filter fun p => !decide (lo ≤ p.1 ∧ p.1 < lo + n)
/-- Bytes put into a cleared range. -/
def putRange (m : Memory) (lo n : Nat) (x : Memory) : Memory := x.foldl (fun m p => sset 0 m (lo + p.1) p.2) (dropRange m lo n)

/-- A register word with an uncorrectable error is saved as a poisoned 0, and reported (R87); an s-register's fills the record of
every thread of its group. -/
def saveErrors (s : State) (wg : Nat) : State :=
  (s.groups.filter fun g => g.wg == wg).foldl (fun s g =>
    let hits : List (Nat × Option Nat) := ((g.serr.filter (·.2)).map fun e => (e.1, none)) ++
      g.threads.flatMap fun t => (t.verr.filter (·.2)).map fun e => (e.1, some t.lane)
    let s := hits.foldl (fun s h => match h with
      | (r, some lane) => s.modThread g.gid lane fun t => (t.vset r ⟨0, true⟩).recordPo 0x30 0 0 t.pc
      | (r, none) => (s.setS g.gid r ⟨0, true⟩).modGroup g.gid fun g =>
          { g with threads := g.threads.map fun t => if t.exited then t else t.recordPo 0x30 0 0 t.pc }) s
    let s := hits.foldl (fun s h => healthPush s 0x01 g.core (h.1 + if h.2.isNone then 0x80 else 0)) s
    s.modGroup g.gid fun g => { g with serr := [], threads := g.threads.map fun t => { t with verr := [] } }) s

/-- Bytes of a member's part of the save image (R273, R274). -/
def imageSize (s : State) (w : Wg) : Nat :=
  let gs := (s.groups.filter fun g => g.wg == w.id).map fun g =>
    64 * g.regs * 4 + 8 * g.regs + 264 + 128 * (g.threads.filter fun t => !t.exited).length
  let cmds := (s.cmds.filter fun c => c.wg == w.id && decide (c.state = .running)).length
  gs.sum + w.size + 6400 + (if w.tiles = 0 then 0 else 40960 + 73728 * w.tiles) + 384 * cmds

/-- The 400 bytes of a barrier entry. -/
def barrierImage (b : Barrier) : List Byte :=
  toLE 4 (b.phase.toNat * 2 ^ 16 + bitAt b.broken 15 + b.expect) ++ toLE 4 b.count ++ toLE 8 0 ++ toLE 128 b.arrived.toNat ++
  toLE 128 b.doneM.toNat ++ toLE 128 b.wait.toNat

/-- The gang's part of the header (R273): the gang barrier entry in the layout of R203 with masks of 4,096 bits (R211), and two bytes of
exchange membership for each member, whose layout the spec does not give (log entry 10). -/
def gangPart (s : State) (g : Gang) : List Byte × Nat :=
  (toLE 4 (g.bar.phase.toNat * 2 ^ 16) ++ toLE 4 g.bar.count ++ toLE 8 0 ++ toLE 512 g.bar.arrived.toNat ++ toLE 512 g.bar.doneM.toNat ++
    toLE 512 g.bar.wait.toNat, 2 * (gangWgs s g.id).length)

/-- Parts of saved gangs in the save area of a context. -/
def savedParts (s : State) (ctx : Nat) : List (Nat × Nat) := (s.gangs.filter fun g => g.ctx == ctx).flatMap (·.savedAt)

/-- The lowest place of the save area that no saved gang's part takes, for `n` bytes (log entry 10). -/
def savePlace (s : State) (c : Context) (n : Nat) : Option Nat :=
  let ps := savedParts s c.id
  (sortBy (fun a b => decide (a ≤ b)) (Config.saveHeader :: ps.map fun p => p.1 + p.2)).find? fun o =>
    decide (o + n ≤ c.saveSize) && ps.all fun p => decide (p.1 + p.2 ≤ o ∨ o + n ≤ p.1)

/-- Bytes enter the save area of a gang's context at a free place. -/
def putPart (s : State) (c : Context) (gang : Nat) (bs : List Byte) : State :=
  match savePlace s c bs.length, s.ctx? c.saver with
  | some o, some v =>
    let s := s.modGang gang fun g => { g with savedAt := g.savedAt ++ [(o, bs.length)] }
    match placesAt s noCore v 2 (c.saveAt + o) bs.length with
    | .error _ => s
    | .ok locs => deviceWrite s 0 noCore v.id (c.saveAt + o) locs bs
  | _, _ => s

/-- Bytes whose layout the spec leaves to the device: free values (log entry 10). -/
def openBytes (s : State) (n : Nat) : List Byte × State :=
  ((List.range n).map fun i => (Config.freeValue (s.freeCount + i)).setWidth 8, { s with freeCount := s.freeCount + n })

/-- A save writes its image into the save area of its context (R267, R272): for each member its registers and thread blocks, its
scratchpad, its barrier entries in the layout of R203, its planes, tiles and command records, and then the gang's part. The spec gives
the parts' sizes but neither their order nor their places, nor a layout but for the barrier entries (log entry 10). -/
def writeImage (s : State) (c : Context) (g : Gang) : State :=
  let s := (gangWgs s g.id).foldl (fun s w =>
    let gs := (s.groups.filter fun g => g.wg == w.id).map fun g =>
      64 * g.regs * 4 + 8 * g.regs + 264 + 128 * (g.threads.filter fun t => !t.exited).length
    let rest := imageSize s w - gs.sum - w.size - 6400
    let (a, s) := openBytes s gs.sum
    let (b, s) := openBytes s rest
    putPart s c g.id (a ++ getKeys s .scratch (keysFrom (scratchKey w 0) w.size) ++
      ((List.range 16).flatMap fun n => barrierImage (sget {} w.barriers n)) ++ b)) s
  let (bar, n) := gangPart s g
  let (x, s) := openBytes s n
  putPart s c g.id (bar ++ x)

/-- An error's place relative to a workgroup's core and scratchpad, where it lies there; and back at another core and place. -/
def errOut (w : Wg) : ErrLoc → Option ErrLoc
  | .plane c p u => if w.tiles ≠ 0 ∧ c = w.core then some (.plane 0 p u) else none
  | .tile c t u => if w.tiles ≠ 0 ∧ c = w.core then some (.tile 0 t u) else none
  | .bypass c u => if w.tiles ≠ 0 ∧ c = w.core then some (.bypass 0 u) else none
  | .scratch u => if scratchKey w 0 ≤ 8 * u ∧ 8 * u < scratchKey w 0 + w.size then some (.scratch (u - scratchKey w 0 / 8)) else none
  | _ => none
def errIn (core lo : Nat) : ErrLoc → ErrLoc
  | .plane _ p u => .plane core p u
  | .tile _ t u => .tile core t u
  | .bypass _ u => .bypass core u
  | .scratch u => .scratch (u + lo / 8)
  | e => e

/-- The save image is complete (R272, R273; log entry 10): it is written, the gang's scratchpads, arrays and detector entries leave the
cores with their errors, and its slots are free. -/
def saveGang (s : State) (gang : Nat) : State :=
  let ws := gangWgs s gang
  let s := match s.gang? gang with
    | some g => (s.ctx? g.ctx).elim s fun c => writeImage s c g
    | none => s
  let ids := ws.map (·.id)
  let lo (w : Wg) : Nat := scratchKey w 0
  let sc := ws.map fun w => (w.id, cutRange s.scratch (lo w) w.size)
  let ar := (ws.filter fun w => decide (w.tiles ≠ 0)).map fun w => (w.id, (s.core w.core).arr)
  let inW (w : Wg) (d : Det) : Bool := decide (lo w ≤ d.line * 128 ∧ d.line * 128 < lo w + Config.scratchBytes)
  let dt := ws.map fun w => (w.id, ((s.core w.core).det.filter (inW w)).map fun d => { d with line := d.line - lo w / 128 })
  let er := ws.map fun w => (w.id, s.softErrs.filterMap fun e => (errOut w e.1).map fun l => (l, e.2))
  let s := ids.foldl saveErrors s
  let s : State := { s with softErrs := s.softErrs.filter fun e => !(ws.any fun w => (errOut w e.1).isSome) }
  let s := ws.foldl (fun s w => s.modCore w.core fun c =>
    { c with arr := if w.tiles = 0 then c.arr else {}, det := c.det.filter fun d => !inW w d }) s
  let s' : State := { s with
    groups := s.groups.map fun g => if ids.contains g.wg then { g with saved := true } else g
    wgs := s.wgs.map fun w => if ids.contains w.id then { w with state := .saved } else w }
  s'.modGang gang fun g => { g with state := .saved, savedScratch := sc, savedArr := ar, savedDet := dt, savedErrs := er }

/-- Waits whose instruction issues anew after restore (R275): a token wait, room, an item, a register. -/
def again : Wait → Bool
  | .drained | .regs | .space _ | .items _ _ | .token _ | .engine | .detector _ _ _ | .stage | .slide _ | .retry => true
  | _ => false

/-- Keys of the members' scratchpads moved to their new places. -/
def moveKeys (old new : List Wg) (keys : List Nat) : List Nat :=
  keys.map fun k => match old.find? fun w => decide (scratchKey w 0 ≤ k ∧ k < scratchKey w 0 + Config.scratchBytes) with
    | some w => match new.find? fun v => v.id == w.id with
      | some v => k - scratchKey w 0 + scratchKey v 0
      | none => k
    | none => k

/-- A cancelled load of a restored gang is performed again from the same addresses, as they translate now (R272, R275): an access, or
the fault that its lanes receive. -/
def redoLoad (s : State) (a : Acc) : State :=
  match s.group? a.gid, s.ctx? a.ctx with
  | some g, some c =>
    let again (sp : Space) (a : Acc) : State :=
      let a := { a with core := g.core, sent := none, space := sp, line := ((a.lanes.head?.bind fun l => l.keys.head?).getD 0) / 128 }
      s.modAcc a.id fun _ => { a with route := routeOf s g.core a.ctx a.op sp a.line a.va }
    let faults (cs sub : Nat) : State :=
      match a.fetch with
      | some k => keepAcc s a k cs sub []
      | none => endAcc (a.lanes.foldl (fun s l => deliver s g a l none cs sub) s) a
    match a.lanes with
    | [] => s.modAcc a.id fun a => { a with core := g.core }
    | l :: _ => match a.space with
      | .host => match stage2 s c true 1 l.va with
        | some (p, _) => again .host { a with lanes := a.lanes.map fun x => { x with keys := keysFrom (p + x.va - l.va) x.keys.length } }
        | none => faults 0x0B 0
      | _ => match translate s g.core c 1 l.va with
        | .here p _ => again .dev { a with lanes := a.lanes.map fun x => { x with keys := keysFrom (p - l.va % 65536 + x.va % 65536) x.keys.length } }
        | .peer q _ => again (.remote q) { a with lanes := a.lanes.map fun x => { x with keys := keysFrom x.va x.keys.length } }
        | .fault cs sub => faults cs sub
  | _, _ => s

/-- What a restored WAITM lane watches, as its address translates now (R275). -/
def rewatch (s : State) (core : Nat) (c : Context) (w : Watch) : Watch :=
  if !w.sp.paged then w
  else match translate s core c 1 w.va with
    | .here p _ => { w with sp := .dev, keys := keysFrom p w.keys.length, remote := false }
    | .peer q _ => { w with sp := .remote q, keys := keysFrom w.va w.keys.length, remote := true }
    | .fault _ _ => w

/-- A saved gang is restored on a quartet (R275): members take the cores, barrier waiters stand as saved, and cancelled
loads are performed again. Times that its commands have waited do not count its absence (R235). -/
def restoreGang (s : State) (gang quartet : Nat) (ms : List (Nat × List (Nat × Nat))) : State :=
  match s.gang? gang with
  | none => s
  | some g =>
    let old := gangWgs s gang
    let gone := s.cycle - g.stopAt
    let one (s : State) (w : Wg) : State :=
      match ms[w.ident.gangWg]? with
      | none => s
      | some (k, sl) =>
        let base := freeBase s k
        let s := s.modWg w.id fun w => { w with core := k, base := base, state := .running }
        let s : State := { s with
          groups := s.groups.map fun h => if h.wg = w.id then
            (if w.fret then { h with saved := false }
             else { h with core := k, saved := false, quadrant := (sl.getD h.grpId (0, 0)).1, slot := (sl.getD h.grpId (0, 0)).2 }) else h
          cmds := s.cmds.map fun c => if c.wg = w.id then
            { c with core := k, since := c.since.map fun n => if n = untracked then n else n + gone, turn := c.turn.map (· + gone) } else c
          held := s.held.map fun h => if (s.cmd? h.cmd).elim false fun c => c.wg == w.id then { h with since := h.since + gone } else h }
        let img := sget [] g.savedScratch w.id
        let lo := k * Config.scratchSpan + base
        let s : State := { s with scratch := putRange s.scratch lo w.size img, softErrs := (s.softErrs.filter fun e => (errOut { w with core := k, base := base } e.1).isNone) ++ (sget [] g.savedErrs w.id).map fun e => (errIn k lo e.1, e.2) }
        let ds := (sget [] g.savedDet w.id).map fun d => { d with line := d.line + lo / 128 }
        s.modCore k fun c => { c with arr := if w.tiles = 0 then c.arr else sget {} g.savedArr w.id, det := c.det ++ ds }
    let s := (sortBy (fun a b => decide (a.ident.gangWg ≤ b.ident.gangWg)) old).foldl one s
    let new := gangWgs s gang
    let ids := new.map (·.id)
    let watch (h : Group) (t : Thread) : Thread := match t.wait with
      | .waitm w =>
        let w := rewatch s h.core ((s.ctx? g.ctx).getD {}) w
        let keys := if w.sp = .scratch then moveKeys old new w.keys else w.keys
        { t with wait := .waitm { w with keys := keys, until_ := w.until_ + gone, first := true, stall := none } }
      | .bar n (some u) p => { t with wait := .bar n (some (u + gone)) p }
      | w => if again w then t.ready else t
    let redo := g.redo.map (·.id)
    let mine (h : Group) (t : Thread) : Bool := decide (t.wait = .none) && g.redo.any fun a => a.gid == h.gid && a.lanes.any fun l =>
      l.lane == t.lane || (h.coursed && l.lane + 1 == t.lane)
    let go (h : Group) (t : Thread) : Thread :=
      let t := watch h t
      let t := if mine h t then { t with wait := .accs redo } else t
      if t.entered then { t with entered := false, resume := t.passed, passed := false } else t
    let s' : State := { s with
      groups := s.groups.map fun h => if ids.contains h.wg then { h with threads := h.threads.map (go h) } else h }
    let s' := g.redo.foldl redoLoad { s' with accs := s'.accs ++ g.redo }
    let s' := ids.foldl (fun s i => s.modWg i fun w => { w with state := wgState s i w.state }) s'
    s'.modGang gang fun g => { g with state := .running, quartet := quartet, savedScratch := [], savedArr := [], savedDet := [], savedErrs := [], savedAt := [], redo := [] }

end Sys2Proof.Machine
end

