-- ==== Sys2Proof/Machine/Queue.lean ====
section
/-! DEFINITION. Hardware queues (R284-R288, R292-R299), work lists and q0 (R295, R296, R312, R313), and the steps of the
dispatcher's queues. -/

namespace Sys2Proof.Machine

/-! ### Queue entries (R285) -/

/-- The entries that R285 refuses. -/
def entryBad (e : QEntry) : Bool :=
  let bad (a : Nat) : Bool := decide (2 ^ 57 ≤ a) || a % 8 != 0
  e.w 1 != 0 || bits (e.w 0) 31 7 != 0 || e.nwait == 3 || decide (1 < e.typ) || decide (2 ^ 57 ≤ e.body) ||
  (decide (1 ≤ e.nwait) && bad (e.adr 0)) || (e.nwait == 2 && bad (e.adr 1)) || (e.sig && bad e.sigadr)

/-! ### Waits (R286) -/

/-- The blocking wait of a queue (R298 WIDX): 0 none, 1 wait 0, 2 wait 1. -/
def blocking (s : State) (q : Queue) : Nat :=
  match q.entries with
  | [] => 0
  | e :: _ =>
    if q.state ≠ 2 then 0
    else (((List.range e.nwait).find? fun n => !waitHolds s q e n).map (· + 1)).getD 0

/-- Whether a local read of a wait of the head fails and BAD does not say so yet. -/
def waitFails (s : State) (q : Queue) : Option Nat :=
  match q.entries with
  | [] => none
  | e :: _ => if q.state ≠ 2 ∨ q.bad then none
    else (List.range e.nwait).find? fun n => decide (readCounter s q.owner (e.adr n) = .bad)

/-- QUEUE_WAIT_POLL (R286): a wait's counter is read; another module's gives the value that the step brings, or none where
the read fails. -/
def execQueueWaitPoll (queue n : Nat) (value : Option (BitVec 64)) (s : State) : Out :=
  .next (match s.queue? queue with
  | none => s
  | some q => match q.entries with
    | [] => s
    | e :: _ =>
      if q.state ≠ 2 ∨ e.nwait ≤ n then s
      else
        let put (b : Bool) : List Bool := (List.range 2).map fun i => if i = n then b else q.held.getD i false
        match readCounter s q.owner (e.adr n) with
        | .here _ => s
        | .bad => s.modQueue queue fun q => { q with bad := true, held := put false }
        | .remote => match value with
          | some v => s.modQueue queue fun q => { q with held := put (decide (e.val n ≤ v.toNat)) }
          | none => s.modQueue queue fun q => { q with bad := true, held := put false })

/-! ### Progress of an entry (R287, R288) -/

/-- An entry pushed at the tail (R288). -/
def pushEntry (s : State) (queue : Nat) (e : QEntry) : State :=
  s.modQueue queue fun q => { q with
    entries := q.entries ++ [e], pushed := (q.pushed + 1) % 2 ^ 32,
    state := if q.state = 1 then 2 else q.state, waitingSince := if q.state = 1 then s.cycle else q.waitingSince,
    held := if q.state = 1 then [] else q.held, seen := if q.state = 1 then [] else q.seen }

/-- The head has completed and leaves; the next entry becomes the head (R287). -/
def nextHead (s : State) (queue : Nat) : State :=
  let s : State := { s with sweeps := s.sweeps.filter fun x => !(x.queue == some queue && x.launch.isNone) }
  s.modQueue queue fun q => { q with
    entries := q.entries.tail, signalling := false, sigAcc := none, nextAt := none, held := [], seen := [],
    state := if q.entries.tail.isEmpty then 1 else 2, waitingSince := s.cycle }

/-- The place of the completion signal's counter (R287), or none where the signal faults. -/
def signalPlace (s : State) (q : Queue) (e : QEntry) : Option (Space × Nat) :=
  (s.ctx? q.owner).bind fun c => match translate s noCore c 3 e.sigadr with
    | .here pa l => if l.testBit 5 || (dataPoison s .dev (keysFrom pa 8)).isSome then none else some (.dev, pa)
    | .peer p _ => some (.remote p, e.sigadr)
    | .fault _ _ => none

/-- The signal of a head has ended: acknowledged, or dropped with BAD set; the next entry is the head in the clock after (R287). -/
def signalOver (s : State) (queue : Nat) (ok : Bool) : State :=
  s.modQueue queue fun q => { q with signalling := true, sigAcc := none, nextAt := some (s.cycle + 1), bad := q.bad || !ok }

/-- A head entry completes (R287), with its signal or without. -/
def completeEntry (s : State) (queue : Nat) (signal : Bool) : State :=
  match s.queue? queue with
  | none => s
  | some q => match q.entries with
    | [] => s
    | e :: _ => if signal && e.sig then s.modQueue queue fun q => { q with signalling := true } else nextHead s queue

/-- A store, an atomic or a zero-length read of the head's gangs is still under way: the signal follows it (R287, R380). -/
def writesOpen (s : State) (q : Queue) : Bool := s.accs.any fun a => a.queue == some q.id && (decide (a.op ≠ .load) || a.lanes.isEmpty)

/-- The zero-length reads that a signal of .sys scope awaits, one on each host port to which the entry's gangs have posted writes
(R380). -/
def signalFlush (s : State) (q : Queue) : State :=
  let ps := s.postedQ.filter fun p => p.1 == q.id
  ps.foldl (fun s p =>
    let (id, s) := s.fresh
    let a : Acc := { id := id, gid := 0, core := noCore, ctx := q.owner, pc := 0, op := .load, space := .host, line := p.2, wid := 0, lanes := [],
                     queue := some q.id, born := s.cycle, route := toHost s noCore p.2 }
    { s with accs := s.accs ++ [a] }) { s with postedQ := s.postedQ.filter fun p => p.1 != q.id }

/-- The signal's addition leaves for the counter (R287): it is applied here at once, or an access carries it to another module or to a
page with replicas. -/
def sendSignal (s : State) (q : Queue) (e : QEntry) : State :=
  match signalPlace s q e with
  | none => signalOver s q.id false
  | some (sp, k) =>
    if sp ≠ .dev ∧ (s.postedQ.any fun p => p.1 == q.id) then signalFlush s q
    else if farPlace s q.owner sp e.sigadr then
      let id := s.nextId
      let s := (sendFetch s id 0 0 noCore q.owner (.atomic .add false) sp (keysFrom k 8) e.sigadr (toLE 8 e.sigamt) ((s.cycle + 32767) % 65536, none)).1
      s.modQueue q.id fun q => { q with sigAcc := some id }
    else signalOver (putKeys s sp (keysFrom k 8) (toLE 8 (ofLE (getKeys s sp (keysFrom k 8)) + e.sigamt))) q.id true

/-- SIGNAL_ACK (R287): SIGAMT is added at the counter's home after every write of the entry's gangs, and the addition is acknowledged
or ends with a fault or the fabric timeout. -/
def execSignalAck (queue : Nat) (s : State) : Out :=
  .next (match s.queue? queue with
  | none => s
  | some q => match q.entries with
    | [] => s
    | e :: _ =>
      if !q.signalling || q.nextAt.isSome then s
      else match q.sigAcc with
      | none => if writesOpen s q then s else sendSignal s q e
      | some id => match s.fetched.find? fun f => f.key == id with
        | some f => signalOver (dropFetched s id) queue (f.cause == 0)
        | none => if (s.acc? id).isSome then s else signalOver s queue false)

/-- A graph entry whose turn among the launches of its graph has come (R311). -/
def launchTurn (s : State) (l : Launch) : Bool :=
  l.overlap || !(s.launches.any fun m => m.ctx == l.ctx && m.graph == l.graph && decide (m.id < l.id))

/-- The head of a Waiting queue whose waits both hold (R286). -/
def startable (s : State) (q : Queue) : Option QEntry :=
  match q.entries with
  | [] => none
  | e :: _ =>
    if q.state = 2 && (s.ctx? q.owner).elim false (fun c => decide (c.state = .active)) &&
        ((List.range e.nwait).all fun n => q.seen.getD n false || waitHolds s q e n) &&
        (e.launch.bind s.launch?).elim true (launchTurn s) then
      (match s.ctx? q.owner with
       | some c =>
         if e.typ = 0 && slideRunning s c.id && (match readSweep s c e.body with | some (x, _) => x.slide | none => false) then none
         else some e
       | none => none)
    else none

/-- QUEUE_ENTRY_START (R286, R302): the head becomes Ready; its block is read, and an invalid one completes the entry at
once without its signal. -/
def execQueueEntryStart (queue : Nat) (s : State) : Out :=
  .next (match s.queue? queue with
  | none => s
  | some q => match startable s q with
    | none => s
    | some e =>
      let had := s.queues.any fun r => r.owner == q.owner && r.state == 3
      let ready (s : State) : State :=
        let s := s.modQueue queue fun q => { q with state := 3, readySince := s.cycle, waitingSince := 0 }
        if had then s else fairBump s q.owner
      match e.launch with
      | some l => ready (s.modLaunch l fun l => { l with begun := true })
      | none => match readSweep s ((s.ctx? q.owner).getD {}) e.body with
        | none => completeEntry ((blockNote s ((s.ctx? q.owner).getD {}) e.body 384).modQueue queue fun q => { q with bad := true }) queue false
        | some (x, s) => ready (addSweep s { x with queue := some queue }))

/-- A sweep whose gangs have all retired. -/
def sweepOver (s : State) (x : Sweep) : Bool :=
  decide (x.gangs ≤ x.retired) && !(s.gangs.any fun g => g.sweep == x.id)

/-- A queue whose running entry has come to its end (R287). -/
def entryOver (s : State) (q : Queue) : Bool :=
  decide (3 ≤ q.state) && decide (q.state ≤ 4) && !q.signalling && (match q.entries with
    | [] => false
    | e :: _ => e.launch.isNone && !(s.sweeps.any fun x => x.queue == some q.id && !sweepOver s x))

/-- A queue that is being flushed holds no gang or command any more (R288). -/
def flushOver (s : State) (q : Queue) : Bool := q.state == 5 && !(s.sweeps.any fun x => x.queue == some q.id)

/-- The flush is over: the queue is Idle, and the threads that issued it go on (R288, R299). -/
def endFlush (s : State) (queue : Nat) : State :=
  let s := s.modQueue queue fun q => { q with state := 1 }
  { s with groups := s.groups.map fun g => { g with threads := g.threads.map fun t => if t.wait = .flush queue then t.ready else t } }

/-- QUEUE_ENTRY_COMPLETE (R287): the head's end, the clock after its signal, or the end of a flush. -/
def execQueueEntryComplete (queue : Nat) (s : State) : Out :=
  .next (match s.queue? queue with
  | none => s
  | some q =>
    if flushOver s q then endFlush s queue
    else if q.nextAt.elim false fun t => decide (t ≤ s.cycle) then nextHead s queue
    else if entryOver s q then completeEntry s queue true else s)

/-! ### Work lists and q0 (R295, R296, R312, R313) -/

/-- The number that stands for q0 in a wait for an item. -/
def q0List : Nat := 64

/-- The work list that q8 to q15 is bound to (R294). -/
def listOf (c : Context) (q : Nat) : Option Nat :=
  let w : Word := sget 0 c.wlbind (q - 8)
  if w.getLsbD 31 then some (bits w.toNat 5 0) else none

/-- The hardware queue that q4 to q7 is bound to (R294). -/
def spawnOf (c : Context) (q : Nat) : Option Nat :=
  let w : Word := sget 0 c.spbind (q - 4)
  if w.getLsbD 31 then some (bits w.toNat 8 0) else none

def Context.list (c : Context) (n : Nat) : WorkList := sget {} c.lists n
def modList (s : State) (ctx n : Nat) (f : WorkList → WorkList) : State :=
  s.modCtx ctx fun c => { c with lists := sset {} c.lists n (f (c.list n)) }

/-- Items appended to a work list, which is Open again (R312). -/
def appendItems (s : State) (ctx n : Nat) (is : List DWord) : State :=
  modList s ctx n fun l => { items := l.items ++ is, ended := false }

/-- The items of a queue or list. -/
def itemsOf (c : Context) (n : Nat) : List DWord := if n = q0List then c.q0 else (c.list n).items

/-- The oldest item leaves (R270: a message's slot is free again, and the count of taken items grows; a page event has no slot and
is not counted, R361). -/
def takeItem (s : State) (ctx n : Nat) : State :=
  if n = q0List then
    s.modCtx ctx fun c =>
      let x := (c.q0.headD 0).toNat
      let slot := bits x 23 16
      let msg := bits x 26 24 != 7 || x.testBit 31
      { c with q0 := c.q0.tail, popped := if msg then (c.popped + 1) % 2 ^ 16 else c.popped,
               slots := if msg then sset {} c.slots slot { (sget {} c.slots slot : Slot) with busy := false } else c.slots }
  else modList s ctx n fun l => { l with items := l.items.tail }

/-- The thread issued a QPOP on a list, which returned an item or not (R313). -/
def Thread.popped (n : Nat) (got : Bool) (t : Thread) : Thread :=
  if n = q0List then t else { t with prod := (n, got) :: t.prod.filter fun p => p.1 != n }

/-- An item or nothing in a lane's registers (R296). -/
def Thread.item (d p : Nat) (x : Option DWord) (t : Thread) : Thread :=
  let v := x.getD 0
  ((t.vset d ⟨v.setWidth 32, false⟩).vset (d + 1) ⟨(v >>> 32).setWidth 32, false⟩).pset p x.isSome false

/-- The queue that QPOP and QPEEK name, or the trap of R295. -/
def popSource (s : State) (iss : Issue) (g : Group) (q : Nat) : Except State Nat :=
  let (w, c) := placeOf s g
  if q = 0 then (if c.resident = some w.sweep then .ok q0List else .error (takeTrap s iss 0x04))
  else match listOf c q with
    | some n => .ok n
    | none => .error (takeTrap s iss 0x05 { sub := 1 })

/-- QPOP (R296): lane by lane; lanes that find no item wait, unless the list has ended. Items go to lanes in the order in
which the lanes came to wait (log entry 18, DEDUCED). -/
def execQpop (d : VReg) (q : QReg) (p : PReg) (s : State) : Out :=
  issued (.qpop d q p) (fun iss g s =>
    match popSource s iss g q.toNat with
    | .error s => s
    | .ok n =>
      if !drained s iss.gid iss.lanes then hold s iss .drained
      else
        let ctx := s.ctxOf g
        let (old, new) := (acting g iss).partition (waitsFor n)
        let busy := queuedPop s g n fun h u => !(h.gid == iss.gid && iss.lanes.contains u.lane)
        let one (a : State × List Nat) (t : Thread) : State × List Nat :=
          let c := (a.1.ctx? ctx).getD {}
          match itemsOf c n with
          | x :: _ =>
            if busy && !waitsFor n t then (onLane a.1 g t.lane (Thread.popped n false), a.2 ++ withShadow g [t.lane])
            else (onLane (takeItem a.1 ctx n) g t.lane fun t => (t.item d.toNat p.toNat (some x)).popped n true, a.2)
          | [] =>
            if n ≠ q0List ∧ (c.list n).ended then (onLane a.1 g t.lane fun t => (t.item d.toNat p.toNat none).popped n false, a.2)
            else (onLane a.1 g t.lane (Thread.popped n false), a.2 ++ withShadow g [t.lane])
        let (s, waits) := (old ++ new).foldl one (s, [])
        let go := iss.lanes.filter fun l => !waits.contains l
        let s := newRegion (dropCache s g.core) iss.gid go
        let s := s.mapLanes iss.gid waits fun t => if waitsFor n t then t else { t with wait := .items [n] s.time }
        s.mapLanes iss.gid go (Thread.advance 1)) s

/-- QPEEK (R296): the items stay; one value of k counts the lanes that received one. -/
def execQpeek (d : VReg) (q : QReg) (p : PReg) (s : State) : Out :=
  issued (.qpeek d q p) (fun iss g s =>
    match popSource s iss g q.toNat with
    | .error s => s
    | .ok n =>
      let items := itemsOf ((s.ctx? (s.ctxOf g)).getD {}) n
      let s := ((acting g iss).mapIdx fun k t => (k, t.lane)).foldl (fun s (k, l) => onLane s g l (Thread.item d.toNat p.toNat items[k]?)) s
      advance s iss) s

/-- The checks of QPUSH and CAPP: pairs alike, no poison, a valid binding (R296, R316). -/
def pushTarget (s : State) (iss : Issue) (g : Group) (q a : Nat) : Except State Nat :=
  let diff := coursedDiff g iss [a, a + 1]
  let poi := (g.threads.filter fun t => iss.lanes.contains t.lane && (firstPoison t [a, a + 1]).isSome)
  if !diff.isEmpty then .error (takeTrap s iss 0x31 { lanes := diff })
  else match poi with
  | t :: _ => .error (takeTrap s iss 0x08 { info0 := BitVec.ofNat 32 ((firstPoison t [a, a + 1]).getD 0), lanes := poi.map (·.lane) })
  | [] => match listOf ((s.ctx? (s.ctxOf g)).getD {}) q with
    | some n => .ok n
    | none => .error (takeTrap s iss 0x05 { sub := 1 })

/-- The item of a lane's pair. -/
def itemOf (t : Thread) (a : Nat) : DWord := (vpair t a).w

/-- QPUSH (R296): lane by lane; lanes that find the list full wait. -/
def execQpush (q : QReg) (a : VReg) (s : State) : Out :=
  issued (.qpush q a) (fun iss g s =>
    match pushTarget s iss g q.toNat a.toNat with
    | .error s => s
    | .ok n =>
      if !drained s iss.gid iss.lanes then hold s iss .drained
      else
        let ctx := s.ctxOf g
        let room := Config.workListItems - (((s.ctx? ctx).getD {}).list n).items.length
        let ts := acting g iss
        let s := appendItems s ctx n ((ts.take room).map fun t => itemOf t a.toNat)
        let waits := withShadow g ((ts.drop room).map (·.lane))
        let go := iss.lanes.filter fun l => !waits.contains l
        let s := newRegion (dropCache s g.core) iss.gid go
        let s := s.mapLanes iss.gid waits fun t => { t with wait := .space n }
        s.mapLanes iss.gid go (Thread.advance 1)) s

/-- CAPP (R316): the whole run at once. -/
def execCapp (q : QReg) (a : VReg) (s : State) : Out :=
  issued (.capp q a) (fun iss g s =>
    match pushTarget s iss g q.toNat a.toNat with
    | .error s => s
    | .ok n =>
      if !drained s iss.gid iss.lanes then hold s iss .drained
      else
        let ctx := s.ctxOf g
        let is := (acting g iss).map fun t => itemOf t a.toNat
        if Config.workListItems < (((s.ctx? ctx).getD {}).list n).items.length + is.length then holdStruct s iss (.space n)
        else advance (appendItems s ctx n is) iss) s

/-- A thread is a producer of a list set: its latest QPOP on a list of the set returned an item (R313). -/
def producer (set_ : List Nat) (t : Thread) : Bool :=
  !t.exited && ((t.prod.find? fun p => set_.contains p.1).map (·.2)).getD false

/-- Threads of a context's slide sweep that stand in no group: on their way, queued, or in a ring (R386-R393). -/
def slideAway (s : State) (ctx : Nat) : List Thread :=
  let cs := slideCores s ctx
  (s.travel.filter fun p => cs.contains p.1).map (·.2) ++ cs.flatMap (fun k => (s.core k).arrivals) ++
    ((s.ctx? ctx).map fun c => c.frets.flatMap fun f => (f.2.ring.filter fun r => !r.taken).map (·.thread)).getD []

/-- Threads of a context's groups. -/
def ctxGroups (s : State) (ctx : Nat) : List Group := s.groups.filter fun g => s.ctxOf g == ctx

/-- A QPUSH or CAPP that a thread has issued and that waits is aimed at a list of a set (R313). -/
def pushing (c : Context) (set_ : List Nat) (t : Thread) : Bool :=
  (match t.wait with
   | .drained | .space _ => true
   | _ => false) &&
  (match t.cls.bind fun k => decode k (t.wordAt t.pc) 0 with
   | some (.qpush q _) => (listOf c q.toNat).elim false set_.contains
   | some (.capp q _) => (listOf c q.toNat).elim false set_.contains
   | _ => false)

/-- A set is terminated (R313). -/
def terminated (s : State) (ctx : Nat) (set_ : List Nat) : Bool :=
  let c := (s.ctx? ctx).getD {}
  ((ctxGroups s ctx).any fun g => g.threads.any fun t => decide (t.wait = .quiesce set_)) &&
  (set_.all fun n => (c.list n).items.isEmpty) && !((ctxGroups s ctx).any fun g => g.threads.any fun t => producer set_ t || (!t.exited && pushing c set_ t)) &&
  !((slideAway s ctx).any (producer set_))

/-- TERMINATION_DETECT (R313): the lists end, and every QPOP waiting on them and every QUIESCE naming the set returns. -/
def execTerminationDetect (ctx : Nat) (lists : List Nat) (s : State) : Out :=
  .next (
    if !terminated s ctx lists then s
    else
      let s := lists.foldl (fun s n => modList s ctx n fun l => { l with ended := true }) s
      let gs := ctxGroups s ctx
      let pops (t : Thread) : Bool := match t.wait with
        | .items [n] _ => lists.contains n
        | _ => false
      let sel (g l : Nat) : Bool := (gs.find? fun x => x.gid == g).elim false fun x => (x.thread? l).elim false pops
      let cores := dedup ((gs.filter fun g => g.threads.any fun t => pops t || decide (t.wait = .quiesce lists)).map (·.core))
      let fin (t : Thread) : Thread :=
        if t.wait = .quiesce lists then t.ready
        else if pops t then
          match t.cls.bind fun c => decode c (t.wordAt t.pc) 0 with
          | some (.qpop d _ p) => (t.item d.toNat p.toNat none).advance 1
          | _ => t
        else t
      let s := regionStep s sel
      let upd (g : Group) : Group := if s.ctxOf g = ctx then { g with threads := g.threads.map fin } else g
      cores.foldl dropCache { s with groups := s.groups.map upd })

/-- QUIESCE (R317). -/
def execQuiesce (a : SReg) (s : State) : Out :=
  issued (.quiesce a) (fun iss g s =>
    match sPoison s iss [a.toNat] with
    | some s => s
    | none =>
      let v := iss.sv a
      let c := (s.ctx? (s.ctxOf g)).getD {}
      let qs := (List.range 8).filter v.testBit
      if 256 ≤ v ∨ v = 0 ∨ qs.any (fun i => (listOf c (8 + i)).isNone) then takeTrap s iss 0x05 { sub := 2 }
      else
        let set_ := sortBy (fun a b => decide (a ≤ b)) (dedup (qs.filterMap fun i => listOf c (8 + i)))
        (advance s iss).mapLanes iss.gid iss.lanes fun t => { t with wait := .quiesce set_ }) s

/-! ### QSTAT and QFLUSH (R297-R299) -/

/-- The checks of QSTAT and QFLUSH; `hi` is the first reserved bit. -/
def queueArg (s : State) (iss : Issue) (g : Group) (a : SReg) (hi : Nat) : Except State Queue :=
  match sPoison s iss [a.toNat] with
  | some s => .error s
  | none =>
    let v := iss.sv a
    if 2 ^ hi ≤ v then .error (takeTrap s iss 0x05 { sub := 2 })
    else match s.queue? (v % 512) with
    | some q => if q.owner = s.ctxOf g then .ok q else .error (takeTrap s iss 0x0B)
    | none => .error (takeTrap s iss 0x0B)

/-- The status word (R298). -/
def queueStatus (s : State) (q : Queue) : Nat :=
  q.state * 2 ^ 29 + bitAt ((s.ctx? q.owner).elim true fun c => decide (c.state ≠ .active)) 28 + blocking s q * 2 ^ 26 +
  bitAt q.bad 25 + q.entries.length

/-- The QBUDGET word (R294). -/
def budgetWord (q : Queue) : Nat := bitAt q.latee 31 + q.budget

/-- The four words of a page (R297). The count is of entries that have left the queue. -/
def queuePage (s : State) (q : Queue) (page : Nat) : List Nat :=
  let two (x : Nat) : List Nat := [x % 2 ^ 32, x / 2 ^ 32 % 2 ^ 32]
  match page with
  | 0 =>
    let since := if q.state = 2 then q.waitingSince else 0
    [queueStatus s q, (q.pushed + 2 ^ 32 - q.entries.length) % 2 ^ 32] ++ two since
  | 1 => match q.entries, blocking s q with
    | e :: _, b + 1 => two (e.adr b) ++ two (e.val b)
    | _, _ => [0, 0, 0, 0]
  | 2 => match q.entries with
    | e :: _ => if e.sig then two e.sigadr ++ two e.sigamt else [0, 0, 0, 0]
    | [] => [0, 0, 0, 0]
  | _ => [budgetWord q, q.late, 0, 0]

/-- QSTAT (R297): the queue is sampled at the end of the clock, which includes every event of it. -/
def execQstat (d a : SReg) (s : State) : Out :=
  issued (.qstat d a) (fun iss g s =>
    match queueArg s iss g a 11 with
    | .error s => s
    | .ok q => advance ((List.range 4).foldl (fun s i => s.owe iss.gid (d.toNat + i) (.queue q.id (iss.sv a / 512) i)) s) iss) s

/-- The clock's QSTATs write what the queues then hold (R297). -/
def sampleQueues (s : State) : State :=
  s.samples.foldl (fun s e => match e.src with
    | .queue q page i => s.setS e.gid e.reg ⟨BitVec.ofNat 32 ((queuePage s ((s.queue? q).getD { id := q }) page).getD i 0), false⟩
    | .array _ => s) s

/-! ### Graph launches and their counts (R308, R310) -/

/-- Bytes of a graph object read, where they can be (R308). -/
def graphWord (s : State) (c : Context) (graph i : Nat) : Option Nat :=
  match translate s noCore c 1 (graph + 4 * i) with
  | .here pa _ => some (ofLE (s.read .dev pa 4))
  | _ => none

/-- A word of a graph's header written at its home slice. -/
def setGraphWord (s : State) (c : Context) (graph i v : Nat) : State :=
  match translate s noCore c 1 (graph + 4 * i) with
  | .here pa _ => putKeys s .dev (keysFrom pa 4) (toLE 4 v)
  | _ => s

/-- A launch is over for its slot (R308, R310): REF falls, and a Retained slot without launches is Free. -/
def endLaunch (s : State) (l : Launch) : State :=
  let s : State := { s with launches := s.launches.filter fun m => m.id != l.id }
  match s.ctx? l.ctx with
  | none => s
  | some c => match graphWord s c l.graph 0, graphWord s c l.graph (2 + l.slot), graphWord s c l.graph 6 with
    | some w0, some ref, some live =>
      let ref' := (ref + 2 ^ 32 - 1) % 2 ^ 32
      let s := setGraphWord s c l.graph (2 + l.slot) ref'
      if ref' = 0 ∧ w0 % 4 ≠ l.slot then setGraphWord s c l.graph 6 (live - bitAt (live.testBit l.slot) l.slot) else s
    | _, _, _ => s

/-- A queue is flushed (R299): entries leave without signals, and the gangs of the running entry are killed; it stays Flushing until
nothing of them is left. -/
def flushQueue (s : State) (queue : Nat) : State :=
  let xs := s.sweeps.filter fun x => x.queue == some queue
  let s := xs.foldl (fun s x => killSweep s x.id) s
  let s := (s.launches.filter fun l => l.queue == queue).foldl endLaunch s
  let s : State := match (s.queue? queue).bind (·.sigAcc) with
    | some id => dropSent { s with accs := s.accs.filter fun a => a.fetch != some id } (tagOf id)
    | none => s
  let s : State := { s with postedQ := s.postedQ.filter fun p => p.1 != queue }
  s.modQueue queue fun q => { q with entries := [], held := [], seen := [], signalling := false, sigAcc := none, nextAt := none,
                                     state := 5, waitingSince := 0 }

def execQflush (a : SReg) (s : State) : Out :=
  issued (.qflush a) (fun iss g s =>
    match queueArg s iss g a 9 with
    | .error s => s
    | .ok q => (advance (flushQueue s q.id) iss).mapLanes iss.gid iss.lanes fun t => { t with wait := .flush q.id }) s

end Sys2Proof.Machine
end

