-- ==== Sys2Proof/Machine/Kernel.lean ====
section
/-! DEFINITION. Launches (R308-R315): SPAWN, GLAUNCH, GEDIT, and the dispatcher's steps (R135, R137, R289-R291, R304,
R307, R309-R311). -/

namespace Sys2Proof.Machine

/-- A run of `n` bytes at an address that an instruction reads or edits once (R314, R315): a fault or poisoned data traps
under R169, and bytes of another module are awaited. -/
def runAt (s : State) (iss : Issue) (g : Group) (need a n : Nat) : Except State (List (Space × Nat)) :=
  let (_, c) := placeOf s g
  match placesAt s g.core c need a n with
  | .error (cs, sub, x) => .error (takeTrap s iss cs { sub := sub, addr := x })
  | .ok locs => match uniPoison s locs with
    | some sub => .error (takeTrap (noteLocs s locs) iss 0x08 { sub := sub, addr := a })
    | none => match uniFetch s iss g locs with
      | some s => .error s
      | none => .ok locs

/-- The checks of SPAWN and GLAUNCH up to the entry (R314): the queue and the entry. -/
def launchArgs (s : State) (iss : Issue) (g : Group) (q : QReg) (a : SReg) (typ : Nat) : Except State (Nat × QEntry × State) :=
  match sPoison s iss [a.toNat, a.toNat + 1] with
  | some s => .error s
  | none =>
    let c := (s.ctx? (s.ctxOf g)).getD {}
    match (spawnOf c q.toNat).bind s.queue? with
    | none => .error (takeTrap s iss 0x05 { sub := 1 })
    | some x =>
      if x.owner ≠ c.id then .error (takeTrap s iss 0x05 { sub := 1 })
      else if iss.saddr a % 64 ≠ 0 then .error (takeTrap s iss 0x05 { sub := 6 })
      else match runAt s iss g 1 (iss.saddr a) 64 with
      | .error s => .error s
      | .ok locs =>
        let (bs, s) := runRead s g.gid locs
        let e : QEntry := { words := bytesToWords bs 16 }
        if entryBad e ∨ e.typ ≠ typ then .error (takeTrap s iss 0x05 { sub := 11 }) else .ok (x.id, e, s)

/-- Lanes of an issue that stand in one wait with what it holds: they complete by themselves (R314, R308). -/
def resumed (g : Group) (iss : Issue) (f : Wait → Bool) : Option (Wait × Issue) :=
  (g.threads.find? fun t => iss.lanes.contains t.lane && f t.wait).map fun t =>
    (t.wait, { iss with lanes := (g.threads.filter fun u => iss.lanes.contains u.lane && decide (u.wait = t.wait)).map (·.lane) })
def Wait.isPush : Wait → Bool
  | .push _ _ => true
  | .graph _ _ (some _) _ => true
  | _ => false
def Wait.isEdit : Wait → Bool
  | .graph _ _ Option.none _ => true
  | _ => false

/-- SPAWN's release, wait for room, and append (R314). -/
def spawnStep (s : State) (iss : Issue) (x : Nat) (e : QEntry) : State :=
  if !drained s iss.gid iss.lanes then hold s iss (.push x e.words)
  else if queueFull s x then holdStruct s iss (.push x e.words)
  else advance (pushEntry s x e) iss

def execSpawn (q : QReg) (a : SReg) (s : State) : Out :=
  uniIssued (.spawn q a) (fun iss g s =>
    match resumed g iss Wait.isPush with
    | some (.push x ws, iss) => spawnStep s iss x { words := ws }
    | _ => match launchArgs s iss g q a 0 with
      | .error s => s
      | .ok (x, e, s) => spawnStep s iss x e) s

/-- The 64-byte header of a graph. -/
def graphHeader (s : State) (iss : Issue) (g : Group) (graph : Nat) : Except State (List (Space × Nat) × List Word × State) :=
  match runAt s iss g 1 graph 64 with
  | .error s => .error s
  | .ok locs =>
    let (bs, s) := runRead s g.gid locs
    .ok (locs, bytesToWords bs 16, s)

/-- GLAUNCH's release, its wait for room and for its turn at the graph, and the append (R308, R314): REF of the current slot grows, and
the launch captures the slot, OVERLAP and the slot's node count. `since` is when it came to the graph, if it has. -/
def glaunchStep (s : State) (iss : Issue) (g : Group) (x : Nat) (e : QEntry) (since : Option Nat) : State :=
  let wait (s : State) : State := match since with
    | some n => hold s iss (.graph e.body n (some (x, e.words)) 0)
    | none => hold s iss (.push x e.words)
  if !drained s iss.gid iss.lanes then wait s
  else if queueFull s x then (match since with
    | some n => holdStruct s iss (.graph e.body n (some (x, e.words)) 0)
    | none => holdStruct s iss (.push x e.words))
  else if !graphTurn s (s.ctxOf g) e.body (since.getD s.time) then
    (match since with
     | some _ => wait s
     | none => hold { s with time := s.time + 1 } iss (.graph e.body s.time (some (x, e.words)) 0))
  else match graphHeader s iss g e.body with
  | .error s => s
  | .ok (locs, h, s) =>
    let v := wnat h 0 % 4
    let s := deviceWrite s 0 g.core (s.ctxOf g) (e.body + 8 + 4 * v) ((locs.drop (8 + 4 * v)).take 4) (toLE 4 (wnat h (2 + v) + 1))
    let (id, s) := s.fresh
    let l : Launch := { id := id, ctx := s.ctxOf g, queue := x, graph := e.body, slot := v, overlap := (wnat h 0).testBit 2, nodes := wnat h (8 + v) }
    advance (pushEntry { s with launches := s.launches ++ [l] } x { e with launch := some id }) iss

/-- GLAUNCH (R314): the header at BODY must have its current slot live with 1 to 256 nodes. -/
def execGlaunch (q : QReg) (a : SReg) (s : State) : Out :=
  uniIssued (.glaunch q a) (fun iss g s =>
    match resumed g iss Wait.isPush with
    | some (.push x ws, iss) => glaunchStep s iss g x { words := ws } none
    | some (.graph _ n (some (x, ws)) _, iss) => glaunchStep s iss g x { words := ws } (some n)
    | _ => match launchArgs s iss g q a 1 with
      | .error s => s
      | .ok (x, e, s) => match graphHeader s iss g e.body with
        | .error s => s
        | .ok (_, h, s) =>
          let v := wnat h 0 % 4
          let n := wnat h (8 + v)
          if !(wnat h 6).testBit v || n == 0 || decide (256 < n) then takeTrap s iss 0x05 { sub := 11 }
          else glaunchStep s iss g x e none) s

/-! ### GEDIT (R315) -/

/-- A node record of a slot's bytes. -/
def nodeWord (slot : List Word) (node i : Nat) : Nat := wnat slot (16 * node + i)

/-- The record's reserved bits and its PRED bits at or above its own index (R309). -/
def nodeBad (slot : List Word) (i : Nat) : Bool :=
  bits (nodeWord slot i 1) 31 25 != 0 || ((List.range 6).any fun k => nodeWord slot i (2 + k) != 0) ||
  (List.range 256).any fun p => decide (i ≤ p) && (nodeWord slot i (8 + p / 32)).testBit (p % 32)

/-- A list of words with one set. -/
def setWord (ws : List Word) (i v : Nat) : List Word := ws.set i (BitVec.ofNat 32 v)

/-- Edit records applied in order to a slot and its node count: what they leave, and the number of the first bad record, at which
they end. -/
def applyEdits (slot : List Word) (nn : Nat) : Nat → List (List Word) → List Word × Nat × Option Nat
  | _, [] => (slot, nn, none)
  | i, r :: rs =>
    let w0 := wnat r 0
    let node := bits w0 7 0
    if bits w0 31 10 ≠ 0 ∨ bits (wnat r 1) 31 3 ≠ 0 ∨ bits w0 9 8 = 3 then (slot, nn, some i)
    else match bits w0 9 8 with
      | 0 => applyEdits (setWord (setWord slot (16 * node) (wnat r 2)) (16 * node + 1) (wnat r 3)) nn (i + 1) rs
      | 1 => applyEdits (setWord slot (16 * node + 8 + wnat r 1) (wnat r 2)) nn (i + 1) rs
      | _ => applyEdits slot (wnat r 2) (i + 1) rs

/-- The error word of GEDIT. -/
def geditError (code rec_ : Nat) : Word := BitVec.ofNat 32 (2 ^ 31 + code * 2 ^ 16 + rec_ * 2 ^ 8)

/-- What an edit has left is no valid graph (R315, R309): its node count, a record, or a block. -/
def resultBad (s : State) (c : Context) (slot : List Word) (nn : Nat) : Bool :=
  nn == 0 || decide (256 < nn) || (List.range nn).any fun i => nodeBad slot i || (readSweep s c (waddr (slot.drop (16 * i)) 0)).isNone

/-- The edit itself (R310, R315): the current slot and its NNODE are copied into the Free slot and edited there; a valid result makes
the slot current, and the old one is Retained or Free. Gives the slot, its node count, the header after it, and the word for s[D]. -/
def editGraph (s : State) (c : Context) (h slot : List Word) (new count : Nat) (recs : List Word) : List Word × List Word × Word :=
  let old := wnat h 0 % 4
  let live := wnat h 6
  let (slot, nn, bad) := applyEdits slot (wnat h (8 + old)) 0 ((List.range count).map fun i => (recs.drop (4 * i)).take 4)
  let h1 := setWord h (8 + new) nn
  match bad with
  | some i => (slot, h1, geditError 2 i)
  | none =>
    if resultBad s c slot nn then (slot, h1, geditError 3 0)
    else
      let live' := live + 2 ^ new - (if wnat h (2 + old) = 0 then bitAt (live.testBit old) old else 0)
      (slot, setWord (setWord h1 6 live') 0 (wnat h 0 - old + new), BitVec.ofNat 32 new)

/-- GEDIT of a graph by a block (R308, R315), which came to the graph at a time if it has waited there. -/
def geditStep (s : State) (iss : Issue) (g : Group) (d graph blk : Nat) (since : Option Nat) : State :=
  let ctx := s.ctxOf g
  let put (s : State) (w : Word) : State := advance (s.setS iss.gid d ⟨w, false⟩) iss
  let wait (s : State) : State := match since with
    | some n => hold s iss (.graph graph n none blk)
    | none => hold { s with time := s.time + 1 } iss (.graph graph s.time none blk)
  match runAt s iss g 3 graph 64, runAt s iss g 1 blk 16 with
  | .error s, _ => s
  | _, .error s => s
  | .ok hl, .ok bl =>
    let (hb, s) := runRead s g.gid hl
    let (bb, s) := runRead s g.gid bl
    let h := bytesToWords hb 16
    let b := bytesToWords bb 4
    let count := bits (wnat b 0) 6 0
    if bits (wnat b 0) 31 7 ≠ 0 ∨ count = 0 ∨ 64 < count ∨ (b.drop 1).any (· != 0) then put s (geditError 1 0)
    else if !graphTurn s ctx graph (since.getD s.time) then wait s
    else match (List.range 4).find? fun v => !(wnat h 6).testBit v with
    | none => wait s
    | some new =>
      let at_ (v : Nat) : Nat := graph + 64 + 16384 * v
      match runAt s iss g 1 (blk + 16) (16 * count), runAt s iss g 3 (at_ (wnat h 0 % 4)) 16384, runAt s iss g 3 (at_ new) 16384 with
      | .error s, _, _ => s
      | _, .error s, _ => s
      | _, _, .error s => s
      | .ok rl, .ok cl, .ok nl =>
        let (rb, s) := runRead s g.gid rl
        let (cb, s) := runRead s g.gid cl
        let (slot, h', w) := editGraph s ((s.ctx? ctx).getD {}) h (bytesToWords cb 4096) new count (bytesToWords rb (4 * count))
        let s := deviceWrite s 0 g.core ctx (at_ new) nl (wordsToBytes slot)
        put (deviceWrite s 0 g.core ctx graph hl (wordsToBytes h')) w

def execGedit (d a b : SReg) (s : State) : Out :=
  uniIssued (.gedit d a b) (fun iss g s =>
    match resumed g iss Wait.isEdit with
    | some (.graph graph n none blk, iss) => geditStep s iss g d.toNat graph blk (some n)
    | _ => match sPoison s iss [a.toNat, a.toNat + 1, b.toNat, b.toNat + 1] with
      | some s => s
      | none =>
        if iss.saddr a % 64 ≠ 0 ∨ iss.saddr b % 64 ≠ 0 then takeTrap s iss 0x05 { sub := 6 }
        else geditStep s iss g d.toNat (iss.saddr a) (iss.saddr b) none) s

/-! ### Nodes (R309) -/

/-- The slot's words of a node record, or none where they cannot be read. -/
def nodeRecord (s : State) (c : Context) (l : Launch) (i : Nat) : Option (List Word × State) :=
  readBlock s c (l.graph + 64 + 16384 * l.slot + 64 * i) 64

/-- What a node that has not started does next. -/
inductive NodeNext where
  | wait
  | bad (s : State)
  | start (x : Sweep) (s : State)

/-- A node whose predecessors have completed, by its record and its block (R309, R302). -/
def nodeNext (s : State) (c : Context) (l : Launch) (i : Nat) : NodeNext :=
  match nodeRecord s c l i with
  | none => .bad (blockNote s c (l.graph + 64 + 16384 * l.slot + 64 * i) 64)
  | some (ws, s) =>
    let preds := (List.range 256).filter fun p => (wnat ws (8 + p / 32)).testBit (p % 32)
    if preds.any fun p => decide (p < i) && !l.completed.contains p then .wait
    else if bits (wnat ws 1) 31 25 ≠ 0 ∨ ((List.range 6).any fun k => wnat ws (2 + k) != 0) ∨ preds.any (fun p => decide (i ≤ p)) then .bad s
    else match readSweep s c (waddr ws 0) with
      | none => .bad (blockNote s c (waddr ws 0) 384)
      | some (x, s) => if x.slide && slideRunning s c.id then .wait else .start x s

/-- The lowest node of a launch that is ready (R309), with what it does. -/
def readyNode (s : State) (l : Launch) : Option (Nat × NodeNext) :=
  match s.ctx? l.ctx with
  | none => none
  | some c =>
    if !l.begun || l.bad || decide (c.state ≠ .active) then none
    else ((List.range l.nodes).filter fun i => !l.started.contains i).findSome? fun i => match nodeNext s c l i with
      | .wait => none
      | n => some (i, n)

/-- NODE_START (R309): the lowest ready node becomes a sweep; an invalid one stops the launch and sets BAD. -/
def execNodeStart (launch : Nat) (s : State) : Out :=
  .next (match s.launch? launch with
  | none => s
  | some l => match readyNode s l with
    | none => s
    | some (i, .start x s) =>
      addSweep (s.modLaunch launch fun l => { l with started := l.started ++ [i] }) { x with queue := some l.queue, launch := some (launch, i) }
    | some (_, .wait) => s
    | some (_, .bad s) => (s.modLaunch launch fun l => { l with bad := true }).modQueue l.queue fun q => { q with bad := true })

/-- A launch has come to its end (R309). -/
def launchOver (l : Launch) : Bool :=
  l.begun && (if l.bad then l.started.all l.completed.contains else decide (l.nodes ≤ l.completed.length))

/-- GRAPH_LAUNCH_COMPLETE (R309, R310, R287): a bad launch completes without its signal. -/
def execGraphLaunchComplete (launch : Nat) (s : State) : Out :=
  .next (match s.launch? launch with
  | none => s
  | some l =>
    if !launchOver l || (s.queue? l.queue).elim true (·.signalling) then s
    else
      let s := endLaunch s l
      completeEntry s l.queue (!l.bad))

/-! ### Gangs -/

/-- GANG_PLACE (R289, R304): the first candidate that fits, when it is a run of a gang. -/
def execGangPlace (s : State) : Out :=
  .next (match chosen s with
  | some (x, .run i r, q, ms) => placeGang s x i r q ms
  | _ => s)

/-- WORKGROUP_DONE (R135). -/
def execWorkgroupDone (wg : Nat) (s : State) : Out :=
  .next (match s.wg? wg with
  | some w => if w.state = .closing ∧ ¬ wgBusy s wg then s.modWg wg fun w => { w with state := .done } else s
  | none => s)

/-- A sweep that is over ends: a resident one leaves its context (R271), a node completes (R309), and a queue's sweep
stays until its entry completes. -/
def sweepEnd (s : State) (sweep : Nat) : State :=
  match s.sweep? sweep with
  | none => s
  | some x =>
    if !sweepOver s x then s
    else
      let s := endSlide s x
      let drop (s : State) : State := { s with sweeps := s.sweeps.filter fun y => y.id != sweep }
      if x.resident then drop (s.modCtx x.ctx fun c => { c with resident := none })
      else match x.launch with
        | some (l, i) => drop (s.modLaunch l fun l => { l with completed := l.completed ++ [i] })
        | none => s

/-- A slide sweep has completed (R398): its threads are all injected and Exited, its queues and rings are empty, and its
commands and staged effects have ended. -/
def slideOver (s : State) (x : Sweep) : Bool :=
  x.slideOn && decide (x.total * 64 * x.gpw ≤ x.injected) && (slideThreads s x).isEmpty &&
  (s.wgs.all fun w => w.sweep != x.id || !wgBusy s w.id)

/-- The end of a slide sweep's fret workgroups: the sweep counts as one gang (R385, R398). -/
def retireSlide (s : State) (x : Sweep) : State :=
  let gs := s.gangs.filter fun g => g.sweep == x.id
  (gs.foldl (fun s g => freeGang s g.id) s).modSweep x.id fun y => { y with retired := 1 }

/-- A gang whose members are all Done (R136), or whose slide sweep has completed. -/
def gangDone (s : State) (g : Gang) : Bool :=
  decide (g.state = .running) && (match s.sweep? g.sweep with
    | some x => if x.slide then slideOver s x else (gangWgs s g.id).all fun w => decide (w.state = .done)
    | none => (gangWgs s g.id).all fun w => decide (w.state = .done))

/-- GANG_RETIRE (R137). -/
def execGangRetire (gang : Nat) (s : State) : Out :=
  .next (match s.gang? gang with
  | some g =>
    if !gangDone s g then s
    else match s.sweep? g.sweep with
      | some x => sweepEnd (if x.slide then retireSlide s x else retireGang s gang) g.sweep
      | none => retireGang s gang
  | none => s)

/-- A clock in which a Ready entry that does not fit is passed over counts for it (R291). -/
def countPassed (s : State) : State :=
  let hit := (candidates s).filterMap fun (x, n) => if !begun s x && (fitOf s x n).isNone then some x.id else none
  if hit.isEmpty then s else { s with sweeps := s.sweeps.map fun x => if hit.contains x.id then { x with passed := x.passed + 1 } else x }

/-- Whether a context's entry has waited longer than the quantum because it does not fit (R291), with the sweep. -/
def starved (s : State) (c : Context) : Option (Sweep × Next) :=
  if c.preemptedAt.elim false fun t => decide (s.cycle ≤ t + s.quantum) then none
  else (candidates s).find? fun (x, n) => x.ctx == c.id && !begun s x && decide (s.quantum < x.passed) && (fitOf s x n).isNone

/-- Gangs of a context on a quartet, the ones with fewest groups first (R291, log entry 2); a slide sweep is one gang (R385). -/
def gangsOn (s : State) (ctx q : Nat) : List Gang :=
  let size (g : Gang) : Nat := ((gangsWith s g.id).map fun i => (gangGroups s i).length).sum
  let gs := s.gangs.filter fun g => g.ctx == ctx && g.quartet == q && decide (g.state = .running)
  sortBy (fun a b => decide (size a ≤ size b))
    (gs.filter fun g => gs.all fun h => decide (g.id ≤ h.id) || !((gangsWith s g.id).contains h.id))

/-- The state in which some gangs hold nothing, for the question whether a candidate would fit. -/
def without (s : State) (gs : List Gang) : State :=
  gs.foldl (fun s g => match s.sweep? g.sweep with
    | some x => if x.slide then killSweep s x.id else freeGang s g.id
    | none => freeGang s g.id) s

/-- How many of a quartet's gangs must go so that a candidate fits (R291). -/
def needed (s : State) (x : Sweep) (n : Next) (gs : List Gang) : Option Nat :=
  (List.range gs.length).findSome? fun k => if (fitOf (without s (gs.take (k + 1))) x n).isSome then some (k + 1) else none

/-- QUANTUM_PREEMPT (R291): the context with the largest virtual time of the same or a lower class loses gangs on one
quartet of the waiting context's cores until the candidate would fit. -/
def execQuantumPreempt (ctx : Nat) (s : State) : Out :=
  .next (match s.ctx? ctx with
  | none => s
  | some c => match starved s c with
    | none => s
    | some (x, n) =>
      let held (o : Context) : List Gang := s.gangs.filter fun g => g.ctx == o.id && decide (g.state = .running) &&
        (gangWgs s g.id).any fun w => c.cmask.getLsbD w.core
      let vs := s.ctxs.filter fun o => decide (c.cls ≤ o.cls) && !(held o).isEmpty
      match vs.foldl (fun b o => match b with
          | none => some o
          | some p => if vtLt p o then some o else some p) none with
      | none => s
      | some o =>
        let qs := dedup ((held o).map (·.quartet))
        let opts := qs.filterMap fun q => (needed s x n (gangsOn s o.id q)).map fun k => (k, q)
        match opts with
        | [] => s
        | p :: r =>
          let (k, q) := r.foldl (fun b y => if y.1 < b.1 || (y.1 == b.1 && y.2 < b.2) then y else b) p
          let s := ((gangsOn s o.id q).take k).foldl (fun s g => preemptGang s g.id) s
          s.modCtx ctx fun c => { c with preemptedAt := some s.cycle })

end Sys2Proof.Machine
end

