-- ==== Sys2Proof/Machine/Context.lean ====
section
/-! DEFINITION. Contexts: state access (R278, R294, R362, R378, R427, R435), save and restore (R267-R280), the mailbox
(R269-R271), usage counters (R276, R277), firmware calls, IDLE and HALT (R281, R282). -/

namespace Sys2Proof.Machine

/-! ### The end of a context (R268) -/

/-- A context moves to Closing (R268): its gangs are killed as QFLUSH does, its queues dispatch nothing more, and
messages are dropped. -/
def closeCtx (s : State) (ctx : Nat) : State :=
  let s := s.modCtx ctx fun c => { c with state := .closing }
  let s := (s.queues.filter fun q => q.owner == ctx).foldl (fun s q => flushQueue s q.id) s
  let s := (s.sweeps.filter fun x => x.ctx == ctx).foldl (fun s x => killSweep s x.id) s
  let s := s.modCtx ctx fun c => { c with resident := none, residentWanted := none, q0 := [], slots := [], msgs := [] }
  let ready (t : Thread) : Thread := if t.wait = .ctxop ctx then t.ready else t
  { s with
    groups := s.groups.map fun g => { g with threads := g.threads.map ready }
    domains := s.domains.map fun d => if d.ctx = ctx then { d with state := .closing } else d }

/-- Nothing is left of a Closing context; a UCNT's record gets its DONE first (R277, R433). -/
def ctxEmpty (s : State) (c : Context) : Bool :=
  decide (c.state = .closing) && c.ucntPending.isNone && !(s.gangs.any fun g => g.ctx == c.id) &&
  !(s.cmds.any fun d => d.ctx == c.id && decide (d.state = .running)) && !(s.xfers.any fun x => x.ctx == c.id && x.stage != 3)

/-- CONTEXT_ABSENT (R268): the context, its queues and its counters are gone; its domains follow R321, and its COPYR regions leave the
slices, so that those of a later context of the number begin at 0 (R238). -/
def execContextAbsent (ctx : Nat) (s : State) : Out :=
  .next (match s.ctx? ctx with
  | none => s
  | some c =>
    if !ctxEmpty s c then s
    else
      let lost := s.domains.filter fun d => d.ctx == ctx &&
        s.xfers.any fun x => x.dom == d.id && x.ctx == ctx && x.stage == 3
      let s := lost.foldl (fun s d => healthPush s 0x0C (ctx * 256 + d.id) 0) s
      { s with
        ctxs := s.ctxs.filter fun c => c.id != ctx
        queues := s.queues.filter fun q => q.owner != ctx
        regions := s.regions.filter fun r => r.ctx != ctx
        markers := s.markers.filter fun m => m.1 != ctx
        held := s.held.filter fun h => h.ctx != ctx
        domains := s.domains.filter fun d => d.ctx != ctx
        xfers := s.xfers.filter fun x => !(x.ctx == ctx && x.stage == 3) })

/-! ### State access (R278) -/

/-- The state code of R268. -/
def ctxCode : CtxState → Nat
  | .absent => 0
  | .active => 1
  | .saving => 2
  | .saved => 3
  | .closing => 4
/-- The state code of R371. -/
def linkCode : LinkState → Nat
  | .disabled => 0
  | .training => 1
  | .up => 2
  | .retrain => 3
  | .down => 4

/-- Peers of a context's partition, its own among them (R378). -/
def inPartition (c : Context) (p : Nat) : Bool := p == Config.peerId || c.partition_.contains p

/-- The value that SRD reads of a context's state (R278, R294, R362, R378, R427, R435); `hq` is the group's HQHI. -/
def srdValue (s : State) (c : Context) (hq : Word) (n : Nat) : Nat :=
  let mine : Option Queue := (s.queue? c.qsel).bind fun q => if q.owner = c.id then some q else none
  if n = 0x000 then c.id
  else if n = 0x001 then ctxWord c + ctxCode c.state * 2 ^ 13
  else if n = 0x002 then ctxWord c
  else if 0x008 ≤ n ∧ n ≤ 0x00F then flagWord fun i => c.cmask.getLsbD (32 * (n - 8) + i)
  else if n = 0x011 then c.mbseq
  else if n = 0x012 then c.mbdrop % 2 ^ 32
  else if n = 0x013 then c.mbring % 2 ^ 32
  else if n = 0x014 then c.mbring / 2 ^ 32 % 2 ^ 25
  else if n = 0x020 then c.pagecfg.toNat
  else if n = 0x022 then c.frames.length
  else if n = 0x023 then s.ftoexp
  else if n = 0x024 then c.peersel
  else if n = 0x025 then ((List.range 10).map fun i => linkCode (sget {} s.links i : Link).state * 2 ^ (3 * i)).sum
  else if n = 0x026 then
    bitAt (s.populated.contains c.peersel) 0 + bitAt (s.enabled.contains c.peersel) 1 + bitAt (inPartition c c.peersel) 2
  else if n = 0x027 then linkCode (sget {} s.links 10 : Link).state + 8 * linkCode (sget {} s.links 11 : Link).state
  else if n = 0x029 then hq.toNat
  else if n = 0x02A then s.hqovf.toNat
  else if n = 0x02B then s.cntReg.toNat
  else if n = 0x02C then s.cntMem.toNat
  else if n = 0x02D then s.cntUnc.toNat
  else if n = 0x02E then s.spares.toNat
  else if n = 0x030 then flagWord s.qmask.getLsbD
  else if n = 0x031 then flagWord fun i => s.qmask.getLsbD (32 + i)
  else if 0x038 ≤ n ∧ n ≤ 0x03F then flagWord fun i => (s.core (32 * (n - 0x38) + i)).disabled
  else if n = 0x040 then s.pwrst.toNat
  else if 0x100 ≤ n ∧ n ≤ 0x17F then flagWord fun i => inPartition c (32 * (n - 0x100) + i)
  else if 0x204 ≤ n ∧ n ≤ 0x207 then (sget 0 c.spbind (n - 0x204) : Word).toNat
  else if 0x208 ≤ n ∧ n ≤ 0x20F then (sget 0 c.wlbind (n - 0x208) : Word).toNat
  else if n = 0x210 then c.qsel
  else if n = 0x211 then ((s.queue? c.qsel).map (·.state)).getD 0
  else if n = 0x212 then (mine.map budgetWord).getD 0xFFFFFFFF
  else if n = 0x213 then (mine.map (·.late)).getD 0xFFFFFFFF
  else 0

/-- The target context of a state access; OTHER needs privilege (R278). -/
def stateTarget (s : State) (g : Group) (other : Bool) (ctx : BitVec 6) : Nat := if other then ctx.toNat else s.ctxOf g

/-- SRD (R278): the value, with the other effect that reading it has. -/
def srdEff (x : SrdF) (pop : Bool) (iss : Issue) (g : Group) (s : State) : State :=
  let n := x.num.toNat
  match s.ctx? (stateTarget s g x.other x.ctx) with
  | none => advance (s.setS iss.gid x.d.toNat ⟨0xFFFFFFFF, false⟩) iss 2
  | some c =>
    if pop then
      let item := (s.health.headD 0)
      let s : State := { s with health := s.health.tail }
      let s := if item = 0 then s else s.modGroup iss.gid fun g => { g with hqHigh := (item >>> 32).setWidth 32 }
      advance (s.setS iss.gid x.d.toNat ⟨item.setWidth 32, false⟩) iss 2
    else advance (s.setS iss.gid x.d.toNat ⟨BitVec.ofNat 32 (srdValue s c g.hqHigh n), false⟩) iss 2

def execSrd (x : SrdF) (s : State) : Out := issued (.srd x) (srdEff x false) s
def execHqpop (x : SrdF) (s : State) : Out := issued (.hqpop x) (srdEff x true) s

/-- A work-list binding written: a list that gains its first binding is Open, and one that loses its last holds nothing
(R312). -/
def bindList (c : Context) (i : Nat) (w : Word) : Context :=
  let w := w &&& 0x8000003F#32
  let names (l : List (Nat × Word)) (n : Nat) : Bool := l.any fun x => x.2.getLsbD 31 && bits x.2.toNat 5 0 == n
  let bs := sset 0 c.wlbind i w
  let fresh (n : Nat) : Bool := !(names bs n && names c.wlbind n)
  { c with wlbind := bs, lists := c.lists.filter fun x => !fresh x.1 }

/-- A queue is created (R294). -/
def createQueue (s : State) (ctx q : Nat) : State :=
  if (s.queue? q).isSome then s else { s with queues := s.queues ++ [{ id := q, owner := ctx, state := 1 }] }
/-- An owned Idle queue is destroyed (R294). -/
def destroyQueue (s : State) (ctx q : Nat) : State :=
  { s with queues := s.queues.filter fun x => !(x.id == q && x.owner == ctx && x.state == 1) }

/-- The peers of a partition with 32 of them written from a word (R378). -/
def setPartition (l : List Nat) (w : Nat) (v : Word) : List Nat :=
  (l.filter fun p => p / 32 != w) ++ ((List.range 32).filter v.getLsbD).map (32 * w + ·)

/-- A write of a context's state (R278, R294, R362, R378). -/
def swrApply (s : State) (ctx n : Nat) (v : Word) : State :=
  let x := v.toNat
  let own (f : Queue → Queue) : State :=
    let q := ((s.ctx? ctx).map (·.qsel)).getD 0
    s.modQueue q fun r => if r.owner = ctx then f r else r
  if n = 0x002 then
    if bits x 7 0 = 0 ∨ bits x 9 8 = 3 then s
    else s.modCtx ctx fun c => { c with weight := bits x 7 0, cls := bits x 9 8, mask21 := x.testBit 12 }
  else if 0x008 ≤ n ∧ n ≤ 0x00F then
    s.modCtx ctx fun c =>
      let sh := 32 * (n - 8)
      { c with cmask := (c.cmask &&& ~~~(0xFFFFFFFF#256 <<< sh)) ||| (v.setWidth 256 <<< sh) }
  else if n = 0x018 then
    { s with regions := s.regions.filter fun r => !(r.ctx == ctx && r.region == x % 4096),
             markers := s.markers.filter fun m => !(m.1 == ctx && m.2.1 == x % 4096) }
  else if n = 0x019 then
    if x = 1 ∧ ((s.ctx? ctx).elim false fun c => decide (c.state ≠ .closing)) then closeCtx s ctx else s
  else if n = 0x020 then
    s.modCtx ctx fun c =>
      let wexp := if 16 ≤ x % 32 ∧ x % 32 ≤ 30 then v &&& 0x1F#32 else c.pagecfg &&& 0x1F#32
      { c with pagecfg := (v &&& 0x80000000#32) ||| wexp }
  else if n = 0x021 then s.modCtx ctx fun c => if 256 ≤ c.frames.length then c else { c with frames := c.frames ++ [x] }
  else if n = 0x024 then s.modCtx ctx fun c => { c with peersel := x % 4096 }
  else if 0x100 ≤ n ∧ n ≤ 0x17F then s.modCtx ctx fun c => { c with partition_ := setPartition c.partition_ (n - 0x100) v }
  else if 0x204 ≤ n ∧ n ≤ 0x207 then s.modCtx ctx fun c => { c with spbind := sset 0 c.spbind (n - 0x204) (v &&& 0x800001FF#32) }
  else if 0x208 ≤ n ∧ n ≤ 0x20F then s.modCtx ctx fun c => bindList c (n - 0x208) v
  else if n = 0x210 then s.modCtx ctx fun c => { c with qsel := x % 512 }
  else if n = 0x211 then
    let q := ((s.ctx? ctx).map (·.qsel)).getD 0
    if x = 1 then createQueue s ctx q else if x = 2 then destroyQueue s ctx q else s
  else if n = 0x212 then own fun q => { q with latee := x.testBit 31, budget := if x % 32768 = 0 then 32767 else x % 32768 }
  else if n = 0x213 then own fun q => { q with late := x }
  else s

/-- SWR (R278); `forced` is the value of a form that fixes it. -/
def swrEff (x : SwrF) (forced : Option Word) (iss : Issue) (g : Group) (s : State) : State :=
  let n := x.num.toNat
  match sPoison s iss [x.a.toNat] with
  | some s => s
  | none =>
    let ctx := stateTarget s g x.other x.ctx
    advance (if (s.ctx? ctx).isSome then swrApply s ctx n (forced.getD (BitVec.ofNat 32 (iss.sv x.a))) else s) iss 2

def execSwr (x : SwrF) (s : State) : Out := issued (.swr x) (swrEff x none) s
def execCtxset (x : SwrF) (s : State) : Out := issued (.ctxset x) (swrEff x none) s
def execCmaskWrite (x : SwrF) (s : State) : Out := issued (.cmaskWrite x) (swrEff x none) s
def execRgnrst (x : SwrF) (s : State) : Out := issued (.rgnrst x) (swrEff x none) s
def execCtlcmd (x : SwrF) (s : State) : Out := issued (.ctlcmd x) (swrEff x none) s
def execQcmdCreate (x : SwrF) (s : State) : Out := issued (.qcmdCreate x) (swrEff x (some 1)) s
def execQcmdDestroy (x : SwrF) (s : State) : Out := issued (.qcmdDestroy x) (swrEff x (some 2)) s
def execQbudget (x : SwrF) (s : State) : Out := issued (.qbudget x) (swrEff x none) s
def execQlate (x : SwrF) (s : State) : Out := issued (.qlate x) (swrEff x none) s
def execPagecfg (x : SwrF) (s : State) : Out := issued (.pagecfg x) (swrEff x none) s
def execFrmpush (x : SwrF) (s : State) : Out := issued (.frmpush x) (swrEff x none) s
def execPartmask (x : SwrF) (s : State) : Out := issued (.partmask x) (swrEff x none) s

/-! ### BSAVE and BRST (R279, R203) -/

/-- An entry from its image, or none for one that BRST refuses. EXPECT stays the workgroup's own (R204). -/
def barrierOf (old : Barrier) (bs : List Byte) : Option Barrier :=
  let w0 := ofLE (bs.take 4)
  let w1 := ofLE ((bs.drop 4).take 4)
  let mask (o : Nat) : BitVec 1024 := BitVec.ofNat 1024 (ofLE ((bs.drop o).take 128))
  if bits w0 14 11 ≠ 0 ∨ 2048 ≤ w1 ∨ (ofLE ((bs.drop 8).take 8)) ≠ 0 ∨ mask 16 &&& mask 144 ≠ 0 then none
  else some { phase := BitVec.ofNat 16 (w0 / 2 ^ 16), broken := w0.testBit 15, expect := old.expect, count := w1, arrived := mask 16,
              doneM := mask 144, wait := mask 272 }

def execBsave (r : RecN) (s : State) : Out :=
  uniIssued (.bsave r) (fun iss g s =>
    match uniAccess s iss g r 6400 [0, 1] 2 with
    | .stop s => s
    | .oob s => advance s iss
    | .ok s locs =>
      let (w, _) := placeOf s g
      uniStore s iss g (recAt iss.snap r).base locs ((List.range 16).flatMap fun n => barrierImage (sget {} w.barriers n))) s

/-- The waiters of a workgroup's entries follow the WAIT masks (R275, R279). -/
def rewait (s : State) (wg : Nat) (bs : List (Nat × Barrier)) : State :=
  let fix (g : Group) (t : Thread) : Thread :=
    let on (n : Nat) : Bool := (sget {} bs n : Barrier).wait.getLsbD (g.grpId * 64 + t.lane)
    if t.exited then t
    else match (List.range 16).find? on with
      | some n => match t.wait with
        | .bar m u p => if m = n then t else { t with wait := .bar n u p }
        | _ => { t with wait := .bar n none 0 }
      | none => match t.wait with
        | .bar _ _ _ => t.ready
        | _ => t
  { s with groups := s.groups.map fun g => if g.wg = wg then { g with threads := g.threads.map (fix g) } else g }

def execBrst (r : RecN) (s : State) : Out :=
  uniIssued (.brst r) (fun iss g s =>
    match uniAccess s iss g r 6400 [0, 1] 1 with
    | .stop s => s
    | .oob s => advance s iss
    | .ok s locs =>
      let (bytes, s) := uniRead s g.gid locs
      let (w, _) := placeOf s g
      let es := (List.range 16).map fun n => (n, barrierOf (sget {} w.barriers n) ((bytes.drop (400 * n)).take 400))
      if es.any fun e => e.2.isNone then takeTrap s iss 0x05 { sub := 2 }
      else
        let bs := es.foldl (fun m (n, b) => sset {} m n (b.getD {})) []
        let s := (advance s iss).modWg w.id fun w => { w with barriers := bs }
        (List.range 16).foldl (fun s n => barTest s w.id n) (rewait s w.id bs)) s

/-! ### CSAVE and CRST (R267, R268, R280) -/

/-- Cores of a mask that are enabled (R267). -/
def maskCores (s : State) (m : BitVec 256) : List Nat :=
  (List.range Config.numCores).filter fun k => m.getLsbD k && s.qmask.getLsbD (k / 4) && !(s.core k).disabled

/-- A header's core mask. -/
def headerMask (ws : List Word) : BitVec 256 :=
  BitVec.ofNat 256 (((List.range 8).map fun i => wnat ws (9 + i) * 2 ^ (32 * i)).sum)

/-- The headers that are not valid (R267). -/
def headerBad (s : State) (ws : List Word) : Bool :=
  let w := wnat ws
  let m := headerMask ws
  ((List.range 42).any fun i => w (22 + i) != 0) || bits (w 2) 31 13 != 0 || bits (w 2) 9 8 == 3 || bits (w 2) 7 0 == 0 || w 1 != 0 ||
  decide (1 < bits (w 0) 31 28) || bits (w 0) 27 6 != 0 || bits (w 6) 31 16 != 0 || (maskCores s m).isEmpty ||
  decide (w 21 < Config.saveHeader + Config.saveCoreBytes * ((List.range 256).filter m.getLsbD).length)

/-- A context from a new image's header and tensor table. -/
def ctxOfHeader (id : Nat) (ws : List Word) (tensors : List (Nat × List Word)) : Context :=
  let w := wnat ws
  { id := id, state := .active, weight := bits (w 2) 7 0, cls := bits (w 2) 9 8, world := (w 2).testBit 10, priv := (w 2).testBit 11,
    mask21 := (w 2).testBit 12, cmask := headerMask ws, rsmask := BitVec.ofNat 48 (w 5 + 2 ^ 32 * (w 6 % 2 ^ 16)),
    ptroot := w 3 + 2 ^ 32 * w 4, mbring := w 7 + 2 ^ 32 * (w 8 % 2 ^ 25), entry := w 17 + 2 ^ 32 * w 18, param := w 19 + 2 ^ 32 * w 20,
    saveSize := w 21, tensors := tensors }

/-- The tensor table of an area's bytes. -/
def tensorsOf (bs : List Byte) : List (Nat × List Word) :=
  (List.range 256).foldl (fun m n =>
    let ws := bytesToWords ((bs.drop (256 + 128 * n)).take 128) 32
    sset [] m n (if ws.all (· == 0) then [] else ws)) []

/-- The resident gang's sweep by R271, or none where its block fails the checks. -/
def residentSweep (s : State) (c : Context) : Option (Sweep × State) :=
  (readSweep s c c.param).bind fun (x, s) =>
    if x.slide || x.total != 1 || x.wpg != 1 || x.code != c.entry then none else some ({ x with resident := true }, s)

/-- The resident gang becomes a candidate of the dispatcher (R271, R438). -/
def wantResident (s : State) (ctx since : Nat) (x : Sweep) : State :=
  let id := s.nextId
  let s := (addSweep s x).modSweep id fun y => { y with readySince := since }
  s.modCtx ctx fun c => { c with resident := some id, residentWanted := none }

/-- The checks of CSAVE and CRST that lead to the target context's number (R280). -/
def ctxArg (s : State) (iss : Issue) (g : Group) (a : SReg) : Except State Nat :=
  match sPoison s iss [a.toNat] with
  | some s => .error s
  | none =>
    if 64 ≤ iss.sv a then .error (takeTrap s iss 0x05 { sub := 2 })
    else if iss.sv a = s.ctxOf g then .error (takeTrap s iss 0x05 { sub := 10 })
    else .ok (iss.sv a)

/-- The record of a save area reaches too few bytes for it (R280). -/
def areaShort (s : State) (iss : Issue) (g : Group) (rn : RecN) (n : Nat) : Bool :=
  let r := recAt iss.snap rn
  !r.poi && (recBad r [0] true).isNone && !inRange s (placeOf s g).1 r 0 n false

def execCsave (a : SReg) (r : RecN) (s : State) : Out :=
  uniIssued (.csave a r) (fun iss g s =>
    match ctxArg s iss g a with
    | .error s => s
    | .ok t =>
      match s.ctx? t with
      | none => takeTrap s iss 0x05 { sub := 10 }
      | some c =>
        if c.state ≠ .active ∨ areaShort s iss g r c.saveSize then takeTrap s iss 0x05 { sub := 10 }
        else match uniAccess s iss g r Config.saveHeader [0] 2 with
        | .stop s => s
        | .oob s => advance s iss
        | .ok s _ =>
          let gs := s.gangs.filter fun x => x.ctx == t && decide (x.state = .running)
          let s := s.modCtx t fun c => { c with state := .saving, saveAt := (recAt iss.snap r).base, saver := s.ctxOf g }
          let s := (gs.map (·.id)).foldl preemptGang s
          saveDone ((advance s iss).mapLanes iss.gid iss.lanes fun th => { th with wait := .ctxop t }) t) s

def execCrst (a : SReg) (r : RecN) (s : State) : Out :=
  uniIssued (.crst a r) (fun iss g s =>
    let bad (s : State) : State := takeTrap s iss 0x05 { sub := 10 }
    match ctxArg s iss g a with
    | .error s => s
    | .ok t =>
      if areaShort s iss g r Config.saveHeader then bad s
      else match uniAccess s iss g r Config.saveHeader [0] 1 with
      | .stop s => s
      | .oob s => advance s iss
      | .ok s locs =>
        let (bs, s) := uniRead s g.gid locs
        let area (c : Context) : Context := { c with saveAt := (recAt iss.snap r).base, saver := s.ctxOf g }
        let ws := bytesToWords bs 64
        if headerBad s ws || areaShort s iss g r (wnat ws 21) then bad s
        else match s.ctx? t with
        | some c =>
          if c.state ≠ .saved ∨ bits (wnat ws 0) 31 28 ≠ 1 ∨ wnat ws 0 % 64 ≠ t then bad s
          else fairBump (advance (s.modCtx t fun c => area { c with state := .active, tensors := tensorsOf bs }) iss) t
        | none =>
          if bits (wnat ws 0) 31 28 ≠ 0 then bad s
          else
            let c := area (ctxOfHeader t ws (tensorsOf bs))
            match residentSweep s c with
            | none => bad (blockNote s c c.param 384)
            | some (x, s) =>
              let s : State := { s with ctxs := s.ctxs ++ [c] }
              fairBump (wantResident (advance s iss) t s.cycle x) t) s

/-! ### Pre-emption (R272, R275) -/

/-- PREEMPT (R272): issue of a running gang stops. -/
def execPreempt (gang : Nat) (s : State) : Out := .next (preemptGang s gang)

/-- PREEMPT_LOAD_TIMEOUT (R272): loads outstanding after 2,048 clk are cancelled; restore performs them again. -/
def execPreemptLoadTimeout (gang : Nat) (s : State) : Out :=
  .next (match s.gang? gang with
  | none => s
  | some g =>
    if g.state = .preempting ∧ g.stopAt + Config.preemptWait ≤ s.cycle then
      let ls := gangLoads s gang
      let ids := ls.map (·.id)
      (ids.foldl (fun s i => dropSent s (tagOf i)) { s with accs := s.accs.filter fun a => !ids.contains a.id }).modGang gang fun g => { g with redo := g.redo ++ ls }
    else s)

/-- Whether a gang's save may complete (R272). -/
def saveDue (s : State) (g : Gang) : Bool :=
  decide (g.state = .preempting) && (gangLoads s g.id).isEmpty && saveReady s g.id &&
  (!statusOpen s g.id || decide (g.stopAt + Config.preemptWait ≤ s.cycle))

/-- SAVE_COMPLETE (R272, R273). -/
def execSaveComplete (gang : Nat) (s : State) : Out :=
  .next (match s.gang? gang with
  | some g => if saveDue s g then saveDone (saveGang s gang) g.ctx else s
  | none => s)

/-- RESTORE (R275, R306): the dispatcher's first candidate that fits is this saved gang. -/
def execRestore (gang : Nat) (s : State) : Out :=
  .next (match chosen s with
  | some (x, .saved g, q, ms) =>
    if g ≠ gang then s
    else if x.slide then (gangsWith s g).foldl (fun s i => restoreGang s i q ((gangWgs s i).map fun w => (w.core, []))) s
    else restoreGang s g q ms
  | _ => s)

/-! ### The mailbox (R269-R271) -/

/-- The slots that a range of window bytes touches. -/
def slotsTouched (off n : Nat) : List Nat := (List.range 256).filter fun k => decide (64 * k < off + n ∧ off < 64 * k + 64)

/-- The q0 item of a message (R270). -/
def messageItem (seq slot kind : Nat) (err : Bool) : DWord :=
  BitVec.ofNat 64 (seq + slot * 2 ^ 16 + kind * 2 ^ 24 + bitAt err 31)

/-- Bytes at an address for the mailbox engine (R270, R194), or none where the access faults; `marked` asks for lines without a mark or
uncorrectable sector. -/
def engineWrite (s : State) (c : Context) (key a : Nat) (bs : List Byte) (marked : Bool) : Option State :=
  match placesAt s noCore c 2 a bs.length with
  | .error _ => none
  | .ok locs => if marked && (uniPoison s locs).isSome then none else some (deviceWrite s key noCore c.id a locs bs)

/-- The head message of the engine changed. -/
def modMsg (s : State) (ctx : Nat) (f : Msg → Msg) : State :=
  s.modCtx ctx fun c => { c with msgs := match c.msgs with
    | m :: r => f m :: r
    | [] => [] }

/-- A message is over (R270): its item is pushed, and a context without its resident gang wants it relaunched (R271). -/
def mailDone (s : State) (ctx : Nat) (m : Msg) (err : Bool) : State :=
  let s := (dropFetched s m.id).modCtx ctx fun c =>
    { c with msgs := c.msgs.tail,
             residentWanted := if m.stage = 3 then c.residentWanted else if c.resident.isNone then some (c.residentWanted.getD s.cycle) else none }
  q0Push s ctx (messageItem m.seq m.slot m.kind err)

/-- The mailbox engine goes on with its first message (R194, R270): the copy into the ring, after its acknowledgement the bytes of a
write message, and after theirs the item. A marked line that those bytes cover in part keeps its own, and is no error of the message. -/
def mailStep (s : State) (ctx : Nat) : State :=
  match (s.ctx? ctx).bind fun c => c.msgs.head?.map fun m => (c, m) with
  | none => s
  | some (c, m) =>
    if s.accs.any fun a => a.fetch == some m.id then s
    else
      let failed := m.err || s.fetched.any fun f => f.key == m.id && f.cause != 0 && (decide (m.stage ≠ 2) || !(f.cause == 0x08 || f.cause == 0x60))
      match m.stage with
      | 0 => match engineWrite s c m.id (c.mbring + 64 * m.slot) (readBytes ((sget {} c.slots m.slot : Slot).bytes) 0 64) true with
        | none => mailDone s ctx m true
        | some s => modMsg s ctx fun m => { m with stage := 1 }
      | 1 =>
        if failed || m.kind != 1 then mailDone s ctx m failed
        else match engineWrite s c m.id m.va m.data false with
          | none => mailDone s ctx m true
          | some s => modMsg s ctx fun m => { m with stage := 2 }
      | _ => mailDone s ctx m failed

/-- A control word of a slot (R270). -/
def controlWord (s : State) (c : Context) (slot : Nat) (w : Word) : State :=
  let x := w.toNat
  let sl : Slot := sget {} c.slots slot
  let seq := bits x 15 0
  let kind := bits x 30 28
  let len := bits x 27 22
  let take (s : State) (bytes : Memory) (m : Msg) : State :=
    s.modCtx c.id fun c => { c with msgs := c.msgs ++ [m], slots := sset {} c.slots slot { bytes := bytes, busy := true } }
  let (id, s) := s.fresh
  if sl.busy then s.modCtx c.id fun c => { c with mbdrop := c.mbdrop + 1 }
  else if !w.getLsbD 31 then s
  else if seq ≠ c.mbseq ∨ seq % 256 ≠ slot ∨ bits x 21 16 ≠ 0 ∨ 2 ≤ kind ∨ (kind = 1 ∧ (len = 0 ∨ 48 < len)) then
    take s sl.bytes { id := id, slot := slot, seq := seq, kind := kind, stage := 3, err := true }
  else
    let bytes := writeBytes sl.bytes 60 (toLE 4 x)
    let s := take s bytes { id := id, slot := slot, seq := seq, kind := kind, va := ofLE (readBytes bytes 0 8), data := readBytes bytes 8 len }
    s.modCtx c.id fun c => { c with mbseq := (c.mbseq + 1) % 2 ^ 16 }

/-- Whether host writes reach a context's window, at the port of its function (R268, R429, R430). -/
def windowOpen (s : State) (c : Context) : Bool :=
  let port := functionPort s c.id
  portUp s port && !streamBad s c.id port && decide (c.state ≠ .closing)

/-- A non-secure function that reaches a secure context (R432). -/
def windowWorld (s : State) (c : Context) : Bool := c.world && !s.secureFunctions.contains c.id

/-- MAILBOX_SLOT_WRITE (R270): a host write transaction of bytes within the window; one that meets a slot whose item has
not been popped is dropped and counted once. -/
def execMailboxSlotWrite (ctx off : Nat) (data : List Byte) (s : State) : Out :=
  .next (match s.ctx? ctx with
  | none => s
  | some c =>
    let ks := slotsTouched off data.length
    if !windowOpen s c || decide (16384 < off + data.length) then s
    else if windowWorld s c then noteWorld s
    else if ks.any fun k => (sget {} c.slots k : Slot).busy then s.modCtx ctx fun c => { c with mbdrop := c.mbdrop + 1 }
    else
      let body (k : Nat) (l : Slot) : Slot :=
        { l with bytes := (List.range 60).foldl (fun m i =>
            if off ≤ 64 * k + i ∧ 64 * k + i < off + data.length then sset 0 m i (data.getD (64 * k + i - off) 0) else m) l.bytes }
      let s := s.modCtx ctx fun c => { c with slots := ks.foldl (fun sl k => sset {} sl k (body k (sget {} sl k))) c.slots }
      ks.foldl (fun s k =>
        let o := 64 * k + 60
        if off ≤ o ∧ o + 4 ≤ off + data.length then
          controlWord s ((s.ctx? ctx).getD {}) k (BitVec.ofNat 32 (ofLE ((data.drop (o - off)).take 4)))
        else s) s)

/-- MAILBOX_MESSAGE (R270): a host write of a slot's control word alone; with a slot number past the window, the engine's own next
step. -/
def execMailboxMessage (ctx slot : Nat) (control : Word) (s : State) : Out :=
  .next (match s.ctx? ctx with
  | none => s
  | some c =>
    if 256 ≤ slot then mailStep s ctx
    else if !windowOpen s c then s
    else if windowWorld s c then noteWorld s else controlWord s c slot control)

/-- What a host read of any word of a window returns (R269, R429). -/
def windowRead (s : State) (ctx : Nat) : Word := BitVec.ofNat 32 (((s.ctx? ctx).map (·.popped)).getD 0)

/-- RESIDENT_RELAUNCH (R271): the block is read again; a failed check is reported. -/
def execResidentRelaunch (ctx : Nat) (s : State) : Out :=
  .next (match s.ctx? ctx with
  | none => s
  | some c => match c.residentWanted with
    | none => s
    | some t =>
      if c.state ≠ .active ∨ c.resident.isSome then s
      else match residentSweep s c with
        | some (x, s) => wantResident s ctx t x
        | none => healthPush ((blockNote s c c.param 384).modCtx ctx fun c => { c with residentWanted := none }) 0x0E ctx 0)

/-! ### UCNT (R277), WCALL, IDLE and HALT (R281, R282) -/

/-- Bytes of a usage record. -/
def usageBytes : Nat := 16736

/-- UCNT (R277): the counters are sampled in its clock. -/
def execUcnt (r : RecN) (s : State) : Out :=
  uniIssued (.ucnt r) (fun iss g s =>
    match uniAccess s iss g r usageBytes [0] 3 with
    | .stop s => s
    | .oob s => advance s iss
    | .ok s locs =>
      let (_, c) := placeOf s g
      match uniPoison s (locs.take 16) with
      | some sub => takeTrap (noteLocs s (locs.take 16)) iss 0x08 { sub := sub, addr := (recAt iss.snap r).base }
      | none =>
        let s := fixLocs s (locs.take 16)
        if c.ucntPending.isSome then hold s iss .retry
        else
          let count (n : Nat) : Nat := ((s.ctx? c.id).map fun c => c.usage.getD n 0).getD 0
          let bs := toLE 4 c.id ++ toLE 2 Config.peerId ++ toLE 2 0 ++ toLE 8 s.cycle ++ ((List.range 11).flatMap fun n => toLE 8 (count n)) ++
            toLE 4 0 ++ toLE 4 3
          let (id, s) := s.fresh
          let base := (recAt iss.snap r).base
          uniStore (s.modCtx c.id fun c => { c with ucntPending := some (base, id, false) }) iss g (base + 16) ((locs.drop 16).take bs.length) bs) s

/-- UCNT_SIGN_DONE (R277, R433): the signatures, then, once they have been acknowledged, DONE = 1; after the keys are erased no signature
and DONE = 2. -/
def execUcntSignDone (ctx : Nat) (s : State) : Out :=
  .next (match s.ctx? ctx with
  | none => s
  | some c => match c.ucntPending with
    | none => s
    | some (a, id, sent) =>
      if (s.accs.any fun x => x.ctx == ctx && decide (x.op = .store) && decide (a ≤ x.va ∧ x.va < a + 128)) ||
          (s.accs.any fun x => x.fetch == some id) then s
      else
        let s := dropFetched s id
        let put (s : State) (p : Option (Nat × Nat × Bool)) : State := s.modCtx ctx fun c => { c with ucntPending := p }
        match placesAt s noCore c 2 a usageBytes with
        | .error _ => put s none
        | .ok locs =>
          if s.keys && !sent then
            deviceWrite (put s (some (a, id, true))) id noCore ctx (a + 128) (locs.drop 128) ((List.range (usageBytes - 128)).map (Config.signatureByte id))
          else
            deviceWrite (put s none) 0 noCore ctx (a + 120) ((locs.drop 120).take 4) (toLE 4 (if s.keys then 1 else 2)))

/-- The earliest firmware call of a group that has not returned: its service and number. -/
def firstCall (g : Group) : Option (Nat × Nat) :=
  g.threads.foldl (fun b t => match t.wait with
    | .wcall k n => match b with
      | some (_, m) => if n < m then some (k, n) else b
      | none => some (k, n)
    | _ => b) none

/-- The results of a firmware service in s0 to s3, and the threads of the call go on (R281). -/
def wcallEnd (s : State) (gid call : Nat) (ws : List Word) : State :=
  let ready (t : Thread) : Thread := match t.wait with
    | .wcall _ n => if n = call then t.ready else t
    | _ => t
  (s.setSs gid 0 ws).modGroup gid fun g => { g with threads := g.threads.map ready }

/-- What a service that the boot firmware does not define returns (R281). -/
def undefinedService : List Word := [0xFFFFFFFF, 0, 0, 0]

/-- WCALL (R281): service 0 gives the security version of image 4; the boot firmware defines the others. -/
def execWcall (service : BitVec 8) (s : State) : Out :=
  issued (.wcall service) (fun iss _ s =>
    let s := advance s iss
    if service = 0 then s.setSs iss.gid 0 [BitVec.ofNat 32 (sget 0 s.fwVersions 4), 0, 0, 0]
    else
      let (call, s) := s.fresh
      s.mapLanes iss.gid iss.lanes fun t => { t with wait := .wcall service.toNat call }) s

/-- WCALL_SERVICE_RETURN (R281): the group's earliest call returns, since the step names none (DESIGN CHOICE, log entry 50): with the
results that the firmware gives, or those of an undefined service. -/
def execWcallServiceReturn (gid : Nat) (r0 r1 r2 r3 : Word) (s : State) : Out :=
  .next (match s.group? gid with
  | none => s
  | some g => match firstCall g with
    | none => s
    | some (k, n) =>
      if groupRuns s g then wcallEnd s gid n (if Config.serviceDefined k then [r0, r1, r2, r3] else undefinedService) else s)

def execIdle (s : State) : Out :=
  issued .idle (fun iss _ s =>
    (advance s iss).mapLanes iss.gid iss.lanes fun t => { t with wait := .idle (s.cycle + Config.idleWait) }) s

/-- IDLE_TIMEOUT (R282). -/
def execIdleTimeout (gid lane : Nat) (s : State) : Out :=
  .next (match s.thread? gid lane with
  | some t => match t.wait with
    | .idle u => if s.cycle < u then s else s.modThread gid lane Thread.ready
    | _ => s
  | none => s)

/-- HALT (R282): context 0 closes every context and stops the module. -/
def execHalt (s : State) : Out :=
  issued .halt (fun _ g s =>
    let ctx := s.ctxOf g
    if ctx = 0 then { (s.ctxs.map (·.id)).foldl closeCtx s with stopped := true } else closeCtx s ctx) s

end Sys2Proof.Machine
end

