-- ==== Sys2Proof/Machine/Field.lean ====
section
/-! DEFINITION. Field domains and transfers (R319-R343). -/

namespace Sys2Proof.Machine

/-! ### Domains and cells -/

def Domain.es (d : Domain) : Nat := if d.fq64 then 8 else 4
/-- The domain covers a virtual address (R319). -/
def Domain.covers (d : Domain) (va : Nat) : Bool := decide (d.base ≤ va ∧ va < d.base + d.ncell * d.es)
/-- The cell's number. -/
def Domain.cell (d : Domain) (va : Nat) : Nat := (va - d.base) / d.es
def Domain.isSource (d : Domain) (va : Nat) : Bool := d.sources.contains (d.cell va)
def Domain.isSink (d : Domain) (va : Nat) : Bool := d.sinks.contains (d.cell va)

/-- The domain of a context that covers an address with cells of a size. -/
def domainAt (s : State) (ctx es va : Nat) : Option Domain :=
  s.domains.find? fun d => d.ctx == ctx && d.es == es && d.covers va

/-- The content of a cell at a device address (R59). -/
def cellAt (s : State) (pa es : Nat) : Int :=
  let v := ofLE (s.read .dev pa es)
  if es = 8 then (BitVec.ofNat 64 v).toInt else (BitVec.ofNat 32 v).toInt

/-- A content within the format's range (R59). -/
def cellFits (es : Nat) (v : Int) : Bool :=
  if es = 8 then decide (-(2 : Int) ^ 63 ≤ v ∧ v < (2 : Int) ^ 63) else decide (-(2 : Int) ^ 31 ≤ v ∧ v < (2 : Int) ^ 31)

/-- A cell's content written. -/
def setCell (s : State) (pa es : Nat) (v : Int) : State :=
  putKeys s .dev (keysFrom pa es) (toLE es (if es = 8 then (BitVec.ofInt 64 v).toNat else (BitVec.ofInt 32 v).toNat))

/-- An amount returned to a cell. Where other transfers have filled the cell so far that the sum lies outside its format,
the spec states no content: a free value (log entry 12). -/
def returnCell (s : State) (pa es : Nat) (a : Int) : State :=
  let v := cellAt s pa es + a
  if cellFits es v then setCell s pa es v
  else
    let (lo, s) := s.free
    let (hi, s) := s.free
    putKeys s .dev (keysFrom pa es) (toLE es (lo.toNat + 2 ^ 32 * hi.toNat))

/-- Amounts added to the counters (R323). -/
def addCounters (s : State) (dom : Nat) (iss abs_ inf out tr : Int) : State :=
  s.modDom dom fun d => { d with
    issued := d.issued + BitVec.ofInt 128 iss, absorbed := d.absorbed + BitVec.ofInt 128 abs_, inflow := d.inflow + BitVec.ofInt 128 inf,
    outflow := d.outflow + BitVec.ofInt 128 out, transit := d.transit + BitVec.ofInt 128 tr }

/-- The domain total (R323). -/
def Domain.total (d : Domain) : BitVec 128 := d.issued + d.inflow - d.absorbed - d.outflow - d.transit

/-! ### Outcomes (R327, R329, R330) -/

/-- A refusal counted and recorded in a domain (R342). -/
def recordRefusal (s : State) (dom : Nat) (x : Xfer) (reason : Nat) : State :=
  s.modDom dom fun d =>
    let d := { d with count := min (d.count + 1) (2 ^ 32 - 1) }
    if d.v then { d with more := true }
    else { d with v := true, reason := reason, lane := x.visLane, code := x.pc, sidx := x.sidx, didx := x.didx, amount := BitVec.ofInt 64 x.amount }

/-- A transfer has its outcome: applied (none) or refused for a reason. An FXFERW lane receives its status; a refused
FXFER lane its deferred error. A transfer that another module relayed here is answered. -/
def endXfer (s : State) (x : Xfer) (reason : Option Nat) : State :=
  let s := dropSent { s with xfers := s.xfers.filter fun y => y.id != x.id } (tagOf x.id)
  match x.remote with
  | some p => servedRemote (answer s p (if reason.isNone then 0 else 0x29) (reason.getD 0) []) x.ctx p x.id
  | none =>
    let s := noteVal (s.usage x.ctx 9 1) x.tail (0, 0, [byteOf (if reason.isNone then 1 else 0)])
    onOwner s x.tail x.gid x.lane fun t =>
        match x.wait with
        | some p => if t.wait = .xfer x.id then (t.pset p reason.isNone false).ready else t
        | none => match reason with
          | none => t
          | some r => t.defer ⟨0x29, r, 0, [BitVec.ofNat 32 x.sidx, BitVec.ofNat 32 x.didx, BitVec.ofInt 32 x.amount,
              (BitVec.ofInt 64 x.amount >>> 32).setWidth 32]⟩

/-- A refused transfer (R327). -/
def refuse (s : State) (x : Xfer) (dom : Option Nat) (reason : Nat) : State :=
  let s := match dom with
    | some d => recordRefusal s d x reason
    | none => s
  endXfer s x (some reason)

/-! ### Application at the slices (R326-R328) -/

/-- Where a cell is. -/
inductive CellPlace where
  | here (pa : Nat)
  | peer (p : Nat)
  | lost
  deriving DecidableEq, Repr

/-- The place of a cell of a context, by the tables as they stand. An absent peer was cause 0x0C at issue (R325); one that has become
absent since gives no reason of R327, and its credit will be stranded (R332). -/
def cellPlace (s : State) (ctx va : Nat) : CellPlace :=
  match s.ctx? ctx with
  | none => .lost
  | some c => match translate s noCore c 2 va with
    | .here pa l => if l.testBit 5 then .here pa else .lost
    | .peer p _ => .peer p
    | .fault cs _ => match leafOf s noCore c va with
      | some l => if cs = 0x0C then .peer (ownerOf s ctx (va / 65536) l) else .lost
      | none => .lost

/-- A page that a migration has frozen for the transfers that came after (R334, R355). -/
def pageFrozen (s : State) (id ctx va : Nat) : Bool :=
  s.migs.any fun m => m.ctx == ctx && m.page == va / 65536 && decide (m.born ≤ id)

/-- The source-side reasons in order (R327), for a source in a domain or in none. -/
def sourceReason (s : State) (x : Xfer) (d : Option Domain) (dst : CellPlace) : Option Nat :=
  let c := cellAt s x.spa x.esize
  if x.amount < 0 then some 1
  else match d with
  | none => if !cellFits x.esize (c - x.amount) then some 4 else some 6
  | some d =>
    let src := d.isSource x.sva
    if d.nonneg && !src && decide (c - x.amount < 0) then some 2
    else if !src && !cellFits x.esize (c - x.amount) then some 4
    else if d.isSink x.sva then some 5
    else if d.state ≠ .open_ then some 6
    else match dst with
      | .here _ => match domainAt s x.ctx x.esize x.dva with
        | some e => if e.id = d.id then none else some 6
        | none => some 6
      | .peer p => if d.links.any fun l => l.1 == p then none else some 7
      | .lost => some 6

/-- The destination-side reasons here (R327). -/
def destReason (s : State) (x : Xfer) (d : Domain) (pa : Nat) : Option Nat :=
  let same := x.spa = pa ∧ x.stage = 0 ∧ ¬ d.isSource x.sva
  let c := cellAt s pa x.esize - (if same then x.amount else 0)
  if !d.isSink x.dva && !d.isSource x.dva && !cellFits x.esize (c + x.amount) then some 3
  else if d.isSource x.dva then some 5 else none

/-- The credit of a cell or its absorption (R323, R324). -/
def creditCell (s : State) (x : Xfer) (d : Domain) (pa : Nat) : State :=
  if d.isSink x.dva then s else setCell s pa x.esize (cellAt s pa x.esize + x.amount)

/-- The destination lies in the source's slice, on a page that a migration has frozen: the one step of R326 waits (R334). -/
def destFrozen (s : State) (x : Xfer) : Bool :=
  match cellPlace s x.ctx x.dva with
  | .here pa => homeSlice pa == homeSlice x.spa && pageFrozen s x.id x.ctx x.dva
  | _ => false

/-- A transfer that arrived earlier at the same home slice waits there (R328): the list holds arrived ones in their order. -/
def xferBehind (s : State) (x : Xfer) : Bool :=
  (s.xfers.takeWhile fun y => y.id != x.id).any fun y => y.stage == 0 && y.served && homeSlice y.spa == homeSlice x.spa &&
    !pageFrozen s y.id y.ctx y.sva && !destFrozen s y && !fxBehind s y [y.sva, y.dva]

/-- An earlier request of the module that relayed a transfer here comes first (R375). -/
def xferSource (s : State) (x : Xfer) : Bool := x.remote.elim false fun p => behindSource s x.id p.src

/-- A transfer can be applied at its source now: behind what arrived earlier at the slice and its thread's earlier transfers of its
cells (R187-R190), and on no page that a migration has frozen. -/
def xferReady (s : State) (x : Xfer) : Bool :=
  x.stage == 0 && x.served && !xferBehind s x && !pageFrozen s x.id x.ctx x.sva && !destFrozen s x && !fxBehind s x [x.sva, x.dva] &&
    !xferSource s x && !awaitsRelays s x.ctx x.remote
def creditReady (s : State) (x : Xfer) : Bool := x.stage == 1 && x.served && !pageFrozen s x.id x.ctx x.dva && !fxBehind s x [x.dva]

/-- A transfer that was not applied as far as this module can tell: an FXFERW lane reads 0, an FXFER lane has a deferred error as an
atomic would (R350, R376). -/
def lostXfer (s : State) (x : Xfer) (sub : Nat) (info : List Word) : State :=
  let s := noteVal (dropSent { s with xfers := s.xfers.filter fun y => y.id != x.id } (tagOf x.id)) x.tail (0, 0, [0])
  onOwner s x.tail x.gid x.lane fun t => match x.wait with
    | some q => if t.wait = .xfer x.id then (t.pset q false false).ready else t
    | none => t.defer ⟨0x60, sub, x.sva, info⟩

/-- A transfer that has issued enters the list, as the address of its source translates: on its way to the slice of its source, or to
its source's owner. One whose source no longer translates at its release (R406) is not applied. -/
def startXfer (s : State) (core : Nat) (tr : Tr) (x : Xfer) : State :=
  let r := coreRouter s core
  match tr with
  | .here pa l =>
    if l.testBit 5 then { s with xfers := s.xfers ++ [{ x with spa := pa, route := toSlice r pa }] } else lostXfer s x 4 [0x0B]
  | .peer pr _ => { s with xfers := s.xfers ++ [{ x with stage := 4, peer := pr, route := outFabric s core (portDie s x.ctx) }] }
  | .fault cs _ => lostXfer s x 4 [BitVec.ofNat 32 cs]

/-- FXFER_APPLY (R326): at the source's slice the transfer is refused, applied in one step with its credit, or debited
and sent toward its destination. An amount of 0 passes every check of R327 and changes nothing. -/
def execFxferApply (id : Nat) (s : State) : Out :=
  .next (match s.xfer? id with
  | none => s
  | some x =>
    if !xferReady s x then s
    else if x.amount = 0 then endXfer s x none
    else
      let dst := cellPlace s x.ctx x.dva
      let d? := domainAt s x.ctx x.esize x.sva
      match sourceReason s x d? dst, d? with
      | some r, _ => refuse s x (d?.map (·.id)) r
      | none, none => s
      | none, some d =>
        let src := d.isSource x.sva
        let debit (s : State) : State := if src then s else setCell s x.spa x.esize (cellAt s x.spa x.esize - x.amount)
        match dst with
        | .here pa =>
          if homeSlice pa = homeSlice x.spa then
            match destReason s x d pa with
            | some r => refuse s x (some d.id) r
            | none =>
              let s := creditCell (debit s) x d pa
              let s := addCounters s d.id (if src then x.amount else 0) (if d.isSink x.dva then x.amount else 0) 0 0 0
              endXfer s x none
          else
            let s := addCounters (debit s) d.id (if src then x.amount else 0) 0 0 0 x.amount
            s.modXfer id fun x => { x with stage := 1, late := false, dom := d.id, fromSource := src, dpa := pa, route := toSlice (homeRouter (homeSlice x.spa)) pa }
        | .peer p =>
          let s := addCounters (debit s) d.id (if src then x.amount else 0) 0 0 0 x.amount
          s.modXfer id fun y =>
            { y with stage := 2, late := false, dom := d.id, fromSource := src, peer := p, route := toFabric (homeRouter (homeSlice y.spa)) (portDie s y.ctx) }
        | .lost => s)

/-- How an amount that returns finds its source cell: declared a source, a sink, or neither. A cell may have been declared after the
debit; its word reads 0 at all times (R324), so that the amount leaves ISSUED or is absorbed (DEDUCED, log entry 51). -/
def returnsTo (s : State) (x : Xfer) : Bool × Bool :=
  (s.dom? x.dom).elim (x.fromSource, false) fun d => (x.fromSource || d.isSource x.sva, !x.fromSource && d.isSink x.sva)

/-- An amount goes back to its source cell, or out of ISSUED for a declared source (R326, R333). -/
def returnAmount (s : State) (x : Xfer) : State :=
  let (src, sink) := returnsTo s x
  let s := addCounters s x.dom (if src then -x.amount else 0) (if sink then x.amount else 0) 0 0 (-x.amount)
  if src || sink then s else returnCell s x.spa x.esize x.amount

/-! ### Across modules (R331-R333) -/

/-- A receiver's answer to a credit (R331, R332): the device address of the cell, or a NACK. -/
def creditTarget (s : State) (c : CreditMsg) : Option (Domain × Nat) :=
  (s.dom? c.dom).bind fun d =>
    if d.state = .open_ ∧ d.links.contains (c.peer, c.fromDom) ∧ d.covers c.va then
      match cellPlace s d.ctx c.va with
      | .here pa =>
        if d.isSource c.va || (!d.isSink c.va && !cellFits d.es (cellAt s pa d.es + c.amount)) then none else some (d, pa)
      | _ => none
    else none

/-- The receiver's answer to a credit: an acknowledgement or a NACK (R332, R372). -/
def answerCredit (s : State) (c : CreditMsg) (taken : Bool) : State :=
  sendPacket s (mkPacket s (if taken then 0x10 else 0x31) c.peer (((s.dom? c.dom).map (·.ctx)).getD 0) c.va (c.num * 4096 + c.peer) []) false

/-- A credit that reaches the stub of a page goes on to the page's owner (R334), under the name that this module's link gives the
domain there, and its sender is told (R357). -/
def relayCredit (s : State) (c : CreditMsg) (d : Domain) : State :=
  let page := c.va / 65536
  let owner := leafPeer (leafNow s d.ctx page)
  let far := ((d.links.find? fun l => l.1 == owner).map (·.2)).getD 0
  let p := mkPacket s 0x30 owner d.ctx c.va (c.num * 4096 + c.peer)
    (byteOf c.fromDom :: byteOf far :: toLE 8 c.num ++ toLE 8 (BitVec.ofInt 64 c.amount).toNat ++ [0])
  redirect (sendPacket s { p with hops := c.hops + 1 } false) d.ctx page c.peer owner p.tag

/-- The page of a credit's cell: a migration has frozen it, so that the credit waits, or this module holds its stub (R334). -/
def creditFrozen (s : State) (c : CreditMsg) : Bool :=
  (s.dom? c.dom).elim false fun d => s.migs.any fun m => m.ctx == d.ctx && m.page == c.va / 65536
def creditStub (s : State) (c : CreditMsg) : Option Domain :=
  (s.dom? c.dom).bind fun d => if s.stubs.any fun x => x.ctx == d.ctx && x.page == c.va / 65536 then some d else none

/-- A credit waits at the receiver (R334, R357): its page is frozen, or relayed requests of its sender come first. -/
def creditWaits (s : State) (c : CreditMsg) : Bool :=
  creditFrozen s c || (s.dom? c.dom).elim false fun d =>
    let r := relayOf s d.ctx (c.va / 65536) c.peer
    c.hops == 0 && decide (r.done < r.need)

/-- The effect of a credit that does not wait (R331, R332, R334): at a stub it goes on to the owner, unless it has been relayed twice
(R358); else it is credited at most once, and answered. The announcement of a page's cell sum is acknowledged (R334). -/
def takeCredit (s : State) (c : CreditMsg) : State :=
  if c.page then answerCredit s c true
  else if let some d := creditStub s c then
    if 2 ≤ c.hops then sendPacket s (mkPacket s 0x41 c.peer d.ctx c.va (c.num * 4096 + c.peer) [0]) false else relayCredit s c d
  else
    let s := (s.dom? c.dom).elim s fun d => noteRelayed s d.ctx (c.va / 65536) c.peer c.hops
    if (s.dom? c.dom).elim false fun d => d.credited.contains (c.peer, c.num) then answerCredit s c true
    else match creditTarget s c with
    | none => answerCredit s c false
    | some (d, pa) =>
      let sink := d.isSink c.va
      let s := if sink then s else setCell s pa d.es (cellAt s pa d.es + c.amount)
      let s := addCounters s d.id 0 (if sink then c.amount else 0) c.amount 0 0
      let s := answerCredit (s.modDom d.id fun d => { d with credited := (c.peer, c.num) :: d.credited }) c true
      countRemote s d.ctx (c.va / 65536) c.peer s.nextId

/-- FIELD_CREDIT (R331, R332, R334, R357): a credit arrives, and is applied or waits. -/
def creditArrives (s : State) (c : CreditMsg) : State :=
  let s := (s.dom? c.dom).elim s fun d => noteAfter s d.ctx (c.va / 65536) c.peer c.after c.hops
  if creditWaits s c then
    let (id, s) := s.fresh
    { s with creditsIn := s.creditsIn ++ [(id, c)] }
  else takeCredit s c
def execFieldCredit (c : CreditMsg) (s : State) : Out := .next (creditArrives s c)

/-- A credit that waited is applied, once nothing holds it back. -/
def creditAgain (s : State) (c : Nat × CreditMsg) : State :=
  if creditWaits s c.2 then s else takeCredit { s with creditsIn := s.creditsIn.filter fun x => x.1 != c.1 } c.2

/-- FXFER_CREDIT (R326): at the destination's slice the amount is credited, absorbed, or returned; a peer's credit that waited there goes
on (R334, R357). -/
def execFxferCredit (id : Nat) (s : State) : Out :=
  .next (match s.xfer? id with
  | none => (s.creditsIn.find? fun c => c.1 == id).elim s fun c => creditAgain s c
  | some x =>
    if !creditReady s x then s
    else match s.dom? x.dom with
    | none => s
    | some d => match destReason s x d x.dpa with
      | some r => refuse (returnAmount s x) x (some d.id) r
      | none =>
        let s := addCounters (creditCell s x d x.dpa) d.id 0 (if d.isSink x.dva then x.amount else 0) 0 0 (-x.amount)
        endXfer s x none)

/-- A late answer for an amount that FRECL has returned is discarded and counted (R333). -/
def lateAnswer (s : State) (id : Nat) : State :=
  { s with domains := s.domains.map fun d =>
      if d.reclaimed.contains id then { d with discarded := min (d.discarded + 1) 65535, reclaimed := d.reclaimed.filter (· != id) } else d }

/-- FIELD_ACK (R332, R334): the amount, or the cell sum of a page that has moved, leaves TRANSIT for OUTFLOW. -/
def ackCredit (s : State) (id : Nat) : State :=
  match s.xfer? id with
  | none => lateAnswer s id
  | some x =>
    if x.stage = 5 then dropSent { addCounters s x.dom 0 0 0 x.amount (-x.amount) with xfers := s.xfers.filter fun y => y.id != id } (tagOf id)
    else if x.stage = 2 ∨ x.stage = 3 then endXfer (addCounters s x.dom 0 0 0 x.amount (-x.amount)) x none else s
def execFieldAck (id : Nat) (s : State) : Out := .next (ackCredit s id)

/-- FIELD_NACK (R327 reason 8, R332): the amount returns to its source cell. -/
def nackCredit (s : State) (id : Nat) : State :=
  match s.xfer? id with
  | none => s
  | some x => if x.stage = 2 ∨ x.stage = 3 then refuse (returnAmount s x) x (some x.dom) 8 else s
def execFieldNack (id : Nat) (s : State) : Out := .next (nackCredit s id)

/-- An outstanding credit is stranded (R332): it stays in TRANSIT and is reported; an FXFERW lane reads 0. -/
def strand (s : State) (x : Xfer) : State :=
  let s := dropSent (s.modXfer x.id fun x => { x with stage := 3 }) (tagOf x.id)
  let s := healthPush s 0x0A (x.ctx * 256 + x.dom) x.peer
  match x.wait with
  | some p => onOwner (noteVal s x.tail (0, 0, [0])) x.tail x.gid x.lane fun t => if t.wait = .xfer x.id then (t.pset p false false).ready else t
  | none => s

/-- DOMAIN_ABSENT (R321). -/
def execDomainAbsent (dom : Nat) (s : State) : Out :=
  .next (match s.dom? dom with
  | none => s
  | some d =>
    if d.state = .closing ∧ !(s.xfers.any fun x => decide (x.stage = 1 ∨ x.stage = 2 ∨ x.stage = 3 ∨ x.stage = 5) && x.dom == dom) then
      { s with domains := s.domains.filter fun d => d.id != dom }
    else s)

/-! ### FXFER and FXFERW (R325, R329, R330, R335) -/

/-- A lane's transfer at issue. -/
structure XferArg where
  lane : Nat
  si : Nat
  di : Nat
  sva : Nat
  dva : Nat
  amount : Int

/-- The steps of R335 at issue: a trap, or the lanes in range and those that are not. -/
inductive XferSteps where
  | stop (s : State)
  | go (ins out : List Thread)

/-- The index registers and the amount of a lane. -/
def xferIx (b : VReg) (t : Thread) (k : Nat) : Nat := (t.vget (b.toNat + k)).w.toNat
def xferAmount (es : Nat) (d : VReg) (t : Thread) : Int := if es = 8 then (vpair t d.toNat).w.toInt else (t.vget d.toNat).w.toInt

def xferSteps (d : VReg) (rn : RecN) (b : VReg) (iss : Issue) (g : Group) (s : State) : XferSteps :=
  let (w, c) := placeOf s g
  let r := recAt iss.snap rn
  let es := r.es
  let rd := recSpan d.toNat (if es = 8 then 2 else 1)
  let ri := [b.toNat, b.toNat + 1]
  let diff := coursedDiff g iss (ri ++ rd)
  let ts := acting g iss
  let ix := xferIx b
  if !diff.isEmpty then .stop (takeTrap s iss 0x31 { lanes := diff })
  else if r.poi then .stop (takeTrap s iss 0x08 { info0 := BitVec.ofNat 32 (0x80 + (firstPoisonS iss.snap (recRegs rn)).getD 0) })
  else match recBad r [7] (scopeOk 7 r.scope && (es != 8 || d.toNat % 2 == 0)) with
  | some sub => .stop (takeTrap s iss 0x05 { sub := sub })
  | none =>
    let pl := ts.filter fun t => (firstPoison t (ri ++ rd)).isSome
    match pl with
    | t :: _ =>
      .stop (takeTrap s iss 0x08 { info0 := BitVec.ofNat 32 ((firstPoison t (ri ++ rd)).getD 0), lanes := pl.map (·.lane) })
    | [] =>
      let mis := ts.filter fun t => decide (r.addr (ix t 0) % es ≠ 0 ∨ r.addr (ix t 1) % es ≠ 0)
      if !mis.isEmpty then .stop (takeTrap s iss 0x05 { sub := 7, lanes := mis.map (·.lane) })
      else
        let inside (t : Thread) : Bool := inRange s w r (ix t 0) es true && inRange s w r (ix t 1) es true
        let out := ts.filter fun t => !inside t
        let bad9 := out.filter fun t => t.fctl.getLsbD 21
        match bad9 with
        | t :: _ =>
          let k := if inRange s w r (ix t 0) es true then 1 else 0
          .stop (takeTrap s iss 0x09 { addr := r.addr (ix t k), lanes := bad9.map (·.lane) })
        | [] =>
          let ins := ts.filter inside
          let tr (t : Thread) (k : Nat) : Option (Nat × Nat × Nat) :=
            match translate s g.core c 2 (r.addr (ix t k)) with
            | .fault cs sub => some (cs, sub, r.addr (ix t k))
            | .here _ l => if l.testBit 5 then none else some (0x0B, 0, r.addr (ix t k))
            | .peer _ l => if l.testBit 5 then none else some (0x0B, 0, r.addr (ix t k))
          let faults := ins.filterMap fun t => ((tr t 0) <|> (tr t 1)).map fun f => (t.lane, f)
          match faults with
          | (_, cs, sub, a) :: _ =>
            .stop (takeTrap s iss cs { sub := sub, addr := a, lanes := (faults.filter fun f => f.2.1 == cs).map (·.1) })
          | [] => .go ins out

/-- A lane's transfer at issue. -/
def xferArg (d : VReg) (b : VReg) (r : Rec) (t : Thread) : XferArg :=
  XferArg.mk t.lane (xferIx b t 0) (xferIx b t 1) (r.addr (xferIx b t 0)) (r.addr (xferIx b t 1)) (xferAmount r.es d t)

/-- FXFER and FXFERW; `p` is the predicate of FXFERW. -/
def xferEff (p : Option Nat) (d : VReg) (rn : RecN) (b : VReg) (iss : Issue) (g : Group) (s : State) : State :=
  let (w, c) := placeOf s g
  let r := recAt iss.snap rn
  let es := r.es
  match xferSteps d rn b iss g s with
  | .stop s => s
  | .go ins out =>
    let args := ins.map fun t => (t, xferArg d b r t, translate s g.core c 2 (r.addr (xferIx b t 0)))
    let s := ins.foldl (fun s t => tlbFill (tlbFill s g.core c (r.addr (xferIx b t 0))) g.core c (r.addr (xferIx b t 1))) s
    let miss := withShadow g (out.map (·.lane))
    let mark (s : State) : State := out.foldl (fun s t => onLane s g t.lane fun t =>
      (match p with | some n => t.pset n false false | none => t).setOob) s
    if detOf s g then
      stageAll s iss g (args.map fun (t, a, _) =>
        { stagedFor g iss t 0 with
          kind := if p.isSome then 0x81 else 0x80, va := a.sva, wid := es, data := toLE 4 a.si ++ toLE 4 a.di,
          xfer := some (a.dva, a.di, a.amount), pred := p, m := p.getD 0, sc := r.scope, track := r.track })
        fun s =>
          let s := (mark s).mapLanes iss.gid iss.lanes fun t => { t with dseq := t.dseq + 1 }
          let s := advance s iss
          if p.isNone then s
          else s.mapLanes iss.gid iss.lanes fun t =>
            { t with epoch := t.epoch + 1, wait := if miss.contains t.lane then t.wait else .staged }
    else
      let (st, q) := stampOf s g
      let s := advance (mark s) iss
      args.foldl (fun s (_, a, tr) =>
        let (id, s) := s.fresh
        let x : Xfer := { id := id, gid := g.gid, lane := a.lane, visLane := visible g.coursed a.lane, pc := iss.pc, ctx := w.ctx,
                          esize := es, sidx := a.si, didx := a.di, sva := a.sva, dva := a.dva, amount := a.amount, wait := p,
                          stamp := st, queue := q, born := s.cycle }
        startXfer (if p.isSome then onLane s g a.lane fun t => { t with wait := .xfer id } else s) g.core tr x) s

def execFxfer (d : VReg) (r : RecN) (b : VReg) (s : State) : Out := issued (.fxfer d r b) (xferEff none d r b) s
def execFxferw (p : PReg) (d : VReg) (r : RecN) (b : VReg) (s : State) : Out :=
  issued (.fxferw p d r b) (xferEff (some p.toNat) d r b) s

/-! ### Managing domains (R337-R342) -/

/-- The domain operand (R341); FDECL and FLINK refuse a Closing one. -/
def domainArg (s : State) (iss : Issue) (g : Group) (a : SReg) (more : List Nat) (open_ : Bool) : Except State Domain :=
  match sPoison s iss (a.toNat :: more) with
  | some s => .error s
  | none =>
    if 256 ≤ iss.sv a then .error (takeTrap s iss 0x05 { sub := 2 })
    else match s.dom? (iss.sv a) with
    | none => .error (takeTrap s iss 0x05 { sub := 12 })
    | some d =>
      if d.ctx ≠ s.ctxOf g then .error (takeTrap s iss 0x0B)
      else if open_ && decide (d.state ≠ .open_) then .error (takeTrap s iss 0x05 { sub := 12 })
      else .ok d

/-- The 32-bit words of a 128-bit value. -/
def words128 (x : BitVec 128) : List Word := (List.range 4).map fun i => (x >>> (32 * i)).setWidth 32

/-- Transfers of some lanes in a domain whose outcome is not known. -/
def domXferOpen (s : State) (gid : Nat) (lanes : List Nat) (d : Domain) : Bool :=
  s.xfers.any fun x => x.gid == gid && lanes.contains x.lane && decide (x.stage ≠ 3) && x.ctx == d.ctx && d.covers x.sva

/-- FTOT (R340): it first awaits the threads' earlier transfers of the domain. -/
def execFtot (d a : SReg) (s : State) : Out :=
  issued (.ftot d a) (fun iss g s =>
    match domainArg s iss g a [] false with
    | .error s => s
    | .ok x =>
      if domXferOpen s iss.gid iss.lanes x then hold s iss .retry
      else advance (s.setSs iss.gid d.toNat (words128 x.total)) iss) s

/-- Stranded amounts that a domain holds (R342). -/
def strandedOf (s : State) (dom : Nat) : Nat := (s.xfers.filter fun x => x.dom == dom && x.stage == 3).length

/-- The refusal words (R342). -/
def refusalWords (s : State) (d : Domain) : List Word :=
  let n (x : Nat) : Word := BitVec.ofNat 32 x
  [n (bitAt d.v 31 + bitAt d.more 30 + d.reason * 2 ^ 8 + d.lane), d.code, n d.sidx, n d.didx, d.amount.setWidth 32, (d.amount >>> 32).setWidth 32,
   n d.count, n (min (strandedOf s d.id) 65535 + d.discarded * 2 ^ 16)]

def execFstat (d a : SReg) (sel : BitVec 3) (s : State) : Out :=
  issued (.fstat d a sel) (fun iss g s =>
    match domainArg s iss g a [] false with
    | .error s => s
    | .ok x =>
      let r := refusalWords s x
      let ws : List Word :=
        match sel.toNat with
        | 0 => words128 x.issued
        | 1 => words128 x.absorbed
        | 2 => words128 x.inflow
        | 3 => words128 x.outflow
        | 4 => words128 x.transit
        | 6 => r.drop 4
        | _ => r.take 4
      let s := if sel = 7 then s.modDom x.id fun d => { d with v := false, more := false } else s
      advance (s.setSs iss.gid d.toNat ws) iss) s

/-- A page of a domain's range is mapped with the field bit and write permission (R337). -/
def pageIsField (s : State) (core : Nat) (c : Context) (va : Nat) : Bool :=
  match leafOf s core c va with
  | none => false
  | some l => l.testBit 5 && l.testBit 2 && (match translate s core c 2 va with
    | .fault 0x0B _ => false
    | _ => true)

/-- The first failing case of R337, for an image. -/
def fdomReason (s : State) (core : Nat) (c : Context) (ws : List Word) : Option Nat :=
  let w := wnat ws
  let fq64 := (w 3).testBit 8
  let es := if fq64 then 8 else 4
  let base := waddr ws 0
  let bytes := w 2 * es
  let pages := (List.range ((bytes + 65535) / 65536)).map fun k => base + 65536 * k
  if ((List.range 4).any fun i => w (4 + i) != 0) || bits (w 3) 31 10 != 0 || bits (w 3) 7 6 != 0 || bits (w 1) 31 25 != 0 ||
      decide ((if fq64 then 62 else 30) < bits (w 3) 5 0) || w 2 == 0 || base % 65536 != 0 then some 1
  else if pages.any fun a => !pageIsField s core c a then some 2
  else if s.domains.any fun d => d.ctx == c.id && decide (d.base < base + bytes ∧ base < d.base + d.ncell * d.es) then some 3
  else if ((List.range 256).find? fun i => (s.dom? i).isNone).isNone then some 4 else none

/-- Every cell of a range whose page is owned here holds 0 (R337). -/
def zeroCells (s : State) (core : Nat) (c : Context) (base bytes : Nat) : State :=
  (List.range ((bytes + 65535) / 65536)).foldl (fun s k =>
    let a := base + 65536 * k
    match translate s core c 2 a with
    | .here pa _ =>
      let ks := (s.dev.filter fun b => decide (pa ≤ b.1 ∧ b.1 < pa + min 65536 (base + bytes - a))).map (·.1)
      putKeys s .dev ks (ks.map fun _ => 0)
    | _ => s) s

def execFdom (d : SReg) (r : RecN) (s : State) : Out :=
  uniIssued (.fdom d r) (fun iss g s =>
    match uniAccess s iss g r 32 [0, 1] 1 with
    | .stop s => s
    | .oob s => advance s iss
    | .ok s locs =>
      let (bs, s) := uniRead s g.gid locs
      let ws := bytesToWords bs 8
      let (_, c) := placeOf s g
      match fdomReason s g.core c ws with
      | some k => advance (s.setS iss.gid d.toNat ⟨BitVec.ofNat 32 (2 ^ 31 + k * 2 ^ 16), false⟩) iss
      | none =>
        let id := ((List.range 256).find? fun i => (s.dom? i).isNone).getD 0
        let fq64 := (wnat ws 3).testBit 8
        let x : Domain := { id := id, ctx := c.id, base := waddr ws 0, ncell := wnat ws 2, fq64 := fq64, frac := bits (wnat ws 3) 5 0,
                            nonneg := (wnat ws 3).testBit 9 }
        let s := zeroCells s g.core c x.base (x.ncell * x.es)
        advance ((({ s with domains := s.domains ++ [x] } : State)).setS iss.gid d.toNat ⟨BitVec.ofNat 32 id, false⟩) iss) s

/-- The list of a declaration is refused (R338). -/
def fdeclBad (s : State) (d : Domain) (sink : Bool) (is : List Nat) : Bool :=
  (is.any fun i => decide (d.ncell ≤ i) || d.sources.contains i || d.sinks.contains i ||
    (match cellPlace s d.ctx (d.base + i * d.es) with
     | .here pa => decide (cellAt s pa d.es ≠ 0)
     | _ => true)) ||
  decide ((dedup is).length ≠ is.length) || decide (64 < is.length + (if sink then d.sinks else d.sources).length)

def execFdecl (a : SReg) (r : RecN) (s : State) : Out :=
  uniIssued (.fdecl a r) (fun iss g s =>
    match domainArg s iss g a [] true with
    | .error s => s
    | .ok d => match uniAccess s iss g r 16 [0, 1] 1 with
      | .stop s => s
      | .oob s => advance s iss
      | .ok s locs =>
        let (bs, s) := uniRead s g.gid locs
        let ws := bytesToWords bs 4
        let n := bits (wnat ws 0) 6 0
        let sink := (wnat ws 0).testBit 8
        if n = 0 ∨ 64 < n ∨ (wnat ws 0).testBit 7 ∨ bits (wnat ws 0) 31 9 ≠ 0 ∨ (ws.drop 1).any (· != 0) then
          takeTrap s iss 0x05 { sub := 13 }
        else match uniAccess s iss g r (16 + 4 * n) [0, 1] 1 with
        | .stop s => s
        | .oob s => advance s iss
        | .ok s locs =>
          let (bs, s) := uniRead s g.gid locs
          let is := (bytesToWords (bs.drop 16) n).map (·.toNat)
          if fdeclBad s d sink is then takeTrap s iss 0x05 { sub := 13 }
          else
            advance (s.modDom d.id fun d => if sink then { d with sinks := d.sinks ++ is } else { d with sources := d.sources ++ is }) iss) s

def execFlink (a b : SReg) (s : State) : Out :=
  issued (.flink a b) (fun iss g s =>
    match domainArg s iss g a [b.toNat, b.toNat + 1] true with
    | .error s => s
    | .ok d =>
      let peer := iss.sv b
      let far := (sget {} iss.snap (b.toNat + 1)).w.toNat
      let c := (s.ctx? d.ctx).getD {}
      if 4096 ≤ peer ∨ 256 ≤ far then takeTrap s iss 0x05 { sub := 2 }
      else match peerBad s c peer with
      | some sub => takeTrap s iss 0x0C { sub := sub }
      | none =>
        if d.links.contains (peer, far) then advance s iss
        else if (d.links.any fun l => l.1 == peer) || decide (16 ≤ d.links.length) then takeTrap s iss 0x05 { sub := 13 }
        else advance (s.modDom d.id fun d => { d with links := d.links ++ [(peer, far)] }) iss) s

def execFclose (a : SReg) (s : State) : Out :=
  issued (.fclose a) (fun iss g s =>
    match domainArg s iss g a [] false with
    | .error s => s
    | .ok d => advance (s.modDom d.id fun d => { d with state := .closing }) iss) s

/-- FRECL (R333): amounts stranded toward a peer return, but one that would overflow its cell. -/
def execFrecl (a b : SReg) (s : State) : Out :=
  issued (.frecl a b) (fun iss g s =>
    match domainArg s iss g a [b.toNat] false with
    | .error s => s
    | .ok d =>
      let peer := iss.sv b % 4096
      let xs := s.xfers.filter fun x => x.dom == d.id && x.stage == 3 && x.peer == peer
      let s := xs.foldl (fun s x =>
        if returnsTo s x == (false, false) && !cellFits x.esize (cellAt s x.spa x.esize + x.amount) then s
        else
          let s := returnAmount s x
          let s : State := { s with xfers := s.xfers.filter fun y => y.id != x.id }
          s.modDom d.id fun d => { d with reclaimed := x.id :: d.reclaimed }) s
      advance s iss) s

end Sys2Proof.Machine
end

