-- ==== Sys2Proof/Machine/Page.lean ====
section
/-! DEFINITION. Pages: translation caches, migration and its stubs, the move window and capo, replicas, and TLBI, RNGW,
PGMIG and PGPIN (R344-R369, R193). -/

namespace Sys2Proof.Machine

/-! ### Leaves, owners and places -/

/-- A leaf written by the device: its translation-cache entries leave in the same step (R349). -/
def setLeaf (s : State) (ctx page : Nat) (f : Nat → Nat) : State :=
  match s.ctx? ctx with
  | none => s
  | some c => match leafAt s c.ptroot (page * 65536) with
    | none => s
    | some a => dropTlb (putKeys s .dev (keysFrom a 8) (toLE 8 (f (read64 s a)))) fun e => e.holds ctx page

/-- The members of a context's partition in ascending order (R351, R377). -/
def members (c : Context) : List Nat := sortBy (fun a b => decide (a ≤ b)) (dedup (Config.peerId :: c.partition_))

/-- The home module of a page (R351). -/
def homeOf (s : State) (ctx page : Nat) : Nat :=
  let ms := ((s.ctx? ctx).map members).getD [Config.peerId]
  ms.getD (page % ms.length) Config.peerId

/-- The owner cache with an entry as its latest; the least recently used leaves a full one (R352). -/
def setOwner (s : State) (e : OwnerE) : State :=
  { s with owners := (e :: s.owners.filter fun x => !(x.ctx == e.ctx && x.page == e.page)).take Config.ownerCacheEntries }

/-- A frame returns to its context's pool, or is reported when the pool is full (R361, R362). -/
def returnFrame (s : State) (ctx page frame : Nat) : State :=
  match s.ctx? ctx with
  | none => s
  | some c =>
    if c.frames.length < Config.framePoolMax then s.modCtx ctx fun c => { c with frames := c.frames ++ [frame] }
    else if c.pagecfg.getLsbD 31 then q0Push s ctx (eventItem 5 frame (page / 2 ^ 32)) else s

/-- A page event of R361 for a page. -/
def pageEventAt (s : State) (ctx code page : Nat) : State := pageEvent s ctx code (page * 65536)

/-- Whether an access goes to a page. -/
def accOn (a : Acc) (ctx page : Nat) : Bool := a.ctx == ctx && a.va / 65536 == page

/-- The accesses to a page that have not been served find their place anew: at a frame here, or at a peer. -/
def reroute (s : State) (ctx page : Nat) (dest : Option Nat) (frame hops : Nat) : State :=
  { s with accs := s.accs.map fun a =>
      if accOn a ctx page && a.req.isNone && (match a.space with
          | .dev => dest.isSome
          | .remote _ => !a.served
          | _ => false) then
        match dest with
        | some p => { a with space := .remote p, line := a.va / 128, sent := none, hops := a.hops + hops,
                             route := (if a.space = .dev then toFabric (homeRouter (homeSlice (a.line * 128))) (portDie s ctx) else a.route),
                             lanes := a.lanes.map fun l => { l with keys := keysFrom l.va l.keys.length } }
        | none => { a with space := .dev, line := frame * 512 + a.va % 65536 / 128, sent := none,
                           route := toSlice (coreRouter s a.core) (frame * 65536 + a.va % 65536),
                           lanes := a.lanes.map fun l => { l with keys := keysFrom (frame * 65536 + l.va % 65536) l.keys.length } }
      else a }

/-! ### Translation caches (R349, R365) -/

/-- PAGE_WALK (R349): a walk of a page completes and fills the core's and the quartet's TLB; one that faults fills
nothing. -/
def execPageWalk (core ctx va : Nat) (s : State) : Out :=
  .next (match s.ctx? ctx with
  | none => s
  | some c => if va < Config.virtualBytes then tlbFill s core c va else s)

/-- A walk cache entry leads to a page. -/
def WalkE.covers (e : WalkE) (page : Nat) : Bool := e.idx == (if e.level = 0 then page / 2 ^ 26 else page / 2 ^ 13)

/-- The page of a context that holds an address is a 2 MiB page, as the tables or a translation cache of this module have it (R344). -/
def bigPage (s : State) (ctx page : Nat) : Bool :=
  let big (e : TlbE) : Bool := e.holds ctx page && decide (1 < e.size)
  (leafNow s ctx page).testBit 29 || (s.cores.any fun c => c.2.tlb.any big) || s.qtlb.any fun q => q.2.any big
/-- The pages that a TLBI.page of an address covers (R365): the 64 KiB page that holds it, or all parts of the 2 MiB page. -/
def pageParts (s : State) (ctx page x p : Nat) : Bool := x == ctx && (p == page || (bigPage s ctx page && p / 32 == page / 32))

/-- TLBI of some pages, and of some walk cache entries (R365): a FENCE.dev, the removal, and the wait for the accesses and
transfers translated before. -/
def tlbiEff (sel : Nat → Nat → Bool) (selW : WalkE → Bool) (iss : Issue) (g : Group) (s : State) : State :=
  if !drained s iss.gid iss.lanes then hold s iss .drained
  else
    let s := newRegion (dropCache s g.core) iss.gid iss.lanes
    let s := dropTlb s fun e => (List.range e.size).any fun k => sel e.ctx (e.page + k)
    let s : State := { s with owners := s.owners.filter (fun e => !sel e.ctx e.page), walkCache := s.walkCache.filter fun e => !selW e }
    let s := dropReplicas s fun r => sel r.ctx (r.va / 65536)
    let ids := (s.accs.filter fun a => a.req.isNone && sel a.ctx (a.va / 65536) && (match a.space with
      | .dev => true
      | .remote _ => true
      | _ => false)).map (·.id) ++
      (s.xfers.filter fun x => x.remote.isNone && ((decide (x.stage = 0 ∨ x.stage = 4) && sel x.ctx (x.sva / 65536)) ||
        (x.stage == 1 && sel x.ctx (x.dva / 65536)))).map (·.id)
    let s := advance s iss
    if ids.isEmpty then s else s.mapLanes iss.gid iss.lanes fun t => { t with wait := .accs ids }

/-- A 64-bit address operand: poison, or its value. -/
def pageArg (s : State) (iss : Issue) (a : SReg) (more : List Nat) : Except State Nat :=
  match sPoison s iss ([a.toNat, a.toNat + 1] ++ more) with
  | some s => .error s
  | none => .ok ((sget {} iss.snap a.toNat).w.toNat + 2 ^ 32 * (sget {} iss.snap (a.toNat + 1)).w.toNat)

def execTlbiCtx (s : State) : Out :=
  issued .tlbiCtx (fun iss g s => let c := s.ctxOf g; tlbiEff (fun x _ => x == c) (fun e => e.ctx == c) iss g s) s

def execTlbiPage (a : SReg) (s : State) : Out :=
  issued (.tlbiPage a) (fun iss g s =>
    match pageArg s iss a [] with
    | .error s => s
    | .ok va =>
      let c := s.ctxOf g
      if Config.virtualBytes ≤ va then takeTrap s iss 0x05 { sub := 6 } else
        tlbiEff (pageParts s c (va / 65536)) (fun e => e.ctx == c && e.covers (va / 65536)) iss g s) s

def execTlbiAll (s : State) : Out := issued .tlbiAll (fun iss g s => tlbiEff (fun _ _ => true) (fun _ => true) iss g s) s

/-! ### The tenant range table (R347, R366) -/

/-- An image that RNGW refuses. -/
def rangeBad (ws : List Word) : Bool :=
  let base := wnat ws 0 + 2 ^ 32 * wnat ws 1
  let limit := wnat ws 2 + 2 ^ 32 * wnat ws 3
  wnat ws 7 != 0 || bits (wnat ws 6) 31 6 != 0 || base % 65536 != 0 || (limit + 1) % 65536 != 0 || decide (limit < base)

/-- Whether a cached translation's stage 2 result came from a range entry (R366): for some permission it is the one that gives the
result of one of its pages. -/
def fromRange (i : Nat) (e : TlbE) : Bool :=
  (List.range e.size).any fun k => (List.range 8).any fun need => ((rangeFor e.s2 need (leafBase e.leaf (e.page + k))).map (·.1)) == some i

def execRngw (a : SReg) (r : RecN) (s : State) : Out :=
  uniIssued (.rngw a r) (fun iss g s =>
    match sPoison s iss [a.toNat] with
    | some s => s
    | none => match uniAccess s iss g r 32 [0, 1] 1 with
      | .stop s => s
      | .oob s => advance s iss
      | .ok s locs =>
        let (bs, s) := uniRead s g.gid locs
        let ws := bytesToWords bs 8
        let i := iss.sv a
        if 48 ≤ i || rangeBad ws then takeTrap s iss 0x05 { sub := 2 }
        else
          let s := dropTlb s (fromRange i)
          advance { s with ranges := sset [] s.ranges i (if ws.all (· == 0) then [] else ws) } iss) s

/-! ### Migration (R334, R353-R356) -/

/-- The domain of a field page (R322, R334). -/
def pageDomain (s : State) (ctx page : Nat) : Option Domain :=
  s.domains.find? fun d => d.ctx == ctx && decide (d.base < (page + 1) * 65536 ∧ page * 65536 < d.base + d.ncell * d.es)

/-- The cell sum of a field page in a frame (R334). -/
def cellSum (s : State) (d : Domain) (page frame : Nat) : Int :=
  (List.range (65536 / d.es)).foldl (fun n k =>
    if d.covers (page * 65536 + k * d.es) then n + cellAt s (frame * 65536 + k * d.es) d.es else n) 0

/-- A field page whose domain has no link to the module, or that no domain covers (R334, R356). -/
def linkMissing (s : State) (ctx page leaf peer : Nat) : Bool :=
  leaf.testBit 5 && (match pageDomain s ctx page with
    | some d => !(d.links.any fun l => l.1 == peer)
    | none => true)

/-- The domain that covers a field page here and the one that its link to a module names there, zeros for another page (R334). -/
def pageLink (s : State) (ctx page leaf peer : Nat) : Nat × Nat :=
  match (if leaf.testBit 5 then pageDomain s ctx page else none) with
  | some d => (d.id, ((d.links.find? fun l => l.1 == peer).map (·.2)).getD 0)
  | none => (0, 0)

/-- A field page that arrives without the links of R334: the domain that covers it here is the one that the old owner's link names, and
is linked back to the old owner's. -/
def linkBack (s : State) (m : PageCopyMsg) (leaf : Nat) : Bool :=
  leaf.testBit 5 && (match pageDomain s m.ctx m.page with
    | some d => !(d.id == m.far && d.links.contains (m.peer, m.dom))
    | none => true)

/-- The threads of a group that wait for a page operation. -/
def pageWaiters (s : State) (gid ctx page : Nat) : List Thread :=
  ((s.group? gid).map fun g => g.threads.filter fun t => decide (t.wait = .page ctx page)).getD []

/-- A migration ends without change but for COUNT = 0 and the thaw (R356); PGMIG's threads trap (R367). -/
def refuseMig (s : State) (ctx page : Nat) : State :=
  let m := migOf s ctx page
  let s : State := { s with
    migs := s.migs.filter fun x => !(x.ctx == ctx && x.page == page),
    sent := s.sent.filter fun e => !(e.pkt.typ == 0x50 && e.pkt.ctx == ctx && e.pkt.va == page * 65536),
    pages := s.pages.map fun r => if r.ctx == ctx && r.page == page then { r with count := 0 } else r,
    thawed := (ctx, page, (m.map (·.born)).getD s.nextId, s.nextId) :: s.thawed }
  match m.bind (·.issuer) with
  | none => s
  | some gid => match pageWaiters s gid ctx page with
    | [] => s
    | t :: ts => trapAt s gid ((t :: ts).map (·.lane)) t.pc 0x05 { sub := 15 }

/-- Accepted requests of a page that have not completed (R355 step 1). -/
def acceptedLeft (s : State) (m : Migration) : Bool :=
  (s.accs.any fun a => accOn a m.ctx m.page && decide (a.space = .dev) && decide (a.id < m.born)) ||
  s.xfers.any fun x => x.ctx == m.ctx && decide (x.id < m.born) &&
    ((x.stage == 0 && (x.sva / 65536 == m.page || x.dva / 65536 == m.page)) || (x.stage == 1 && x.dva / 65536 == m.page))

/-- Whether a page goes into capo at a migration, and the MOVES and WSTART that travel with it (R360): the window begins at the first
migration after the last one has ended, a PGMIG's among them, which leaves MOVES as it is (R367). -/
def capoNext (s : State) (m : Migration) : Bool := m.crossing && decide (bits (leafNow s m.ctx m.page) 26 24 ≤ (pageRec s m.ctx m.page).moves)
def movesNext (s : State) (m : Migration) : Nat × Nat :=
  let r := pageRec s m.ctx m.page
  (if m.crossing then r.moves + 1 else r.moves, if r.window then r.wstart else s.cycle)

/-- The tags of a page copy's packets and of a home's update, which no request has (log entry 16). -/
def copyTag (page : Nat) : Nat := 2 ^ 60 + page * 4096 + Config.peerId
def homeTag (page : Nat) : Nat := 2 ^ 61 + page * 4096 + Config.peerId

/-- The bytes of a page copy (R355 step 3): the page record, capo and a pin, the domains of a field page, and the page's bytes that are
not zero, each after its offset; a record's first byte tells a refusal by the old owner (R356) from a copy (log entry 16). -/
def copyBytes (s : State) (m : Migration) (refused : Bool) : List Byte :=
  let r := pageRec s m.ctx m.page
  let l := leafNow s m.ctx m.page
  let (moves, wstart) := movesNext s m
  let (dom, far) := pageLink s m.ctx m.page l m.peer
  let pa := leafPfn l * 65536
  if refused then [1]
  else [0] ++ toLE 8 moves ++ toLE 8 wstart ++
    [byteOf (bitAt (capoNext s m || isCapo l) 0 + bitAt r.overflow 1 + bitAt (capoNext s m) 2 + bitAt r.pinned 3 + bitAt r.pinLater 4),
     byteOf dom, byteOf far, byteOf r.access.length] ++ r.access.flatMap (toLE 2) ++
    (s.dev.filter fun b => decide (pa ≤ b.1 ∧ b.1 < pa + 65536)).flatMap fun b => toLE 2 (b.1 - pa) ++ [b.2]

/-- The packets of a page copy, as many as its bytes need (R372); the last one's count of R357 field is 1. -/
def copyPackets (s : State) (m : Migration) (refused : Bool) : List Packet :=
  let cs := chunksOf 960 256 (copyBytes s m refused)
  cs.mapIdx fun i b => { mkPacket s 0x50 m.peer m.ctx (m.page * 65536) (copyTag m.page) b with part := i, after := if i + 1 = cs.length then 1 else 0 }

/-- The packets of a page copy leave. -/
def sendCopy (s : State) (m : Migration) (refused : Bool) : State :=
  (copyPackets s m refused).foldl (fun s p => sendPacket s p !refused) s

/-- The copies of frozen pages whose accepted requests have all completed leave (R355 step 3). -/
def sendCopies (s : State) : State :=
  s.migs.foldl (fun s m =>
    if m.copied || acceptedLeft s m then s
    else sendCopy { s with migs := s.migs.map fun x => if x = m then { x with copied := true } else x } m false) s

/-- The freeze (R355 step 1): later requests wait, and the copy leaves once the accepted ones have completed. A field page without the
links of R334 is refused at once, and the requester is told (R356). -/
def startMig (s : State) (ctx page peer : Nat) (issuer : Option Nat) : State :=
  let m : Migration := { ctx := ctx, page := page, peer := peer, born := s.nextId, issuer := issuer, crossing := issuer.isNone }
  let s : State := { s with migs := s.migs ++ [m] }
  if linkMissing s ctx page (leafNow s ctx page) peer then refuseMig (sendCopy s m true) ctx page else sendCopies s

/-- MIGRATION_START (R354, R355): a threshold crossing at a page owned here, unpinned and not in capo. -/
def execMigrationStart (ctx page peer : Nat) (s : State) : Out :=
  let l := leafNow s ctx page
  let r := pageRec s ctx page
  .next (if ownedHere l && !isCapo l && !r.pinned && (migOf s ctx page).isNone && decide (leafThr l ≤ r.count) && peer != Config.peerId then
      startMig s ctx page peer none
    else s)

/-- Requests of other modules that waited for the page go to the stub, in arrival order (R355 step 7). -/
def releaseWaiting (s : State) (ctx page : Nat) : State :=
  let acc (a : Acc) : Bool := accOn a ctx page && a.req.isSome
  let xfer (x : Xfer) : Bool := x.ctx == ctx && x.stage == 0 && x.sva / 65536 == page && x.remote.isSome
  let l := (s.accs.filter acc).map (fun a => (a.id, a.req)) ++ (s.xfers.filter xfer).map fun x => (x.id, x.remote)
  { s with accs := s.accs.filter (fun a => !acc a), xfers := s.xfers.filter (fun x => !xfer x),
           waiting := s.waiting ++ (sortBy (fun a b => decide (a.1 ≤ b.1)) l).filterMap (·.2) }

/-- Transfers of this module's threads that waited for the page go to its new owner (R334). -/
def releaseXfers (s : State) (ctx page peer : Nat) : State :=
  (s.xfers.filter fun x => x.ctx == ctx).foldl (fun s x =>
    if x.stage = 0 ∧ x.sva / 65536 = page then
      let x := { x with stage := 4, peer := peer }
      sendRelay (s.modXfer x.id fun _ => x) x 1
    else if x.stage = 1 ∧ x.dva / 65536 = page then
      let x := { x with stage := 2, peer := peer }
      sendCredit (s.modXfer x.id fun _ => x) x
    else s) s

/-- WAITM lanes that watched an element of the frame now watch it at the new owner. -/
def watchAway (s : State) (frame peer : Nat) : State :=
  { s with groups := s.groups.map fun g => { g with threads := g.threads.map fun t => match t.wait with
      | .waitm w =>
        if w.sp = .dev ∧ w.keys.headD 0 / 65536 = frame then
          { t with wait := .waitm { w with sp := .remote peer, keys := keysFrom w.va w.wid, remote := true } }
        else t
      | _ => t } }

/-- The tag of the notice that a page has gone into capo (R360, log entry 16). -/
def capoTag : Nat := 2 ^ 62

/-- The commit (R355 steps 6 and 7): the leaf names the new owner and the stub begins; detector entries and cached copies of
the page go; what waited goes to the stub. A field page's cell sum goes to TRANSIT until the new owner acknowledges it (R334). A
crossing at the budget is capo, which the peers of the record's access set, or those of the partition, learn (R360). -/
def commitMig (s : State) (m : Migration) : State :=
  let l := leafNow s m.ctx m.page
  let frame := leafPfn l
  let r := pageRec s m.ctx m.page
  let capo := capoNext s m
  let sum := if l.testBit 5 then (pageDomain s m.ctx m.page).map fun d => (d.id, cellSum s d m.page frame) else none
  let s := match sum with
    | some (d, p) =>
      let (id, s) := s.fresh
      let x : Xfer := { id := id, gid := 0, ctx := m.ctx, stage := 5, dom := d, peer := m.peer, dva := m.page * 65536, amount := p, stamp := s.cycle + 32767 }
      sendCredit { addCounters s d 0 0 0 0 p with xfers := s.xfers ++ [x] } x
    | none => s
  let s := setLeaf s m.ctx m.page fun l => setField (setField (setField l 20 9 m.peer) 28 28 1) 27 27 0
  let s : State := { s with
    migs := s.migs.filter fun x => !(x.ctx == m.ctx && x.page == m.page),
    sent := s.sent.filter fun e => !(e.pkt.typ == 0x50 && e.pkt.ctx == m.ctx && e.pkt.va == m.page * 65536),
    pages := s.pages.filter fun x => !(x.ctx == m.ctx && x.page == m.page),
    owners := s.owners.filter fun x => !(x.ctx == m.ctx && x.page == m.page),
    stubs := s.stubs ++ [{ ctx := m.ctx, page := m.page, frame := frame, since := s.cycle }],
    sliceDet := s.sliceDet.filter fun d => d.line / 512 != frame,
    cores := s.cores.map fun (k, c) => (k, { c with cache := c.cache.filter fun x => x / 512 != frame }) }
  let s := releaseWaiting s m.ctx m.page
  let s := reroute s m.ctx m.page (some m.peer) 0 1
  let s := releaseXfers (watchAway s frame m.peer) m.ctx m.page m.peer
  let told := if r.overflow then ((s.ctx? m.ctx).map members).getD [] else r.access
  let s := if capo && told.contains Config.peerId then pageEventAt s m.ctx 1 m.page else s
  let s := if capo then (told.filter fun p => p != Config.peerId && p != m.peer).foldl (fun s p =>
    sendPacket s (mkPacket s 0x40 p m.ctx (m.page * 65536) capoTag []) false) s else s
  match m.issuer with
  | none => s
  | some gid => s.mapLanes gid ((pageWaiters s gid m.ctx m.page).map (·.lane)) (Thread.advance 1)

/-- The new owner has taken the page (R355 step 4): the home is told, unless it is one of the two, and answers before the commit. -/
def takenMig (s : State) (m : Migration) : State :=
  let h := homeOf s m.ctx m.page
  if h = Config.peerId then
    commitMig (setLeaf s m.ctx m.page fun l => setField l 20 9 m.peer) m
  else if h = m.peer ∨ m.told then commitMig s m
  else sendPacket { s with migs := s.migs.map fun x => if x = m then { x with told := true } else x }
    (mkPacket s 0x40 h m.ctx (m.page * 65536) (homeTag m.page) (toLE 2 m.peer)) true

/-- MIGRATION_COMMIT (R355): the new owner has the page; with the home told, it has answered. -/
def execMigrationCommit (ctx page : Nat) (s : State) : Out :=
  .next (match migOf s ctx page with
  | none => s
  | some m => if acceptedLeft s m || !m.copied then s else takenMig s m)

/-- MIGRATION_REFUSED (R356): the new owner had no frame. -/
def execMigrationRefused (ctx page : Nat) (s : State) : Out :=
  .next (if (migOf s ctx page).isSome then refuseMig s ctx page else s)

/-- The new owner's answer to a page copy: whether it took the page (R355, R356; log entry 16). -/
def answerCopy (s : State) (m : PageCopyMsg) (taken : Bool) : State :=
  sendPacket s (mkPacket s 0x10 m.peer m.ctx (m.page * 65536) (2 ^ 60 + m.page * 4096 + m.peer) [byteOf (if taken then 1 else 0)]) false

/-- The frame that a page takes at this module, and the pool without it (R355 step 2): that of the stub that this module holds for the
page, else the pool's first (R381). -/
def frameFor (s : State) (c : Context) (page : Nat) : Option (Nat × List Nat) :=
  match stubOf s c.id page, c.frames with
  | some x, fs => some (x.frame, fs)
  | none, f :: fs => some (f, fs)
  | none, [] => none

/-- PAGE_COPY_RECEIVE (R355 steps 2 to 4, R356): this module takes a frame, receives the page and its record, and owns the page;
without a frame, a leaf to write or the links of R334 it refuses (R356). An older stub of the page, once its relays are
drained, ends (R364), and its frame is the page's (R381). -/
def takeCopy (m : PageCopyMsg) (s : State) : State :=
  match s.ctx? m.ctx with
  | none => s
  | some c =>
    if m.refused then pageEventAt s m.ctx 3 m.page
    else
    let refused := answerCopy (pageEventAt s m.ctx 3 m.page) m false
    if s.waiting.any fun p => p.ctx == m.ctx && p.va / 65536 == m.page then s
    else match frameFor s c m.page, leafAt s c.ptroot (m.page * 65536) with
      | none, _ => refused
      | _, none => refused
      | some (frame, rest), some _ =>
        if linkBack s m (leafNow s m.ctx m.page) then refused
        else
          let s := s.modCtx m.ctx fun c => { c with frames := rest }
          let bs := m.bytes.filter fun b => b.1 < 65536
          let s : State := { s with
            dev := putRange s.dev (frame * 65536) 65536 bs,
            marks := s.marks.filter fun l => l / 512 != frame,
            stubs := s.stubs.filter fun x => !(x.ctx == m.ctx && x.page == m.page),
            owners := s.owners.filter fun x => !(x.ctx == m.ctx && x.page == m.page),
            relays := s.relays.filter fun x => !(x.ctx == m.ctx && x.page == m.page) }
          let s := setLeaf s m.ctx m.page fun l =>
            setField (setField (setField (setField (setField l 63 32 frame) 28 28 0) 27 27 (bitAt m.capo 0)) 20 9 Config.peerId) 8 7 3
          let s := (putRec s { ctx := m.ctx, page := m.page, moves := m.moves, wstart := m.wstart, access := m.access, overflow := m.overflow,
                               pinned := m.pinned, pinLater := m.pinLater, window := true, touched := s.cycle }).getD s
          let s := match (if (leafNow s m.ctx m.page).testBit 5 then pageDomain s m.ctx m.page else none) with
            | some d => addCounters s d.id 0 0 (cellSum s d m.page frame) 0 0
            | none => s
          let s := reroute s m.ctx m.page none frame 0
          answerCopy (if m.enters then pageEventAt s m.ctx 1 m.page else s) m true

def execPageCopyReceive (m : PageCopyMsg) (s : State) : Out := .next (takeCopy m s)

/-- HOME_UPDATE (R351, R355 step 5): the home's leaf names the new owner. -/
def homeUpdated (s : State) (ctx page owner : Nat) : State :=
  if homeOf s ctx page = Config.peerId ∧ leafMode (leafNow s ctx page) = 3 then setLeaf s ctx page fun l => setField l 20 9 owner else s
def execHomeUpdate (ctx page owner : Nat) (s : State) : Out := .next (homeUpdated s ctx page owner)

/-! ### Stubs and owners (R352, R357-R359) -/

/-- STUB_RELAY (R357, R358): the oldest request at the stub goes to the owner that its leaf names, with one more hop, and its
requester, unless it is that owner (R381), is told the owner and how many of its requests have been relayed. One that has been
relayed twice goes back. -/
def execStubRelay (ctx page : Nat) (s : State) : Out :=
  let mine (p : Packet) : Bool := p.ctx == ctx && p.va / 65536 == page
  .next (match stubOf s ctx page, s.waiting.find? mine with
  | some _, some p =>
    let owner := leafPeer (leafNow s ctx page)
    let x := p.tag % 4096
    let i := (s.waiting.findIdx? mine).getD 0
    let s : State := { s with waiting := s.waiting.eraseIdx i }
    if 2 ≤ p.hops then sendPacket s { mkPacket s 0x41 x p.ctx p.va p.tag [0] with part := p.part } false
    else redirect (sendPacket s { p with dst := owner, hops := p.hops + 1 } false) ctx page x owner p.tag
  | _, _ => s)

/-- REDIRECT (R352, R357): the requester records the new owner, and the count for its first direct request. A pending entry stays so
until the home has answered. -/
def redirected (s : State) (ctx page owner count : Nat) : State :=
  let pending := s.owners.any fun e => e.pending && e.ctx == ctx && e.page == page
  if (s.ctx? ctx).isSome then setOwner s { ctx := ctx, page := page, owner := owner, count := count, pending := pending } else s
def execRedirect (ctx page owner count : Nat) (s : State) : Out := .next (redirected s ctx page owner count)

/-- The home's answer about a page (R358): the entry names the owner, and what waited is sent to it. -/
def refreshed (s : State) (ctx page owner : Nat) : State :=
  let s := setOwner s { ctx := ctx, page := page, owner := owner }
  let s : State := { s with sent := s.sent.filter fun e => !(e.pkt.typ == 0x41 && e.needs && e.pkt.ctx == ctx && e.pkt.va / 65536 == page) }
  let s := if owner = Config.peerId then reroute s ctx page none (leafPfn (leafNow s ctx page)) 0 else reroute s ctx page (some owner) 0 0
  { s with xfers := s.xfers.map fun x => if x.ctx == ctx && x.stage == 2 && !x.served && x.dva / 65536 == page then { x with peer := owner }
    else if x.ctx == ctx && x.stage == 4 && !x.served && x.sva / 65536 == page then
      (if owner = Config.peerId then
        let pa := leafPfn (leafNow s ctx page) * 65536 + x.sva % 65536
        { x with stage := 0, spa := pa, route := toSlice (homeRouter (homeSlice pa)) pa }
      else { x with peer := owner }) else x }

/-- OWNER_REFRESH_ANSWER (R358). -/
def refreshAnswer (s : State) (ctx page owner : Nat) : State :=
  if s.owners.any fun e => e.pending && e.ctx == ctx && e.page == page then refreshed s ctx page owner else s
def execOwnerRefreshAnswer (ctx page owner : Nat) (s : State) : Out := .next (refreshAnswer s ctx page owner)

/-- A request's page is asked for at its home, and its owner-cache entry is pending (R352, R358). -/
def askHome (s : State) (ctx page owner : Nat) : State :=
  let s := setOwner s { ctx := ctx, page := page, owner := owner, pending := true }
  let h := homeOf s ctx page
  if h = Config.peerId then refreshed s ctx page (leafPeer (leafNow s ctx page))
  else sendPacket s (mkPacket s 0x41 h ctx (page * 65536) 0 [1]) true

/-- A part of a request has not been applied (R358): it is the part that is sent again, once the home has answered; answers to the
request's other parts are still to come. -/
def nackPart (s : State) (id part : Nat) : State :=
  match s.acc? id, s.xfer? id with
  | some a, _ => match a.space with
    | .remote p =>
      if a.served && (s.sent.any fun e => e.needs && e.pkt.tag == tagOf id && e.pkt.part == part) then
        let s : State := { s with sent := s.sent.filter fun e => !(e.needs && e.pkt.tag == tagOf id && e.pkt.part == part) }
        askHome (s.modAcc id fun a => { a with route := [fabricPoint], sent := none, hops := 0, again := dedup (part :: a.again) }) a.ctx (a.va / 65536) p
      else s
    | _ => s
  | none, some x =>
    if (x.stage = 4 ∨ x.stage = 2) ∧ x.served then
      askHome (dropSent (s.modXfer id fun x => { x with route := [fabricPoint] }) (tagOf id)) x.ctx ((if x.stage = 4 then x.sva else x.dva) / 65536) x.peer
    else s
  | none, none => s

/-- NACK_REFRESH (R358): the oldest part of a request that awaits an answer comes back. -/
def execNackRefresh (id : Nat) (s : State) : Out :=
  .next (nackPart s id (((s.sent.find? fun e => e.needs && e.pkt.tag == tagOf id).map (·.pkt.part)).getD 0))

/-- STUB_EXPIRY (R359): 2^20 clk after its commit the stub sends STUB-RETIRE to the peers it told, or to the partition. -/
def execStubExpiry (ctx page : Nat) (s : State) : Out :=
  .next (match stubOf s ctx page with
  | none => s
  | some st =>
    if st.retiring || decide (s.cycle < st.since + Config.stubLife) then s
    else
      let ps := if st.overflow then (((s.ctx? ctx).map members).getD []).filter (· != Config.peerId) else st.tracked
      let s := modStub s ctx page fun st => { st with retiring := true, awaiting := ps, asked := s.cycle }
      ps.foldl (fun s p => sendPacket s (mkPacket s 0x42 p ctx (page * 65536) 0 [0]) false) s)

/-- STUB_RETIRE (R359): once every request sent to the old owner for the page has been answered and no pending entry names it, its
owner-cache entry goes and this module acknowledges. -/
def retireStub (s : State) (ctx page owner : Nat) : State :=
  let me := (ctx, page, owner)
  let on (e : OwnerE) : Bool := e.ctx == ctx && e.page == page && e.owner == owner
  if (s.sent.any fun e => e.needs && e.pkt.dst == owner && e.pkt.ctx == ctx && e.pkt.va / 65536 == page) || s.owners.any fun e => on e && e.pending then
    if s.retires.contains me then s else { s with retires := s.retires ++ [me] }
  else
    let s : State := { s with owners := s.owners.filter fun e => !on e, retires := s.retires.filter (· != me) }
    sendPacket s (mkPacket s 0x42 owner ctx (page * 65536) 0 [1]) false
def execStubRetire (ctx page owner : Nat) (s : State) : Out := .next (retireStub s ctx page owner)

/-- STUB_RETIRE_ACK_TIMEOUT (R359): a peer that has not acknowledged within the fabric timeout counts as having done so, and
is reported. -/
def execStubRetireAckTimeout (ctx page peer : Nat) (s : State) : Out :=
  .next (match stubOf s ctx page with
  | none => s
  | some st =>
    if st.awaiting.contains peer && decide (st.asked + 2 ^ s.ftoexp ≤ s.cycle) then
      healthPush (modStub s ctx page fun st => { st with awaiting := st.awaiting.filter (· != peer) }) 0x0B peer ctx
    else s)

/-- The handshake of a stub has ended and its relays are drained. -/
def stubOver (s : State) (st : Stub) : Bool :=
  st.retiring && st.awaiting.isEmpty && !(s.waiting.any fun p => p.ctx == st.ctx && p.va / 65536 == st.page)

/-- STUB_RETIRE_DONE (R359): STUB clears in the leaf and the old frame returns to the pool. -/
def execStubRetireDone (ctx page : Nat) (s : State) : Out :=
  .next (match stubOf s ctx page with
  | none => s
  | some st =>
    if stubOver s st then
      let s := setLeaf s ctx page fun l => setField l 28 28 0
      let s : State := { s with stubs := s.stubs.filter fun x => !(x.ctx == ctx && x.page == page) }
      returnFrame s ctx page st.frame
    else s)

/-! ### The move window (R360) -/

/-- The window of a page's record is over. -/
def windowOver (s : State) (r : PageRec) : Bool :=
  let wexp := ((s.ctx? r.ctx).map fun c => bits c.pagecfg.toNat 4 0).getD 24
  (r.window || isCapo (leafNow s r.ctx r.page)) && decide (r.wstart + 2 ^ wexp ≤ s.cycle)

/-- WINDOW_END (R360, R368): MOVES becomes 0; capo is left and reported, and a pin that waited takes hold. -/
def execWindowEnd (ctx page : Nat) (s : State) : Out :=
  .next (match s.pages.find? fun r => r.ctx == ctx && r.page == page with
  | none => s
  | some r =>
    if !windowOver s r then s
    else
      let capo := isCapo (leafNow s ctx page)
      let s : State := { s with pages := s.pages.map fun x => if x.ctx == ctx && x.page == page then
          { x with moves := 0, window := false, pinned := x.pinned || x.pinLater, pinLater := false } else x }
      if capo then pageEventAt (setLeaf s ctx page fun l => setField l 27 27 0) ctx 2 page else s)

/-! ### PGMIG and PGPIN (R367, R368) -/

/-- PGMIG's condition on the page (R367). -/
def pageMovable (s : State) (ctx page : Nat) : Bool :=
  let l := leafNow s ctx page
  ownedHere l && !l.testBit 29 && !(pageRec s ctx page).pinned && (migOf s ctx page).isNone && (stubOf s ctx page).isNone

/-- PGMIG (R367): the issuing threads wait at the instruction for the commit. -/
def execPgmig (a b : SReg) (s : State) : Out :=
  issued (.pgmig a b) (fun iss g s =>
    match pageArg s iss a [b.toNat] with
    | .error s => s
    | .ok va =>
      let (_, c) := placeOf s g
      let peer := iss.sv b
      let page := va / 65536
      if 4096 ≤ peer then takeTrap s iss 0x05 { sub := 2 }
      else if Config.virtualBytes ≤ va || !leafValid (leafNow s c.id page) then takeTrap s iss 0x0A { addr := va }
      else if !pageMovable s c.id page then takeTrap s iss 0x05 { sub := 14 }
      else if peer = Config.peerId then advance s iss
      else match peerBad s c peer with
      | some sub => takeTrap s iss 0x0C { sub := sub, addr := va }
      | none => match translate s g.core c 0 va with
        | .fault cs sub => takeTrap s iss cs { sub := sub, addr := va }
        | _ => startMig (hold s iss (.page c.id page)) c.id page peer (some iss.gid)) s

/-- PGPIN and PGPIN.unpin (R368); a page in capo takes the pin when its window ends. -/
def pinEff (pin : Bool) (a : SReg) (iss : Issue) (g : Group) (s : State) : State :=
  match pageArg s iss a [] with
  | .error s => s
  | .ok va =>
    let ctx := s.ctxOf g
    let page := va / 65536
    let l := leafNow s ctx page
    if !ownedHere l || decide (Config.virtualBytes ≤ va) then takeTrap s iss 0x05 { sub := 14 }
    else
      let r := pageRec s ctx page
      if pin then
        match putRec s (if isCapo l then { r with pinLater := true } else { r with pinned := true }) with
        | some s => advance s iss
        | none => takeTrap s iss 0x05 { sub := 16 }
      else
        advance { s with pages := s.pages.map fun x =>
          if x.ctx == ctx && x.page == page then { x with pinned := false, pinLater := false } else x } iss

def execPgpin (a : SReg) (s : State) : Out := issued (.pgpin a) (pinEff true a) s
def execPgpinUnpin (a : SReg) (s : State) : Out := issued (.pgpinUnpin a) (pinEff false a) s

/-! ### Replicas (R193, R363) -/

/-- The owner of a replica's page, as this module's leaf names it. -/
def replicaOwner (s : State) (ctx va : Nat) : Nat := leafPeer (leafNow s ctx (va / 65536))

/-- REPLICA_LOCK (R193): the replica of a line locks, and the module acknowledges. -/
def lockReplica (s : State) (ctx va : Nat) : State :=
  let line := va / 128 * 128
  let lock (r : Replica) : Replica := if r.ctx == ctx && r.va == line then { r with locked := some s.cycle } else r
  let s' : State := { s with replicas := s.replicas.map lock }
  if (s.ctx? ctx).isNone then s else sendPacket s' (mkPacket s 0x60 (replicaOwner s ctx line) ctx line 0 [2]) false
def execReplicaLock (ctx va : Nat) (s : State) : Out := .next (lockReplica s ctx va)

/-- REPLICA_UPDATE (R193): the replica applies the update and unlocks, and the module acknowledges. -/
def updateReplica (s : State) (ctx va : Nat) (data : List Byte) : State :=
  let line := va / 128 * 128
  let upd (r : Replica) : Replica :=
    if r.ctx == ctx && r.va == line then { r with data := if data.length = 128 then data else r.data, locked := none } else r
  let s' : State := { s with replicas := s.replicas.map upd }
  if (s.ctx? ctx).isNone then s else sendPacket s' (mkPacket s 0x60 (replicaOwner s ctx line) ctx line 0 [2]) false
def execReplicaUpdate (ctx va : Nat) (data : List Byte) (s : State) : Out := .next (updateReplica s ctx va data)

/-- A remote load's lanes receive their bytes of a line. -/
def deliverLine (s : State) (a : Acc) (line : List Byte) : State :=
  match a.fetch, s.group? a.gid with
  | some k, _ => keepAcc s a k 0 0 ((line.drop (a.va % 128)).take a.wid)
  | none, none => s.dropAcc a.id
  | none, some g =>
    endAcc (a.lanes.foldl (fun s l => deliver s g a l (some (underStaged s g l.lane l.va ((line.drop (l.va % 128)).take a.wid))) 0 0) s) a

/-- REPLICA_READ_TIMEOUT (R193): a read that has waited 2,048 clk on a locked replica is served from the owner's copy of
the line. -/
def execReplicaReadTimeout (id : Nat) (data : List Byte) (s : State) : Out :=
  .next (match s.acc? id with
  | none => s
  | some a =>
    let locked := (replicaFor s a.ctx a.va).elim false fun r => r.locked.isSome
    if decide (a.op = .load) && locked && !unanswered s (tagOf id) && data.length == 128 &&
        a.sent.elim false (fun t => decide (t + Config.replicaStall ≤ s.cycle)) then deliverLine s a data
    else s)

/-- The L2 of a home slice holds so many lines (R11): the oldest replicas that a full one has no room for are dropped, and their owners
told (R363). Which lines an L2 evicts is the module's own choice (log entry 8). -/
def evictReplicas (s : State) (slice : Nat) : State :=
  let mine := s.replicas.filter fun r => homeSlice r.va == slice
  dropReplicas s fun r => (mine.drop (Config.sliceBytes / 128)).contains r

/-- REPLICA_FILL (R363): a read of a replicated page returns with its line, which is kept as a replica. -/
def execReplicaFill (id : Nat) (data : List Byte) (s : State) : Out :=
  .next (match s.acc? id with
  | none => s
  | some a =>
    let l := leafNow s a.ctx (a.va / 65536)
    if decide (a.op = .load) && unanswered s (tagOf id) && data.length == 128 && leafMode l == 2 && l.testBit 6 then
      let line := a.va / 128 * 128
      let s := dropSent s (tagOf id)
      let rest := s.replicas.filter fun r => !(r.ctx == a.ctx && r.va == line)
      let new : Replica := { ctx := a.ctx, va := line, data := data }
      let s : State := { s with replicas := new :: rest }
      deliverLine (evictReplicas s (homeSlice line)) a data
    else s)

end Sys2Proof.Machine
end

