-- ==== Sys2Proof/Machine/Link.lean ====
section
/-! DEFINITION. Links, the packets that arrive, the fabric timeout, combining, and the host ports (R370-R380). -/

namespace Sys2Proof.Machine

/-! ### Links (R371) -/

/-- A link's state changes and is reported; a link that leaves Up has its unanswered packets resent on another plane, and one
that comes Up takes what had none (R376). -/
def setLink (s : State) (n : Nat) (st : LinkState) (fails : Nat) : State :=
  let s : State := { s with links := sset {} s.links n { state := st, fails := fails, since := s.cycle, bad := 0 } }
  let s := healthPush s 0x08 n (linkCode st)
  let move (e : Sent) : Sent := if e.link = n ∨ 12 ≤ e.link then { e with link := planeOf s e.pkt.ctx, naks := 0 } else e
  { s with sent := s.sent.map move }

/-- LINK_TRAINING_LOCK (R371): all lanes lock within 2^20 clk in Training or Retrain. -/
def execLinkTrainingLock (link : Nat) (s : State) : Out :=
  let l : Link := sget {} s.links link
  .next (if (l.state = .training ∨ l.state = .retrain) ∧ s.cycle ≤ l.since + Config.trainWait then setLink s link .up 0 else s)

/-- LINK_TRAIN_TIMEOUT (R371): no lock within 2^20 clk. -/
def execLinkTrainTimeout (link : Nat) (s : State) : Out :=
  let l : Link := sget {} s.links link
  .next (if s.cycle < l.since + Config.trainWait then s
    else match l.state with
    | .training =>
      if 2 ≤ l.fails then setLink s link .down 0
      else { s with links := sset {} s.links link { l with fails := l.fails + 1, since := s.cycle } }
    | .retrain => setLink s link .down 0
    | _ => s)

/-- LANE_LOSS (R371): a lane of a link that is Up loses lock. -/
def execLaneLoss (link : Nat) (s : State) : Out :=
  .next (if (sget {} s.links link : Link).state = .up then setLink s link .retrain 0 else s)

/-- A packet that the sender has still in its buffer for a link (R373). -/
def Sent.on (e : Sent) (nak : Nak) : Bool := e.link == nak.link && e.pkt.dst == nak.dst && e.pkt.seq == nak.seq

/-- LINK_REPLAY (R371, R373): a NAK makes the sender replay the packet from its buffer; the packet's sixteenth in a row retrains the
link. -/
def execLinkReplay (link : Nak) (s : State) : Out :=
  .next (if (sget {} s.links link.link : Link).state ≠ .up then s
    else match s.sent.find? fun e => e.on link with
    | none => s
    | some e =>
      if 15 ≤ e.naks then setLink s link.link .retrain 0
      else { s with sent := s.sent.map fun x => if x.on link then { x with naks := x.naks + 1 } else x })

/-! ### Answers to this module's requests -/

/-- Whether an access reads: its lanes receive what the answer holds. -/
def Acc.reads (a : Acc) : Bool := match a.op with | .load => true | .atomic _ r => r | .store => false

/-- Lanes of an access meet a fault that its owner or the fabric gives (R350, R376): reads are poisoned, others leave a deferred
error with that SUB and INFO0. -/
def failLanes (s : State) (g : Group) (a : Acc) (ls : List LaneAcc) (cause sub dsub : Nat) (info : List Word) : State :=
  ls.foldl (fun s l => if a.reads then deliver s g a l none cause sub else onOwner s a.tail a.gid l.lane fun t => t.defer ⟨0x60, dsub, l.va, info⟩) s

/-- The group of an access's thread; a slide thread whose staged entry it releases may have left its group. -/
def accGroup (s : State) (a : Acc) : Option Group := (s.group? a.gid).orElse fun _ => (tailStn s a.tail).map fun _ => {}

/-- An access ends in a fault that its owner or the fabric gives (R350, R376), for the lanes whose part has no answer yet: reads are
poisoned, others leave a deferred error with that SUB and INFO0. -/
def failAcc (s : State) (a : Acc) (cause sub dsub : Nat) (info : List Word) : State :=
  let ps := s.sent.filterMap fun e => if e.needs && e.pkt.tag == tagOf a.id then some e.pkt.part else none
  let ls := if ps.isEmpty then a.lanes else (a.parts.mapIdx fun i l => if ps.contains i || a.again.contains i then l else []).flatten
  let s := dropSent s (tagOf a.id)
  match a.fetch, accGroup s a with
  | some k, _ => keepAcc s a k cause sub []
  | none, none => s.dropAcc a.id
  | none, some g => endAcc (failLanes s g a ls cause sub dsub info) a

/-- The lanes of one word of a fetch-and-add receive the old value plus the amounts of the lanes below (R379). -/
def faaLanes (s : State) (a : Acc) (ret : Bool) (ls : List LaneAcc) (o : Nat) : State :=
  match s.group? a.gid with
  | none => s
  | some g =>
    (ls.foldl (fun (s, v) l =>
      (if ret then deliver s g a l (some (toLE a.wid v)) 0 0 else s, (v + ofLE l.data) % 2 ^ (8 * a.wid))) (s, o)).1

/-- An answer to an access. `o` is what the packet's place in a merged request adds (R379). -/
def answerAcc (s : State) (a : Acc) (p : Packet) (o : Nat) : State :=
  let cause := (p.data.getD 0 0).toNat
  let sub := (p.data.getD 1 0).toNat
  let bs := p.data.drop 2
  let s : State := { s with sent := s.sent.filter fun e => !(e.needs && e.pkt.tag == tagOf a.id && e.pkt.part == p.part) }
  let fault : Nat × Nat × Nat × List Word :=
    if cause = 0x60 ∨ cause = 0x08 then (0x08, sub, sub, []) else (cause, sub, 4, [BitVec.ofNat 32 cause])
  let words := a.parts.getD p.part []
  match a.fetch, accGroup s a with
  | some k, _ =>
    if cause = 0xFE then keepAcc s a k 0x08 (bs.headD 0).toNat []
    else keepAcc s a k (if cause = 0x60 then 0x08 else cause) sub (if cause = 0 then bs else [])
  | none, none => s.dropAcc a.id
  | none, some g =>
    if cause ≠ 0 ∧ cause ≠ 0xFE then
      let s := failLanes s g a words fault.1 fault.2.1 fault.2.2.1 fault.2.2.2
      if unanswered s (tagOf a.id) || !a.again.isEmpty then s else endAcc s a
    else if isFaa a then
      let poi := if cause = 0xFE then (bs.headD 0).toNat else 0
      let s := if poi ≠ 0 then failLanes s g a words 0x08 poi poi []
        else faaLanes s a a.reads words ((ofLE (bs.take a.wid) + o) % 2 ^ (8 * a.wid))
      if unanswered s (tagOf a.id) || !a.again.isEmpty then s else endAcc s a
    else
      let n := if cause = 0xFE then a.wid + 1 else a.wid
      let one (s : State) (x : Nat × LaneAcc) : State :=
        let b := (bs.drop (x.1 * n)).take n
        let poi := if cause = 0xFE then (b.headD 0).toNat else 0
        if poi ≠ 0 then failLanes s g a [x.2] 0x08 poi poi []
        else if a.reads then
          let b := if cause = 0xFE then b.drop 1 else b
          deliver s g a x.2 (some (if a.op = .load then underStaged s g x.2.lane x.2.va b else b)) 0 0
        else s
      let s := (words.mapIdx fun i l => (i, l)).foldl one s
      if unanswered s (tagOf a.id) || !a.again.isEmpty then s else endAcc s a

/-- An answer to a relayed transfer (R326). -/
def answerXfer (s : State) (x : Xfer) (p : Packet) : State :=
  let cause := (p.data.getD 0 0).toNat
  let sub := (p.data.getD 1 0).toNat
  if cause = 0 then endXfer s x none
  else if cause = 0x29 then endXfer s x (some sub)
  else lostXfer s x 4 [BitVec.ofNat 32 cause]

/-- An answer shows that the next port of its request's link has accepted what that link carried before: the buffer keeps none of those
that await no answer, and their counts of NAKs begin anew (R373). -/
def accepted (s : State) (tag part : Nat) : State :=
  match s.sent.findIdx? fun e => e.needs && e.pkt.tag == tag && e.pkt.part == part with
  | none => s
  | some i =>
    let n := ((s.sent[i]?).map (·.link)).getD 12
    { s with sent := (s.sent.mapIdx fun j e => (j, e)).filterMap fun (j, e) =>
        if i ≤ j || e.link != n then some e else if e.needs then some { e with naks := 0 } else none }

/-- An answer reaches what it belongs to; one to a merged request is split in the order of its parts (R379). -/
def takeAnswer (s : State) (p : Packet) : State :=
  let id := p.tag / 4096
  let parts := (s.sent.find? fun e => e.needs && e.pkt.tag == p.tag && e.pkt.part == p.part).map (·.parts) |>.getD []
  let s := accepted s p.tag p.part
  match s.acc? id, s.xfer? id with
  | some a, _ =>
    if s.sent.any fun e => e.needs && e.pkt.tag == p.tag && e.pkt.part == p.part then
      let s := answerAcc s a p 0
      (parts.foldl (fun (s, o) (t, n) =>
        let part := ((s.sent.find? fun e => e.needs && e.merged && e.pkt.tag == t && e.pkt.va == p.va).map (·.pkt.part)).getD 0
        (match s.acc? (t / 4096) with
        | some b => answerAcc s b { p with tag := t, part := part } o
        | none => s, o + n)) (s, sumOf a.wid (a.lanes.filter fun l => l.va == p.va))).1
    else s
  | none, some x => if x.stage = 4 then answerXfer s x p else s
  | none, none => s

/-! ### Requests of other modules -/

/-- Pieces of a payload: an offset byte and `n` bytes each. -/
def pieces (n : Nat) : Nat → List Byte → List (Nat × List Byte)
  | 0, _ => []
  | _, [] => []
  | f + 1, o :: r => (o.toNat, r.take n) :: pieces n f (r.drop n)

/-- A request's access: what it does, its width, and the pieces of its line. -/
def requestOf (p : Packet) : Option (AccOp × Nat × List (Nat × List Byte)) :=
  let w := (p.data.headD 0).toNat
  if p.typ = 0x01 then some (.load, w, p.data.tail.map fun o => (o.toNat, []))
  else if p.typ = 0x02 then some (.store, w, pieces w p.data.length p.data.tail)
  else if p.typ = 0x21 then some (.atomic .add true, if p.opw = 3 then 8 else 4, [(p.va % 128, p.data)])
  else match aopOf (p.data.getD 1 0).toNat with
    | some op => some (.atomic op (p.data.getD 2 0 != 0), w, pieces (if op = .cas then 2 * w else w) p.data.length (p.data.drop 3))
    | none => none

/-- A relayed transfer as it arrives (R326). -/
def relayedXfer (p : Packet) (id : Nat) : Xfer :=
  let n (i k : Nat) : Nat := ofLE ((p.data.drop i).take k)
  { id := id, ctx := p.ctx, esize := n 0 1, sva := p.va, dva := n 3 8, sidx := n 11 4, didx := n 15 4,
    amount := (BitVec.ofNat 64 (n 19 8)).toInt, pc := BitVec.ofNat 32 (n 27 4), visLane := n 31 1, remote := some p, stamp := p.deadline.toNat }

/-- A request of another module at this one (R322, R350, R357, R358): a stub takes it unless it has been relayed twice, a module
that neither owns the page nor holds its stub sends it back, and the owner's tables give its place or a fault; a field page takes
transfers and reads only. Its way to its slice begins at the I/O die of the link that it came on (R18), whose status its access has as
well as its context's (R432). -/
def takeRequest (s : State) (link : Nat) (p : Packet) : State :=
  let x := p.tag % 4096
  match s.ctx? p.ctx with
  | none => answer s p 0x0A 0 []
  | some c =>
    let page := p.va / 65536
    let l := leafNow s p.ctx page
    let nack (s : State) : State := sendPacket s { mkPacket s 0x41 x p.ctx p.va p.tag [0] with part := p.part } false
    if (stubOf s p.ctx page).isSome then
      if 2 ≤ p.hops then nack s else { s with waiting := s.waiting ++ [p] }
    else if l.testBit 0 && leafMode l != 0 && leafPeer l != Config.peerId then nack s
    else
      let s := noteAfter s p.ctx page x p.after p.hops
      let xfer := decide (p.typ = 0x20 ∧ p.data.getD 1 0 = 9)
      let need := if p.typ = 0x01 then 1 else if p.typ = 0x02 ∨ xfer then 2 else 3
      match translate s noCore { c with world := c.world && s.secureLinks.contains link } need p.va with
      | .fault cs sub => answer s p cs sub []
      | .peer _ _ => nack s
      | .here pa leaf =>
        let (id, s) := s.fresh
        let route := fromFabric (dieOfLink link) pa
        if xfer ∧ ¬ leaf.testBit 5 then answer s p 0x0B 0 []
        else if xfer then { s with xfers := s.xfers ++ [{ relayedXfer p id with spa := pa, born := s.cycle, route := route }] }
        else if p.typ ≠ 0x01 ∧ leaf.testBit 5 then answer s p 0x28 0 []
        else match requestOf p with
        | none => { s with discards := s.discards + 1 }
        | some (op, w, ps) =>
          let base := p.va - p.va % 128
          let pa0 := pa - p.va % 128
          let lanes : List LaneAcc := ps.mapIdx fun i (o, d) => { lane := i, va := base + o, keys := keysFrom (pa0 + o) w, data := d }
          { s with accs := s.accs ++ [{ id := id, gid := 0, core := noCore, ctx := p.ctx, pc := 0, op := op, space := .dev, line := pa / 128,
                                        wid := w, lanes := lanes, stamp := some p.deadline.toNat, born := s.cycle, route := route, req := some p }] }

/-- A peer's acknowledgement of a lock or update (R193), or its notice that it dropped a replica (R363). -/
def takeReplicaMsg (s : State) (p : Packet) : State :=
  match (p.data.headD 0).toNat with
  | 2 => { s with sent := s.sent.filter fun e => !(e.needs && e.pkt.typ == 0x60 && e.pkt.dst == p.src && e.pkt.ctx == p.ctx && e.pkt.va == p.va) }
  | 3 => { s with repsets := s.repsets.map fun r =>
      if r.ctx == p.ctx && r.page == p.va / 65536 && !(s.sent.any fun e => e.needs && e.pkt.typ == 0x60 && e.pkt.dst == p.src && e.pkt.va == p.va)
      then { r with peers := r.peers.filter (· != p.src) } else r }
  | _ => s

/-- A peer's acknowledgement of STUB-RETIRE (R359). -/
def takeRetireAck (s : State) (p : Packet) : State :=
  if (p.data.headD 0) = 1 then modStub s p.ctx (p.va / 65536) fun st => { st with awaiting := st.awaiting.filter (· != p.src) } else s

/-- A field credit as it arrives (R332). -/
def creditOf (p : Packet) : CreditMsg :=
  let n (i k : Nat) : Nat := ofLE ((p.data.drop i).take k)
  { peer := p.tag % 4096, fromDom := n 0 1, dom := n 1 1, num := n 2 8, va := p.va, amount := (BitVec.ofNat 64 (n 10 8)).toInt, hops := p.hops,
    after := p.after, page := n 18 1 != 0 }

/-- A page copy as its bytes give it (R355 step 3). -/
def copyOf (src ctx page : Nat) (bs : List Byte) : PageCopyMsg :=
  let n (i k : Nat) : Nat := ofLE ((bs.drop i).take k)
  let f := n 17 1
  let k := n 20 1
  let rec cells : Nat → List Byte → List (Nat × Byte)
    | r + 1, a :: b :: v :: l => (a.toNat + 256 * b.toNat, v) :: cells r l
    | _, _ => []
  { ctx := ctx, page := page, peer := src, bytes := cells 65536 (bs.drop (21 + 2 * k)), moves := n 1 8, wstart := n 9 8,
    access := (List.range k).map fun i => n (21 + 2 * i) 2, overflow := f.testBit 1, capo := f.testBit 0, enters := f.testBit 2,
    pinned := f.testBit 3, pinLater := f.testBit 4, refused := n 0 1 == 1, dom := n 18 1, far := n 19 1 }

/-- A packet of a page copy: with the last one the copy has arrived (R355, R372). -/
def takePageCopy (s : State) (p : Packet) : State :=
  let page := p.va / 65536
  let mine (x : Nat × Nat × Nat × List Byte) : Bool := x.1 == p.src && x.2.1 == p.ctx && x.2.2.1 == page
  let bs := (((s.copyIn.find? mine).map (·.2.2.2)).getD []) ++ p.data
  let rest := s.copyIn.filter fun x => !mine x
  if p.after = 1 then takeCopy (copyOf p.src p.ctx page bs) { s with copyIn := rest } else { s with copyIn := (p.src, p.ctx, page, bs) :: rest }

/-- An acknowledgement (R372): of a page copy, which the new owner has taken or refused (R355, R356), of a home's update (R351), of a
field credit (R332), or of a store. -/
def takeAck (s : State) (p : Packet) : State :=
  let page := p.va / 65536
  let gone (t : Nat) : State := { s with sent := s.sent.filter fun e => !(e.needs && e.pkt.tag == t && e.pkt.ctx == p.ctx) }
  match migOf s p.ctx page with
  | some m =>
    if p.tag = homeTag page then (if m.told then commitMig (gone (homeTag page)) m else s)
    else if p.tag = copyTag page then (if p.data.headD 0 = 1 then takenMig (gone (copyTag page)) m else refuseMig s p.ctx page)
    else other
  | none => other
where
  other : State :=
    match s.xfer? (p.tag / 4096) with
    | some x => if x.stage = 4 then takeAnswer s p else ackCredit s (p.tag / 4096)
    | none => if (s.acc? (p.tag / 4096)).isSome then takeAnswer s p else lateAnswer s (p.tag / 4096)

/-- A REDIRECT (R357), a home's update (R351), or the notice of a page in capo (R360). -/
def takeRedirect (s : State) (p : Packet) : State :=
  let page := p.va / 65536
  let owner := ofLE (p.data.take 2)
  if p.tag = capoTag then pageEventAt s p.ctx 1 page
  else if p.tag / 2 ^ 61 = 1 then
    sendPacket (homeUpdated s p.ctx page owner) (mkPacket s 0x10 p.src p.ctx p.va p.tag []) false
  else redirected s p.ctx page owner (ofLE ((p.data.drop 2).take 4))

/-- A NACK-REFRESH (R358), a question that it made its requester ask the home, or the home's answer (log entry 16). -/
def takeRefresh (s : State) (p : Packet) : State :=
  let page := p.va / 65536
  match (p.data.headD 0).toNat with
  | 0 => nackPart s (p.tag / 4096) p.part
  | 1 => sendPacket s (mkPacket s 0x41 p.src p.ctx p.va p.tag (2 :: toLE 2 (leafPeer (leafNow s p.ctx page)))) false
  | _ => refreshAnswer s p.ctx page (ofLE ((p.data.drop 1).take 2))

/-- A packet passed on (R372): requests are taken, answers reach their requests, and the device's own messages have the effects of the
steps that the table lists for them. -/
def passOn (s : State) (link : Nat) (p : Packet) : State :=
  match p.typ.toNat with
  | 0x01 | 0x02 | 0x20 | 0x21 => takeRequest s link p
  | 0x03 | 0x22 => takeAnswer s p
  | 0x10 => takeAck s p
  | 0x30 => creditArrives s (creditOf p)
  | 0x31 => nackCredit s (p.tag / 4096)
  | 0x40 => takeRedirect s p
  | 0x41 => takeRefresh s p
  | 0x42 => if p.data.headD 0 = 1 then takeRetireAck s p else retireStub s p.ctx (p.va / 65536) p.src
  | 0x50 => takePageCopy s p
  | 0x60 => match (p.data.headD 0).toNat with
    | 0 => lockReplica s p.ctx p.va
    | 1 => updateReplica s p.ctx p.va (p.data.drop 1)
    | _ => takeReplicaMsg s p
  | _ => s

/-- Packet kinds of R372. -/
def knownType (t : BitVec 8) : Bool :=
  [0x01, 0x02, 0x03, 0x10, 0x20, 0x21, 0x22, 0x30, 0x31, 0x40, 0x41, 0x42, 0x50, 0x60].contains t.toNat

/-- The number a source's next packet carries. -/
def nextIn (s : State) (src : Nat) : Nat := sget 0 s.inSeq src

/-- Held packets whose turn has come are passed on, in order (R375). -/
def drainOrder : Nat → Nat → State → State
  | 0, _, s => s
  | f + 1, src, s =>
    match s.reorder.find? fun p => p.2.src == src && p.2.seq.toNat == nextIn s src with
    | none => s
    | some (link, p) =>
      let s : State := { s with reorder := s.reorder.filter (fun q => !(q.2.src == src && q.2.seq == p.seq)),
                                inSeq := sset 0 s.inSeq src ((nextIn s src + 1) % 2 ^ 32) }
      drainOrder f src (passOn s link p)

/-- A packet whose tag is bad draws a NAK (R373); the sixteenth in a row retrains the link (R371). -/
def badTag (s : State) (link : Nat) : State :=
  let l : Link := sget {} s.links link
  if 15 ≤ l.bad then setLink s link .retrain 0 else { s with links := sset {} s.links link { l with bad := l.bad + 1, naks := l.naks + 1 } }

/-- PACKET_RECEIVE (R372-R375, R276): a packet arrives with its tag on a link that is Up. A tag that is the complement of the right one was
found bad at a switch, and the packet is discarded without a NAK; any other bad tag draws one. An unknown kind, a nonzero reserved
field, another's DST or a payload that the flits do not hold is discarded and counted, and so is a number already passed on; an early
one waits; the rest are passed on in their source's order. -/
def execPacketReceive (link : Nat) (p : Packet) (tagOk : BitVec 64) (s : State) : Out :=
  let n := nextIn s p.src
  let ahead := (p.seq.toNat + 2 ^ 32 - n) % 2 ^ 32
  .next (if (sget {} s.links link : Link).state ≠ .up || tagOk == ~~~(packetCrc p) then s
    else if tagOk ≠ packetCrc p then badTag s link
    else
    let s : State := { s with links := s.links.map fun l => if l.1 = link then (l.1, { l.2 with bad := 0 }) else l }
    if !knownType p.typ || packetReserved p || p.dst != Config.peerId || !packetFits p then { s with discards := s.discards + 1 }
    else if 2 ^ 31 ≤ ahead || s.reorder.any (fun q => q.2.src == p.src && q.2.seq == p.seq) then { s with discards := s.discards + 1 }
    else if ahead ≠ 0 then
      if s.reorder.length < 8192 then { s.usage p.ctx 8 (packetLength p) with reorder := s.reorder ++ [(link, p)] } else s
    else
      let s : State := { s.usage p.ctx 8 (packetLength p) with inSeq := sset 0 s.inSeq p.src ((n + 1) % 2 ^ 32) }
      drainOrder s.reorder.length p.src (passOn s link p))

/-! ### The fabric timeout (R376) -/

/-- One unanswered packet ends as the table of R376 gives. -/
def endSent (s : State) (e : Sent) : State :=
  let p := e.pkt
  let id := p.tag / 4096
  if p.typ = 0x50 then refuseMig s p.ctx (p.va / 65536)
  else if p.typ = 0x60 then
    let s := { s with
      repsets := s.repsets.map fun r => if r.ctx == p.ctx && r.page == p.va / 65536 then { r with peers := r.peers.filter (· != p.dst) } else r,
      sent := s.sent.filter fun x => !(x.pkt.typ == 0x60 && x.pkt.dst == p.dst && x.needs) }
    pageEventAt s p.ctx 4 (p.va / 65536)
  else if p.typ = 0x40 then
    match migOf s p.ctx (p.va / 65536) with
    | some m => if m.told && p.tag == homeTag (p.va / 65536) then commitMig s m else s
    | none => s
  else if p.typ = 0x41 then
    { s with owners := s.owners.map (fun o => if o.ctx == p.ctx && o.page == p.va / 65536 then { o with pending := false } else o),
             sent := s.sent.filter fun x => !(x.pkt.typ == 0x41 && x.pkt.dst == p.dst && x.needs) }
  else match s.acc? id, s.xfer? id with
    | some a, _ => failAcc s a 0x0C 2 5 []
    | none, some x =>
      if x.stage = 2 then strand s x
      else if x.stage = 5 then healthPush s 0x0A (x.ctx * 256 + x.dom) x.peer
      else if x.stage = 4 then lostXfer s x 5 []
      else s
    | none, none => s

/-- FABRIC_TIMEOUT (R376): a request to a peer has had no answer for 2^FTOEXP clk: the peer is disabled and reported, and
every unanswered request to it ends. -/
def execFabricTimeout (peer : Nat) (s : State) : Out :=
  let mine (e : Sent) : Bool := e.needs && e.pkt.dst == peer
  .next (if s.sent.any fun e => mine e && decide (e.at_ + 2 ^ s.ftoexp ≤ s.cycle) then
      let es := s.sent.filter mine
      let s := healthPush { s with enabled := s.enabled.filter (· != peer) } 0x09 peer 0
      let s := es.foldl endSent s
      { s with sent := s.sent.filter fun e => !mine e }
    else s)

/-! ### Combining (R379) -/

/-- FAA_COMBINE (R379): a switch merges two fetch-and-add packets of this module that meet in it, entry j into entry i: the
first carries the sum, and its answer is split in that order. A merged packet is merged no more. -/
def execFaaCombine (i j : Nat) (s : State) : Out :=
  .next (match s.sent[i]?, s.sent[j]? with
  | some a, some b =>
    let p := a.pkt
    let q := b.pkt
    if i ≠ j ∧ p.typ = 0x21 ∧ q.typ = 0x21 ∧ p.dst = q.dst ∧ p.ctx = q.ctx ∧ p.va = q.va ∧ p.opw = q.opw ∧ p.nreq + q.nreq ≤ 64 ∧
        b.parts = [] ∧ a.needs ∧ b.needs ∧ !a.merged ∧ !b.merged ∧ p.tag ≠ q.tag then
      let w := if p.opw = 3 then 8 else 4
      let merged : Sent := { a with
        pkt := { p with nreq := p.nreq + q.nreq, data := toLE w (ofLE p.data + ofLE q.data) },
        parts := a.parts ++ [(q.tag, ofLE q.data)] }
      { s with sent := (s.sent.set i merged).set j { b with merged := true } }
    else s
  | _, _ => s)

/-! ### Host ports (R380) -/

/-- HOST_COMPLETION (R380): the bytes that the host answers with for each lane, or Unsupported Request, a permission
fault. -/
def execHostCompletion (id : Nat) (data : Option (List Byte)) (s : State) : Out :=
  .next (match s.acc? id with
  | none => s
  | some a =>
    if decide (a.space ≠ .host) || decide (a.op = .store) || behind s a then s
    else match data with
    | none => failAcc s a 0x0B 0 4 [0x0B]
    | some bs =>
      if bs.length ≠ (if a.reads then a.lanes.length * a.wid else 0) then s
      else match a.fetch, s.group? a.gid with
        | some k, _ => keepAcc s a k 0 0 bs
        | none, none => s.dropAcc id
        | none, some g =>
          let ls := a.lanes.mapIdx fun i l => (l, (bs.drop (i * a.wid)).take a.wid)
          endAcc (if a.reads then ls.foldl (fun s (l, b) => deliver s g a l (some b) 0 0) s else s) a)

/-- HOST_COMPLETION_TIMEOUT (R380): a missing completion ends the access as an absent peer with subcode 2. -/
def execHostCompletionTimeout (id : Nat) (s : State) : Out :=
  .next (match s.acc? id with
  | none => s
  | some a => if a.space = .host ∧ a.op ≠ .store then failAcc s a 0x0C 2 5 [] else s)

/-- The kind 6 accesses, WAITM reads among them, of some contexts and ports end as an absent peer (R380, R430). -/
def failHost (s : State) (on : Nat → Nat → Bool) : State :=
  (s.accs.filter fun a => decide (a.space = .host) && on a.ctx (hostPort s a)).foldl
    (fun s a => failAcc s a 0x0C 2 5 []) s

/-- HOST_PORT_LINK_CHANGE (R380): a port's link goes down, and the accesses through it end, or comes back. -/
def execHostPortLinkChange (port : Nat) (up : Bool) (s : State) : Out :=
  .next (if 2 ≤ port then s
    else
      let s : State := if port = 0 then { s with hostUp0 := up } else { s with hostUp1 := up }
      if up then s else failHost s fun _ p => p == port)

end Sys2Proof.Machine
end

