-- ==== Sys2Proof/Machine/Slide.lean ====
section
/-! DEFINITION. Slide mode: the fret map, the start of a slide sweep, arrival, the rings and regrouping (R382-R402). -/

namespace Sys2Proof.Machine

/-! ### FMAPW (R400) -/

/-- A Mapped image that FMAPW refuses. -/
def fretBad (ws : List Word) : Bool :=
  let f : Fret := { words := ws }
  bits (f.w 7) 31 20 != 0 || bits (f.w 6) 31 25 != 0 || bits (f.w 1) 31 27 != 0 || (f.w 1).testBit 15 || bits (f.w 0) 30 27 != 0 ||
  (f.w 0).testBit 15 || bits (f.w 0) 7 0 != 0 || ((List.range 8).any fun r => decide (f.nrep ≤ r) && f.coreOf r != 0) ||
  decide (128 < f.carry) || f.carry % 4 != 0 || decide (64 < f.ucarry) || decide (1024 < bits (f.w 1) 26 16) || f.start % 4 != 0 ||
  f.ringAt % 1024 != 0 || f.rcap == 0

def execFmapw (a : SReg) (r : RecN) (s : State) : Out :=
  uniIssued (.fmapw a r) (fun iss g s =>
    match sPoison s iss [a.toNat] with
    | some s => s
    | none => match uniAccess s iss g r 32 [0, 1] 1 with
      | .stop s => s
      | .oob s => advance s iss
      | .ok s locs =>
        let (bs, s) := uniRead s g.gid locs
        let ws := bytesToWords bs 8
        let id := iss.sv a
        let c := s.ctxOf g
        let valid := (wnat ws 0).testBit 31
        if 256 ≤ id || (valid && fretBad ws) then takeTrap s iss 0x05 { sub := 2 }
        else if (s.fret c id).state = .inUse then takeTrap s iss 0x05 { sub := 17 }
        else advance (s.modFret c id fun f => { f with words := ws, state := if valid then .mapped else .unmapped }) iss) s

/-! ### The start (R385, R386, R402) -/

/-- The places of a ring's header or record, or none where the access faults or meets a marked or uncorrectable line (R385, R393). -/
def ringPlace (s : State) (c : Context) (at_ n : Nat) : Option (List (Space × Nat)) :=
  match placesAt s noCore c 2 at_ n with
  | .ok locs => if locs.any fun (sp, k) => (dataPoison s sp [k]).isSome then none else some locs
  | .error _ => none

/-- A fret workgroup on a replica core (R385): its scratchpad holds zeros (R402), written words with good check bits (R422). -/
def addFretWg (s : State) (x : Sweep) (k : Nat) : State :=
  let (gid, s) := s.fresh
  let (wid, s) := s.fresh
  let s : State := { s with
    gangs := s.gangs ++ [{ id := gid, sweep := x.id, ctx := x.ctx, quartet := k / 4 }],
    wgs := s.wgs ++ [{ id := wid, gang := gid, sweep := x.id, ctx := x.ctx, core := k, size := scratchTake x.scratch, tiles := x.tiles, groups := 24, fret := true }],
    scratch := dropRange s.scratch (k * Config.scratchSpan) (scratchTake x.scratch),
    softErrs := s.softErrs.filter fun e => match e.1 with
      | .scratch u => !decide (k * Config.scratchSpan ≤ 8 * u ∧ 8 * u < k * Config.scratchSpan + scratchTake x.scratch)
      | _ => true }
  if x.tiles = 0 then s else freshArr s k

/-- A slide sweep whose ring headers cannot be written, or whose frets no longer meet R384 at its start (R400), is an invalid block
(R385, R302, R309). -/
def slideInvalid (s : State) (x : Sweep) : State :=
  let s : State := { s with sweeps := s.sweeps.filter fun y => y.id != x.id }
  match x.launch, x.queue with
  | some (l, i), q =>
    let s := s.modLaunch l fun l => { l with bad := true, started := l.started.filter (· != i) }
    match q with
    | some q => s.modQueue q fun q => { q with bad := true }
    | none => s
  | none, some q => completeEntry (s.modQueue q fun q => { q with bad := true }) q false
  | none, none => s

/-- The sweep takes its frets and cores (R385): every Mapped fret is In use with an empty ring. -/
def beginSlide (s : State) (x : Sweep) (c : Context) : State :=
  let fs := c.frets.filter fun (_, f) => decide (f.state = .mapped)
  let heads := fs.map fun (_, f) => (f.ringAt, ringPlace s c f.ringAt 8)
  if heads.any (·.2.isNone) || slideBlockBad s c x then slideInvalid s x
  else
    let s := heads.foldl (fun s h => deviceWrite s 0 noCore c.id h.1 (h.2.getD []) (List.replicate 8 0)) s
    let s := s.modCtx c.id fun c => { c with frets := c.frets.map fun (i, f) =>
      (i, if f.state = .mapped then { f with state := .inUse, head := 0, tail := 0, ring := [] } else f) }
    let s := (fs.flatMap fun (_, f) => f.cores).foldl (fun s k => addFretWg s x k) s
    let s := s.modSweep x.id fun y => { y with slideOn := true, placed := 1, placedTickets := x.total }
    match x.queue with
    | some q => s.modQueue q fun q => if q.state = 3 then { q with state := 4 } else q
    | none => s

/-- The thread of a slide thread number, as it travels to ENTRY (R386). -/
def startThread (x : Sweep) (f : Fret) (id n : Nat) : Thread :=
  let t := n / (64 * x.gpw)
  let ident : Ident := { grpId := n / 64 % x.gpw, wgX := t % x.w 2, wgY := t / x.w 2 % x.w 3, wgZ := t / (x.w 2 * x.w 3),
                         gangId := t, gangWg := 0, ticket := t }
  carried f id (sImage x) x.entry (newThread x ident (n % 64) n)

/-- A sweep is killed by the device as QFLUSH kills it (R299): its entry, or its launch, completes without its signal. -/
def abortSweep (s : State) (x : Sweep) : State :=
  let s := killSweep s x.id
  match x.launch, x.queue with
  | some (l, i), _ => s.modLaunch l fun l => { l with bad := true, completed := l.completed ++ [i] }
  | none, some q => completeEntry s q false
  | none, none => if x.resident then s.modCtx x.ctx fun c => { c with resident := none } else s

/-- A sweep whose thread or record is lost is killed, with event 7 (R393). -/
def loseSweep (s : State) (x : Sweep) (fret : Nat) : State := abortSweep (q0Push s x.ctx (eventItem 7 fret 0)) x

/-- The next thread of the sweep is injected toward ENTRY, if a slot or headroom is there (R386). -/
def inject (s : State) (x : Sweep) (c : Context) : Option State :=
  (fretAt c x.entry.toNat).bind fun id =>
    let t := startThread x (s.fret c.id id) id x.injected
    match departOne s noCore c.id id x.det t with
    | .ok s => some (s.modSweep x.id fun y => { y with injected := y.injected + 1 })
    | .full _ => none
    | .fault _ _ _ => some (loseSweep s x id)

/-- The slide sweep runs and has threads that wait to be injected. -/
def injecting (s : State) (x : Sweep) : Bool :=
  x.slideOn && decide (x.injected < x.total * 64 * x.gpw) && !slideSaved s x.ctx &&
  s.gangs.all fun g => g.sweep != x.id || decide (g.state = .running)

/-- What SLIDE_START does for a sweep: its start as the dispatcher's choice, or the next injection. -/
def slideStep (s : State) (sweep : Nat) : Option State :=
  (s.sweep? sweep).bind fun x => (s.ctx? x.ctx).bind fun c =>
    if injecting s x then inject s x c
    else match chosen s with
      | some (y, .slide, _, _) => if y.id = sweep then some (beginSlide s x c) else none
      | _ => none

/-- SLIDE_START (R385, R386). -/
def execSlideStart (sweep : Nat) (s : State) : Out := .next ((slideStep s sweep).getD s)

/-! ### Arrival and the rings (R391, R393) -/

/-- SLIDE_ARRIVAL (R391): a travelling thread enters the queue where it holds a slot. -/
def execSlideArrival (stn : Nat) (s : State) : Out :=
  .next (match s.travel.find? fun p => p.2.stn == stn with
  | none => s
  | some (k, t) =>
    let i := (s.travel.findIdx? fun p => p.2.stn == stn).getD 0
    let s : State := { s with travel := s.travel.eraseIdx i }
    s.modCore k fun c => { c with arrivals := c.arrivals ++ [{ t with arrived := s.cycle }] })

/-- The first context in which a fret of that number passes a test. -/
def fretCtx (s : State) (fret : Nat) (f : Context → Fret → Bool) : Option Context :=
  s.ctxs.find? fun c => let x := sget {} c.frets fret; decide (x.state = .inUse) && f c x

/-- SPILL_ACK (R391): the write of a ring record is acknowledged. -/
def execSpillAck (fret n : Nat) (s : State) : Out :=
  .next (match fretCtx s fret fun _ f => f.ring.any fun r => r.n == n && !r.acked with
  | none => s
  | some c => s.modFret c.id fret fun f => { f with ring := f.ring.map fun r => if r.n = n then { r with acked := true } else r })

/-- The slide sweep of a context that runs. -/
def slideSweep (s : State) (ctx : Nat) : Option Sweep := s.sweeps.find? fun x => x.ctx == ctx && x.slide && x.slideOn

/-- A parked record whose thread is the head thread may be taken (R396). -/
def recReady (s : State) (x : Sweep) (r : Nat) (y : RingRec) : Bool :=
  mayTake x.det (headStn s x) r y

/-- The record that a replica takes next (R391): the oldest that it may take, with a free slot in its queue. -/
def takable (s : State) (c : Context) (fret replica : Nat) : Option (Sweep × RingRec) :=
  (slideSweep s c.id).bind fun x =>
    let f := s.fret c.id fret
    if replica < f.nrep && decide (0 < queueFree s (f.coreOf replica) f.qcap) &&
        (s.gangs.all fun g => g.sweep != x.id || decide (g.state = .running)) then
      (f.ring.find? (recReady s x replica)).bind fun r => if r.acked then some (x, r) else none
    else none

/-- HEAD past every record before which all are taken (R391). -/
def dropTaken : List RingRec → Nat → List RingRec × Nat
  | r :: rs, h => if r.taken then dropTaken rs ((h + 1) % 2 ^ 32) else (r :: rs, h)
  | [], h => ([], h)

/-- RING_TAKE (R391, R393): a replica with a free slot takes the oldest record that it may. A record that cannot be read is
lost, and with it the sweep. -/
def execRingTake (fret replica : Nat) (s : State) : Out :=
  .next (match fretCtx s fret fun c _ => (takable s c fret replica).isSome with
  | none => s
  | some c => match takable s c fret replica with
    | none => s
    | some (x, r) =>
      let f := s.fret c.id fret
      match ringPlace s c (f.ringAt + 1024 + 1024 * (r.n % max 1 f.rcap)) 1024 with
      | none => loseSweep s x fret
      | some _ =>
        let ring := f.ring.map fun y => if y.n = r.n then { y with taken := true } else y
        let (ring, h) := dropTaken ring f.head
        let s := putRingHeader (s.modFret c.id fret fun f => { f with ring := ring, head := h }) noCore c c.id fret
        s.modCore (f.coreOf replica) fun k => { k with arrivals := k.arrivals ++ [{ r.thread with arrived := s.cycle, parked := r.parked }] })

/-! ### Regrouping (R392) -/

/-- The regrouping key of a queued thread. -/
def regroupKey (t : Thread) : Word × RegFile := (t.pc, t.carry)

/-- What a replica core has for its next group: its fret workgroup, the sweep, the fret, the slot, and the threads of the
key whose oldest thread arrived first. -/
def nextGroup (s : State) (core : Nat) : Option (Wg × Sweep × Fret × (Nat × Nat) × List Thread) :=
  match (s.core core).arrivals with
  | [] => none
  | t :: r =>
    (s.wgs.find? fun w => w.fret && w.core == core && decide (w.state = .running)).bind fun w =>
      (s.sweep? w.sweep).bind fun x =>
        if (s.gang? w.gang).elim false fun g => decide (g.state = .running) then
          (nextSlot (takenSlots s core) x.regs).map fun sl =>
            (w, x, s.fret x.ctx (t.fret.getD 0), sl, (t :: r).filter fun u => decide (regroupKey u = regroupKey t))
        else none

/-- A group formed of the first 64 of the threads (R392). Groups of the workgroup without threads leave. -/
def formGroup (s : State) (core : Nat) (w : Wg) (x : Sweep) (f : Fret) (sl : Nat × Nat) (ts : List Thread) : State :=
  let ts := ts.take 64
  let key := ((ts.head?.map (·.carry)).getD [])
  let sf : RegFile := key ++ (sImage x).filter fun e => decide (f.ucarry ≤ e.1)
  let stns := ts.map (·.stn)
  let (gid, s) := s.fresh
  let threads := ts.mapIdx fun i t => { t with lane := i, carry := [], arrived := 0 }
  let g : Group := { gid := gid, wg := w.id, core := core, quadrant := sl.1, slot := sl.2, grpId := sl.1 * Config.slotsPerQuadrant + sl.2,
                     regs := x.regs, s := sf, threads := threads }
  let s := s.modCore core fun c => { c with arrivals := c.arrivals.filter fun t => !stns.contains t.stn }
  let s : State := { s with groups := s.groups.filter (fun h => h.wg != w.id || h.threads.any fun t => !t.exited) ++ [g] }
  newRegion s gid (List.range threads.length)

/-- GROUP_FORM (R392): 64 threads of the key are queued, or the queue is full. -/
def formable (s : State) (core : Nat) : Option State :=
  (nextGroup s core).bind fun (w, x, f, sl, ts) =>
    if 64 ≤ ts.length ∨ f.qcap ≤ (s.core core).arrivals.length then some (formGroup s core w x f sl ts) else none
def execGroupForm (core : Nat) (s : State) : Out := .next ((formable s core).getD s)

/-- REGROUP_TIMEOUT (R392): 64 clk have passed without a new arrival of the key that holds the thread. -/
def regroupDue (s : State) (core : Nat) : Option (Nat × State) :=
  (nextGroup s core).bind fun (w, x, f, sl, ts) =>
    if maxOf (ts.map (·.arrived)) + 64 ≤ s.cycle then some ((ts.head?.map (·.stn)).getD 0, formGroup s core w x f sl ts) else none
def execRegroupTimeout (core stn : Nat) (s : State) : Out :=
  .next (match nextGroup s core, regroupDue s core with
  | some (_, _, _, _, ts), some (_, s') => if ts.any fun t => t.stn == stn then s' else s
  | _, _ => s)

end Sys2Proof.Machine
end

