-- ==== Sys2Proof/Machine/Determ.lean ====
section
/-! DEFINITION. The tailpiece: the release of staged entries in ticket order (R405-R408), and the unison check (R410-R412). -/

namespace Sys2Proof.Machine

/-! ### Entries and their keys -/

/-- What names an entry among the runs of its gang (R411): gang index, member, group, lane, epoch and place. -/
def entryKey (s : State) (e : Staged) : List Nat :=
  let w := (s.wg? e.wg).getD {}
  [w.ident.gangId, w.ident.gangWg, grpOf s e, e.lane, e.epoch, e.seq]

/-- The gang's release waits for the unison check (R406, R411). -/
def checked (s : State) (x : Sweep) (e : Staged) : Bool :=
  match gangOf s e with
  | some g => selected x g.index
  | none => false

/-- An entry leaves its stage buffer. -/
def dropEntry (s : State) (id : Nat) : State :=
  { s with cores := s.cores.map fun (k, c) => (k, { c with stage := c.stage.filter fun e => e.id != id }) }

/-! ### Release (R406, R408) -/

/-- A release of the sweep has not completed (R406); an amount stranded at another module is at its end. -/
def releasing (s : State) (x : Sweep) : Bool :=
  (s.accs.any fun a => a.tail.elim false fun t => t.1 == x.id) ||
  s.xfers.any fun y => y.stage != 3 && y.tail.elim false fun t => t.1 == x.id

/-- The entry that the tailpiece releases next (R406): of the head ticket, in a closed epoch, whose digests agree where the
gang is selected; in a slide sweep of the head thread. -/
def nextRelease (s : State) (x : Sweep) : Option Staged :=
  if releasing s x then none
  else
    let es := stagedOf s x.id
    let head := headTicket s x
    let may (e : Staged) : Bool :=
      closedEpoch s e && (if x.slide then headStn s x == some e.stn
        else e.ticket == head && (gangOf s e).elim false (fun g => g.run == 0) && (!checked s x e || decide (e.epoch < sget 0 x.agreed e.wg)))
    (sortBy (relLe x.slide (grpOf s)) (es.filter may)).head?

/-- The group and lane in which an entry's thread stands. A slide thread may be in another group than where it staged, or in none: while it
travels, is queued or lies in a ring, and when its group has gone after its exit. -/
def entryThread (s : State) (x : Sweep) (e : Staged) : Option (Group × Thread) :=
  if x.slide then s.groups.findSome? fun g =>
      if (s.wg? g.wg).elim false fun w => w.sweep == x.id then (g.threads.find? fun t => t.stn == e.stn).map fun t => (g, t) else none
  else (s.group? e.gid).bind fun g => (g.thread? e.lane).map fun t => (g, t)

/-- A staged STREL, CSIG or ordered atomic ends its thread's region when it is performed (R180). -/
def Staged.endsRegion (e : Staged) : Bool := e.sync && (e.op.isNone || e.kind == 0xA9 || decide (2 ≤ e.m))

/-- A staged STREL, CSIG or atomic of `.rel` or `.ar` ordering: its ordering takes effect at its release (R186, R407). -/
def Staged.isRel (e : Staged) : Bool := e.sync && (e.op.isNone || e.kind == 0xA9 || decide (4 ≤ e.m))

/-- An earlier access of an entry's thread that was not staged has not ended. -/
def Staged.early (s : State) (e : Staged) : Bool :=
  s.accs.any fun a => a.req.isNone && a.gid == e.gid && decide (a.id < e.id) && a.lanes.any fun l => l.lane == e.lane

/-- What names the thread of an entry that is released, for what its release gives: the thread's number in a slide sweep, the entry among
the gang's runs (R411), or nothing. -/
def tailOf (s : State) (x : Sweep) (e : Staged) : Option (Nat × List Nat) :=
  some (x.id, if x.slide then [e.stn] else if checked s x e then entryKey s e else [])

/-- The core whose stage buffer holds an entry. -/
def stageCore (s : State) (e : Staged) : Nat := ((s.cores.find? fun p => p.2.stage.any fun f => f.id == e.id).map (·.1)).getD 0

/-- The access that performs an entry. -/
def entryAcc (s : State) (x : Sweep) (e : Staged) (gid core lane id : Nat) (sp : Space) (keys : List Nat) : Acc :=
  let op : AccOp := match e.op with
    | some op => .atomic op e.ret
    | none => .store
  let stamp := sweepStamp s (some x)
  { id := id, gid := gid, core := core, ctx := x.ctx, pc := e.pc, wid := e.wid, space := sp, line := keys.headD 0 / 128, op := op,
    lanes := [{ lane := lane, va := e.va, keys := keys, dst := e.dst, data := e.data }], sync := e.endsRegion, stamp := some stamp.1,
    queue := stamp.2, born := s.cycle, sc := e.sc,
    route := routeOf s core x.ctx op sp (keys.headD 0 / 128) e.va, tail := tailOf s x e }

/-- An entry goes to its point of execution (R406): its translation is the one that stands; one that fails leaves the deferred
error of R350. The thread of a returning atomic or FXFERW waits for it. -/
def release (s : State) (x : Sweep) (e : Staged) : State :=
  let core := stageCore s e
  let tail := tailOf s x e
  let s := dropEntry s e.id
  let here := (entryThread s x e).map fun (g, t) => (g.gid, t.lane)
  match if x.slide then some (here.getD (0, e.lane)) else here, s.ctx? x.ctx with
  | some (gid, lane), some c =>
    let (id, s) := s.fresh
    let await (w : Wait) (s : State) : State := onOwner s tail gid lane fun t => { t with wait := w }
    match e.xfer with
    | some (dva, di, amount) =>
      let st := sweepStamp s (some x)
      let y : Xfer := { id := id, gid := gid, lane := lane, visLane := visible x.coursed lane, pc := e.pc, ctx := x.ctx, esize := e.wid,
                        sidx := ofLE (e.data.take 4), didx := di, sva := e.va, dva := dva, amount := amount, wait := e.pred,
                        stamp := st.1, queue := st.2, born := s.cycle, tail := tail }
      startXfer (if e.pred.isSome then await (.xfer id) s else s) core (translate s core c 2 y.sva) y
    | none =>
      let go (sp : Space) (keys : List Nat) : State :=
        let s : State := { s with accs := s.accs ++ [entryAcc s x e gid core lane id sp keys] }
        if e.ret then await (.accs [id]) s else s
      let lost (cs sub : Nat) : State :=
        onOwner (if e.ret then noteVal s tail (cs, sub, []) else s) tail gid lane fun t =>
          if e.ret then (t.fault e.dst (regsOfBytes e.wid) cs sub e.va e.pc).ready
          else t.defer ⟨0x60, 4, e.va, [BitVec.ofNat 32 cs]⟩
      match translate s core c (if e.op.isSome then 3 else 2) e.va with
      | .here pa l => if l.testBit 5 then lost 0x28 0 else go .dev (keysFrom pa e.wid)
      | .peer p l => if l.testBit 5 then lost 0x28 0 else go (.remote p) (keysFrom e.va e.wid)
      | .fault cs sub => lost cs sub
  | _, _ => s

/-- Before a release of .sys scope is performed, a zero-length read goes to each host port that its thread has posted to (R380); no other
entry of the sweep is released until they have ended. -/
def releaseFlush (s : State) (x : Sweep) (e : Staged) : Option State :=
  let mine (p : Nat × Nat × Nat) : Bool := p.1 == e.gid && p.2.1 == e.lane
  let ports := dedup ((s.posted.filter mine).map (·.2.2))
  if !e.isRel || e.sc != 3 || e.flushed || ports.isEmpty then none
  else
    let core := stageCore s e
    let s : State := { s with
      posted := s.posted.filter fun p => !mine p,
      cores := s.cores.map fun (k, c) => (k, { c with stage := c.stage.map fun f => if f.id = e.id then { f with flushed := true } else f }) }
    some (ports.foldl (fun s port =>
      let (id, s) := s.fresh
      { s with accs := s.accs ++ [{ id := id, gid := e.gid, core := core, ctx := x.ctx, pc := e.pc, op := .load, space := .host, line := port,
                                    wid := 0, lanes := [], tail := some (x.id, []) }] }) s)

/-- The next entry of a sweep is released, when its ordering lets it go. -/
def releaseNext (s : State) (x : Sweep) : Option State :=
  (nextRelease s x).bind fun e =>
    if e.isRel && e.early s then none
    else some ((releaseFlush s x e).getD (release s x e))

/-! ### The other runs of a selected gang (R411, R412) -/

/-- The gang of a sweep and index whose stream is released. -/
def chiefOf (s : State) (x : Sweep) (index : Nat) : Option Gang := s.gangs.find? fun g => g.sweep == x.id && g.index == index && g.run == 0
/-- The member of a gang with a number. -/
def memberOf (s : State) (gang m : Nat) : Option Wg := (gangWgs s gang).find? fun w => w.ident.gangWg == m

/-- The primary's entry of a key is staged or on its way. -/
def keyOpen (s : State) (x : Sweep) (k : List Nat) : Bool :=
  ((stagedOf s x.id).any fun e => (gangOf s e).elim false (fun g => g.run == 0) && entryKey s e == k) ||
  (s.accs.any fun a => a.tail == some (x.id, k)) || (s.xfers.any fun y => y.stage != 3 && y.tail == some (x.id, k))

/-- An entry of another run whose epoch's digests agree: it leaves when the primary's has been released, and a waiting thread receives what
that release gave (R411). -/
def nextEcho (s : State) (x : Sweep) : Option (Staged × Option (Nat × Nat × List Byte)) :=
  (stagedOf s x.id).findSome? fun e =>
    match gangOf s e with
    | none => none
    | some g =>
      if g.run = 0 then none
      else
        let n := ((chiefOf s x g.index).bind fun c => (memberOf s c.id ((s.wg? e.wg).getD {}).ident.gangWg).map fun w => sget 0 x.agreed w.id).getD 0
        if n ≤ e.epoch || keyOpen s x (entryKey s e) then none
        else if e.ret || e.pred.isSome then
          (x.vals.find? fun v => v.1 == entryKey s e).map fun v => (e, some v.2)
        else some (e, none)

/-- The echo of a release in another run. -/
def echo (s : State) (x : Sweep) (e : Staged) (v : Option (Nat × Nat × List Byte)) : State :=
  let s := dropEntry s e.id
  match v, entryThread s x e with
  | some (cs, sub, bs), some (g, t) =>
    onLane s g t.lane fun t =>
      let t := if t.wait = .staged then t.ready else t
      match e.pred with
      | some p => t.pset p (bs == [byteOf 1]) false
      | none => if cs = 0 then t.load e.dst bs else t.fault e.dst (regsOfBytes e.wid) cs sub e.va e.pc
  | _, _ => s

/-- ENTRY_RELEASE (R406, R408, R411). -/
def releaseStep (s : State) (sweep : Nat) : Option State :=
  (s.sweep? sweep).bind fun x =>
    if !x.det then none
    else match nextEcho s x with
      | some (e, v) => some (echo s x e v)
      | none => releaseNext s x
def execEntryRelease (sweep : Nat) (s : State) : Out := .next ((releaseStep s sweep).getD s)

/-- The image of an entry (R410). -/
def entryImage (s : State) (e : Staged) : List Byte :=
  let data := match e.xfer with
    | some (_, di, amount) => toLE 8 (BitVec.ofInt 64 amount).toNat ++ e.data.take 4 ++ toLE 4 di
    | none => (e.data ++ List.replicate 16 0).take 16
  toLE 8 (e.va % 2 ^ 57) ++ [byteOf e.kind, byteOf (e.wid * 8 + e.m % 8), byteOf e.lane, byteOf (grpOf s e)] ++ toLE 4 0 ++ data

/-- One bit of the CRC-64 of ECMA-182 (R372). -/
def crcBit (c : Nat) : Nat := if c.testBit 63 then Nat.xor (c * 2 % 2 ^ 64) 0x42F0E1EBA9EA3693 else c * 2 % 2 ^ 64
/-- The integrity tag of some bytes (R372). -/
def crc64 (bs : List Byte) : Nat :=
  bs.foldl (fun c b => (List.range 8).foldl (fun c _ => crcBit c) (Nat.xor c (b.toNat * 2 ^ 56))) 0

/-- The digest of a workgroup's epoch: its images in release order (R412). -/
def digest (s : State) (sweep wg epoch : Nat) : Nat :=
  let es := sortBy (relLe false (grpOf s)) ((stagedOf s sweep).filter fun e => e.wg == wg && e.epoch == epoch)
  crc64 (es.flatMap (entryImage s))

/-- The first epoch of a workgroup that every thread of it has closed (R405) reaches past n; a workgroup whose threads are
all Exited has closed every epoch. -/
def closedPast (s : State) (w : Wg) (n : Nat) : Bool :=
  s.groups.all fun g => g.wg != w.id || g.threads.all fun t => t.exited || decide (n < t.epoch)

/-- The other runs of a gang. -/
def rivals (s : State) (g : Gang) : List Gang := s.gangs.filter fun h => h.sweep == g.sweep && h.index == g.index && h.id != g.id

/-- Whether all of a workgroup's epochs have been compared: its threads are Exited and no entry of an uncompared epoch is
left in either run. -/
def compared (s : State) (x : Sweep) (w v : Wg) (n : Nat) : Bool :=
  let over_ (u : Wg) : Bool := s.groups.all fun g => g.wg != u.id || g.threads.all (·.exited)
  over_ w && over_ v && !((stagedOf s x.id).any fun e => (e.wg == w.id || e.wg == v.id) && decide (n ≤ e.epoch))

/-- A run becomes the one whose stream is released (R412): the run that disagreed is abandoned. -/
def promote (s : State) (x : Sweep) (old new : Gang) (m : Nat) (n : Nat) : State :=
  let counts := (gangWgs s new.id).map fun w => (w.id, if w.ident.gangWg = m then n else ((memberOf s old.id w.ident.gangWg).map fun v =>
    sget 0 x.agreed v.id).getD 0)
  let s := killGang s old.id
  let s := s.modGang new.id fun g => { g with run := 0, primary := none }
  { s with
    gangs := s.gangs.map fun g => if g.sweep = x.id ∧ g.index = new.index ∧ g.id ≠ new.id then { g with primary := some new.id } else g,
    sweeps := s.sweeps.map fun y => if y.id = x.id then { y with agreed := counts.foldl (fun l p => sset 0 l p.1 p.2) y.agreed } else y }

/-- Three runs differ, or the two that remained do (R412): the sweep is killed and q0 learns of it. -/
def unisonError (s : State) (x : Sweep) (index : Nat) : State :=
  abortSweep (healthPush (q0Push s x.ctx (eventItem 8 index 0)) 0x0D x.ctx index) x

/-- The next comparison of a selected gang (R412): the lowest member whose next epoch both runs have closed. -/
def compareStep (s : State) (gang : Nat) : Option State :=
  match s.gang? gang with
  | none => none
  | some g =>
    match s.sweep? g.sweep with
    | none => none
    | some x =>
      if g.run ≠ 0 ∨ ¬ selected x g.index then none
      else (gangWgs s gang).findSome? fun w =>
        let n := sget 0 x.agreed w.id
        let m := w.ident.gangWg
        let rs := (rivals s g).filterMap fun h => (memberOf s h.id m).map fun v => (h, v)
        let agree (s : State) : State := s.modSweep x.id fun y => { y with agreed := sset 0 y.agreed w.id (n + 1) }
        let d (v : Wg) : Nat := digest s x.id v.id n
        if !closedPast s w n then none
        else match rs with
          | [(h, v)] =>
            if !closedPast s v n || compared s x w v n then none
            else if d w = d v then some (agree s)
            else if h.run = 2 ∨ g.primary.isSome then some (unisonError s x g.index)
            else if x.wants.contains (g.index, 2) then none
            else some (s.modSweep x.id fun y => { y with wants := y.wants ++ [(g.index, 2)] })
          | [(h, v), (h', v')] =>
            if !closedPast s v n || !closedPast s v' n then none
            else if d w = d v' ∧ d w = d v then some (agree s)
            else if d w = d v' then some (agree (killGang s h.id))
            else if d w = d v then some (agree (killGang s h'.id))
            else if d v = d v' then some (promote s x g h m (n + 1))
            else some (unisonError s x g.index)
          | _ => none

/-- DIGEST_COMPARE (R412), named by the gang whose stream is released. -/
def execDigestCompare (gang : Nat) (s : State) : Out := .next ((compareStep s gang).getD s)

end Sys2Proof.Machine
end

