-- ==== Sys2Proof/Machine/FloatMix.lean ====
section
/-! DEFINITION. Floating point, conversion, IAMIN and the lane instructions of class MIX (R109-R129). -/

namespace Sys2Proof.Machine

/-- Exceptions of a thread that are enabled (R62). -/
def Thread.enabled (t : Thread) (fl : Fl) : Fl := fl &&& (t.fctl >>> 16).setWidth 5
/-- Sticky flags set (R62). -/
def Thread.flag (t : Thread) (fl : Fl) : Thread := { t with fctl := t.fctl ||| (fl.setWidth 32 <<< 8) }
/-- The lowest exception's number. -/
def lowFl (fl : Fl) : Nat := if fl.getLsbD 0 then 0 else if fl.getLsbD 1 then 1 else if fl.getLsbD 2 then 2 else
  if fl.getLsbD 3 then 3 else 4

/-- A float effect of every active lane, with the collection window of R127: an enabled exception of any lane traps
the issue and no lane changes. -/
def floatEff (i : Instr) (f : RegFile → Group → Issue → Thread → Thread × Fl) (s : State) : Out :=
  issued i (fun iss g s =>
    let hit := g.threads.filter fun t => iss.lanes.contains t.lane && decide (t.enabled (f iss.snap g iss t).2 ≠ 0)
    match hit with
    | t :: _ =>
      takeTrap s iss (0x10 + lowFl (t.enabled (f iss.snap g iss t).2)) { lanes := hit.map (·.lane) }
    | [] =>
      advance (s.mapLanes iss.gid iss.lanes fun t => let (t', fl) := f iss.snap g iss t
                                                    t'.flag fl) iss (wordsOf i)) s

/-- The rounding mode of FCTL.RM, or of an rnd code (R60, R46). -/
def Thread.rm (t : Thread) : Mode := t.fctl.toNat % 4
def Thread.rnd (t : Thread) : Rnd → Mode
  | .dyn => t.rm
  | .rne => 0
  | .rpi => 1
  | .rmi => 2
  | .rz => 3

/-- A register operand's bits by width in registers, with poison. -/
def vbits (t : Thread) (n r : Nat) : Nat × Bool :=
  if n = 2 then ((vpair t r).w.toNat, (vpair t r).poi) else ((t.vget r).w.toNat, (t.vget r).poi)
def obits (sf : RegFile) (t : Thread) (n : Nat) (b : Opv) : Nat × Bool :=
  match b with
  | .v r => vbits t n r.toNat
  | .s r => if n = 2 then ((spair sf r.toNat).w.toNat, (spair sf r.toNat).poi)
            else ((sget {} sf r.toNat).w.toNat, (sget {} sf r.toNat).poi)
/-- A result's bits written by width in registers. -/
def Thread.vput (t : Thread) (n r x : Nat) (poi : Bool) : Thread :=
  if n = 2 then t.vset64 r ⟨BitVec.ofNat 64 x, poi⟩ else t.vset r ⟨BitVec.ofNat 32 x, poi⟩

/-- An operation applied to the elements of a register operand (R109): bf16 takes two, with joined flags. -/
def elems (fmt : Fmt) (op : FSpec → Nat → Nat → Nat → Nat × Fl) (a b d : Nat) : Nat × Fl :=
  match fmt with
  | .bf16 =>
    let (x, f) := op specB (a % 65536) (b % 65536) (d % 65536)
    let (y, g) := op specB (a / 65536) (b / 65536) (d / 65536)
    (x + 65536 * y, f ||| g)
  | _ => op (fspec fmt) a b d

/-- A float instruction with two operands (R112). -/
def float2 (i : Instr) (x : Fb) (rd : Bool) (op : Mode → FSpec → Nat → Nat → Nat → Nat × Fl) (s : State) : Out :=
  floatEff i (fun sf _ _ t =>
    let n := fmtRegs x.fmt
    let (a, pa) := vbits t n x.a.toNat
    let (b, pb) := obits sf t n x.b
    let (d, pd) := vbits t n x.d.toNat
    let (r, fl) := elems x.fmt (op t.rm) a b d
    (t.vput n x.d.toNat r (pa || pb || (rd && pd)), fl)) s

def execFadd (x : Fb) (s : State) : Out :=
  float2 (.fadd x) x false (fun m f a b _ => fmaR f m [] [fval f a, fval f b]) s
def execFsub (x : Fb) (s : State) : Out :=
  float2 (.fsub x) x false (fun m f a b _ => fmaR f m [] [fval f a, (fval f b).neg]) s
def execFmul (x : Fb) (s : State) : Out :=
  float2 (.fmul x) x false (fun m f a b _ => fmaR f m [(fval f a, fval f b)] []) s
def execFfma (x : Fb) (s : State) : Out :=
  float2 (.ffma x) x true (fun m f a b d => fmaR f m [(fval f a, fval f b)] [fval f d]) s
def execFfnma (x : Fb) (s : State) : Out :=
  float2 (.ffnma x) x true (fun m f a b d => fmaR f m [((fval f a).neg, fval f b)] [fval f d]) s
def execFmin (x : Fb) (s : State) : Out := float2 (.fmin x) x false (fun _ f a b _ => fminR f false a b) s
def execFmax (x : Fb) (s : State) : Out := float2 (.fmax x) x false (fun _ f a b _ => fminR f true a b) s
def execFdiv (x : Fb) (s : State) : Out :=
  float2 (.fdiv x) x false (fun m f a b _ => fdivR f m (fval f a) (fval f b)) s
/-- FAMIN (R114). -/
def execFamin (x : Fb) (s : State) : Out :=
  float2 (.famin x) x true (fun m f a b d =>
    let (t, fl) := fmaR f m [] [fval f a, fval f b]
    let (r, fm) := fminR f false d t
    (r, fl ||| fm)) s
/-- FSCALE (R112): n is a 32-bit operand for fp32, the pair for fp64. -/
def execFscale (x : Fb) (s : State) : Out :=
  floatEff (.fscale x) (fun sf _ _ t =>
    let n := fmtRegs x.fmt
    let (a, pa) := vbits t n x.a.toNat
    let (b, pb) := obits sf t n x.b
    let k : Int := if n = 2 then (BitVec.ofNat 64 b).toInt else (BitVec.ofNat 32 b).toInt
    let (r, fl) := fscaleR (fspec x.fmt) t.rm (fval (fspec x.fmt) a) k
    (t.vput n x.d.toNat r (pa || pb), fl)) s
/-- FSGN (R116). -/
def execFsgn (x : FsgnF) (s : State) : Out :=
  laneEff (.fsgn x) (fun sf t =>
    let n := if x.f64 then 2 else 1
    let (a, pa) := vbits t n x.a.toNat
    let (b, pb) := obits sf t n x.b
    let top := 32 * n - 1
    let sg := if x.x then a.testBit top != b.testBit top else b.testBit top
    t.vput n x.d.toNat (a % 2 ^ top + (if sg then 2 ^ top else 0)) (pa || pb)) s
/-- FCLASS (R117). The D of an fp64 FCLASS is a pair. -/
def execFclass (x : Fu) (s : State) : Out :=
  laneEff (.fclass x) (fun _ t =>
    let (a, pa) := vbits t (fmtRegs x.fmt) x.a.toNat
    match x.fmt with
    | .bf16 => t.vput 1 x.d.toNat (fclassR specB (a % 65536) + 65536 * fclassR specB (a / 65536)) pa
    | .f32 => t.vput 1 x.d.toNat (fclassR spec32 a) pa
    | .f64 => t.vput 2 x.d.toNat (fclassR spec64 a) pa) s

/-- A float instruction with one operand of R118. -/
def float1 (i : Instr) (n a d : Nat) (op : Mode → Nat → Nat × Fl) (s : State) : Out :=
  floatEff i (fun _ _ _ t =>
    let (x, p) := vbits t n a
    let (r, fl) := op t.rm x
    (t.vput n d r p, fl)) s

def execFsqrt (x : Fu) (s : State) : Out :=
  float1 (.fsqrt x) (fmtRegs x.fmt) x.a.toNat x.d.toNat (fun m v => fsqrtR (fspec x.fmt) m (fval (fspec x.fmt) v)) s
def execFrcp (x : F1) (s : State) : Out := float1 (.frcp x) 1 x.a.toNat x.d.toNat (fun m v => frcpR m (fval spec32 v)) s
def execFrsq (x : F1) (s : State) : Out := float1 (.frsq x) 1 x.a.toNat x.d.toNat (fun m v => frsqR m (fval spec32 v)) s
def execFex2 (x : F1) (s : State) : Out := float1 (.fex2 x) 1 x.a.toNat x.d.toNat (fun m v => fex2R m (fval spec32 v)) s
def execFlg2 (x : F1) (s : State) : Out := float1 (.flg2 x) 1 x.a.toNat x.d.toNat (fun m v => flg2R m (fval spec32 v)) s
def execFsinp (x : F1) (s : State) : Out := float1 (.fsinp x) 1 x.a.toNat x.d.toNat (fun m v => fsinpR m (fval spec32 v)) s
def execFcosp (x : F1) (s : State) : Out := float1 (.fcosp x) 1 x.a.toNat x.d.toNat (fun m v => fcospR m (fval spec32 v)) s

/-- FRND (R120). -/
def execFrnd (x : FrndF) (s : State) : Out :=
  floatEff (.frnd x) (fun _ _ _ t =>
    let n := if x.f64 then 2 else 1
    let (a, p) := vbits t n x.a.toNat
    let (r, fl) := frndR (if x.f64 then spec64 else spec32) (t.rnd x.rnd) a
    (t.vput n x.d.toNat r p, fl)) s

/-- The low bits of a register that hold a narrow source (R120). -/
def narrow (f : FFmt) (x : Nat) : Nat :=
  match f with
  | .bf16 => x % 65536
  | .f8e4 => x % 256
  | .f8e5 => x % 256
  | _ => x

/-- An integer operand in its type. -/
def intVal (it : IType) (x : Nat) : Int :=
  match it with
  | .s32 => (BitVec.ofNat 32 x).toInt
  | .s64 => (BitVec.ofNat 64 x).toInt
  | _ => x

def execCvtif (x : CvtIntF) (s : State) : Out :=
  floatEff (.cvtif x) (fun _ _ _ t =>
    let (a, p) := vbits t (itypeRegs x.it) x.a.toNat
    let (r, fl) := cvtifR (ffspec x.ft) (t.rnd x.rnd) (intVal x.it a)
    (t.vput (ffmtRegs x.ft) x.d.toNat r p, fl)) s
def execCvtfi (x : CvtIntF) (s : State) : Out :=
  floatEff (.cvtfi x) (fun _ _ _ t =>
    let (a, p) := vbits t (ffmtRegs x.ft) x.a.toNat
    let (r, fl) := cvtfiR (ffspec x.ft) x.it (t.rnd x.rnd) (narrow x.ft a)
    (t.vput (itypeRegs x.it) x.d.toNat (BitVec.ofInt 64 r).toNat p, fl)) s
/-- CVTFF's result (R63, R64, R120): equal formats return the value, a NaN made canonical. So an infinity of fp8e5 stays one in
`CVTFF.f8e5.f8e5.sat`, where the `.sat` column of R64 alone would give ±57,344 (DEDUCED, log entry 52). -/
def cvtffOf (x : CvtFFF) (mode : Mode) (a : Nat) : Nat × Fl :=
  let v := fval (ffspec x.src) (narrow x.src a)
  if x.dst = x.src ∧ v.isNaN = false then (narrow x.src a, 0) else cvtffR (ffspec x.dst) x.sat mode v
def execCvtff (x : CvtFFF) (s : State) : Out :=
  floatEff (.cvtff x) (fun _ _ _ t =>
    let (a, p) := vbits t (ffmtRegs x.src) x.a.toNat
    let (r, fl) := cvtffOf x (t.rnd x.rnd) a
    (t.vput (ffmtRegs x.dst) x.d.toNat r p, fl)) s

/-- PACK (R121). -/
def execPack (x : PackF) (s : State) : Out :=
  floatEff (.pack x) (fun _ _ _ t =>
    let (n, sz) := match x.dst with | .bf16 => (2, 65536) | _ => (4, 256)
    let rs := (List.range n).map fun i => cvtffR (ffspec x.dst) x.sat (t.rnd x.rnd) (fval spec32 (t.vget (x.a.toNat + i)).w.toNat)
    let w := rs.foldr (fun r acc => r.1 + sz * acc) 0
    let p := (List.range n).any fun i => (t.vget (x.a.toNat + i)).poi
    (t.vput 1 x.d.toNat w p, rs.foldl (fun f r => f ||| r.2) 0)) s
/-- UNPK (R121): exact, so no mode. -/
def execUnpk (x : UnpkF) (s : State) : Out :=
  floatEff (.unpk x) (fun _ _ _ t =>
    let (n, sz) := match x.src with | .bf16 => (2, 65536) | _ => (4, 256)
    let a := t.vget x.a.toNat
    let rs := (List.range n).map fun i => cvtffR spec32 false 0 (fval (ffspec x.src) (a.w.toNat / sz ^ i % sz))
    let t' := (List.range n).foldl (fun t i => t.vput 1 (x.d.toNat + i) (rs.getD i (0, 0)).1 a.poi) t
    (t', rs.foldl (fun f r => f ||| r.2) 0)) s

/-- FDOT2 (R112): exact products and accumulator, one rounding to fp32. -/
def execFdot2 (x : Dot2F) (s : State) : Out :=
  floatEff (.fdot2 x) (fun sf _ _ t =>
    let (a, pa) := vbits t 1 x.a.toNat
    let (b, pb) := obits sf t 1 x.b
    let (d, pd) := vbits t 1 x.d.toNat
    let (r, fl) := fmaR spec32 t.rm [(fval specB (a % 65536), fval specB (b % 65536)), (fval specB (a / 65536), fval specB (b / 65536))]
      [fval spec32 d]
    (t.vput 1 x.d.toNat r (pa || pb || pd), fl)) s

/-- FCMP (R119): an enabled trap leaves every predicate. -/
def execFcmp (x : FcmpF) (s : State) : Out :=
  floatEff (.fcmp x) (fun sf _ _ t =>
    let n := fmtRegs x.fmt
    let (a, pa) := vbits t n x.a.toNat
    let (b, pb) := obits sf t n x.b
    let cut (v : Nat) := match x.fmt with | .bf16 => v % 65536 | _ => v
    let (r, fl) := fcmpR x.c (fval (fspec x.fmt) (cut a)) (fval (fspec x.fmt) (cut b))
    (t.pset x.p.toNat r (pa || pb), fl)) s

/-- IAMIN (R115). -/
def execIamin (x : Bx) (s : State) : Out :=
  int32 (.iamin x) x true (fun a b d =>
    let (t, c) := clampInt (a.toInt + b.toInt) (-(2 ^ 31)) (2 ^ 31 - 1)
    (BitVec.ofInt 32 (min d.toInt t), c)) s

/-! ### Lane instructions -/

/-- An effect of every active lane that reads other lanes' registers as they stood (R122). -/
def groupEff (i : Instr) (f : RegFile → Group → Issue → Thread → Thread) (s : State) : Out :=
  issued i (fun iss g s => advance (s.mapLanes iss.gid iss.lanes (f iss.snap g iss)) iss (wordsOf i)) s

/-- The thread at a source lane in visible numbers, for a lane of this parity in coursed launch; missing outside the
group or Active (R122). -/
def srcLane (g : Group) (iss : Issue) (me : Nat) (src : Int) : Option Thread :=
  let w : Int := if g.coursed then 32 else 64
  if src < 0 ∨ src ≥ w then none
  else
    let p := if g.coursed then 2 * src.toNat + me % 2 else src.toNat
    if iss.lanes.contains p then g.thread? p else none

/-- LSHUF, LSHUP, LSHDN and LXOR (R123). -/
def exchange (i : Instr) (x : LaneF) (src : Nat → Word → Int) (s : State) : Out :=
  groupEff i (fun sf g iss t =>
    let b := bval sf t x.b
    let o := (srcLane g iss t.lane (src (visible g.coursed t.lane) b.w)).getD t
    let v := o.vget x.a.toNat
    t.vset x.d.toNat ⟨v.w, v.poi || b.poi⟩) s

def execLshuf (x : LaneF) (s : State) : Out := exchange (.lshuf x) x (fun _ b => b.toNat) s
def execLshup (x : LaneF) (s : State) : Out := exchange (.lshup x) x (fun l b => l - b.toInt) s
def execLshdn (x : LaneF) (s : State) : Out := exchange (.lshdn x) x (fun l b => l + b.toInt) s
def execLxor (x : LaneF) (s : State) : Out := exchange (.lxor x) x (fun l b => (Nat.xor l b.toNat : Nat)) s

/-- The active threads of an issue in ascending lanes; in coursed launch those of one parity (R122). -/
def activeOf (g : Group) (iss : Issue) (me : Nat) : List Thread :=
  g.threads.filter fun t => iss.lanes.contains t.lane && (!g.coursed || decide (t.lane % 2 = me % 2))

def execLvote (x : LvoteF) (s : State) : Out :=
  groupEff (.lvote x) (fun _ g iss t =>
    let ts := activeOf g iss t.lane
    let vs := ts.map fun t => t.pval x.a.toNat
    let r := match x.op with
      | .all => vs.all id
      | .any => vs.any id
      | .uni => vs.all id || vs.all (!·)
    t.pset x.d.toNat r (ts.any fun t => t.ppoi x.a.toNat)) s

def execLball (x : LballF) (s : State) : Out :=
  groupEff (.lball x) (fun _ g iss t =>
    let ts := activeOf g iss t.lane
    if ts.any fun t => t.ppoi x.p.toNat then t.vset64 x.d.toNat ⟨0, true⟩
    else t.vset64 x.d.toNat
      ⟨laneMask ((ts.filter fun t => t.pval x.p.toNat).map fun t => visible g.coursed t.lane), false⟩) s

/-- One step of LRED and LSCAN (R125), on 64 bits for the 64-bit operations. -/
def redOp (o : RedOp) (r x : Nat) : Nat × Fl :=
  let a : Word := BitVec.ofNat 32 r
  let b : Word := BitVec.ofNat 32 x
  let i (w : Word) : Nat × Fl := (w.toNat, 0)
  match o with
  | .iadd => i (a + b)
  | .imin => i (minOp false a b)
  | .imax => i (maxOp false a b)
  | .umin => i (minOp true a b)
  | .umax => i (maxOp true a b)
  | .and => i (a &&& b)
  | .or => i (a ||| b)
  | .xor => i (a ^^^ b)
  | .fadd => fmaR spec32 0 [] [fval spec32 r, fval spec32 x]
  | .fmin => fminR spec32 false r x
  | .fmax => fminR spec32 true r x
  | .iadd64 => ((r + x) % 2 ^ 64, 0)
  | .fadd64 => fmaR spec64 0 [] [fval spec64 r, fval spec64 x]

/-- The running results of the active lanes: lane, value, poison so far; and the joined flags (R125). -/
def redScan (o : RedOp) (n a : Nat) (ts : List Thread) : List (Nat × Nat × Bool) × Fl :=
  match ts with
  | [] => ([], 0)
  | t :: r =>
    let (x, p) := vbits t n a
    let st := r.foldl (fun (st : List (Nat × Nat × Bool) × Nat × Bool × Fl) t =>
      let (out, acc, poi, fl) := st
      let (y, q) := vbits t n a
      let (z, f) := redOp o acc y
      (out ++ [(t.lane, z, poi || q)], z, poi || q, fl ||| f)) ([(t.lane, x, p)], x, p, (0 : Fl))
    (st.1, st.2.2.2)

def reduce (i : Instr) (x : LredF) (scan : Bool) (s : State) : Out :=
  let n := match x.op with | .iadd64 => 2 | .fadd64 => 2 | _ => 1
  floatEff i (fun _ g iss t =>
    let (out, fl) := redScan x.op n x.a.toNat (activeOf g iss t.lane)
    let e := if scan then (out.find? fun o => o.1 == t.lane) else out.getLast?
    match e with
    | some (_, v, p) => (t.vput n x.d.toNat v p, fl)
    | none => (t, 0)) s

def execLred (x : LredF) (s : State) : Out := reduce (.lred x) x false s
def execLscan (x : LredF) (s : State) : Out := reduce (.lscan x) x true s

/-- LFIRST (R126). -/
def execLfirst (x : Un) (s : State) : Out :=
  issued (.lfirst x) (fun iss g s =>
    let first (me : Nat) : Reg := ((activeOf g iss me).head?.map fun t => t.vget x.a.toNat).getD {}
    let s' := if x.u then s.setS iss.gid x.d.toNat (first 0)
      else s.mapLanes iss.gid iss.lanes fun t => t.vset x.d.toNat (first t.lane)
    advance s' iss) s

end Sys2Proof.Machine
end

