-- ==== Sys2Proof/Machine/Issue.lean ====
section
/-! DEFINITION. The issue rule (R76, R138-R142, R152): which threads are Ready, which counters a quadrant issues in a
clock, and their promotion. -/

namespace Sys2Proof.Machine

/-- Whether what a Waiting thread waits for is over, so that its instruction issues anew; waits that a step of the device
ends are never over by themselves. -/
def waitOver (s : State) (g : Group) (t : Thread) : Bool :=
  match t.wait with
  | .none | .detector _ _ _ | .stage | .retry | .regs => true
  | .items ls since =>
    let c := (s.ctx? (s.ctxOf g)).getD {}
    let first (n : Nat) : Bool := !queuedPop s g n fun _ u => match u.wait with
      | .items _ b => decide (b < since)
      | _ => false
    ls.any fun n => if n = 64 then !c.q0.isEmpty && first n else
      let l : WorkList := sget {} c.lists n
      l.ended || (!l.items.isEmpty && first n)
  | .drained => drained s g.gid (if g.coursed then [t.lane / 2 * 2, t.lane / 2 * 2 + 1] else [t.lane])
  | .space q =>
    let c := (s.ctx? (s.ctxOf g)).getD {}
    if q < 64 then decide ((sget {} c.lists q : WorkList).items.length < Config.workListItems)
    else true
  | .push q _ => drained s g.gid (if g.coursed then [t.lane / 2 * 2, t.lane / 2 * 2 + 1] else [t.lane]) && !queueFull s q
  | .graph h since p _ => graphTurn s (s.ctxOf g) h since && p.elim true fun x => !queueFull s x.1
  | .token k => !tokenPend s (t.kget k)
  | .engine => decide (cmdCount s g.core < Config.maxCommands)
  | .slide ls => !departBlocked s g ls
  | .accs ids => !(ids.any fun i => (s.acc? i).isSome || (s.xfer? i).isSome)
  | _ => false

/-- A register of the group waits for its corrected word (R85). -/
def replayDue (s : State) (gid : Nat) : Bool := s.corrected.any fun (l, _, back) => ownReg gid l && !back

/-- The instruction that a thread stands at: its class, its word, and its literal word where it takes one. -/
def Thread.atWord (t : Thread) : Option Class × Word × Word :=
  (t.cls, t.wordAt t.pc, if t.litAt t.pc then t.wordAt (t.pc + 4) else 0)

/-- Every operand of the instruction at a thread's counter is written (R76). -/
def operandsWritten (s : State) (g : Group) (t : Thread) : Bool :=
  let (c, w, lit) := t.atWord
  match c.bind fun c => decode c w lit with
  | none => true
  | some i =>
    let iss : Issue := { gid := g.gid, pc := t.pc, lanes := [t.lane], snap := g.s, pend := pendingS s g }
    !regsPending s iss (operRegs s iss g i)

/-- A thread would be in Active for its counter (R76, R138). -/
def threadReady (s : State) (g : Group) (t : Thread) : Bool :=
  !t.exited && t.entered && t.passed && waitOver s g t && operandsWritten s g t

/-- The lanes of the Active set at a counter (R138, R144): the Ready threads there, pairs together. An issue is one instruction,
so threads whose clauses hold another one at the address wait for an issue of their own (DEDUCED, log entry 46). -/
def activeAt (s : State) (g : Group) (pc : Word) : List Nat :=
  let ok (t : Thread) : Bool := threadReady s g t && t.pc == pc
  let at_ := (g.threads.find? ok).map (·.atWord)
  let ls := lanesThat g fun t => ok t && some t.atWord == at_
  if g.coursed then ls.filter fun l => ls.contains (if l % 2 = 0 then l + 1 else l - 1) else ls

/-- The counters of a group that may issue in a clock (R140, R152), with their Active sets. -/
def countersOf (s : State) (g : Group) : List (Word × List Nat) :=
  if replayDue s g.gid then []
  else
    let pcs := dedup ((g.threads.filter (threadReady s g)).map fun t => t.pc.toNat)
    (pcs.map fun n => (BitVec.ofNat 32 n, activeAt s g (BitVec.ofNat 32 n))).filter fun (pc, ls) =>
      !ls.isEmpty && (decide ((g.counter pc).hold < s.cycle) || decide ((g.counter pc).hold = 0))

/-- The ranking of R140: promoted ones by their promotion, then by population, ties to the lower address. -/
def rankLe (g : Group) (a b : Word × List Nat) : Bool :=
  match (g.counter a.1).promoted, (g.counter b.1).promoted with
  | some x, some y => decide (x < y) || (x == y && decide (a.1.toNat ≤ b.1.toNat))
  | some _, none => true
  | none, some _ => false
  | none, none => decide (b.2.length < a.2.length) || (a.2.length == b.2.length && decide (a.1.toNat ≤ b.1.toNat))

/-- The groups of a quadrant that are ready, longest since last chosen first (R139). -/
def readyGroups (s : State) (core quad : Nat) : List (Group × List (Word × List Nat)) :=
  let gs := (s.groups.filter fun g => g.core == core && g.quadrant == quad && groupRuns s g).map fun g =>
    (g, sortBy (rankLe g) (countersOf s g))
  let le (a b : Group × List (Word × List Nat)) : Bool :=
    let k (g : Group) : Nat := (g.last.map (· + 1)).getD 0
    decide (k a.1 < k b.1) || (k a.1 == k b.1 && decide (a.1.slot ≤ b.1.slot))
  sortBy le (gs.filter fun x => !x.2.isEmpty)

/-- The issue of a counter. -/
def mkIssue (s : State) (g : Group) (slot : Nat) (x : Word × List Nat) : Issue :=
  { gid := g.gid, pc := x.1, lanes := x.2, slot := slot, snap := g.s, pend := pendingS s g, was := g.counter x.1 }

/-- What a quadrant issues in a clock (R140): the chosen group's first two counters, or the next group's first one in
slot 1. -/
def quadIssues (s : State) (core quad : Nat) : List Issue :=
  match readyGroups s core quad with
  | [] => []
  | (g, a :: b :: _) :: _ => [mkIssue s g 0 a, mkIssue s g 1 b]
  | (g, [a]) :: (h, b :: _) :: _ => [mkIssue s g 0 a, mkIssue s h 1 b]
  | (g, a :: _) :: _ => [mkIssue s g 0 a]
  | _ => []

/-- The counters of a group that issue without its being chosen start anew (R141). -/
def issueCounts (issued_ : List Word) (g : Group) : Group :=
  { g with counters := g.counters.map fun c => if issued_.contains c.pc then { c with passes := 0, promoted := none } else c }

/-- Pass counts of a chosen group (R141). -/
def passCounts (s : State) (issued_ : List Word) (g : Group) : Group :=
  let pcs := dedup ((g.threads.filter fun t => !t.exited).map fun t => t.pc.toNat)
  let ready := (countersOf s g).map (·.1)
  let upd (n : Nat) : Counter :=
    let pc := BitVec.ofNat 32 n
    let c := g.counter pc
    if issued_.contains pc then { c with passes := 0, promoted := none }
    else if ready.contains pc then { c with passes := c.passes + 1 } else c
  { g with last := some s.cycle, counters := pcs.map upd }

/-- The issues of a clock in all quadrants. -/
def clockIssues (s : State) : List Issue :=
  let cores := dedup (s.groups.map (·.core))
  cores.flatMap fun c => (List.range Config.numQuadrants).flatMap fun q => quadIssues s c q

/-- An issue of the matrix array, which accepts in the order of quadrant and slot (R252). -/
def mtxIssue (s : State) (i : Issue) : Bool :=
  ((s.group? i.gid).bind fun g => (g.thread? (i.lanes.headD 0)).bind (·.cls)) == some .mtx

/-- The issues of a clock in the order in which they take effect: by core, quadrant and slot, but of two issues of one group the
one at the lower address first (R78, R128), unless both go to the matrix array. -/
def orderIssues (s : State) : List Issue → List Issue
  | a :: b :: r =>
    if a.gid == b.gid && decide (b.pc.toNat < a.pc.toNat) && !(mtxIssue s a && mtxIssue s b) then b :: a :: orderIssues s r
    else a :: orderIssues s (b :: r)
  | l => l

/-- The group slots that a context's workgroups hold. -/
def slotsHeld (s : State) (ctx : Nat) : Nat :=
  (s.groups.filter fun g => decide (s.ctxOf g = ctx) && !g.saved && g.threads.any fun t => !t.exited).length

/-- A clock passes: CYCLE counts it, and each context is charged for its group slots (R276 counter 0, R290). -/
def passClock (s : State) : State :=
  { s with cycle := (s.cycle + 1) % 2 ^ 64,
           queues := s.queues.map fun q => if q.seen.isEmpty then q else { q with seen := [] },
           ctxs := s.ctxs.map fun c => { c with served := c.served + slotsHeld s c.id, usage := addAt c.usage 0 (slotsHeld s c.id) } }

/-- The end of a clock: its QSTATs sample (R297), entries passed over count (R291), and page copies leave (R355). -/
def endClock (s : State) : State := sendCopies (countPassed (sampleQueues s))

/-- ISSUE_SELECT (R139, R140): a clock ends and the next begins. Each quadrant chooses what it issues; the chosen groups' pass
counts follow, and each thread that issues takes the side bit of its slot. -/
def execIssueSelect (s : State) : Out :=
  let s := passClock (endClock s)
  let is := clockIssues s
  let chosen := dedup ((is.filter fun i => i.slot == 0).map (·.gid))
  let s' : State := { s with groups := s.groups.map fun g =>
    let mine := is.filter fun i => i.gid == g.gid
    let g := if chosen.contains g.gid then passCounts s (mine.map (·.pc)) g else issueCounts (mine.map (·.pc)) g
    { g with threads := g.threads.map fun t => match mine.find? fun i => i.lanes.contains t.lane with
      | some i => { t with side := i.slot == 1 }
      | none => t } }
  .next { s' with issues := orderIssues s is }

/-- COUNTER_PROMOTION (R141): a counter passed over 64 times is promoted. -/
def execCounterPromotion (gid : Nat) (pc : Word) (s : State) : Out :=
  .next (s.modGroup gid fun g => { g with counters := g.counters.map fun c =>
    if c.pc == pc ∧ Config.promoteAt ≤ c.passes ∧ c.promoted = none then { c with promoted := some s.cycle } else c })

end Sys2Proof.Machine
end

