-- ==== Sys2Proof/Machine/Platform.lean ====
section
/-! DEFINITION. The platform: die-to-die ports, soft errors and spares, boot, security, management, clocks (R16, R17,
R84, R422-R435). Settings and reports that reach the module come with their event; a stopped module answers only a
reset. -/

namespace Sys2Proof.Machine

/-! ### Die-to-die ports (R16, R17) -/

/-- The lowest tag of a port that is not in use. -/
def freeTag (s : State) (slice chan : Nat) : Option Nat :=
  (List.range Config.dieTags).find? fun n => !(s.dieTags.any fun d => d.slice == slice && d.chan == chan && d.tag == n)

/-- A packet for one sector of a line, or from the first for both, takes a tag of its port, behind those that came before it, with the
stamp of the access that it serves, if there is one (R292); not where all tags are in use or the line is not of this slice and channel
(R16). -/
def takeTag (s : State) (slice chan : Nat) (span : DieSpan) (write : Bool) (enables : BitVec 128) : State :=
  if homeSlice (span.sector * 64) ≠ slice ∨ chanOf (span.sector * 64) ≠ chan ∨ (span.both ∧ span.sector % 2 ≠ 0) then s
  else match freeTag s slice chan with
    | none => s
    | some n =>
      let a := s.accs.find? fun a => decide (a.space = .dev) && a.served && a.line == span.sector / 2
      let d : DieTag :=
        { slice := slice, chan := chan, tag := n, sector := span.sector, both := span.both, write := write, enables := enables,
          acc := a.map (·.id), stamp := (a.bind (·.stamp)).getD ((s.cycle + 32767) % 65536), born := s.cycle }
      { s with dieTags := s.dieTags ++ [d] }

/-- DIE_PORT_READ (R17). -/
def execDiePortRead (slice chan : Nat) (span : DieSpan) (s : State) : Out := .next (takeTag s slice chan span false 0)
/-- DIE_PORT_WRITE (R17). -/
def execDiePortWrite (slice chan : Nat) (span : DieSpan) (enables : BitVec 128) (s : State) : Out :=
  .next (takeTag s slice chan span true enables)

/-- The soft error of a sector, if it has one: whether it is uncorrectable. -/
def sectorErr (s : State) (sector : Nat) : Option Bool := (s.softErrs.find? fun e => e.1 == .sector sector).map (·.2)

/-- A sector's check bits are good again. -/
def clearSector (s : State) (sector : Nat) : State := { s with softErrs := s.softErrs.filter fun e => e.1 != .sector sector }

/-- A sector is read from the array (R17, R422): a correctable error is repaired and counted, an uncorrectable one marks the line. -/
def readSector (s : State) (sector : Nat) (err : Option Bool) : State :=
  match err with
  | none => s
  | some false => countErrs (clearSector s sector) [.sector sector] false
  | some true => markLine s (sector / 2)

/-- One sector of a packet at its reply (R17): a full write renews the check bits, a masked one reads the sector for its merge; a read
is served from the newest write in the queue before it, or from the array as it was before later writes. -/
def dieSector (s : State) (d : DieTag) (sector : Nat) : State :=
  if d.full sector then
    let note (e : DieTag) : DieTag :=
      if !e.write && e.sectors.contains sector && !(e.saw.any fun y => y.1 == sector) then { e with saw := (sector, sectorErr s sector) :: e.saw } else e
    clearSector { s with dieTags := s.dieTags.takeWhile (· != d) |>.map note |>.append (s.dieTags.dropWhile (· != d)) } sector
  else if d.write then readSector s sector (sectorErr s sector)
  else if !(writesBefore s d sector).isEmpty then s
  else readSector s sector (((d.saw.find? fun y => y.1 == sector).map (·.2)).getD (sectorErr s sector))

/-- DIE_PORT_REPLY (R17, R422): replies of packets that their controller has served return in any order that the rules of the channel's
queue admit, and free their tags. -/
def execDiePortReply (slice chan tag : Nat) (s : State) : Out :=
  .next (match s.dieTags.find? fun d => d.slice == slice && d.chan == chan && d.tag == tag with
  | none => s
  | some d =>
    if !d.served || !dieReady s d then s
    else
      let s := d.sectors.foldl (fun s x => dieSector s d x) s
      { s with dieTags := s.dieTags.filter fun e => !(e.slice == slice && e.chan == chan && e.tag == tag) })

/-- SOFT_ERROR (R84, R255, R422): the bits of a place are upset, correctably or not. -/
def execSoftError (loc : ErrLoc) (uncorrectable : Bool) (s : State) : Out :=
  let upset (r : Nat) (l : List (Nat × Bool)) : List (Nat × Bool) :=
    (r, uncorrectable || l.any fun e => e.1 == r && e.2) :: l.filter fun e => e.1 != r
  .next (match loc with
  | .sreg gid r => s.modGroup gid fun g => { g with serr := upset r g.serr }
  | .vreg gid lane r => s.modThread gid lane fun t => { t with verr := upset r t.verr }
  | loc =>
    let old := s.softErrs.any fun e => e.1 == loc && e.2
    { s with softErrs := (loc, uncorrectable || old) :: s.softErrs.filter fun e => e.1 != loc })

/-! ### Spares (R424, R425) -/

/-- The gangs with a workgroup on one of some cores. -/
def gangsOnCores (s : State) (cores : List Nat) : List Nat :=
  dedup ((s.wgs.filter fun w => cores.contains w.core && decide (w.state ≠ .saved)).map (·.gang))

/-- Gangs on some cores are pre-empted. -/
def preemptOn (s : State) (cores : List Nat) : State := (gangsOnCores s cores).foldl preemptGang s

/-- Cores are lost (R425): a slide sweep with a replica there, started or waiting to start, is killed, with event 10 for the core, and the
gangs on them are pre-empted. -/
def loseCores (s : State) (cores : List Nat) : State :=
  let hit (x : Sweep) : Option Nat := if x.slide then (if x.slideOn then slideCores s x.ctx else fretCores s x.ctx).find? cores.contains else none
  let s := s.sweeps.foldl (fun s x => match hit x with
    | some k => abortSweep (q0Push s x.ctx (eventItem 10 k 0)) x
    | none => s) s
  preemptOn s cores

/-- A row or a column of a core's array is replaced, or the core is disabled (R425). -/
def repairArray (s : State) (core : Nat) (column : Bool) : State :=
  let k := s.core core
  if if column then k.spareCol else k.spareRow then
    let holders := (s.wgs.filter fun w => w.core == core && w.tiles != 0 && decide (w.state ≠ .saved)).map (·.gang)
    let s := s.modCore core fun k => if column then { k with spareCol := false } else { k with spareRow := false }
    healthPush ((dedup holders).foldl preemptGang s) 0x04 core (if column then 1 else 0)
  else healthPush (loseCores (s.modCore core fun c => { c with disabled := true }) [core]) 0x05 core 0

/-- A row of a DRAM stack is replaced, and lines already marked stay marked; or its frame is retired (R425). -/
def repairRow (s : State) (stack frame : Nat) : State :=
  let used := sget 0 s.rowsUsed stack
  if used < Config.dramSpareRows stack then healthPush { s with rowsUsed := sset 0 s.rowsUsed stack (used + 1) } 0x04 stack 2
  else
    let lines := (List.range 512).map (512 * frame + ·)
    healthPush { s with marks := lines ++ s.marks.filter fun l => !lines.contains l } 0x07 stack frame

/-- A quartet is replaced by its die's spare, or fused off (R12, R425). -/
def repairQuartet (s : State) (q : Nat) : State :=
  let cores := (List.range 4).map (4 * q + ·)
  if s.spares.getLsbD (q % 4) then
    let s := preemptOn s cores
    healthPush { s with spares := s.spares &&& ~~~(1#4 <<< (q % 4)), spareIds := q :: s.spareIds } 0x04 q 3
  else healthPush (loseCores { s with qmask := s.qmask &&& ~~~(1#64 <<< q) } cores) 0x06 q 0

/-- SPARE_REPAIR (R424, R425): a unit that has been declared faulty is replaced by a spare, or it is lost. The errors that counted for it
are settled. -/
def execSpareRepair (u : RepairUnit) (s : State) : Out :=
  .next (if !declared s u then s
    else
      let s : State := { s with tally := s.tally.filter fun e => e.1 != u, selfFail := s.selfFail.filter (· != u) }
      match u with
      | .arrayLine core column _ => if Config.numCores ≤ core then s else repairArray s core column
      | .dramRow stack frame => if Config.deviceBytes / 2 ^ 16 ≤ frame ∨ 8 ≤ stack then s else repairRow s stack frame
      | .quartet q => if Config.numQuartets ≤ q then s else repairQuartet s q)

/-! ### Boot (R434) -/

/-- The module runs its device firmware, so that management reaches every setting. -/
def manageable (s : State) : Bool := s.booted && !s.stopped && !s.recovery

/-- Context 0 as the device firmware creates it (R265, R434). -/
def bootContext (b : BootImages) : Context :=
  { id := 0, state := .active, priv := true, cmask := BitVec.allOnes 256, param := b.param, entry := b.entry,
    mbring := b.mbring, ptroot := b.ptroot, rsmask := BitVec.ofNat 48 b.rsmask }

/-- The device firmware has loaded: context 0, the world assignment and the alarm policy; the resident gang becomes a
candidate, or event 0x0E reports that its block fails (R438). -/
def bootDone (s : State) (b : BootImages) : State :=
  let c := bootContext b
  let s : State := { s with
    booted := true, policy := b.policy % 4, secureRegions := b.regions.take 32,
    secureCores := b.secureCores, secureQuartets := b.secureQuartets, secureSlices := b.secureSlices,
    secureChannels := b.secureChannels, secureLinks := b.secureLinks, secureFunctions := b.secureFunctions, ctxs := [c] }
  match residentSweep s c with
  | some (x, s) => wantResident s 0 s.cycle x
  | none => healthPush (blockNote s c c.param 384) 0x0E 0 0

/-- An image loads (R434): both signatures verify, and its security version is at least the fuses'. The version is that of the update that
installed it, if one has. -/
def imageLoads (s : State) (n : Nat) (im : BootImage) : Bool :=
  let version := ((s.fwVersions.find? fun v => v.1 == n).map (·.2)).getD im.version
  im.rsa && im.slh && decide (sget 0 s.fuses n ≤ version)

/-- BOOT (R424, R429, R434): reset reads the strap and runs the self test, and the images load in order until one fails its checks; each
that loads is measured (R431). -/
def execBoot (b : BootImages) (s : State) : Out :=
  .next (if s.booted || s.stopped || s.recovery then s
    else
      let s : State := { s with dualHost := b.dual, selfFail := b.selfFail }
      let d (ims : List BootImage) : List (BitVec 384) := ims.map (·.digest)
      if !imageLoads s 1 b.im1 then { s with recovery := true, measured := [] }
      else if !imageLoads s 2 b.im2 then { s with recovery := true, measured := d [b.im1] }
      else if !imageLoads s 3 b.im3 then { s with stopped := true, measured := d [b.im1, b.im2] }
      else if !imageLoads s 4 b.im4 then { s with recovery := true, measured := d [b.im1, b.im2, b.im3] }
      else bootDone { s with measured := d [b.im1, b.im2, b.im3, b.im4] } b)

/-! ### Security (R430-R433) -/

/-- The violations counted within the last 2^30 clk. -/
def recentViolations (s : State) : Nat := (s.violations.filter fun c => s.cycle ≤ c + 2 ^ 30).length

/-- Every context moves to Closing (R268). -/
def closeAll (s : State) : State :=
  (s.ctxs.filter fun c => c.state ≠ .closing).foldl (fun s c => closeCtx s c.id) s

/-- Every IDE stream, and all of them insecure: no host access goes on (R430, R433). -/
def allStreams : List IdeStream := [.port 0, .port 1] ++ (List.range 64).map .function
def loseStreams (s : State) : State := { failHost s fun _ _ => true with insecure := allStreams }

/-- The keys are zeroed, every context closes, and every IDE stream is insecure (R433). -/
def eraseKeys (s : State) : State := closeAll { loseStreams s with keys := false }

/-- The number of a detector in the alarm record. -/
def alarmCode : AlarmSource → Nat
  | .voltage => 0
  | .clock => 1
  | .tamper => 2
  | .violations => 3

/-- SECURITY_ALARM (R433): a detector fires, and the policy that boot set follows. -/
def execSecurityAlarm (detector : AlarmSource) (s : State) : Out :=
  .next (if s.stopped || (decide (detector = .violations) && decide (recentViolations s < 256)) then s
    else
      let s : State := { s with alarms := s.alarms ++ [alarmCode detector] }
      let s : State := if detector = .violations then { s with violations := [] } else s
      if s.policy = 0 then s
      else if s.policy = 1 then eraseKeys s
      else { eraseKeys s with stopped := true })

/-- IDE_FAILURE (R430): a TLP of a stream fails its check; the stream is insecure until it is rekeyed, the kind 6 accesses that it
carries end, and the failure counts as a violation. -/
def execIdeFailure (ctx : IdeStream) (s : State) : Out :=
  .next (let s : State := { s with insecure := ctx :: s.insecure.filter (· != ctx) }
    noteWorld (failHost s (streamBad s)))

/-- SPDM_MESSAGE (R430, R431): a measurement changes nothing; a stream's keys are set, unless they are erased; a PF receives its endpoint
ID. -/
def execSpdmMessage (m : SpdmMsg) (s : State) : Out :=
  .next (match m with
  | .measure => s
  | .setKey x => if s.keys then { s with insecure := s.insecure.filter (· != x), keyed := x :: s.keyed.filter (· != x) } else s
  | .endpoint p e => if p < 2 then { s with endpoints := sset 0 s.endpoints p e } else s)

/-! ### Management (R431) -/

/-- A number joins or leaves a list without repeats. -/
def putMember (l : List Nat) (n : Nat) (on : Bool) : List Nat :=
  let r := l.filter (· != n)
  if on then n :: r else r

/-- PEER_TABLE_SET (R377, R431). -/
def execPeerTableSet (peer : Nat) (populated enabled : Bool) (s : State) : Out :=
  .next (if !manageable s || decide (4096 ≤ peer) then s
    else { s with populated := putMember s.populated peer populated, enabled := putMember s.enabled peer enabled })

/-- FTOEXP_SET (R378, R431). -/
def execFtoexpSet (v : Nat) (s : State) : Out :=
  .next (if manageable s && decide (18 ≤ v ∧ v ≤ 26) then { s with ftoexp := v } else s)

/-- QUANTUM_SET (R291, R431). -/
def execQuantumSet (v : Nat) (s : State) : Out :=
  .next (if manageable s && decide (2 ^ 16 ≤ v ∧ v ≤ 2 ^ 28) then { s with quantum := v } else s)

/-- LINK_CONTROL (R371, R431). -/
def execLinkControl (link : Nat) (op : LinkOp) (s : State) : Out :=
  .next (if !manageable s || decide (12 ≤ link) then s
    else match (sget {} s.links link : Link).state, op with
      | .disabled, .enable => setLink s link .training 0
      | .down, .retrain => setLink s link .training 0
      | .down, .disable => setLink s link .disabled 0
      | _, _ => s)

/-- POWER_CAP_SET (R431, R435): 800 W to 1,650 W. -/
def execPowerCapSet (watts : Nat) (s : State) : Out :=
  .next (if manageable s && decide (800 ≤ watts ∧ watts ≤ 1650) then { s with powerCap := watts } else s)

/-- FIRMWARE_UPDATE (R431, R434): an update that arrived whole takes effect at the next reset, whose boot checks it. -/
def execFirmwareUpdate (image version : Nat) (valid : Bool) (s : State) : Out :=
  .next (if s.stopped || !valid then s else { s with fwPending := sset 0 s.fwPending image version })

/-- MODULE_RESET (R431), an OEM command, to which a module in recovery does not answer (R434): every context is lost. Fuses, spares, keys
and streams, the host's memory and the model's own counters stay; the pending firmware takes effect. -/
def execModuleReset (s : State) : Out :=
  let kept (p : Nat × Core) : Nat × Core := (p.1, { disabled := p.2.disabled, spareRow := p.2.spareRow, spareCol := p.2.spareCol })
  .next (if s.recovery then s
    else
      { State.reset with
        fuses := s.fuses, fwVersions := s.fwPending.foldl (fun l (i, v) => sset 0 l i v) s.fwVersions
        keys := s.keys, insecure := s.insecure, keyed := s.keyed, qmask := s.qmask, spares := s.spares, spareIds := s.spareIds
        rowsUsed := s.rowsUsed, cores := (s.cores.map kept).filter fun p => p.2 != {}
        host := s.host, hostUp0 := s.hostUp0, hostUp1 := s.hostUp1
        freeCount := s.freeCount, nextId := s.nextId, time := s.time, codes := s.codes })

/-! ### Clocks and power (R435) -/

/-- At the shutdown temperature the module does as under policy 2 of R433, without erasing keys (R435). -/
def shutDown (s : State) : State := { closeAll (loseStreams s) with stopped := true }

/-- CLOCK_STATE_CHANGE (R435): the module takes the highest state whose power is within the cap and whose hottest die is at most 95 °C,
state 0 where none is (DESIGN CHOICE, log entry 72); THR and CAP say that the temperature or the cap shuts a higher one out. 110 °C
stops the module. -/
def execClockStateChange (c : ClockReport) (s : State) : Out :=
  let temp (n : Nat) : Nat := (c.temps.getD n 0).toNat
  let power (n : Nat) : Nat := (c.powers.getD n 0).toNat
  let hot (n : Nat) : Bool := decide (95 < temp n)
  let over_ (n : Nat) : Bool := decide (s.powerCap < 8 * power n)
  let st := ([4, 3, 2, 1, 0].find? fun n => !hot n && !over_ n).getD 0
  let higher := (List.range 5).filter fun n => decide (st < n)
  let b (x : Bool) : Nat := if x then 1 else 0
  .next (
    let s : State := { s with pwrst := BitVec.ofNat 32 (b (higher.any hot) * 2 ^ 31 + b (higher.any over_) * 2 ^ 30 + power st * 2 ^ 16 +
      temp st * 2 ^ 8 + st) }
    if 110 ≤ temp st then shutDown s else s)

/-- SHUTDOWN_TEMPERATURE (R435): as policy 2 of R433, without erasing keys. -/
def execShutdownTemperature (s : State) : Out := .next (shutDown s)

end Sys2Proof.Machine
end

