-- ==== Sys2Proof/Machine/Dispatch.lean ====
section
/-! DEFINITION. Dispatch: one arm for every constructor of Instr, each a direct call of its meaning. -/

namespace Sys2Proof.Machine

/-- The effect of one instruction or device step. -/
def exec (i : Instr) (s : State) : Host.Outcome State Fault Refusal :=
  match i with
  | .iadd x => Sys2Proof.Machine.execIadd x s
  | .isub x => Sys2Proof.Machine.execIsub x s
  | .imul x => Sys2Proof.Machine.execImul x s
  | .imulh x => Sys2Proof.Machine.execImulh x s
  | .imad x => Sys2Proof.Machine.execImad x s
  | .imin x => Sys2Proof.Machine.execImin x s
  | .imax x => Sys2Proof.Machine.execImax x s
  | .iabs x => Sys2Proof.Machine.execIabs x s
  | .ineg x => Sys2Proof.Machine.execIneg x s
  | .sadd x => Sys2Proof.Machine.execSadd x s
  | .ssub x => Sys2Proof.Machine.execSsub x s
  | .idiv x => Sys2Proof.Machine.execIdiv x s
  | .irem x => Sys2Proof.Machine.execIrem x s
  | .iadd64 x => Sys2Proof.Machine.execIadd64 x s
  | .isub64 x => Sys2Proof.Machine.execIsub64 x s
  | .imad64 x => Sys2Proof.Machine.execImad64 x s
  | .and x => Sys2Proof.Machine.execAnd x s
  | .or x => Sys2Proof.Machine.execOr x s
  | .xor x => Sys2Proof.Machine.execXor x s
  | .andn x => Sys2Proof.Machine.execAndn x s
  | .shl x => Sys2Proof.Machine.execShl x s
  | .shr x => Sys2Proof.Machine.execShr x s
  | .sar x => Sys2Proof.Machine.execSar x s
  | .rotl x => Sys2Proof.Machine.execRotl x s
  | .bfe x => Sys2Proof.Machine.execBfe x s
  | .bfi x => Sys2Proof.Machine.execBfi x s
  | .popc x => Sys2Proof.Machine.execPopc x s
  | .clz x => Sys2Proof.Machine.execClz x s
  | .brev x => Sys2Proof.Machine.execBrev x s
  | .lea x => Sys2Proof.Machine.execLea x s
  | .shl64 x => Sys2Proof.Machine.execShl64 x s
  | .shr64 x => Sys2Proof.Machine.execShr64 x s
  | .mov x => Sys2Proof.Machine.execMov x s
  | .movi x => Sys2Proof.Machine.execMovi x s
  | .movl x => Sys2Proof.Machine.execMovl x s
  | .movs x => Sys2Proof.Machine.execMovs x s
  | .potake d => Sys2Proof.Machine.execPotake d s
  | .sel x => Sys2Proof.Machine.execSel x s
  | .icmp x => Sys2Proof.Machine.execIcmp x s
  | .fcmp x => Sys2Proof.Machine.execFcmp x s
  | .plop x => Sys2Proof.Machine.execPlop x s
  | .pmov x => Sys2Proof.Machine.execPmov x s
  | .pchk x => Sys2Proof.Machine.execPchk x s
  | .iamin x => Sys2Proof.Machine.execIamin x s
  | .famin x => Sys2Proof.Machine.execFamin x s
  | .qmul x => Sys2Proof.Machine.execQmul x s
  | .qshr x => Sys2Proof.Machine.execQshr x s
  | .fadd x => Sys2Proof.Machine.execFadd x s
  | .fsub x => Sys2Proof.Machine.execFsub x s
  | .fmul x => Sys2Proof.Machine.execFmul x s
  | .ffma x => Sys2Proof.Machine.execFfma x s
  | .ffnma x => Sys2Proof.Machine.execFfnma x s
  | .fmin x => Sys2Proof.Machine.execFmin x s
  | .fmax x => Sys2Proof.Machine.execFmax x s
  | .fsgn x => Sys2Proof.Machine.execFsgn x s
  | .fdiv x => Sys2Proof.Machine.execFdiv x s
  | .fsqrt x => Sys2Proof.Machine.execFsqrt x s
  | .frcp x => Sys2Proof.Machine.execFrcp x s
  | .frsq x => Sys2Proof.Machine.execFrsq x s
  | .fex2 x => Sys2Proof.Machine.execFex2 x s
  | .flg2 x => Sys2Proof.Machine.execFlg2 x s
  | .fsinp x => Sys2Proof.Machine.execFsinp x s
  | .fcosp x => Sys2Proof.Machine.execFcosp x s
  | .fclass x => Sys2Proof.Machine.execFclass x s
  | .fscale x => Sys2Proof.Machine.execFscale x s
  | .frnd x => Sys2Proof.Machine.execFrnd x s
  | .cvtif x => Sys2Proof.Machine.execCvtif x s
  | .cvtfi x => Sys2Proof.Machine.execCvtfi x s
  | .cvtff x => Sys2Proof.Machine.execCvtff x s
  | .pack x => Sys2Proof.Machine.execPack x s
  | .unpk x => Sys2Proof.Machine.execUnpk x s
  | .fdot2 x => Sys2Proof.Machine.execFdot2 x s
  | .lshuf x => Sys2Proof.Machine.execLshuf x s
  | .lshup x => Sys2Proof.Machine.execLshup x s
  | .lshdn x => Sys2Proof.Machine.execLshdn x s
  | .lxor x => Sys2Proof.Machine.execLxor x s
  | .lvote x => Sys2Proof.Machine.execLvote x s
  | .lball x => Sys2Proof.Machine.execLball x s
  | .lred x => Sys2Proof.Machine.execLred x s
  | .lscan x => Sys2Proof.Machine.execLscan x s
  | .lfirst x => Sys2Proof.Machine.execLfirst x s
  | .br off => Sys2Proof.Machine.execBr off s
  | .brp p off => Sys2Proof.Machine.execBrp p off s
  | .brnp p off => Sys2Proof.Machine.execBrnp p off s
  | .jmp target => Sys2Proof.Machine.execJmp target s
  | .jmpInd a => Sys2Proof.Machine.execJmpInd a s
  | .call off => Sys2Proof.Machine.execCall off s
  | .ret => Sys2Proof.Machine.execRet s
  | .exit => Sys2Proof.Machine.execExit s
  | .yield => Sys2Proof.Machine.execYield s
  | .nop => Sys2Proof.Machine.execNop s
  | .trap code => Sys2Proof.Machine.execTrap code s
  | .bkpt code => Sys2Proof.Machine.execBkpt code s
  | .getfc d => Sys2Proof.Machine.execGetfc d s
  | .setfc b => Sys2Proof.Machine.execSetfc b s
  | .ld x => Sys2Proof.Machine.execLd x s
  | .st x => Sys2Proof.Machine.execSt x s
  | .ldacq x => Sys2Proof.Machine.execLdacq x s
  | .strel x => Sys2Proof.Machine.execStrel x s
  | .pref x => Sys2Proof.Machine.execPref x s
  | .fence sc => Sys2Proof.Machine.execFence sc s
  | .xst x => Sys2Proof.Machine.execXst x s
  | .aadd x => Sys2Proof.Machine.execAadd x s
  | .amin x => Sys2Proof.Machine.execAmin x s
  | .amax x => Sys2Proof.Machine.execAmax x s
  | .aand x => Sys2Proof.Machine.execAand x s
  | .aor x => Sys2Proof.Machine.execAor x s
  | .axor x => Sys2Proof.Machine.execAxor x s
  | .axch x => Sys2Proof.Machine.execAxch x s
  | .acas x => Sys2Proof.Machine.execAcas x s
  | .afadd x => Sys2Proof.Machine.execAfadd x s
  | .ldw x => Sys2Proof.Machine.execLdw x s
  | .wflip => Sys2Proof.Machine.execWflip s
  | .mma x => Sys2Proof.Machine.execMma x s
  | .mmas x => Sys2Proof.Machine.execMmas x s
  | .drain x => Sys2Proof.Machine.execDrain x s
  | .drainByp x => Sys2Proof.Machine.execDrainByp x s
  | .accz t => Sys2Proof.Machine.execAccz t s
  | .accrd x => Sys2Proof.Machine.execAccrd x s
  | .accwr x => Sys2Proof.Machine.execAccwr x s
  | .mstat d sel => Sys2Proof.Machine.execMstat d sel s
  | .copy x => Sys2Proof.Machine.execCopy x s
  | .copyl x => Sys2Proof.Machine.execCopyl x s
  | .copyr x => Sys2Proof.Machine.execCopyr x s
  | .seal k => Sys2Proof.Machine.execSeal k s
  | .wait k => Sys2Proof.Machine.execWait k s
  | .tstat d k => Sys2Proof.Machine.execTstat d k s
  | .cwp d k => Sys2Proof.Machine.execCwp d k s
  | .tdef a r => Sys2Proof.Machine.execTdef a r s
  | .tget a r => Sys2Proof.Machine.execTget a r s
  | .qpush q a => Sys2Proof.Machine.execQpush q a s
  | .qpop d q p => Sys2Proof.Machine.execQpop d q p s
  | .qpeek d q p => Sys2Proof.Machine.execQpeek d q p s
  | .qstat d a => Sys2Proof.Machine.execQstat d a s
  | .qflush a => Sys2Proof.Machine.execQflush a s
  | .spawn q a => Sys2Proof.Machine.execSpawn q a s
  | .glaunch q a => Sys2Proof.Machine.execGlaunch q a s
  | .gedit d a b => Sys2Proof.Machine.execGedit d a b s
  | .capp q a => Sys2Proof.Machine.execCapp q a s
  | .quiesce a => Sys2Proof.Machine.execQuiesce a s
  | .cabort k => Sys2Proof.Machine.execCabort k s
  | .fxfer d r b => Sys2Proof.Machine.execFxfer d r b s
  | .fxferw p d r b => Sys2Proof.Machine.execFxferw p d r b s
  | .ftot d a => Sys2Proof.Machine.execFtot d a s
  | .fstat d a sel => Sys2Proof.Machine.execFstat d a sel s
  | .fdom d r => Sys2Proof.Machine.execFdom d r s
  | .fdecl a r => Sys2Proof.Machine.execFdecl a r s
  | .flink a b => Sys2Proof.Machine.execFlink a b s
  | .fclose a => Sys2Proof.Machine.execFclose a s
  | .frecl a b => Sys2Proof.Machine.execFrecl a b s
  | .bar b => Sys2Proof.Machine.execBar b s
  | .bara b => Sys2Proof.Machine.execBara b s
  | .barw b => Sys2Proof.Machine.execBarw b s
  | .bart b a p => Sys2Proof.Machine.execBart b a p s
  | .gbar => Sys2Proof.Machine.execGbar s
  | .xjoin d a => Sys2Proof.Machine.execXjoin d a s
  | .xleave a => Sys2Proof.Machine.execXleave a s
  | .xbar => Sys2Proof.Machine.execXbar s
  | .waitm x => Sys2Proof.Machine.execWaitm x s
  | .csig x => Sys2Proof.Machine.execCsig x s
  | .dflush => Sys2Proof.Machine.execDflush s
  | .slide fret => Sys2Proof.Machine.execSlide fret s
  | .srd x => Sys2Proof.Machine.execSrd x s
  | .swr x => Sys2Proof.Machine.execSwr x s
  | .ctxset x => Sys2Proof.Machine.execCtxset x s
  | .cmaskWrite x => Sys2Proof.Machine.execCmaskWrite x s
  | .rgnrst x => Sys2Proof.Machine.execRgnrst x s
  | .ctlcmd x => Sys2Proof.Machine.execCtlcmd x s
  | .qcmdCreate x => Sys2Proof.Machine.execQcmdCreate x s
  | .qcmdDestroy x => Sys2Proof.Machine.execQcmdDestroy x s
  | .qbudget x => Sys2Proof.Machine.execQbudget x s
  | .qlate x => Sys2Proof.Machine.execQlate x s
  | .pagecfg x => Sys2Proof.Machine.execPagecfg x s
  | .frmpush x => Sys2Proof.Machine.execFrmpush x s
  | .partmask x => Sys2Proof.Machine.execPartmask x s
  | .hqpop x => Sys2Proof.Machine.execHqpop x s
  | .tret => Sys2Proof.Machine.execTret s
  | .bsave r => Sys2Proof.Machine.execBsave r s
  | .brst r => Sys2Proof.Machine.execBrst r s
  | .csave a r => Sys2Proof.Machine.execCsave a r s
  | .crst a r => Sys2Proof.Machine.execCrst a r s
  | .fmapw a r => Sys2Proof.Machine.execFmapw a r s
  | .tlbiCtx => Sys2Proof.Machine.execTlbiCtx s
  | .tlbiPage a => Sys2Proof.Machine.execTlbiPage a s
  | .tlbiAll => Sys2Proof.Machine.execTlbiAll s
  | .rngw a r => Sys2Proof.Machine.execRngw a r s
  | .pgmig a b => Sys2Proof.Machine.execPgmig a b s
  | .pgpin a => Sys2Proof.Machine.execPgpin a s
  | .pgpinUnpin a => Sys2Proof.Machine.execPgpinUnpin a s
  | .wcall service => Sys2Proof.Machine.execWcall service s
  | .ucnt r => Sys2Proof.Machine.execUcnt r s
  | .idle => Sys2Proof.Machine.execIdle s
  | .halt => Sys2Proof.Machine.execHalt s
  | .issueSelect => Sys2Proof.Machine.execIssueSelect s
  | .counterPromotion gid pc => Sys2Proof.Machine.execCounterPromotion gid pc s
  | .clauseEntry gid pc => Sys2Proof.Machine.execClauseEntry gid pc s
  | .clauseWaitMet gid pc => Sys2Proof.Machine.execClauseWaitMet gid pc s
  | .registerReplay gid => Sys2Proof.Machine.execRegisterReplay gid s
  | .loadReturn id => Sys2Proof.Machine.execLoadReturn id s
  | .storeAck id => Sys2Proof.Machine.execStoreAck id s
  | .atomicApply id => Sys2Proof.Machine.execAtomicApply id s
  | .detectorStallTimeout gid => Sys2Proof.Machine.execDetectorStallTimeout gid s
  | .detectorEntryRetire n => Sys2Proof.Machine.execDetectorEntryRetire n s
  | .replicaLock ctx va => Sys2Proof.Machine.execReplicaLock ctx va s
  | .replicaUpdate ctx va data => Sys2Proof.Machine.execReplicaUpdate ctx va data s
  | .replicaCommit id => Sys2Proof.Machine.execReplicaCommit id s
  | .replicaReadTimeout id data => Sys2Proof.Machine.execReplicaReadTimeout id data s
  | .replicaFill id data => Sys2Proof.Machine.execReplicaFill id data s
  | .diePortRead slice chan sector => Sys2Proof.Machine.execDiePortRead slice chan sector s
  | .diePortWrite slice chan sector enables => Sys2Proof.Machine.execDiePortWrite slice chan sector enables s
  | .diePortReply slice chan tag => Sys2Proof.Machine.execDiePortReply slice chan tag s
  | .packetServe slice => Sys2Proof.Machine.execPacketServe slice s
  | .bartTimeout gid lane => Sys2Proof.Machine.execBartTimeout gid lane s
  | .waitmWake gid lane => Sys2Proof.Machine.execWaitmWake gid lane s
  | .waitmTimeout gid lane => Sys2Proof.Machine.execWaitmTimeout gid lane s
  | .xchangeBoundary ctx grp => Sys2Proof.Machine.execXchangeBoundary ctx grp s
  | .copyWriteAck id => Sys2Proof.Machine.execCopyWriteAck id s
  | .copyrSeqRetire slice ctx region => Sys2Proof.Machine.execCopyrSeqRetire slice ctx region s
  | .copyrGapTimeout slice ctx region => Sys2Proof.Machine.execCopyrGapTimeout slice ctx region s
  | .arrayExecute core => Sys2Proof.Machine.execArrayExecute core s
  | .mailboxSlotWrite ctx off data => Sys2Proof.Machine.execMailboxSlotWrite ctx off data s
  | .mailboxMessage ctx slot control => Sys2Proof.Machine.execMailboxMessage ctx slot control s
  | .preempt gang => Sys2Proof.Machine.execPreempt gang s
  | .preemptLoadTimeout gang => Sys2Proof.Machine.execPreemptLoadTimeout gang s
  | .saveComplete gang => Sys2Proof.Machine.execSaveComplete gang s
  | .restore gang => Sys2Proof.Machine.execRestore gang s
  | .residentRelaunch ctx => Sys2Proof.Machine.execResidentRelaunch ctx s
  | .contextAbsent ctx => Sys2Proof.Machine.execContextAbsent ctx s
  | .ucntSignDone ctx => Sys2Proof.Machine.execUcntSignDone ctx s
  | .queueWaitPoll queue n value => Sys2Proof.Machine.execQueueWaitPoll queue n value s
  | .queueEntryStart queue => Sys2Proof.Machine.execQueueEntryStart queue s
  | .queueEntryComplete queue => Sys2Proof.Machine.execQueueEntryComplete queue s
  | .signalAck queue => Sys2Proof.Machine.execSignalAck queue s
  | .gangPlace => Sys2Proof.Machine.execGangPlace s
  | .quantumPreempt ctx => Sys2Proof.Machine.execQuantumPreempt ctx s
  | .gangRetire gang => Sys2Proof.Machine.execGangRetire gang s
  | .workgroupDone wg => Sys2Proof.Machine.execWorkgroupDone wg s
  | .nodeStart launch => Sys2Proof.Machine.execNodeStart launch s
  | .graphLaunchComplete launch => Sys2Proof.Machine.execGraphLaunchComplete launch s
  | .terminationDetect ctx lists => Sys2Proof.Machine.execTerminationDetect ctx lists s
  | .fxferApply id => Sys2Proof.Machine.execFxferApply id s
  | .fxferCredit id => Sys2Proof.Machine.execFxferCredit id s
  | .fieldCredit c => Sys2Proof.Machine.execFieldCredit c s
  | .fieldAck id => Sys2Proof.Machine.execFieldAck id s
  | .fieldNack id => Sys2Proof.Machine.execFieldNack id s
  | .domainAbsent dom => Sys2Proof.Machine.execDomainAbsent dom s
  | .pageWalk core ctx va => Sys2Proof.Machine.execPageWalk core ctx va s
  | .migrationStart ctx page peer => Sys2Proof.Machine.execMigrationStart ctx page peer s
  | .pageCopyReceive m => Sys2Proof.Machine.execPageCopyReceive m s
  | .homeUpdate ctx page owner => Sys2Proof.Machine.execHomeUpdate ctx page owner s
  | .migrationCommit ctx page => Sys2Proof.Machine.execMigrationCommit ctx page s
  | .migrationRefused ctx page => Sys2Proof.Machine.execMigrationRefused ctx page s
  | .stubRelay ctx page => Sys2Proof.Machine.execStubRelay ctx page s
  | .redirect ctx page owner count => Sys2Proof.Machine.execRedirect ctx page owner count s
  | .nackRefresh id => Sys2Proof.Machine.execNackRefresh id s
  | .ownerRefreshAnswer ctx page owner => Sys2Proof.Machine.execOwnerRefreshAnswer ctx page owner s
  | .stubExpiry ctx page => Sys2Proof.Machine.execStubExpiry ctx page s
  | .stubRetire ctx page owner => Sys2Proof.Machine.execStubRetire ctx page owner s
  | .stubRetireDone ctx page => Sys2Proof.Machine.execStubRetireDone ctx page s
  | .windowEnd ctx page => Sys2Proof.Machine.execWindowEnd ctx page s
  | .linkTrainingLock link => Sys2Proof.Machine.execLinkTrainingLock link s
  | .linkTrainTimeout link => Sys2Proof.Machine.execLinkTrainTimeout link s
  | .laneLoss link => Sys2Proof.Machine.execLaneLoss link s
  | .packetReceive link p tagOk => Sys2Proof.Machine.execPacketReceive link p tagOk s
  | .linkReplay link => Sys2Proof.Machine.execLinkReplay link s
  | .fabricTimeout peer => Sys2Proof.Machine.execFabricTimeout peer s
  | .faaCombine n j => Sys2Proof.Machine.execFaaCombine n j s
  | .hostCompletion id data => Sys2Proof.Machine.execHostCompletion id data s
  | .hostCompletionTimeout id => Sys2Proof.Machine.execHostCompletionTimeout id s
  | .slideStart sweep => Sys2Proof.Machine.execSlideStart sweep s
  | .slideArrival stn => Sys2Proof.Machine.execSlideArrival stn s
  | .spillAck fret n => Sys2Proof.Machine.execSpillAck fret n s
  | .ringTake fret replica => Sys2Proof.Machine.execRingTake fret replica s
  | .groupForm core => Sys2Proof.Machine.execGroupForm core s
  | .regroupTimeout core stn => Sys2Proof.Machine.execRegroupTimeout core stn s
  | .epochClose wg => Sys2Proof.Machine.execEpochClose wg s
  | .entryRelease sweep => Sys2Proof.Machine.execEntryRelease sweep s
  | .digestCompare gang => Sys2Proof.Machine.execDigestCompare gang s
  | .spareRepair u => Sys2Proof.Machine.execSpareRepair u s
  | .idleTimeout gid lane => Sys2Proof.Machine.execIdleTimeout gid lane s
  | .boot b => Sys2Proof.Machine.execBoot b s
  | .securityAlarm detector => Sys2Proof.Machine.execSecurityAlarm detector s
  | .ideFailure ctx => Sys2Proof.Machine.execIdeFailure ctx s
  | .peerTableSet peer populated enabled => Sys2Proof.Machine.execPeerTableSet peer populated enabled s
  | .ftoexpSet v => Sys2Proof.Machine.execFtoexpSet v s
  | .quantumSet v => Sys2Proof.Machine.execQuantumSet v s
  | .linkControl link op => Sys2Proof.Machine.execLinkControl link op s
  | .powerCapSet watts => Sys2Proof.Machine.execPowerCapSet watts s
  | .moduleReset => Sys2Proof.Machine.execModuleReset s
  | .firmwareUpdate image version valid => Sys2Proof.Machine.execFirmwareUpdate image version valid s
  | .spdmMessage m => Sys2Proof.Machine.execSpdmMessage m s
  | .clockStateChange c => Sys2Proof.Machine.execClockStateChange c s
  | .softError loc uncorrectable => Sys2Proof.Machine.execSoftError loc uncorrectable s
  | .waitmRemotePoll gid lane value => Sys2Proof.Machine.execWaitmRemotePoll gid lane value s
  | .stubRetireAckTimeout ctx page peer => Sys2Proof.Machine.execStubRetireAckTimeout ctx page peer s
  | .shutdownTemperature => Sys2Proof.Machine.execShutdownTemperature s
  | .hostPortLinkChange port up => Sys2Proof.Machine.execHostPortLinkChange port up s
  | .wcallServiceReturn gid r0 r1 r2 r3 => Sys2Proof.Machine.execWcallServiceReturn gid r0 r1 r2 r3 s

end Sys2Proof.Machine
end

