-- ==== Sys2Proof/Machine/Due.lean ====
section
/-! DEFINITION. The steps that the device can take by itself, in the model's order (log entry 2); the instruction of an issue;
and the placing of a word where step runs it (log entry 5). -/

namespace Sys2Proof.Machine

/-- A device step changes something now. -/
def moves (s : State) (o : Out) : Bool :=
  match o with
  | .next t => decide (t ≠ s)
  | _ => false

/-- A step of the device beside its effect. -/
abbrev Cand := Instr × (State → Out)

/-- The members of a list that are not exited threads, beside their groups. -/
def liveThreads (s : State) : List (Group × Thread) :=
  s.groups.flatMap fun g => (g.threads.filter fun t => !t.exited).map fun t => (g, t)

/-- Steps of the threads: clause entry, the clause's token wait, the replay of corrected registers. -/
def threadCands (s : State) : List Cand :=
  (liveThreads s).filterMap (fun (g, t) =>
    if !groupRuns s g || decide (t.wait ≠ .none) || t.passed then none
    else if !t.entered then some (.clauseEntry g.gid t.pc, execClauseEntry g.gid t.pc)
    else if pendTokens s t (kwTokens (t.clause.headD 0)) then none
    else some (.clauseWaitMet g.gid t.pc, execClauseWaitMet g.gid t.pc)) ++
  s.groups.map (fun g => (.registerReplay g.gid, execRegisterReplay g.gid))

/-- Steps of the memory and of the engines. -/
def memoryCands (s : State) : List Cand :=
  (pointsWaiting s).map (fun n => (.packetServe n, execPacketServe n)) ++
  s.accs.flatMap (fun a => match a.op with
    | .load => [(.replicaCommit a.id, execReplicaCommit a.id), (.loadReturn a.id, execLoadReturn a.id)]
    | .store => [(.replicaCommit a.id, execReplicaCommit a.id), (.storeAck a.id, execStoreAck a.id)]
    | .atomic _ _ => [(.replicaCommit a.id, execReplicaCommit a.id), (.atomicApply a.id, execAtomicApply a.id)]) ++
  s.xfers.flatMap (fun x => [(.fxferApply x.id, execFxferApply x.id), (.fxferCredit x.id, execFxferCredit x.id)]) ++
  s.cores.filterMap (fun (k, _) => if arrReady s k then some (.arrayExecute k, execArrayExecute k) else none) ++
  s.cmds.map (fun c => (.copyWriteAck c.id, execCopyWriteAck c.id)) ++
  (s.markers.map (fun m => (m.1, m.2.1)) ++ s.held.map fun h => (h.ctx, h.region)).eraseDups.flatMap (fun (c, r) => (List.range Config.numSlices).map
    fun h => (.copyrSeqRetire h c r, execCopyrSeqRetire h c r)) ++
  (List.range (s.sliceDet.length + (s.cores.map fun p => p.2.det.length).sum)).map
    (fun n => (.detectorEntryRetire n, execDetectorEntryRetire n))

/-- The lists that a thread waits on to end (R313, R317). -/
def waitLists (t : Thread) : Option (List Nat) :=
  match t.wait with
  | .items ls _ => some ls
  | .quiesce ls => some ls
  | _ => none

/-- Steps of synchronisation: WAITM, exchange groups, epochs, work lists that end. -/
def syncCands (s : State) : List Cand :=
  (liveThreads s).flatMap (fun (g, t) => match t.wait with
    | .waitm _ => [(.waitmWake g.gid t.lane, execWaitmWake g.gid t.lane)]
    | _ => match waitLists t with
      | some ls => [(.terminationDetect (s.ctxOf g) ls, execTerminationDetect (s.ctxOf g) ls)]
      | none => []) ++
  s.ctxs.flatMap (fun c => c.xgroups.map fun (x, _) => (.xchangeBoundary c.id x, execXchangeBoundary c.id x)) ++
  s.wgs.map (fun w => (.epochClose w.id, execEpochClose w.id)) ++
  s.sweeps.map (fun x => (.entryRelease x.id, execEntryRelease x.id)) ++
  s.gangs.map (fun g => (.digestCompare g.id, execDigestCompare g.id))

/-- Steps of queues, graphs, gangs and contexts: what ends before what begins. -/
def workCands (s : State) : List Cand :=
  s.queues.flatMap (fun q => (waitFails s q).toList.map fun n => (.queueWaitPoll q.id n none, execQueueWaitPoll q.id n none)) ++
  s.queues.flatMap (fun q => [(.queueEntryStart q.id, execQueueEntryStart q.id), (.signalAck q.id, execSignalAck q.id)]) ++
  s.wgs.map (fun w => (.workgroupDone w.id, execWorkgroupDone w.id)) ++
  s.gangs.flatMap (fun g => [(.gangRetire g.id, execGangRetire g.id), (.saveComplete g.id, execSaveComplete g.id)]) ++
  s.queues.map (fun q => (.queueEntryComplete q.id, execQueueEntryComplete q.id)) ++
  s.launches.flatMap (fun l => [(.nodeStart l.id, execNodeStart l.id), (.graphLaunchComplete l.id, execGraphLaunchComplete l.id)]) ++
  s.ctxs.flatMap (fun c => [(.residentRelaunch c.id, execResidentRelaunch c.id), (.ucntSignDone c.id, execUcntSignDone c.id),
    (.contextAbsent c.id, execContextAbsent c.id)] ++
    (if c.msgs.isEmpty then [] else [(.mailboxMessage c.id 256 0, execMailboxMessage c.id 256 0)])) ++
  s.domains.map (fun d => (.domainAbsent d.id, execDomainAbsent d.id)) ++
  s.gangs.map (fun g => (.restore g.id, execRestore g.id)) ++
  [(.gangPlace, execGangPlace)]

/-- Steps of slide mode. -/
def slideCands (s : State) : List Cand :=
  s.travel.map (fun p => (.slideArrival p.2.stn, execSlideArrival p.2.stn)) ++
  s.ctxs.flatMap (fun c => c.frets.flatMap fun (i, f) =>
    f.ring.map (fun r => (.spillAck i r.n, execSpillAck i r.n)) ++
    (List.range 16).map (fun r => (.ringTake i r, execRingTake i r))) ++
  s.cores.flatMap (fun (k, c) => (.groupForm k, execGroupForm k) ::
    c.arrivals.map (fun t => (.regroupTimeout k t.stn, execRegroupTimeout k t.stn))) ++
  s.sweeps.map (fun x => (.slideStart x.id, execSlideStart x.id))

/-- Steps that a page owner takes by itself. -/
def pageCands (s : State) : List Cand :=
  s.stubs.flatMap (fun x => [(.stubRelay x.ctx x.page, execStubRelay x.ctx x.page),
    (.stubRetireDone x.ctx x.page, execStubRetireDone x.ctx x.page)]) ++
  s.creditsIn.map (fun c => (.fxferCredit c.1, execFxferCredit c.1)) ++
  s.retires.map (fun (c, p, o) => (.stubRetire c p o, execStubRetire c p o))

/-- Units that have been declared faulty are repaired (R424, R425). -/
def repairCands (s : State) : List Cand :=
  (s.selfFail ++ s.tally.map (·.1)).eraseDups.map fun u => (.spareRepair u, execSpareRepair u)

/-- Slices at which elements of a region may wait for their sequence number (R238). -/
def regionsWaiting (s : State) : List (Nat × Nat × Nat) :=
  (s.held.map (fun h => (h.slice, h.ctx, h.region)) ++ s.cmds.flatMap fun c => match c.kind, c.turn with
    | .copyr _ r _, some _ => (List.range Config.numSlices).map fun h => (h, c.ctx, r)
    | _, _ => []).eraseDups

/-- Steps that a clock limit brings, after every other. -/
def timeoutCands (s : State) : List Cand :=
  s.groups.flatMap (fun g => (.detectorStallTimeout g.gid, execDetectorStallTimeout g.gid) ::
    g.counters.map (fun c => (.counterPromotion g.gid c.pc, execCounterPromotion g.gid c.pc))) ++
  (liveThreads s).flatMap (fun (g, t) => match t.wait with
    | .bar _ _ _ => [(.bartTimeout g.gid t.lane, execBartTimeout g.gid t.lane)]
    | .waitm _ => [(.waitmTimeout g.gid t.lane, execWaitmTimeout g.gid t.lane)]
    | .idle _ => [(.idleTimeout g.gid t.lane, execIdleTimeout g.gid t.lane)]
    | _ => []) ++
  (regionsWaiting s).map (fun (h, c, r) => (.copyrGapTimeout h c r, execCopyrGapTimeout h c r)) ++
  s.gangs.map (fun g => (.preemptLoadTimeout g.id, execPreemptLoadTimeout g.id)) ++
  s.ctxs.map (fun c => (.quantumPreempt c.id, execQuantumPreempt c.id)) ++
  s.stubs.flatMap (fun x => (.stubExpiry x.ctx x.page, execStubExpiry x.ctx x.page) ::
    x.awaiting.map (fun p => (.stubRetireAckTimeout x.ctx x.page p, execStubRetireAckTimeout x.ctx x.page p))) ++
  s.pages.map (fun r => (.windowEnd r.ctx r.page, execWindowEnd r.ctx r.page)) ++
  s.sent.map (fun e => (.fabricTimeout e.pkt.dst, execFabricTimeout e.pkt.dst)) ++
  s.links.map (fun (n, _) => (.linkTrainTimeout n, execLinkTrainTimeout n))

/-- Every step that the module takes by itself, in the model's order (log entry 2). -/
def candsOf (s : State) : List Cand :=
  threadCands s ++ memoryCands s ++ syncCands s ++ workCands s ++ slideCands s ++ pageCands s ++ repairCands s ++ timeoutCands s

/-- The first step of the device that can happen now. -/
def nextDue (s : State) : Option Instr := ((candsOf s).find? fun c => moves s (c.2 s)).map (·.1)

/-- What a step does. -/
inductive Plan where
  /-- The module is stopped. -/
  | stay
  /-- The issue at the head traps before its instruction executes. -/
  | done (s : State)
  /-- An instruction or step of the device executes. -/
  | run (i : Instr) (s : State)

/-- The instruction of an issue, decoded in its clause's class (R48), or the trap that precedes it: a late mark (R50,
R293) or an illegal word. -/
def planIssue (s : State) (iss : Issue) : Plan :=
  match s.group? iss.gid with
  | none => .done s
  | some g =>
    let s := { s with cur := some iss }
    let act := g.threads.filter fun t => iss.lanes.contains t.lane
    match act.find? fun t => t.late.isSome with
    | some t =>
      let (q, a) := t.late.getD (0, 0)
      .done (takeTrap s iss 0x58
        { info0 := BitVec.ofNat 32 q, addr := a, lanes := (act.filter fun t => t.late.isSome).map (·.lane) })
    | none =>
      match act with
      | [] => .done s
      | t :: _ =>
        match t.cls.bind fun c => decode c (t.wordAt iss.pc) (t.wordAt (iss.pc + 4)) with
        | some i => .run i s
        | none => .done (takeTrap s iss 0x01)

/-! ### Placing a word -/

/-- The group that a placed word stands in: one thread, in an entered clause that holds the header, the word and the
literal word. -/
def wordGroup (gid wg : Nat) (cls : Class) (ws : List Word) : Group :=
  { gid := gid, wg := wg, regs := 128,
    threads := [{ pc := 4, hdr := 0, clause := mkHeader (BitVec.ofNat 4 ws.length) cls.code 0 true :: ws,
                  entered := true, passed := true }] }

/-- The state with an instruction's words placed so that the next step runs them (log entry 5): a workgroup of one group
in a privileged context is placed, and one thread of it issues the word. -/
def placeWord (s : State) (nbits w : Nat) : State :=
  let word : Word := BitVec.ofNat 32 w
  let lit : Word := BitVec.ofNat 32 (w / 2 ^ 32)
  let cls := ((decodeAnyClass word lit).map (·.1)).getD .mix
  let ws := if takesLiteral cls word then [word, if nbits ≤ 32 then 0 else lit] else [word]
  let id := s.nextId
  let params : List Word := [0x20080#32, 0, 1, 1, 1]
  { s with
    agenda := [], stopped := false, nextId := id + 1,
    ctxs := if (s.ctx? 0).isSome then s.ctxs else { id := 0, state := .active, priv := true } :: s.ctxs,
    sweeps := { id := id, params := params, gangs := 1, placed := 1, placedTickets := 1 } :: s.sweeps,
    gangs := { id := id, sweep := id } :: s.gangs,
    wgs := { id := id, gang := id, sweep := id, tiles := 8, groups := 1 } :: s.wgs,
    groups := wordGroup id id cls ws :: s.groups,
    issues := [{ gid := id, pc := 4, lanes := [0] }] }

end Sys2Proof.Machine
end

