-- ==== Sys2Proof/Machine/Plan.lean ====
section
/-! DEFINITION. What step does next (log entry 2): steps of the agenda, the issues of the clock, the first step of the device that
can happen, or else the next clock; and the rule of R128 for two issues of one group. -/

namespace Sys2Proof.Machine

/-- An issue has trapped: a thread of it entered the handler, or a double trap of R420 ended it. -/
def trapped (s t : State) (iss : Issue) : Bool :=
  let q0 (u : State) : Nat := (u.ctxs.map fun c => c.q0.length).sum
  iss.lanes.any fun l => match s.thread? iss.gid l, t.thread? iss.gid l with
    | some a, some b => (!a.handler && b.handler) || (a.handler && b.exited && decide (q0 s < q0 t))
    | _, _ => false

/-- Whether an issue would trap if it were executed now. -/
def wouldTrap (s : State) (iss : Issue) : Bool :=
  match planIssue s iss with
  | .stay => false
  | .done t => trapped s t iss
  | .run i u => match exec i u with
    | .next t => trapped s t iss
    | _ => false

/-- The issue at the head of a clock's issues (R128): where the other issue of its group in the clock traps and it does not, or both
trap and the other stands at the lower address, it is cancelled without effect and the other one is taken. The lanes of a cancelled
issue stay Ready, so that it may issue in the next clock; R128 says that it issues again after TRET and not that it waits for one
(DESIGN CHOICE, log entry 57). -/
def planHead (s : State) (i : Issue) (r : List Issue) : Plan :=
  let u : State := { s with issues := r }
  match r.find? fun j => j.gid == i.gid with
  | none => planIssue u i
  | some j =>
    if wouldTrap u j && (decide (j.pc.toNat < i.pc.toNat) || !wouldTrap u i) then planIssue { s with issues := r.filter fun x => x.gid != i.gid } j
    else planIssue u i

/-- The plan of a state. -/
def plan (s : State) : Plan :=
  match s.agenda with
  | e :: r => .run e { s with agenda := r }
  | [] =>
    if s.stopped then .stay
    else match s.issues with
    | i :: r => planHead s i r
    | [] => match nextDue s with
      | some e => .run e s
      | none => .run .issueSelect s

end Sys2Proof.Machine
end

