-- ==== Sys2Proof/Laws/Encode.lean ====
section
/-! SUPPORT. Laws of the encoder's fields: what each field reader gives of what the encoder put there. -/

namespace Sys2Proof
set_option Elab.async false

/-- The fields of the word of given fields are those fields. -/
theorem Fields.ofWord_toWord (f : Fields) : Fields.ofWord f.toWord = f := by
  obtain ⟨u, op, m, d, a, b⟩ := f
  simp only [Fields.ofWord, Fields.toWord, Fields.mk.injEq]
  refine ⟨?_, ?_, ?_, ?_, ?_, ?_⟩
  · simp only [BitVec.getLsbD_append]
    repeat' split
    all_goals first | omega | (cases u <;> rfl)
  all_goals
    apply BitVec.eq_of_getLsbD_eq
    intro i hi
    simp only [BitVec.getLsbD_extractLsb', BitVec.getLsbD_append, hi, decide_true, Bool.true_and]
    repeat' split
    all_goals first | omega | (congr 1; omega)

/-- A well-formed instruction that its fields name is what the word decodes to. -/
theorem decode_of {c : Class} {f : Fields} {l : Word} {i : Instr} (h : decodeFields c f l = some i) (hw : i.wf = true) :
    decode c f.toWord l = some i := by
  unfold decode
  rw [Fields.ofWord_toWord, h]
  simp [hw]

@[simp] theorem Fields.need_true (x : Option Instr) : Fields.need true x = x := rfl

@[simp] theorem toS_encS : ∀ r : SReg, toS (encS r) = some r := by decide
@[simp] theorem to3_enc3 : ∀ r : BitVec 3, to3 (enc3 r) = some r := by decide
@[simp] theorem to4_enc4 : ∀ r : BitVec 4, to4 (enc4 r) = some r := by decide
@[simp] theorem toFmt_code (t : Fmt) : toFmt t.code = some t := by cases t <;> rfl
@[simp] theorem toFFmt_code (t : FFmt) : toFFmt t.code = some t := by cases t <;> rfl
@[simp] theorem toMFmt_code (t : MFmt) : toMFmt t.code = some t := by cases t <;> rfl
@[simp] theorem toIType_code (t : IType) : toIType t.code = t := by cases t <;> rfl
@[simp] theorem toRnd_code (t : Rnd) : toRnd t.code = some t := by cases t <;> rfl
@[simp] theorem toQRnd_code (t : QRnd) : toQRnd t.code = some t := by cases t <;> rfl
@[simp] theorem toWd_code (t : Wd) : toWd t.code = some t := by cases t <;> rfl
@[simp] theorem toICond_code (t : ICond) : toICond t.code = some t := by cases t <;> rfl
@[simp] theorem toFCond_code (t : FCond) : toFCond t.code = some t := by cases t <;> rfl
@[simp] theorem toPlop_code (t : PlopOp) : toPlop t.code = t := by cases t <;> rfl
@[simp] theorem toVote_code (t : VoteOp) : toVote t.code = some t := by cases t <;> rfl
@[simp] theorem toRed_code (t : RedOp) : toRed t.code = some t := by cases t <;> rfl
@[simp] theorem toAOrd_code (t : AOrd) : toAOrd t.code = t := by cases t <;> rfl
@[simp] theorem toCWid_code (t : CWid) : toCWid t.code = some t := by cases t <;> rfl
@[simp] theorem toROp_code (t : ROp) : toROp t.code = some t := by cases t <;> rfl
@[simp] theorem toSc_code (t : Sc) : toSc t.code = some t := by cases t <;> rfl

/-! Fields of M. -/

@[simp] theorem m_bx : ∀ (e : BitVec 2) (f : Bool), (e ++ BitVec.ofBool f : BitVec 3).getLsbD 0 = f := by decide
@[simp] theorem m_bx0 : ∀ (e : BitVec 2), (e ++ 0#1 : BitVec 3).getLsbD 0 = false := by decide
@[simp] theorem m_o2 : ∀ (e : BitVec 1) (y : BitVec 2), (e ++ y : BitVec 3).getLsbD 2 = e.getLsbD 0 := by decide
@[simp] theorem m_o10 : ∀ (e : BitVec 1) (y : BitVec 2), (e ++ y : BitVec 3).extractLsb' 0 2 = y := by decide
@[simp] theorem m_z1 : ∀ (e : BitVec 1), (e ++ 0#2 : BitVec 3).getLsbD 1 = false := by decide
@[simp] theorem m_z0 : ∀ (e : BitVec 1), (e ++ 0#2 : BitVec 3).getLsbD 0 = false := by decide
@[simp] theorem m_s2 : ∀ (e : BitVec 1) (y z : Bool), (e ++ BitVec.ofBool y ++ BitVec.ofBool z : BitVec 3).getLsbD 2 = e.getLsbD 0 := by decide
@[simp] theorem m_s1 : ∀ (e : BitVec 1) (y z : Bool), (e ++ BitVec.ofBool y ++ BitVec.ofBool z : BitVec 3).getLsbD 1 = y := by decide
@[simp] theorem m_s0 : ∀ (e : BitVec 1) (y z : Bool), (e ++ BitVec.ofBool y ++ BitVec.ofBool z : BitVec 3).getLsbD 0 = z := by decide
@[simp] theorem m_f2 : ∀ (e : BitVec 1) (z : Bool), (e ++ 0#1 ++ BitVec.ofBool z : BitVec 3).getLsbD 2 = e.getLsbD 0 := by decide
@[simp] theorem m_f1 : ∀ (e : BitVec 1) (z : Bool), (e ++ 0#1 ++ BitVec.ofBool z : BitVec 3).getLsbD 1 = false := by decide
@[simp] theorem m_f0 : ∀ (e : BitVec 1) (z : Bool), (e ++ 0#1 ++ BitVec.ofBool z : BitVec 3).getLsbD 0 = z := by decide
@[simp] theorem m_a12 : ∀ (y : BitVec 2) (z : Bool), (y ++ BitVec.ofBool z : BitVec 3).extractLsb' 1 2 = y := by decide
@[simp] theorem m_b2 : ∀ (z : Bool), (0#2 ++ BitVec.ofBool z : BitVec 3).getLsbD 2 = false := by decide
@[simp] theorem m_b1 : ∀ (z : Bool), (0#2 ++ BitVec.ofBool z : BitVec 3).getLsbD 1 = false := by decide
@[simp] theorem ofBool_lsb0 : ∀ (z : Bool), (BitVec.ofBool z).getLsbD 0 = z := by decide

/-- A bx operand comes back, whatever M[0] holds. -/
@[simp] theorem toSrc_enc (b : Src) (y : BitVec 1) : toSrc (b.enc.1 ++ y : BitVec 3) b.enc.2 = some b := by
  have h2 : ∀ (e : BitVec 2) (y : BitVec 1), (e ++ y : BitVec 3).getLsbD 2 = e.getLsbD 1 := by decide
  have h1 : ∀ (e : BitVec 2) (y : BitVec 1), (e ++ y : BitVec 3).getLsbD 1 = e.getLsbD 0 := by decide
  unfold toSrc
  rw [h2, h1]
  cases b with
  | v r => simp [Src.enc]
  | s r => simp only [Src.enc]; exact congrArg (Option.map Src.s) (toS_encS r)
  | imm i => simp [Src.enc]
@[simp] theorem toOpv_enc (b : Opv) : toOpv (b.enc.1.getLsbD 0) b.enc.2 = some b := by
  cases b with
  | v r => simp [Opv.enc, toOpv]
  | s r => simp only [Opv.enc]; exact congrArg (Option.map Opv.s) (toS_encS r)

/-! Fields of D, A and B. -/

@[simp] theorem d_hi4 : ∀ (c : BitVec 4) (p : BitVec 3), (c ++ p : BitVec 7).extractLsb' 3 4 = c := by decide
@[simp] theorem d_lo3 : ∀ (c : BitVec 4) (p : BitVec 3), (c ++ p : BitVec 7).extractLsb' 0 3 = p := by decide
@[simp] theorem r_sc : ∀ (c : BitVec 3) (r : BitVec 4), (c ++ r : BitVec 7).extractLsb' 4 3 = c := by decide
@[simp] theorem r_rec : ∀ (c : BitVec 3) (r : BitVec 4), (c ++ r : BitVec 7).extractLsb' 0 4 = r := by decide
@[simp] theorem encRec_sc (c : Sc) (r : RecN) : (encRec c r).extractLsb' 4 3 = c.code := r_sc _ _
@[simp] theorem encRec_r (c : Sc) (r : RecN) : (encRec c r).extractLsb' 0 4 = r := r_rec _ _
@[simp] theorem z6_hi : ∀ (z : Bool), (0#6 ++ BitVec.ofBool z : BitVec 7).extractLsb' 1 6 = 0 := by decide
@[simp] theorem z6_lo : ∀ (z : Bool), (0#6 ++ BitVec.ofBool z : BitVec 7).getLsbD 0 = z := by decide
@[simp] theorem b_cv6 : ∀ (x : BitVec 2) (y : BitVec 3), (0#1 ++ x ++ 0#1 ++ y : BitVec 7).getLsbD 6 = false := by decide
@[simp] theorem b_cv3 : ∀ (x : BitVec 2) (y : BitVec 3), (0#1 ++ x ++ 0#1 ++ y : BitVec 7).getLsbD 3 = false := by decide
@[simp] theorem b_cvt : ∀ (x : BitVec 2) (y : BitVec 3), (0#1 ++ x ++ 0#1 ++ y : BitVec 7).extractLsb' 4 2 = x := by decide
@[simp] theorem b_cvf : ∀ (x : BitVec 2) (y : BitVec 3), (0#1 ++ x ++ 0#1 ++ y : BitVec 7).extractLsb' 0 3 = y := by decide
@[simp] theorem b_ff6 : ∀ (z : Bool) (x y : BitVec 3), (BitVec.ofBool z ++ x ++ y : BitVec 7).getLsbD 6 = z := by decide
@[simp] theorem b_ff3 : ∀ (z : Bool) (x y : BitVec 3), (BitVec.ofBool z ++ x ++ y : BitVec 7).extractLsb' 3 3 = x := by decide
@[simp] theorem b_ff0 : ∀ (z : Bool) (x y : BitVec 3), (BitVec.ofBool z ++ x ++ y : BitVec 7).extractLsb' 0 3 = y := by decide
@[simp] theorem b_un0 : ∀ (y : BitVec 3), (0#4 ++ y : BitVec 7).extractLsb' 0 3 = y := by decide
@[simp] theorem b_un3 : ∀ (y : BitVec 3), (0#4 ++ y : BitVec 7).extractLsb' 3 4 = 0 := by decide
@[simp] theorem d_mm4 : ∀ (z : Bool) (t : BitVec 3), (0#3 ++ BitVec.ofBool z ++ t : BitVec 7).extractLsb' 4 3 = 0 := by decide
@[simp] theorem d_mm3 : ∀ (z : Bool) (t : BitVec 3), (0#3 ++ BitVec.ofBool z ++ t : BitVec 7).getLsbD 3 = z := by decide
@[simp] theorem d_mm0 : ∀ (z : Bool) (t : BitVec 3), (0#3 ++ BitVec.ofBool z ++ t : BitVec 7).extractLsb' 0 3 = t := by decide
@[simp] theorem d_dr4 : ∀ (t : BitVec 3), (enc3 t).extractLsb' 4 3 = 0 := by decide
@[simp] theorem d_dr3 : ∀ (t : BitVec 3), (enc3 t).getLsbD 3 = false := by decide
@[simp] theorem d_dr0 : ∀ (t : BitVec 3), (enc3 t).extractLsb' 0 3 = t := by decide
@[simp] theorem d_by4 : ∀ (t : BitVec 3), (1#4 ++ t : BitVec 7).extractLsb' 4 3 = 0 := by decide
@[simp] theorem d_by3 : ∀ (t : BitVec 3), (1#4 ++ t : BitVec 7).getLsbD 3 = true := by decide
@[simp] theorem a_ms2 : ∀ (k : BitVec 2), (0#5 ++ k : BitVec 7).extractLsb' 2 5 = 0 := by decide
@[simp] theorem a_ms0 : ∀ (k : BitVec 2), (0#5 ++ k : BitVec 7).extractLsb' 0 2 = k := by decide

/-- IMM14 comes back from A and B (R42). -/
@[simp] theorem imm14_split (i : BitVec 14) : (i.extractLsb' 7 7 ++ i.extractLsb' 0 7 : BitVec 14) = i := by
  apply BitVec.eq_of_getLsbD_eq
  intro k hk
  simp only [BitVec.getLsbD_append, BitVec.getLsbD_extractLsb']
  split
  · rename_i h; simp [h]
  · rename_i h; simp [show k - 7 < 7 by omega, show 7 + (k - 7) = k by omega]
@[simp] theorem imm_hi : ∀ n : BitVec 8, (0#6 ++ n : BitVec 14).extractLsb' 8 6 = 0 := by decide
@[simp] theorem imm_lo : ∀ n : BitVec 8, (0#6 ++ n : BitVec 14).extractLsb' 0 8 = n := by decide

/-! Fields of literal words. -/

@[simp] theorem l_q6 : ∀ k : BitVec 6, (0#26 ++ k : BitVec 32).extractLsb' 6 26 = 0#26 := by decide
@[simp] theorem l_q0 : ∀ k : BitVec 6, (0#26 ++ k : BitVec 32).extractLsb' 0 6 = k := by decide

/-- A field of a literal, from the bits of its parts. -/
theorem field_eq {n : Nat} (w : Word) (s : Nat) (x : BitVec n) (h : ∀ i < n, w.getLsbD (s + i) = x.getLsbD i) :
    w.extractLsb' s n = x := by
  apply BitVec.eq_of_getLsbD_eq
  intro i hi
  rw [BitVec.getLsbD_extractLsb', h i hi]
  simp [hi]

@[simp] theorem l_w6 (l c : BitVec 6) : (0#18 ++ l ++ 0#2 ++ c : BitVec 32).extractLsb' 6 2 = 0#2 := by
  refine field_eq _ _ _ fun i hi => ?_
  simp only [BitVec.getLsbD_append]
  repeat' split
  all_goals first | omega | simp
@[simp] theorem l_w14 (l c : BitVec 6) : (0#18 ++ l ++ 0#2 ++ c : BitVec 32).extractLsb' 14 18 = 0#18 := by
  refine field_eq _ _ _ fun i hi => ?_
  simp only [BitVec.getLsbD_append]
  repeat' split
  all_goals first | omega | simp
@[simp] theorem l_w0 (l c : BitVec 6) : (0#18 ++ l ++ 0#2 ++ c : BitVec 32).extractLsb' 0 6 = c := by
  refine field_eq _ _ _ fun i hi => ?_
  simp only [BitVec.getLsbD_append]
  repeat' split
  all_goals first | omega | (congr 1; omega)
@[simp] theorem l_w8 (l c : BitVec 6) : (0#18 ++ l ++ 0#2 ++ c : BitVec 32).extractLsb' 8 6 = l := by
  refine field_eq _ _ _ fun i hi => ?_
  simp only [BitVec.getLsbD_append]
  repeat' split
  all_goals first | omega | (congr 1; omega)

@[simp] theorem stateLit_num (o : Bool) (c : BitVec 6) (n : BitVec 12) : (Encoded.stateLit o c n).extractLsb' 0 12 = n := by
  refine field_eq _ _ _ fun i hi => ?_
  simp only [Encoded.stateLit, BitVec.getLsbD_append]
  repeat' split
  all_goals first | omega | (congr 1; omega)
@[simp] theorem stateLit_ctx (o : Bool) (c : BitVec 6) (n : BitVec 12) : (Encoded.stateLit o c n).extractLsb' 16 6 = c := by
  refine field_eq _ _ _ fun i hi => ?_
  simp only [Encoded.stateLit, BitVec.getLsbD_append]
  repeat' split
  all_goals first | omega | (congr 1; omega)
@[simp] theorem stateLit_z24 (o : Bool) (c : BitVec 6) (n : BitVec 12) : (Encoded.stateLit o c n).extractLsb' 24 8 = 0#8 := by
  refine field_eq _ _ _ fun i hi => ?_
  simp only [Encoded.stateLit, BitVec.getLsbD_append]
  repeat' split
  all_goals first | omega | simp
@[simp] theorem stateLit_z12 (o : Bool) (c : BitVec 6) (n : BitVec 12) : (Encoded.stateLit o c n).extractLsb' 12 4 = 0#4 := by
  refine field_eq _ _ _ fun i hi => ?_
  simp only [Encoded.stateLit, BitVec.getLsbD_append]
  repeat' split
  all_goals first | omega | simp
@[simp] theorem stateLit_other (o : Bool) (c : BitVec 6) (n : BitVec 12) : (Encoded.stateLit o c n).getLsbD 23 = o := by
  simp only [Encoded.stateLit, BitVec.getLsbD_append]
  repeat' split
  all_goals first | omega | (cases o <;> rfl)
@[simp] theorem stateLit_z22 (o : Bool) (c : BitVec 6) (n : BitVec 12) : (Encoded.stateLit o c n).getLsbD 22 = false := by
  simp only [Encoded.stateLit, BitVec.getLsbD_append]
  repeat' split
  all_goals first | omega | simp
@[simp] theorem stateLit_ok (o : Bool) (c : BitVec 6) (n : BitVec 12) : stateLitOk (Encoded.stateLit o c n) = true := by
  simp [-BitVec.getLsbD_eq_getElem, stateLitOk]

end Sys2Proof
end

