-- ==== Sys2Proof/Laws/PerInstr.lean ====
section
/-! SUPPORT. The encoder and the decoder agree on every instruction: one lemma per constructor of Instr. -/

set_option linter.unusedSimpArgs false

namespace Sys2Proof.Laws.RoundTrip
set_option Elab.async false

open Sys2Proof

/-- The words of a well-formed instruction decode to it, in its class, whatever word follows one that takes no
literal. The device's own steps, and the two forms of QCMD that a value selects, have no words. -/
def Statement (i : Instr) : Prop :=
  ∀ c w lit, encode i = some (c, w, lit) → i.wf = true → ∀ next, decode c w (lit.getD next) = some i

theorem of_fields {i : Instr} {e : Encoded} (he : encodeFields i = some e)
    (h : i.wf = true → ∀ next, decodeFields e.cls e.f (e.lit.getD next) = some i) : Statement i := by
  intro c w lit hi hw next
  rw [encode, he] at hi
  simp only [Option.map_some, Option.some.injEq, Prod.mk.injEq] at hi
  obtain ⟨rfl, rfl, rfl⟩ := hi
  exact decode_of (h hw next) hw

theorem of_none {i : Instr} (he : encodeFields i = none) : Statement i := by
  intro c w lit hi
  simp [encode, he] at hi

theorem form_bx (x : Bx) (mk : Bx → Instr) (op : BitVec 7) : Fields.bx (Encoded.bx op x).f mk = some (mk x) := by
  simp [-BitVec.getLsbD_eq_getElem, Fields.bx, Encoded.bx, Encoded.plain, Fields.mb]

theorem form_un (x : Un) (mk : Un → Instr) (op : BitVec 7) : Fields.un (Encoded.un op x).f mk = some (mk x) := by
  simp [-BitVec.getLsbD_eq_getElem, Fields.un, Encoded.un, Encoded.plain]

theorem form_fb (x : Fb) (mk : Fb → Instr) (op : BitVec 7) : Fields.fb (Encoded.fb op x).f mk = some (mk x) := by
  simp [-BitVec.getLsbD_eq_getElem, Fields.fb, Encoded.fb, Encoded.plain, Fields.mb]

theorem form_fu (x : Fu) (mk : Fu → Instr) (op : BitVec 7) : Fields.fu (Encoded.fu op x).f mk = some (mk x) := by
  simp [-BitVec.getLsbD_eq_getElem, Fields.fu, Encoded.fu, Encoded.plain, Fields.mb]

theorem form_f1 (x : F1) (mk : F1 → Instr) (op : BitVec 7) : Fields.f1 (Encoded.f1 op x).f mk = some (mk x) := by
  simp [-BitVec.getLsbD_eq_getElem, Fields.f1, Encoded.f1, Encoded.plain]

theorem form_lane (x : LaneF) (mk : LaneF → Instr) (op : BitVec 7) : Fields.lane (Encoded.lane op x).f mk = some (mk x) := by
  simp [-BitVec.getLsbD_eq_getElem, Fields.lane, Encoded.lane, Encoded.plain, Fields.mb]

theorem form_ls (x : LsF) (mk : LsF → Instr) (op : BitVec 7) : Fields.ls (Encoded.ls op x).f mk = some (mk x) := by
  simp [-BitVec.getLsbD_eq_getElem, Fields.ls, Encoded.ls, Encoded.plain]

theorem form_at (x : AtF) (mk : AtF → Instr) (op : BitVec 7) : Fields.at' (Encoded.at' op x).f mk = some (mk x) := by
  simp [-BitVec.getLsbD_eq_getElem, Fields.at', Encoded.at', Encoded.plain, Fields.mb]

theorem srd_srd (x : SrdF) (hw : (Instr.srd x).wf = true) : srdForm x = .srd x := by
  unfold srdForm
  rw [if_neg]
  intro h
  have hn : (srdNumber x.num.toNat && targetOk x.other x.ctx) = true := hw
  rw [h] at hn
  simp [srdNumber] at hn

theorem srd_hqpop (x : SrdF) (hw : (Instr.hqpop x).wf = true) : srdForm x = .hqpop x := by
  have hn : (x.num == 0x028 && targetOk x.other x.ctx) = true := hw
  simp only [Bool.and_eq_true, beq_iff_eq] at hn
  simp [srdForm, hn.1]

theorem num_eq {n k : BitVec 12} (h : n = k) : n.toNat = k.toNat := by rw [h]

theorem swr_swr (x : SwrF) (hw : (Instr.swr x).wf = true) : swrForm x = .swr x := by
  have hn : (swrPlain x.num.toNat && targetOk x.other x.ctx) = true := hw
  simp only [swrPlain, Bool.and_eq_true, Bool.or_eq_true, beq_iff_eq, decide_eq_true_eq] at hn
  have h := hn.1
  unfold swrForm
  simp only [← BitVec.toNat_inj, BitVec.reduceToNat]
  repeat' split
  all_goals first | rfl | omega

theorem swr_ctxset (x : SwrF) (hw : (Instr.ctxset x).wf = true) : swrForm x = .ctxset x := by
  have hn : (x.num == 0x002 && targetOk x.other x.ctx) = true := hw
  simp only [Bool.and_eq_true, beq_iff_eq, ← BitVec.toNat_inj, BitVec.reduceToNat, decide_eq_true_eq] at hn
  have h := hn.1
  unfold swrForm
  simp only [← BitVec.toNat_inj, BitVec.reduceToNat]
  repeat' split
  all_goals first | rfl | omega

theorem swr_cmaskWrite (x : SwrF) (hw : (Instr.cmaskWrite x).wf = true) : swrForm x = .cmaskWrite x := by
  have hn : (decide (0x008 ≤ x.num.toNat) && decide (x.num.toNat ≤ 0x00F) && targetOk x.other x.ctx) = true := hw
  simp only [Bool.and_eq_true, beq_iff_eq, ← BitVec.toNat_inj, BitVec.reduceToNat, decide_eq_true_eq] at hn
  have h := hn.1
  unfold swrForm
  simp only [← BitVec.toNat_inj, BitVec.reduceToNat]
  repeat' split
  all_goals first | rfl | omega

theorem swr_rgnrst (x : SwrF) (hw : (Instr.rgnrst x).wf = true) : swrForm x = .rgnrst x := by
  have hn : (x.num == 0x018 && targetOk x.other x.ctx) = true := hw
  simp only [Bool.and_eq_true, beq_iff_eq, ← BitVec.toNat_inj, BitVec.reduceToNat, decide_eq_true_eq] at hn
  have h := hn.1
  unfold swrForm
  simp only [← BitVec.toNat_inj, BitVec.reduceToNat]
  repeat' split
  all_goals first | rfl | omega

theorem swr_ctlcmd (x : SwrF) (hw : (Instr.ctlcmd x).wf = true) : swrForm x = .ctlcmd x := by
  have hn : (x.num == 0x019 && targetOk x.other x.ctx) = true := hw
  simp only [Bool.and_eq_true, beq_iff_eq, ← BitVec.toNat_inj, BitVec.reduceToNat, decide_eq_true_eq] at hn
  have h := hn.1
  unfold swrForm
  simp only [← BitVec.toNat_inj, BitVec.reduceToNat]
  repeat' split
  all_goals first | rfl | omega

theorem swr_qbudget (x : SwrF) (hw : (Instr.qbudget x).wf = true) : swrForm x = .qbudget x := by
  have hn : (x.num == 0x212 && targetOk x.other x.ctx) = true := hw
  simp only [Bool.and_eq_true, beq_iff_eq, ← BitVec.toNat_inj, BitVec.reduceToNat, decide_eq_true_eq] at hn
  have h := hn.1
  unfold swrForm
  simp only [← BitVec.toNat_inj, BitVec.reduceToNat]
  repeat' split
  all_goals first | rfl | omega

theorem swr_qlate (x : SwrF) (hw : (Instr.qlate x).wf = true) : swrForm x = .qlate x := by
  have hn : (x.num == 0x213 && targetOk x.other x.ctx) = true := hw
  simp only [Bool.and_eq_true, beq_iff_eq, ← BitVec.toNat_inj, BitVec.reduceToNat, decide_eq_true_eq] at hn
  have h := hn.1
  unfold swrForm
  simp only [← BitVec.toNat_inj, BitVec.reduceToNat]
  repeat' split
  all_goals first | rfl | omega

theorem swr_pagecfg (x : SwrF) (hw : (Instr.pagecfg x).wf = true) : swrForm x = .pagecfg x := by
  have hn : (x.num == 0x020 && targetOk x.other x.ctx) = true := hw
  simp only [Bool.and_eq_true, beq_iff_eq, ← BitVec.toNat_inj, BitVec.reduceToNat, decide_eq_true_eq] at hn
  have h := hn.1
  unfold swrForm
  simp only [← BitVec.toNat_inj, BitVec.reduceToNat]
  repeat' split
  all_goals first | rfl | omega

theorem swr_frmpush (x : SwrF) (hw : (Instr.frmpush x).wf = true) : swrForm x = .frmpush x := by
  have hn : (x.num == 0x021 && targetOk x.other x.ctx) = true := hw
  simp only [Bool.and_eq_true, beq_iff_eq, ← BitVec.toNat_inj, BitVec.reduceToNat, decide_eq_true_eq] at hn
  have h := hn.1
  unfold swrForm
  simp only [← BitVec.toNat_inj, BitVec.reduceToNat]
  repeat' split
  all_goals first | rfl | omega

theorem swr_partmask (x : SwrF) (hw : (Instr.partmask x).wf = true) : swrForm x = .partmask x := by
  have hn : (decide (0x100 ≤ x.num.toNat) && decide (x.num.toNat ≤ 0x17F) && targetOk x.other x.ctx) = true := hw
  simp only [Bool.and_eq_true, beq_iff_eq, ← BitVec.toNat_inj, BitVec.reduceToNat, decide_eq_true_eq] at hn
  have h := hn.1
  unfold swrForm
  simp only [← BitVec.toNat_inj, BitVec.reduceToNat]
  repeat' split
  all_goals first | rfl | omega

theorem iadd (x : Bx) : Statement (.iadd x) := of_fields rfl fun _ _ => form_bx x .iadd 0x00
theorem isub (x : Bx) : Statement (.isub x) := of_fields rfl fun _ _ => form_bx x .isub 0x01
theorem imul (x : Bx) : Statement (.imul x) := of_fields rfl fun _ _ => form_bx x .imul 0x02
theorem imulh (x : Bx) : Statement (.imulh x) := of_fields rfl fun _ _ => form_bx x .imulh 0x03
theorem imad (x : Bx) : Statement (.imad x) := of_fields rfl fun _ _ => form_bx x .imad 0x04
theorem imin (x : Bx) : Statement (.imin x) := of_fields rfl fun _ _ => form_bx x .imin 0x05
theorem imax (x : Bx) : Statement (.imax x) := of_fields rfl fun _ _ => form_bx x .imax 0x06
theorem iabs (x : Un) : Statement (.iabs x) := of_fields rfl fun _ _ => form_un x .iabs 0x07
theorem ineg (x : Un) : Statement (.ineg x) := of_fields rfl fun _ _ => form_un x .ineg 0x08
theorem sadd (x : Bx) : Statement (.sadd x) := of_fields rfl fun _ _ => form_bx x .sadd 0x09
theorem ssub (x : Bx) : Statement (.ssub x) := of_fields rfl fun _ _ => form_bx x .ssub 0x0A
theorem idiv (x : Bx) : Statement (.idiv x) := of_fields rfl fun _ _ => form_bx x .idiv 0x0B
theorem irem (x : Bx) : Statement (.irem x) := of_fields rfl fun _ _ => form_bx x .irem 0x0C
theorem iadd64 (x : Bx) : Statement (.iadd64 x) := of_fields rfl fun _ _ => form_bx x .iadd64 0x0D
theorem isub64 (x : Bx) : Statement (.isub64 x) := of_fields rfl fun _ _ => form_bx x .isub64 0x0E
theorem imad64 (x : Bx) : Statement (.imad64 x) := of_fields rfl fun _ _ => form_bx x .imad64 0x0F
theorem and (x : Bx) : Statement (.and x) := of_fields rfl fun _ _ => form_bx x .and 0x10
theorem or (x : Bx) : Statement (.or x) := of_fields rfl fun _ _ => form_bx x .or 0x11
theorem xor (x : Bx) : Statement (.xor x) := of_fields rfl fun _ _ => form_bx x .xor 0x12
theorem andn (x : Bx) : Statement (.andn x) := of_fields rfl fun _ _ => form_bx x .andn 0x13
theorem shl (x : Bx) : Statement (.shl x) := of_fields rfl fun _ _ => form_bx x .shl 0x14
theorem shr (x : Bx) : Statement (.shr x) := of_fields rfl fun _ _ => form_bx x .shr 0x15
theorem sar (x : Bx) : Statement (.sar x) := of_fields rfl fun _ _ => form_bx x .sar 0x16
theorem rotl (x : Bx) : Statement (.rotl x) := of_fields rfl fun _ _ => form_bx x .rotl 0x17
theorem bfe (x : Bf) : Statement (.bfe x) := of_fields rfl fun hw _ => by
  simp [-BitVec.getLsbD_eq_getElem, decodeFields, decodeMix, Encoded.fi, Encoded.plain, Fields.imm14, Fields.mb, Fields.fz, Encoded.srd, Encoded.swr]
theorem bfi (x : Bf) : Statement (.bfi x) := of_fields rfl fun hw _ => by
  simp [-BitVec.getLsbD_eq_getElem, decodeFields, decodeMix, Encoded.fi, Encoded.plain, Fields.imm14, Fields.mb, Fields.fz, Encoded.srd, Encoded.swr]
theorem popc (x : Un) : Statement (.popc x) := of_fields rfl fun _ _ => form_un x .popc 0x1A
theorem clz (x : Un) : Statement (.clz x) := of_fields rfl fun _ _ => form_un x .clz 0x1B
theorem brev (x : Un) : Statement (.brev x) := of_fields rfl fun _ _ => form_un x .brev 0x1C
theorem lea (x : LeaF) : Statement (.lea x) := of_fields rfl fun hw _ => by
  simp [-BitVec.getLsbD_eq_getElem, decodeFields, decodeMix, Encoded.fi, Encoded.plain, Fields.imm14, Fields.mb, Fields.fz, Encoded.srd, Encoded.swr]
theorem shl64 (x : Bx) : Statement (.shl64 x) := of_fields rfl fun _ _ => form_bx x .shl64 0x1E
theorem shr64 (x : Bx) : Statement (.shr64 x) := of_fields rfl fun _ _ => form_bx x .shr64 0x1F
theorem mov (x : MovF) : Statement (.mov x) := of_fields rfl fun hw _ => by
  simp [-BitVec.getLsbD_eq_getElem, decodeFields, decodeMix, Encoded.fi, Encoded.plain, Fields.imm14, Fields.mb, Fields.fz, Encoded.srd, Encoded.swr]
theorem movi (x : MoviF) : Statement (.movi x) := of_fields rfl fun hw _ => by
  simp [-BitVec.getLsbD_eq_getElem, decodeFields, decodeMix, Encoded.fi, Encoded.plain, Fields.imm14, Fields.mb, Fields.fz, Encoded.srd, Encoded.swr]
theorem movl (x : MovlF) : Statement (.movl x) := of_fields rfl fun hw _ => by
  simp [-BitVec.getLsbD_eq_getElem, decodeFields, decodeMix, Encoded.fi, Encoded.plain, Fields.imm14, Fields.mb, Fields.fz, Encoded.srd, Encoded.swr]
theorem movs (x : MovsF) : Statement (.movs x) := of_fields rfl fun hw _ => by
  simp [-BitVec.getLsbD_eq_getElem, decodeFields, decodeMix, Encoded.plain]
  intro h
  have hn : (uniReg x.u x.d && movsNumber x.num.toNat && (!x.u || movsGroup x.num.toNat) && (x.num.toNat != 0x0A || even x.d)) = true := hw
  rw [h] at hn
  simp [movsNumber] at hn
theorem potake (d : VReg) : Statement (.potake d) := of_fields rfl fun hw _ => by
  simp [-BitVec.getLsbD_eq_getElem, decodeFields, decodeMix, Encoded.fi, Encoded.plain, Fields.imm14, Fields.mb, Fields.fz, Encoded.srd, Encoded.swr]
theorem sel (x : SelF) : Statement (.sel x) := of_fields rfl fun hw _ => by
  simp [-BitVec.getLsbD_eq_getElem, decodeFields, decodeMix, Encoded.fi, Encoded.plain, Fields.imm14, Fields.mb, Fields.fz, Encoded.srd, Encoded.swr]
theorem icmp (x : IcmpF) : Statement (.icmp x) := of_fields rfl fun hw _ => by
  simp [-BitVec.getLsbD_eq_getElem, decodeFields, decodeMix, Encoded.fi, Encoded.plain, Fields.imm14, Fields.mb, Fields.fz, Encoded.srd, Encoded.swr]
theorem fcmp (x : FcmpF) : Statement (.fcmp x) := of_fields rfl fun hw _ => by
  simp [-BitVec.getLsbD_eq_getElem, decodeFields, decodeMix, Encoded.fi, Encoded.plain, Fields.imm14, Fields.mb, Fields.fz, Encoded.srd, Encoded.swr]
theorem plop (x : PlopF) : Statement (.plop x) := of_fields rfl fun hw _ => by
  simp [-BitVec.getLsbD_eq_getElem, decodeFields, decodeMix, Encoded.fi, Encoded.plain, Fields.imm14, Fields.mb, Fields.fz, Encoded.srd, Encoded.swr]
theorem pmov (x : PmovF) : Statement (.pmov x) := by
  obtain ⟨tov, p, v⟩ := x
  cases tov
  · exact of_fields rfl fun _ _ => by simp [-BitVec.getLsbD_eq_getElem, decodeFields, decodeMix, Encoded.plain, Fields.mb]
  · exact of_fields rfl fun _ _ => by simp [-BitVec.getLsbD_eq_getElem, decodeFields, decodeMix, Encoded.plain, Fields.mb]
theorem pchk (x : PchkF) : Statement (.pchk x) := of_fields rfl fun hw _ => by
  simp [-BitVec.getLsbD_eq_getElem, decodeFields, decodeMix, Encoded.fi, Encoded.plain, Fields.imm14, Fields.mb, Fields.fz, Encoded.srd, Encoded.swr]
theorem iamin (x : Bx) : Statement (.iamin x) := of_fields rfl fun _ _ => form_bx x .iamin 0x2A
theorem famin (x : Fb) : Statement (.famin x) := of_fields rfl fun _ _ => form_fb x .famin 0x2B
theorem qmul (x : QmulF) : Statement (.qmul x) := of_fields rfl fun hw _ => by
  simp [-BitVec.getLsbD_eq_getElem, decodeFields, decodeMix, Encoded.fi, Encoded.plain, Fields.imm14, Fields.mb, Fields.fz, Encoded.srd, Encoded.swr]
theorem qshr (x : QshrF) : Statement (.qshr x) := of_fields rfl fun hw _ => by
  simp [-BitVec.getLsbD_eq_getElem, decodeFields, decodeMix, Encoded.fi, Encoded.plain, Fields.imm14, Fields.mb, Fields.fz, Encoded.srd, Encoded.swr]
theorem fadd (x : Fb) : Statement (.fadd x) := of_fields rfl fun _ _ => form_fb x .fadd 0x30
theorem fsub (x : Fb) : Statement (.fsub x) := of_fields rfl fun _ _ => form_fb x .fsub 0x31
theorem fmul (x : Fb) : Statement (.fmul x) := of_fields rfl fun _ _ => form_fb x .fmul 0x32
theorem ffma (x : Fb) : Statement (.ffma x) := of_fields rfl fun _ _ => form_fb x .ffma 0x33
theorem ffnma (x : Fb) : Statement (.ffnma x) := of_fields rfl fun _ _ => form_fb x .ffnma 0x34
theorem fmin (x : Fb) : Statement (.fmin x) := of_fields rfl fun _ _ => form_fb x .fmin 0x35
theorem fmax (x : Fb) : Statement (.fmax x) := of_fields rfl fun _ _ => form_fb x .fmax 0x36
theorem fsgn (x : FsgnF) : Statement (.fsgn x) := of_fields rfl fun hw _ => by
  simp [-BitVec.getLsbD_eq_getElem, decodeFields, decodeMix, Encoded.fi, Encoded.plain, Fields.imm14, Fields.mb, Fields.fz, Encoded.srd, Encoded.swr]
theorem fdiv (x : Fb) : Statement (.fdiv x) := of_fields rfl fun _ _ => form_fb x .fdiv 0x38
theorem fsqrt (x : Fu) : Statement (.fsqrt x) := of_fields rfl fun _ _ => form_fu x .fsqrt 0x39
theorem frcp (x : F1) : Statement (.frcp x) := of_fields rfl fun _ _ => form_f1 x .frcp 0x3A
theorem frsq (x : F1) : Statement (.frsq x) := of_fields rfl fun _ _ => form_f1 x .frsq 0x3B
theorem fex2 (x : F1) : Statement (.fex2 x) := of_fields rfl fun _ _ => form_f1 x .fex2 0x3C
theorem flg2 (x : F1) : Statement (.flg2 x) := of_fields rfl fun _ _ => form_f1 x .flg2 0x3D
theorem fsinp (x : F1) : Statement (.fsinp x) := of_fields rfl fun _ _ => form_f1 x .fsinp 0x3E
theorem fcosp (x : F1) : Statement (.fcosp x) := of_fields rfl fun _ _ => form_f1 x .fcosp 0x3F
theorem fclass (x : Fu) : Statement (.fclass x) := of_fields rfl fun _ _ => form_fu x .fclass 0x40
theorem fscale (x : Fb) : Statement (.fscale x) := of_fields rfl fun _ _ => form_fb x .fscale 0x41
theorem frnd (x : FrndF) : Statement (.frnd x) := of_fields rfl fun hw _ => by
  simp [-BitVec.getLsbD_eq_getElem, decodeFields, decodeMix, Encoded.fi, Encoded.plain, Fields.imm14, Fields.mb, Fields.fz, Encoded.srd, Encoded.swr]
theorem cvtif (x : CvtIntF) : Statement (.cvtif x) := of_fields rfl fun hw _ => by
  simp [-BitVec.getLsbD_eq_getElem, decodeFields, decodeMix, Encoded.fi, Encoded.plain, Fields.imm14, Fields.mb, Fields.fz, Encoded.srd, Encoded.swr]
theorem cvtfi (x : CvtIntF) : Statement (.cvtfi x) := of_fields rfl fun hw _ => by
  simp [-BitVec.getLsbD_eq_getElem, decodeFields, decodeMix, Encoded.fi, Encoded.plain, Fields.imm14, Fields.mb, Fields.fz, Encoded.srd, Encoded.swr]
theorem cvtff (x : CvtFFF) : Statement (.cvtff x) := of_fields rfl fun hw _ => by
  simp [-BitVec.getLsbD_eq_getElem, decodeFields, decodeMix, Encoded.fi, Encoded.plain, Fields.imm14, Fields.mb, Fields.fz, Encoded.srd, Encoded.swr]
theorem pack (x : PackF) : Statement (.pack x) := of_fields rfl fun hw _ => by
  simp [-BitVec.getLsbD_eq_getElem, decodeFields, decodeMix, Encoded.fi, Encoded.plain, Fields.imm14, Fields.mb, Fields.fz, Encoded.srd, Encoded.swr]
theorem unpk (x : UnpkF) : Statement (.unpk x) := of_fields rfl fun hw _ => by
  simp [-BitVec.getLsbD_eq_getElem, decodeFields, decodeMix, Encoded.fi, Encoded.plain, Fields.imm14, Fields.mb, Fields.fz, Encoded.srd, Encoded.swr]
theorem fdot2 (x : Dot2F) : Statement (.fdot2 x) := of_fields rfl fun hw _ => by
  simp [-BitVec.getLsbD_eq_getElem, decodeFields, decodeMix, Encoded.fi, Encoded.plain, Fields.imm14, Fields.mb, Fields.fz, Encoded.srd, Encoded.swr]
theorem lshuf (x : LaneF) : Statement (.lshuf x) := of_fields rfl fun _ _ => form_lane x .lshuf 0x50
theorem lshup (x : LaneF) : Statement (.lshup x) := of_fields rfl fun _ _ => form_lane x .lshup 0x51
theorem lshdn (x : LaneF) : Statement (.lshdn x) := of_fields rfl fun _ _ => form_lane x .lshdn 0x52
theorem lxor (x : LaneF) : Statement (.lxor x) := of_fields rfl fun _ _ => form_lane x .lxor 0x53
theorem lvote (x : LvoteF) : Statement (.lvote x) := of_fields rfl fun hw _ => by
  simp [-BitVec.getLsbD_eq_getElem, decodeFields, decodeMix, Encoded.fi, Encoded.plain, Fields.imm14, Fields.mb, Fields.fz, Encoded.srd, Encoded.swr]
theorem lball (x : LballF) : Statement (.lball x) := of_fields rfl fun hw _ => by
  simp [-BitVec.getLsbD_eq_getElem, decodeFields, decodeMix, Encoded.fi, Encoded.plain, Fields.imm14, Fields.mb, Fields.fz, Encoded.srd, Encoded.swr]
theorem lred (x : LredF) : Statement (.lred x) := of_fields rfl fun hw _ => by
  simp [-BitVec.getLsbD_eq_getElem, decodeFields, decodeMix, Encoded.fi, Encoded.plain, Fields.imm14, Fields.mb, Fields.fz, Encoded.srd, Encoded.swr]
theorem lscan (x : LredF) : Statement (.lscan x) := of_fields rfl fun hw _ => by
  simp [-BitVec.getLsbD_eq_getElem, decodeFields, decodeMix, Encoded.fi, Encoded.plain, Fields.imm14, Fields.mb, Fields.fz, Encoded.srd, Encoded.swr]
theorem lfirst (x : Un) : Statement (.lfirst x) := of_fields rfl fun _ _ => form_un x .lfirst 0x58
theorem br (off : BitVec 14) : Statement (.br off) := of_fields rfl fun hw _ => by
  simp [-BitVec.getLsbD_eq_getElem, decodeFields, decodeMix, Encoded.fi, Encoded.plain, Fields.imm14, Fields.mb, Fields.fz, Encoded.srd, Encoded.swr]
theorem brp (p : PReg) (off : BitVec 14) : Statement (.brp p off) := of_fields rfl fun hw _ => by
  simp [-BitVec.getLsbD_eq_getElem, decodeFields, decodeMix, Encoded.fi, Encoded.plain, Fields.imm14, Fields.mb, Fields.fz, Encoded.srd, Encoded.swr]
theorem brnp (p : PReg) (off : BitVec 14) : Statement (.brnp p off) := of_fields rfl fun hw _ => by
  simp [-BitVec.getLsbD_eq_getElem, decodeFields, decodeMix, Encoded.fi, Encoded.plain, Fields.imm14, Fields.mb, Fields.fz, Encoded.srd, Encoded.swr]
theorem jmp (target : Word) : Statement (.jmp target) := of_fields rfl fun hw _ => by
  simp [-BitVec.getLsbD_eq_getElem, decodeFields, decodeMix, Encoded.fi, Encoded.plain, Fields.imm14, Fields.mb, Fields.fz, Encoded.srd, Encoded.swr]
theorem jmpInd (a : VReg) : Statement (.jmpInd a) := of_fields rfl fun hw _ => by
  simp [-BitVec.getLsbD_eq_getElem, decodeFields, decodeMix, Encoded.fi, Encoded.plain, Fields.imm14, Fields.mb, Fields.fz, Encoded.srd, Encoded.swr]
theorem call (off : BitVec 14) : Statement (.call off) := of_fields rfl fun hw _ => by
  simp [-BitVec.getLsbD_eq_getElem, decodeFields, decodeMix, Encoded.fi, Encoded.plain, Fields.imm14, Fields.mb, Fields.fz, Encoded.srd, Encoded.swr]
theorem ret : Statement (.ret) := of_fields rfl fun hw _ => by
  simp [-BitVec.getLsbD_eq_getElem, decodeFields, decodeMix, Encoded.fi, Encoded.plain, Fields.imm14, Fields.mb, Fields.fz, Encoded.srd, Encoded.swr]
theorem exit : Statement (.exit) := of_fields rfl fun hw _ => by
  simp [-BitVec.getLsbD_eq_getElem, decodeFields, decodeMix, Encoded.fi, Encoded.plain, Fields.imm14, Fields.mb, Fields.fz, Encoded.srd, Encoded.swr]
theorem yield : Statement (.yield) := of_fields rfl fun hw _ => by
  simp [-BitVec.getLsbD_eq_getElem, decodeFields, decodeMix, Encoded.fi, Encoded.plain, Fields.imm14, Fields.mb, Fields.fz, Encoded.srd, Encoded.swr]
theorem nop : Statement (.nop) := of_fields rfl fun hw _ => by
  simp [-BitVec.getLsbD_eq_getElem, decodeFields, decodeMix, Encoded.fi, Encoded.plain, Fields.imm14, Fields.mb, Fields.fz, Encoded.srd, Encoded.swr]
theorem trap (code : BitVec 8) : Statement (.trap code) := of_fields rfl fun hw _ => by
  simp [-BitVec.getLsbD_eq_getElem, decodeFields, decodeMix, Encoded.fi, Encoded.plain, Fields.imm14, Fields.mb, Fields.fz, Encoded.srd, Encoded.swr]
theorem bkpt (code : BitVec 8) : Statement (.bkpt code) := of_fields rfl fun hw _ => by
  simp [-BitVec.getLsbD_eq_getElem, decodeFields, decodeMix, Encoded.fi, Encoded.plain, Fields.imm14, Fields.mb, Fields.fz, Encoded.srd, Encoded.swr]
theorem getfc (d : VReg) : Statement (.getfc d) := of_fields rfl fun hw _ => by
  simp [-BitVec.getLsbD_eq_getElem, decodeFields, decodeMix, Encoded.fi, Encoded.plain, Fields.imm14, Fields.mb, Fields.fz, Encoded.srd, Encoded.swr]
theorem setfc (b : Src) : Statement (.setfc b) := of_fields rfl fun hw _ => by
  simp [-BitVec.getLsbD_eq_getElem, decodeFields, decodeMix, Encoded.fi, Encoded.plain, Fields.imm14, Fields.mb, Fields.fz, Encoded.srd, Encoded.swr]
theorem ld (x : LsF) : Statement (.ld x) := of_fields rfl fun _ _ => form_ls x .ld 0x00
theorem st (x : LsF) : Statement (.st x) := of_fields rfl fun _ _ => form_ls x .st 0x01
theorem ldacq (x : LsF) : Statement (.ldacq x) := of_fields rfl fun _ _ => form_ls x .ldacq 0x02
theorem strel (x : LsF) : Statement (.strel x) := of_fields rfl fun _ _ => form_ls x .strel 0x03
theorem pref (x : PrefF) : Statement (.pref x) := of_fields rfl fun hw _ => by
  simp [-BitVec.getLsbD_eq_getElem, decodeFields, decodeMem, Encoded.fi, Encoded.plain, Fields.imm14, Fields.mb, Fields.fz, Encoded.srd, Encoded.swr]
theorem fence (scope : Sc) : Statement (.fence scope) := of_fields rfl fun hw _ => by
  simp [-BitVec.getLsbD_eq_getElem, decodeFields, decodeMem, Encoded.fi, Encoded.plain, Fields.imm14, Fields.mb, Fields.fz, Encoded.srd, Encoded.swr]
theorem xst (x : LsF) : Statement (.xst x) := of_fields rfl fun _ _ => form_ls x .xst 0x06
theorem aadd (x : AtF) : Statement (.aadd x) := of_fields rfl fun _ _ => form_at x .aadd 0x08
theorem amin (x : AtF) : Statement (.amin x) := of_fields rfl fun _ _ => form_at x .amin 0x09
theorem amax (x : AtF) : Statement (.amax x) := of_fields rfl fun _ _ => form_at x .amax 0x0A
theorem aand (x : AtF) : Statement (.aand x) := of_fields rfl fun _ _ => form_at x .aand 0x0B
theorem aor (x : AtF) : Statement (.aor x) := of_fields rfl fun _ _ => form_at x .aor 0x0C
theorem axor (x : AtF) : Statement (.axor x) := of_fields rfl fun _ _ => form_at x .axor 0x0D
theorem axch (x : AtF) : Statement (.axch x) := of_fields rfl fun _ _ => form_at x .axch 0x0E
theorem acas (x : AtF) : Statement (.acas x) := of_fields rfl fun _ _ => form_at x .acas 0x0F
theorem afadd (x : AtF) : Statement (.afadd x) := of_fields rfl fun _ _ => form_at x .afadd 0x10
theorem ldw (x : LdwF) : Statement (.ldw x) := of_fields rfl fun hw _ => by
  simp [-BitVec.getLsbD_eq_getElem, decodeFields, decodeMtx, Encoded.fi, Encoded.plain, Fields.imm14, Fields.mb, Fields.fz, Encoded.srd, Encoded.swr]
theorem wflip : Statement (.wflip) := of_fields rfl fun hw _ => by
  simp [-BitVec.getLsbD_eq_getElem, decodeFields, decodeMtx, Encoded.fi, Encoded.plain, Fields.imm14, Fields.mb, Fields.fz, Encoded.srd, Encoded.swr]
theorem mma (x : MmaF) : Statement (.mma x) := of_fields rfl fun hw _ => by
  simp [-BitVec.getLsbD_eq_getElem, decodeFields, decodeMtx, Encoded.fi, Encoded.plain, Fields.imm14, Fields.mb, Fields.fz, Encoded.srd, Encoded.swr]
theorem mmas (x : MmasF) : Statement (.mmas x) := of_fields rfl fun hw _ => by
  simp [-BitVec.getLsbD_eq_getElem, decodeFields, decodeMtx, Encoded.fi, Encoded.plain, Fields.imm14, Fields.mb, Fields.fz, Encoded.srd, Encoded.swr]
theorem drain (x : DrainF) : Statement (.drain x) := of_fields rfl fun hw _ => by
  simp [-BitVec.getLsbD_eq_getElem, decodeFields, decodeMtx, Encoded.fi, Encoded.plain, Fields.imm14, Fields.mb, Fields.fz, Encoded.srd, Encoded.swr]
theorem drainByp (x : DrainBypF) : Statement (.drainByp x) := by
  obtain ⟨rq, t, b⟩ := x
  cases rq
  · exact of_fields rfl fun _ _ => by simp [-BitVec.getLsbD_eq_getElem, decodeFields, decodeMtx, Encoded.plain, toMFmt]
  · exact of_fields rfl fun _ _ => by simp [-BitVec.getLsbD_eq_getElem, decodeFields, decodeMtx, Encoded.plain, toMFmt]
theorem accz (t : TReg) : Statement (.accz t) := of_fields rfl fun hw _ => by
  simp [-BitVec.getLsbD_eq_getElem, decodeFields, decodeMtx, Encoded.fi, Encoded.plain, Fields.imm14, Fields.mb, Fields.fz, Encoded.srd, Encoded.swr]
theorem accrd (x : AccF) : Statement (.accrd x) := of_fields rfl fun hw _ => by
  simp [-BitVec.getLsbD_eq_getElem, decodeFields, decodeMtx, Encoded.fi, Encoded.plain, Fields.imm14, Fields.mb, Fields.fz, Encoded.srd, Encoded.swr]
theorem accwr (x : AccF) : Statement (.accwr x) := of_fields rfl fun hw _ => by
  simp [-BitVec.getLsbD_eq_getElem, decodeFields, decodeMtx, Encoded.fi, Encoded.plain, Fields.imm14, Fields.mb, Fields.fz, Encoded.srd, Encoded.swr]
theorem mstat (d : SReg) (sel : BitVec 2) : Statement (.mstat d sel) := of_fields rfl fun hw _ => by
  simp [-BitVec.getLsbD_eq_getElem, decodeFields, decodeMtx, Encoded.fi, Encoded.plain, Fields.imm14, Fields.mb, Fields.fz, Encoded.srd, Encoded.swr]
theorem copy (x : CopyF) : Statement (.copy x) := of_fields rfl fun hw _ => by
  simp [-BitVec.getLsbD_eq_getElem, decodeFields, decodeEng, Encoded.fi, Encoded.plain, Fields.imm14, Fields.mb, Fields.fz, Encoded.srd, Encoded.swr]
theorem copyl (x : CopylF) : Statement (.copyl x) := of_fields rfl fun hw _ => by
  simp [-BitVec.getLsbD_eq_getElem, decodeFields, decodeEng, Encoded.fi, Encoded.plain, Fields.imm14, Fields.mb, Fields.fz, Encoded.srd, Encoded.swr]
theorem copyr (x : CopyrF) : Statement (.copyr x) := of_fields rfl fun hw _ => by
  simp [-BitVec.getLsbD_eq_getElem, decodeFields, decodeEng, Encoded.fi, Encoded.plain, Fields.imm14, Fields.mb, Fields.fz, Encoded.srd, Encoded.swr]
theorem wait (k : KReg) : Statement (.wait k) := of_fields rfl fun hw _ => by
  simp [-BitVec.getLsbD_eq_getElem, decodeFields, decodeEng, Encoded.fi, Encoded.plain, Fields.imm14, Fields.mb, Fields.fz, Encoded.srd, Encoded.swr]
theorem tstat (d : VReg) (k : KReg) : Statement (.tstat d k) := of_fields rfl fun hw _ => by
  simp [-BitVec.getLsbD_eq_getElem, decodeFields, decodeEng, Encoded.fi, Encoded.plain, Fields.imm14, Fields.mb, Fields.fz, Encoded.srd, Encoded.swr]
theorem cwp (d : VReg) (k : KReg) : Statement (.cwp d k) := of_fields rfl fun hw _ => by
  simp [-BitVec.getLsbD_eq_getElem, decodeFields, decodeEng, Encoded.fi, Encoded.plain, Fields.imm14, Fields.mb, Fields.fz, Encoded.srd, Encoded.swr]
theorem tdef (a : SReg) (r : RecN) : Statement (.tdef a r) := of_fields rfl fun hw _ => by
  simp [-BitVec.getLsbD_eq_getElem, decodeFields, decodeEng, Encoded.fi, Encoded.plain, Fields.imm14, Fields.mb, Fields.fz, Encoded.srd, Encoded.swr]
theorem tget (a : SReg) (r : RecN) : Statement (.tget a r) := of_fields rfl fun hw _ => by
  simp [-BitVec.getLsbD_eq_getElem, decodeFields, decodeEng, Encoded.fi, Encoded.plain, Fields.imm14, Fields.mb, Fields.fz, Encoded.srd, Encoded.swr]
theorem qpush (q : QReg) (a : VReg) : Statement (.qpush q a) := of_fields rfl fun hw _ => by
  simp [-BitVec.getLsbD_eq_getElem, decodeFields, decodeEng, Encoded.fi, Encoded.plain, Fields.imm14, Fields.mb, Fields.fz, Encoded.srd, Encoded.swr]
theorem qpop (d : VReg) (q : QReg) (p : PReg) : Statement (.qpop d q p) := of_fields rfl fun hw _ => by
  simp [-BitVec.getLsbD_eq_getElem, decodeFields, decodeEng, Encoded.fi, Encoded.plain, Fields.imm14, Fields.mb, Fields.fz, Encoded.srd, Encoded.swr]
theorem qpeek (d : VReg) (q : QReg) (p : PReg) : Statement (.qpeek d q p) := of_fields rfl fun hw _ => by
  simp [-BitVec.getLsbD_eq_getElem, decodeFields, decodeEng, Encoded.fi, Encoded.plain, Fields.imm14, Fields.mb, Fields.fz, Encoded.srd, Encoded.swr]
theorem qstat (d : SReg) (a : SReg) : Statement (.qstat d a) := of_fields rfl fun hw _ => by
  simp [-BitVec.getLsbD_eq_getElem, decodeFields, decodeEng, Encoded.fi, Encoded.plain, Fields.imm14, Fields.mb, Fields.fz, Encoded.srd, Encoded.swr]
theorem qflush (a : SReg) : Statement (.qflush a) := of_fields rfl fun hw _ => by
  simp [-BitVec.getLsbD_eq_getElem, decodeFields, decodeEng, Encoded.fi, Encoded.plain, Fields.imm14, Fields.mb, Fields.fz, Encoded.srd, Encoded.swr]
theorem spawn (q : QReg) (a : SReg) : Statement (.spawn q a) := of_fields rfl fun hw _ => by
  simp [-BitVec.getLsbD_eq_getElem, decodeFields, decodeEng, Encoded.fi, Encoded.plain, Fields.imm14, Fields.mb, Fields.fz, Encoded.srd, Encoded.swr]
theorem glaunch (q : QReg) (a : SReg) : Statement (.glaunch q a) := of_fields rfl fun hw _ => by
  simp [-BitVec.getLsbD_eq_getElem, decodeFields, decodeEng, Encoded.fi, Encoded.plain, Fields.imm14, Fields.mb, Fields.fz, Encoded.srd, Encoded.swr]
theorem gedit (d : SReg) (a : SReg) (b : SReg) : Statement (.gedit d a b) := of_fields rfl fun hw _ => by
  simp [-BitVec.getLsbD_eq_getElem, decodeFields, decodeEng, Encoded.fi, Encoded.plain, Fields.imm14, Fields.mb, Fields.fz, Encoded.srd, Encoded.swr]
theorem capp (q : QReg) (a : VReg) : Statement (.capp q a) := of_fields rfl fun hw _ => by
  simp [-BitVec.getLsbD_eq_getElem, decodeFields, decodeEng, Encoded.fi, Encoded.plain, Fields.imm14, Fields.mb, Fields.fz, Encoded.srd, Encoded.swr]
theorem quiesce (a : SReg) : Statement (.quiesce a) := of_fields rfl fun hw _ => by
  simp [-BitVec.getLsbD_eq_getElem, decodeFields, decodeEng, Encoded.fi, Encoded.plain, Fields.imm14, Fields.mb, Fields.fz, Encoded.srd, Encoded.swr]
theorem cabort (k : KReg) : Statement (.cabort k) := of_fields rfl fun hw _ => by
  simp [-BitVec.getLsbD_eq_getElem, decodeFields, decodeEng, Encoded.fi, Encoded.plain, Fields.imm14, Fields.mb, Fields.fz, Encoded.srd, Encoded.swr]
theorem fxfer (d : VReg) (r : RecN) (b : VReg) : Statement (.fxfer d r b) := of_fields rfl fun hw _ => by
  simp [-BitVec.getLsbD_eq_getElem, decodeFields, decodeFld, Encoded.fi, Encoded.plain, Fields.imm14, Fields.mb, Fields.fz, Encoded.srd, Encoded.swr]
theorem fxferw (p : PReg) (d : VReg) (r : RecN) (b : VReg) : Statement (.fxferw p d r b) := of_fields rfl fun hw _ => by
  simp [-BitVec.getLsbD_eq_getElem, decodeFields, decodeFld, Encoded.fi, Encoded.plain, Fields.imm14, Fields.mb, Fields.fz, Encoded.srd, Encoded.swr]
theorem ftot (d : SReg) (a : SReg) : Statement (.ftot d a) := of_fields rfl fun hw _ => by
  simp [-BitVec.getLsbD_eq_getElem, decodeFields, decodeFld, Encoded.fi, Encoded.plain, Fields.imm14, Fields.mb, Fields.fz, Encoded.srd, Encoded.swr]
theorem fstat (d : SReg) (a : SReg) (sel : BitVec 3) : Statement (.fstat d a sel) := of_fields rfl fun hw _ => by
  simp [-BitVec.getLsbD_eq_getElem, decodeFields, decodeFld, Encoded.fi, Encoded.plain, Fields.imm14, Fields.mb, Fields.fz, Encoded.srd, Encoded.swr]
theorem fdom (d : SReg) (r : RecN) : Statement (.fdom d r) := of_fields rfl fun hw _ => by
  simp [-BitVec.getLsbD_eq_getElem, decodeFields, decodeFld, Encoded.fi, Encoded.plain, Fields.imm14, Fields.mb, Fields.fz, Encoded.srd, Encoded.swr]
theorem fdecl (a : SReg) (r : RecN) : Statement (.fdecl a r) := of_fields rfl fun hw _ => by
  simp [-BitVec.getLsbD_eq_getElem, decodeFields, decodeFld, Encoded.fi, Encoded.plain, Fields.imm14, Fields.mb, Fields.fz, Encoded.srd, Encoded.swr]
theorem flink (a : SReg) (b : SReg) : Statement (.flink a b) := of_fields rfl fun hw _ => by
  simp [-BitVec.getLsbD_eq_getElem, decodeFields, decodeFld, Encoded.fi, Encoded.plain, Fields.imm14, Fields.mb, Fields.fz, Encoded.srd, Encoded.swr]
theorem fclose (a : SReg) : Statement (.fclose a) := of_fields rfl fun hw _ => by
  simp [-BitVec.getLsbD_eq_getElem, decodeFields, decodeFld, Encoded.fi, Encoded.plain, Fields.imm14, Fields.mb, Fields.fz, Encoded.srd, Encoded.swr]
theorem frecl (a : SReg) (b : SReg) : Statement (.frecl a b) := of_fields rfl fun hw _ => by
  simp [-BitVec.getLsbD_eq_getElem, decodeFields, decodeFld, Encoded.fi, Encoded.plain, Fields.imm14, Fields.mb, Fields.fz, Encoded.srd, Encoded.swr]
theorem bar (b : BReg) : Statement (.bar b) := of_fields rfl fun hw _ => by
  simp [-BitVec.getLsbD_eq_getElem, decodeFields, decodeSyn, Encoded.fi, Encoded.plain, Fields.imm14, Fields.mb, Fields.fz, Encoded.srd, Encoded.swr]
theorem bara (b : BReg) : Statement (.bara b) := of_fields rfl fun hw _ => by
  simp [-BitVec.getLsbD_eq_getElem, decodeFields, decodeSyn, Encoded.fi, Encoded.plain, Fields.imm14, Fields.mb, Fields.fz, Encoded.srd, Encoded.swr]
theorem barw (b : BReg) : Statement (.barw b) := of_fields rfl fun hw _ => by
  simp [-BitVec.getLsbD_eq_getElem, decodeFields, decodeSyn, Encoded.fi, Encoded.plain, Fields.imm14, Fields.mb, Fields.fz, Encoded.srd, Encoded.swr]
theorem bart (b : BReg) (a : SReg) (p : PReg) : Statement (.bart b a p) := of_fields rfl fun hw _ => by
  simp [-BitVec.getLsbD_eq_getElem, decodeFields, decodeSyn, Encoded.fi, Encoded.plain, Fields.imm14, Fields.mb, Fields.fz, Encoded.srd, Encoded.swr]
theorem gbar : Statement (.gbar) := of_fields rfl fun hw _ => by
  simp [-BitVec.getLsbD_eq_getElem, decodeFields, decodeSyn, Encoded.fi, Encoded.plain, Fields.imm14, Fields.mb, Fields.fz, Encoded.srd, Encoded.swr]
theorem xjoin (d : SReg) (a : SReg) : Statement (.xjoin d a) := of_fields rfl fun hw _ => by
  simp [-BitVec.getLsbD_eq_getElem, decodeFields, decodeSyn, Encoded.fi, Encoded.plain, Fields.imm14, Fields.mb, Fields.fz, Encoded.srd, Encoded.swr]
theorem xleave (a : SReg) : Statement (.xleave a) := of_fields rfl fun hw _ => by
  simp [-BitVec.getLsbD_eq_getElem, decodeFields, decodeSyn, Encoded.fi, Encoded.plain, Fields.imm14, Fields.mb, Fields.fz, Encoded.srd, Encoded.swr]
theorem xbar : Statement (.xbar) := of_fields rfl fun hw _ => by
  simp [-BitVec.getLsbD_eq_getElem, decodeFields, decodeSyn, Encoded.fi, Encoded.plain, Fields.imm14, Fields.mb, Fields.fz, Encoded.srd, Encoded.swr]
theorem waitm (x : WaitmF) : Statement (.waitm x) := of_fields rfl fun hw _ => by
  simp [-BitVec.getLsbD_eq_getElem, decodeFields, decodeSyn, Encoded.fi, Encoded.plain, Fields.imm14, Fields.mb, Fields.fz, Encoded.srd, Encoded.swr]
theorem csig (x : CsigF) : Statement (.csig x) := of_fields rfl fun hw _ => by
  simp [-BitVec.getLsbD_eq_getElem, decodeFields, decodeSyn, Encoded.fi, Encoded.plain, Fields.imm14, Fields.mb, Fields.fz, Encoded.srd, Encoded.swr]
theorem slide (fret : BitVec 8) : Statement (.slide fret) := of_fields rfl fun hw _ => by
  simp [-BitVec.getLsbD_eq_getElem, decodeFields, decodeSyn, Encoded.fi, Encoded.plain, Fields.imm14, Fields.mb, Fields.fz, Encoded.srd, Encoded.swr]
theorem srd (x : SrdF) : Statement (.srd x) := of_fields rfl fun hw _ => by
  simp [-BitVec.getLsbD_eq_getElem, decodeFields, decodeSys, Encoded.srd]
  exact srd_srd x hw
theorem swr (x : SwrF) : Statement (.swr x) := of_fields rfl fun hw _ => by
  simp [-BitVec.getLsbD_eq_getElem, decodeFields, decodeSys, Encoded.swr]
  exact swr_swr x hw
theorem ctxset (x : SwrF) : Statement (.ctxset x) := of_fields rfl fun hw _ => by
  simp [-BitVec.getLsbD_eq_getElem, decodeFields, decodeSys, Encoded.swr]
  exact swr_ctxset x hw
theorem cmaskWrite (x : SwrF) : Statement (.cmaskWrite x) := of_fields rfl fun hw _ => by
  simp [-BitVec.getLsbD_eq_getElem, decodeFields, decodeSys, Encoded.swr]
  exact swr_cmaskWrite x hw
theorem rgnrst (x : SwrF) : Statement (.rgnrst x) := of_fields rfl fun hw _ => by
  simp [-BitVec.getLsbD_eq_getElem, decodeFields, decodeSys, Encoded.swr]
  exact swr_rgnrst x hw
theorem ctlcmd (x : SwrF) : Statement (.ctlcmd x) := of_fields rfl fun hw _ => by
  simp [-BitVec.getLsbD_eq_getElem, decodeFields, decodeSys, Encoded.swr]
  exact swr_ctlcmd x hw
theorem qcmdCreate (x : SwrF) : Statement (.qcmdCreate x) := of_none rfl
theorem qcmdDestroy (x : SwrF) : Statement (.qcmdDestroy x) := of_none rfl
theorem qbudget (x : SwrF) : Statement (.qbudget x) := of_fields rfl fun hw _ => by
  simp [-BitVec.getLsbD_eq_getElem, decodeFields, decodeSys, Encoded.swr]
  exact swr_qbudget x hw
theorem qlate (x : SwrF) : Statement (.qlate x) := of_fields rfl fun hw _ => by
  simp [-BitVec.getLsbD_eq_getElem, decodeFields, decodeSys, Encoded.swr]
  exact swr_qlate x hw
theorem pagecfg (x : SwrF) : Statement (.pagecfg x) := of_fields rfl fun hw _ => by
  simp [-BitVec.getLsbD_eq_getElem, decodeFields, decodeSys, Encoded.swr]
  exact swr_pagecfg x hw
theorem frmpush (x : SwrF) : Statement (.frmpush x) := of_fields rfl fun hw _ => by
  simp [-BitVec.getLsbD_eq_getElem, decodeFields, decodeSys, Encoded.swr]
  exact swr_frmpush x hw
theorem partmask (x : SwrF) : Statement (.partmask x) := of_fields rfl fun hw _ => by
  simp [-BitVec.getLsbD_eq_getElem, decodeFields, decodeSys, Encoded.swr]
  exact swr_partmask x hw
theorem hqpop (x : SrdF) : Statement (.hqpop x) := of_fields rfl fun hw _ => by
  simp [-BitVec.getLsbD_eq_getElem, decodeFields, decodeSys, Encoded.srd]
  exact srd_hqpop x hw
theorem bsave (r : RecN) : Statement (.bsave r) := of_fields rfl fun hw _ => by
  simp [-BitVec.getLsbD_eq_getElem, decodeFields, decodeSys, Encoded.fi, Encoded.plain, Fields.imm14, Fields.mb, Fields.fz, Encoded.srd, Encoded.swr]
theorem brst (r : RecN) : Statement (.brst r) := of_fields rfl fun hw _ => by
  simp [-BitVec.getLsbD_eq_getElem, decodeFields, decodeSys, Encoded.fi, Encoded.plain, Fields.imm14, Fields.mb, Fields.fz, Encoded.srd, Encoded.swr]
theorem csave (a : SReg) (r : RecN) : Statement (.csave a r) := of_fields rfl fun hw _ => by
  simp [-BitVec.getLsbD_eq_getElem, decodeFields, decodeSys, Encoded.fi, Encoded.plain, Fields.imm14, Fields.mb, Fields.fz, Encoded.srd, Encoded.swr]
theorem crst (a : SReg) (r : RecN) : Statement (.crst a r) := of_fields rfl fun hw _ => by
  simp [-BitVec.getLsbD_eq_getElem, decodeFields, decodeSys, Encoded.fi, Encoded.plain, Fields.imm14, Fields.mb, Fields.fz, Encoded.srd, Encoded.swr]
theorem fmapw (a : SReg) (r : RecN) : Statement (.fmapw a r) := of_fields rfl fun hw _ => by
  simp [-BitVec.getLsbD_eq_getElem, decodeFields, decodeSys, Encoded.fi, Encoded.plain, Fields.imm14, Fields.mb, Fields.fz, Encoded.srd, Encoded.swr]
theorem tlbiPage (a : SReg) : Statement (.tlbiPage a) := of_fields rfl fun hw _ => by
  simp [-BitVec.getLsbD_eq_getElem, decodeFields, decodeSys, Encoded.fi, Encoded.plain, Fields.imm14, Fields.mb, Fields.fz, Encoded.srd, Encoded.swr]
theorem rngw (a : SReg) (r : RecN) : Statement (.rngw a r) := of_fields rfl fun hw _ => by
  simp [-BitVec.getLsbD_eq_getElem, decodeFields, decodeSys, Encoded.fi, Encoded.plain, Fields.imm14, Fields.mb, Fields.fz, Encoded.srd, Encoded.swr]
theorem pgmig (a : SReg) (b : SReg) : Statement (.pgmig a b) := of_fields rfl fun hw _ => by
  simp [-BitVec.getLsbD_eq_getElem, decodeFields, decodeSys, Encoded.fi, Encoded.plain, Fields.imm14, Fields.mb, Fields.fz, Encoded.srd, Encoded.swr]
theorem pgpin (a : SReg) : Statement (.pgpin a) := of_fields rfl fun hw _ => by
  simp [-BitVec.getLsbD_eq_getElem, decodeFields, decodeSys, Encoded.fi, Encoded.plain, Fields.imm14, Fields.mb, Fields.fz, Encoded.srd, Encoded.swr]
theorem pgpinUnpin (a : SReg) : Statement (.pgpinUnpin a) := of_fields rfl fun hw _ => by
  simp [-BitVec.getLsbD_eq_getElem, decodeFields, decodeSys, Encoded.fi, Encoded.plain, Fields.imm14, Fields.mb, Fields.fz, Encoded.srd, Encoded.swr]
theorem wcall (service : BitVec 8) : Statement (.wcall service) := of_fields rfl fun hw _ => by
  simp [-BitVec.getLsbD_eq_getElem, decodeFields, decodeSys, Encoded.fi, Encoded.plain, Fields.imm14, Fields.mb, Fields.fz, Encoded.srd, Encoded.swr]
theorem ucnt (r : RecN) : Statement (.ucnt r) := of_fields rfl fun hw _ => by
  simp [-BitVec.getLsbD_eq_getElem, decodeFields, decodeSys, Encoded.fi, Encoded.plain, Fields.imm14, Fields.mb, Fields.fz, Encoded.srd, Encoded.swr]
theorem counterPromotion (gid : Nat) (pc : Word) : Statement (.counterPromotion gid pc) := of_none rfl
theorem clauseEntry (gid : Nat) (pc : Word) : Statement (.clauseEntry gid pc) := of_none rfl
theorem clauseWaitMet (gid : Nat) (pc : Word) : Statement (.clauseWaitMet gid pc) := of_none rfl
theorem registerReplay (gid : Nat) : Statement (.registerReplay gid) := of_none rfl
theorem loadReturn (id : Nat) : Statement (.loadReturn id) := of_none rfl
theorem storeAck (id : Nat) : Statement (.storeAck id) := of_none rfl
theorem atomicApply (id : Nat) : Statement (.atomicApply id) := of_none rfl
theorem detectorStallTimeout (gid : Nat) : Statement (.detectorStallTimeout gid) := of_none rfl
theorem detectorEntryRetire (n : Nat) : Statement (.detectorEntryRetire n) := of_none rfl
theorem replicaCommit (id : Nat) : Statement (.replicaCommit id) := of_none rfl
theorem packetServe (slice : Nat) : Statement (.packetServe slice) := of_none rfl
theorem bartTimeout (gid : Nat) (lane : Nat) : Statement (.bartTimeout gid lane) := of_none rfl
theorem waitmWake (gid : Nat) (lane : Nat) : Statement (.waitmWake gid lane) := of_none rfl
theorem waitmTimeout (gid : Nat) (lane : Nat) : Statement (.waitmTimeout gid lane) := of_none rfl
theorem xchangeBoundary (ctx : Nat) (grp : Nat) : Statement (.xchangeBoundary ctx grp) := of_none rfl
theorem copyWriteAck (id : Nat) : Statement (.copyWriteAck id) := of_none rfl
theorem copyrSeqRetire (slice : Nat) (ctx : Nat) (region : Nat) : Statement (.copyrSeqRetire slice ctx region) := of_none rfl
theorem copyrGapTimeout (slice : Nat) (ctx : Nat) (region : Nat) : Statement (.copyrGapTimeout slice ctx region) := of_none rfl
theorem arrayExecute (core : Nat) : Statement (.arrayExecute core) := of_none rfl
theorem preempt (gang : Nat) : Statement (.preempt gang) := of_none rfl
theorem preemptLoadTimeout (gang : Nat) : Statement (.preemptLoadTimeout gang) := of_none rfl
theorem saveComplete (gang : Nat) : Statement (.saveComplete gang) := of_none rfl
theorem restore (gang : Nat) : Statement (.restore gang) := of_none rfl
theorem residentRelaunch (ctx : Nat) : Statement (.residentRelaunch ctx) := of_none rfl
theorem contextAbsent (ctx : Nat) : Statement (.contextAbsent ctx) := of_none rfl
theorem queueWaitPoll (queue : Nat) (n : Nat) (value : Option (BitVec 64)) : Statement (.queueWaitPoll queue n value) := of_none rfl
theorem queueEntryStart (queue : Nat) : Statement (.queueEntryStart queue) := of_none rfl
theorem queueEntryComplete (queue : Nat) : Statement (.queueEntryComplete queue) := of_none rfl
theorem signalAck (queue : Nat) : Statement (.signalAck queue) := of_none rfl
theorem quantumPreempt (ctx : Nat) : Statement (.quantumPreempt ctx) := of_none rfl
theorem gangRetire (gang : Nat) : Statement (.gangRetire gang) := of_none rfl
theorem workgroupDone (wg : Nat) : Statement (.workgroupDone wg) := of_none rfl
theorem nodeStart (launch : Nat) : Statement (.nodeStart launch) := of_none rfl
theorem graphLaunchComplete (launch : Nat) : Statement (.graphLaunchComplete launch) := of_none rfl
theorem terminationDetect (ctx : Nat) (lists : List Nat) : Statement (.terminationDetect ctx lists) := of_none rfl
theorem fxferApply (id : Nat) : Statement (.fxferApply id) := of_none rfl
theorem fxferCredit (id : Nat) : Statement (.fxferCredit id) := of_none rfl
theorem domainAbsent (dom : Nat) : Statement (.domainAbsent dom) := of_none rfl
theorem migrationStart (ctx : Nat) (page : Nat) (peer : Nat) : Statement (.migrationStart ctx page peer) := of_none rfl
theorem stubRelay (ctx : Nat) (page : Nat) : Statement (.stubRelay ctx page) := of_none rfl
theorem stubExpiry (ctx : Nat) (page : Nat) : Statement (.stubExpiry ctx page) := of_none rfl
theorem stubRetireDone (ctx : Nat) (page : Nat) : Statement (.stubRetireDone ctx page) := of_none rfl
theorem windowEnd (ctx : Nat) (page : Nat) : Statement (.windowEnd ctx page) := of_none rfl
theorem linkTrainTimeout (link : Nat) : Statement (.linkTrainTimeout link) := of_none rfl
theorem fabricTimeout (peer : Nat) : Statement (.fabricTimeout peer) := of_none rfl
theorem slideStart (sweep : Nat) : Statement (.slideStart sweep) := of_none rfl
theorem slideArrival (stn : Nat) : Statement (.slideArrival stn) := of_none rfl
theorem spillAck (fret : Nat) (n : Nat) : Statement (.spillAck fret n) := of_none rfl
theorem ringTake (fret : Nat) (replica : Nat) : Statement (.ringTake fret replica) := of_none rfl
theorem groupForm (core : Nat) : Statement (.groupForm core) := of_none rfl
theorem regroupTimeout (core : Nat) (stn : Nat) : Statement (.regroupTimeout core stn) := of_none rfl
theorem epochClose (wg : Nat) : Statement (.epochClose wg) := of_none rfl
theorem entryRelease (sweep : Nat) : Statement (.entryRelease sweep) := of_none rfl
theorem digestCompare (gang : Nat) : Statement (.digestCompare gang) := of_none rfl
theorem idleTimeout (gid : Nat) (lane : Nat) : Statement (.idleTimeout gid lane) := of_none rfl
theorem stubRetireAckTimeout (ctx : Nat) (page : Nat) (peer : Nat) : Statement (.stubRetireAckTimeout ctx page peer) := of_none rfl
theorem ucntSignDone (ctx : Nat) : Statement (.ucntSignDone ctx) := of_none rfl
theorem replicaLock (ctx : Nat) (va : Nat) : Statement (.replicaLock ctx va) := of_none rfl
theorem replicaUpdate (ctx : Nat) (va : Nat) (data : List Byte) : Statement (.replicaUpdate ctx va data) := of_none rfl
theorem replicaReadTimeout (id : Nat) (data : List Byte) : Statement (.replicaReadTimeout id data) := of_none rfl
theorem replicaFill (id : Nat) (data : List Byte) : Statement (.replicaFill id data) := of_none rfl
theorem diePortRead (slice : Nat) (chan : Nat) (sector : DieSpan) : Statement (.diePortRead slice chan sector) := of_none rfl
theorem diePortWrite (slice : Nat) (chan : Nat) (sector : DieSpan) (enables : BitVec 128) : Statement (.diePortWrite slice chan sector enables) := of_none rfl
theorem diePortReply (slice : Nat) (chan : Nat) (tag : Nat) : Statement (.diePortReply slice chan tag) := of_none rfl
theorem mailboxSlotWrite (ctx : Nat) (off : Nat) (data : List Byte) : Statement (.mailboxSlotWrite ctx off data) := of_none rfl
theorem mailboxMessage (ctx : Nat) (slot : Nat) (control : Word) : Statement (.mailboxMessage ctx slot control) := of_none rfl
theorem fieldCredit (c : CreditMsg) : Statement (.fieldCredit c) := of_none rfl
theorem fieldAck (id : Nat) : Statement (.fieldAck id) := of_none rfl
theorem fieldNack (id : Nat) : Statement (.fieldNack id) := of_none rfl
theorem pageWalk (core : Nat) (ctx : Nat) (va : Nat) : Statement (.pageWalk core ctx va) := of_none rfl
theorem pageCopyReceive (m : PageCopyMsg) : Statement (.pageCopyReceive m) := of_none rfl
theorem homeUpdate (ctx : Nat) (page : Nat) (owner : Nat) : Statement (.homeUpdate ctx page owner) := of_none rfl
theorem migrationCommit (ctx : Nat) (page : Nat) : Statement (.migrationCommit ctx page) := of_none rfl
theorem migrationRefused (ctx : Nat) (page : Nat) : Statement (.migrationRefused ctx page) := of_none rfl
theorem redirect (ctx : Nat) (page : Nat) (owner : Nat) (count : Nat) : Statement (.redirect ctx page owner count) := of_none rfl
theorem nackRefresh (id : Nat) : Statement (.nackRefresh id) := of_none rfl
theorem ownerRefreshAnswer (ctx : Nat) (page : Nat) (owner : Nat) : Statement (.ownerRefreshAnswer ctx page owner) := of_none rfl
theorem stubRetire (ctx : Nat) (page : Nat) (owner : Nat) : Statement (.stubRetire ctx page owner) := of_none rfl
theorem linkTrainingLock (link : Nat) : Statement (.linkTrainingLock link) := of_none rfl
theorem laneLoss (link : Nat) : Statement (.laneLoss link) := of_none rfl
theorem packetReceive (link : Nat) (p : Packet) (tagOk : BitVec 64) : Statement (.packetReceive link p tagOk) := of_none rfl
theorem linkReplay (link : Nak) : Statement (.linkReplay link) := of_none rfl
theorem faaCombine (i : Nat) (j : Nat) : Statement (.faaCombine i j) := of_none rfl
theorem hostCompletion (id : Nat) (data : Option (List Byte)) : Statement (.hostCompletion id data) := of_none rfl
theorem hostCompletionTimeout (id : Nat) : Statement (.hostCompletionTimeout id) := of_none rfl
theorem spareRepair (u : RepairUnit) : Statement (.spareRepair u) := of_none rfl
theorem boot (b : BootImages) : Statement (.boot b) := of_none rfl
theorem securityAlarm (detector : AlarmSource) : Statement (.securityAlarm detector) := of_none rfl
theorem ideFailure (ctx : IdeStream) : Statement (.ideFailure ctx) := of_none rfl
theorem peerTableSet (peer : Nat) (populated : Bool) (enabled : Bool) : Statement (.peerTableSet peer populated enabled) := of_none rfl
theorem ftoexpSet (v : Nat) : Statement (.ftoexpSet v) := of_none rfl
theorem quantumSet (v : Nat) : Statement (.quantumSet v) := of_none rfl
theorem linkControl (link : Nat) (op : LinkOp) : Statement (.linkControl link op) := of_none rfl
theorem powerCapSet (watts : Nat) : Statement (.powerCapSet watts) := of_none rfl
theorem firmwareUpdate (image : Nat) (version : Nat) (valid : Bool) : Statement (.firmwareUpdate image version valid) := of_none rfl
theorem spdmMessage (m : SpdmMsg) : Statement (.spdmMessage m) := of_none rfl
theorem clockStateChange (c : ClockReport) : Statement (.clockStateChange c) := of_none rfl
theorem softError (loc : ErrLoc) (uncorrectable : Bool) : Statement (.softError loc uncorrectable) := of_none rfl
theorem waitmRemotePoll (gid : Nat) (lane : Nat) (value : BitVec 64) : Statement (.waitmRemotePoll gid lane value) := of_none rfl
theorem hostPortLinkChange (port : Nat) (up : Bool) : Statement (.hostPortLinkChange port up) := of_none rfl
theorem wcallServiceReturn (gid : Nat) (r0 : Word) (r1 : Word) (r2 : Word) (r3 : Word) : Statement (.wcallServiceReturn gid r0 r1 r2 r3) := of_none rfl
theorem dflush : Statement (.dflush) := of_fields rfl fun hw _ => by
  simp [-BitVec.getLsbD_eq_getElem, decodeFields, decodeSyn, Encoded.fi, Encoded.plain, Fields.imm14, Fields.mb, Fields.fz, Encoded.srd, Encoded.swr]
theorem tret : Statement (.tret) := of_fields rfl fun hw _ => by
  simp [-BitVec.getLsbD_eq_getElem, decodeFields, decodeSys, Encoded.fi, Encoded.plain, Fields.imm14, Fields.mb, Fields.fz, Encoded.srd, Encoded.swr]
theorem tlbiCtx : Statement (.tlbiCtx) := of_fields rfl fun hw _ => by
  simp [-BitVec.getLsbD_eq_getElem, decodeFields, decodeSys, Encoded.fi, Encoded.plain, Fields.imm14, Fields.mb, Fields.fz, Encoded.srd, Encoded.swr]
theorem tlbiAll : Statement (.tlbiAll) := of_fields rfl fun hw _ => by
  simp [-BitVec.getLsbD_eq_getElem, decodeFields, decodeSys, Encoded.fi, Encoded.plain, Fields.imm14, Fields.mb, Fields.fz, Encoded.srd, Encoded.swr]
theorem idle : Statement (.idle) := of_fields rfl fun hw _ => by
  simp [-BitVec.getLsbD_eq_getElem, decodeFields, decodeSys, Encoded.fi, Encoded.plain, Fields.imm14, Fields.mb, Fields.fz, Encoded.srd, Encoded.swr]
theorem halt : Statement (.halt) := of_fields rfl fun hw _ => by
  simp [-BitVec.getLsbD_eq_getElem, decodeFields, decodeSys, Encoded.fi, Encoded.plain, Fields.imm14, Fields.mb, Fields.fz, Encoded.srd, Encoded.swr]
theorem issueSelect : Statement (.issueSelect) := of_none rfl
theorem gangPlace : Statement (.gangPlace) := of_none rfl
theorem moduleReset : Statement (.moduleReset) := of_none rfl
theorem shutdownTemperature : Statement (.shutdownTemperature) := of_none rfl

end Sys2Proof.Laws.RoundTrip

open Sys2Proof in
theorem Sys2Proof.Laws.RoundTrip.seal (k : KReg) : Sys2Proof.Laws.RoundTrip.Statement (.seal k) := Sys2Proof.Laws.RoundTrip.of_fields rfl fun _ _ => by
  simp [-BitVec.getLsbD_eq_getElem, decodeFields, decodeEng, Encoded.plain]
end

