-- ==== Sys2Proof/Safety.lean ====
section
/-! DEFINITION. The terms in which the statements speak: an issue that passes the common checks, steps that go on, the
canonical form of memory, and what a frame leaves alone. -/

namespace Sys2Proof.Machine

/-- The issue `iss` of group `g` is to execute `i` and passes every check that precedes the instruction's own (R48, R49,
R77, R84-R86, R245, R394, R396, R416): its registers and tiles are declared, the form is legal in the sweep, the
privilege it needs is held, no register that it names waits for a value, no operand's check bits are wrong, and at a flush
point no lane has an open transfer or a pending error. -/
structure Passes (i : Instr) (s : State) (iss : Issue) (g : Group) : Prop where
  cur : s.cur = some iss
  grp : s.group? iss.gid = some g
  regs : ((regsOf iss.snap i).vr ++ (regsOf iss.snap i).vw).all (fun r => decide (r < g.regs)) = true
  tiles : tilesBad (tilesOf s g) i = false
  form : slideOf s g = true → slideBad i = false ∧ (detOf s g = true → laneBad i = false)
  priv : needsPriv i = true → s.privOf g = true
  free : regsPending s iss (operRegs s iss g i) = false
  bad : errAt g iss (operRegs s iss g i) true = none
  soft : softPlaces g iss (operRegs s iss g i) = []
  replay : s.corrected = []
  flush : flushPoint i = true → xferOpen s iss.gid iss.lanes = false ∧ derrLanes g iss = []

/-- The issue at the head of a clock's issues is taken: it is not cancelled because the other issue of its group traps (R128). -/
def headTaken (s : State) (iss : Issue) (rest : List Issue) : Prop :=
  ∀ j, (rest.find? fun j => j.gid == iss.gid) = some j →
    wouldTrap { s with issues := rest } j = false ∨
      (wouldTrap { s with issues := rest } iss = true ∧ ¬ j.pc.toNat < iss.pc.toNat)

/-- The active lanes change by `f` and go on past the instruction's `n` words. -/
def lanesDo (s : State) (iss : Issue) (n : Nat) (f : Thread → Thread) : State := advance (s.mapLanes iss.gid iss.lanes f) iss n

/-- All four memories are in canonical form. -/
def State.memWf (s : State) : Bool := s.dev.wf && s.scratch.wf && s.weight.wf && s.host.wf

/-- The same bytes everywhere. -/
def sameMem (s t : State) : Prop := t.dev = s.dev ∧ t.scratch = s.scratch ∧ t.weight = s.weight ∧ t.host = s.host

/-- Two states that differ at most in what a lookup, a tracked access or a read leaves in translation caches, detectors, and repaired
errors with their counts (R183, R349, R422): the cores' part beyond those is the same. -/
def sameButCaches (s t : State) : Prop :=
  t = { s with cores := t.cores, qtlb := t.qtlb, walkCache := t.walkCache, sliceDet := t.sliceDet, softErrs := t.softErrs,
               cntMem := t.cntMem, tally := t.tally } ∧
  (sparseWf {} s.cores = true → sparseWf {} t.cores = true ∧
    ∀ k, { t.core k with tlb := [], det := [] } = { s.core k with tlb := [], det := [] })

/-- Whatever a lane's instruction may change of its thread, these stay: lane, tokens, poison record, stack, identity, frame and
Handler state, deferred error, region and slide place. -/
def sameThread (t u : Thread) : Prop :=
  u.lane = t.lane ∧ u.k = t.k ∧ u.batch = t.batch ∧ u.stack = t.stack ∧ u.ident = t.ident ∧ u.derr = t.derr ∧
  u.frame = t.frame ∧ u.handler = t.handler ∧ u.exited = t.exited ∧ u.region = t.region ∧ u.stn = t.stn ∧ u.fret = t.fret

/-- Every thread of an issue has moved past its instruction's `n` words with its registers, predicates, control word, stack and
liveness as they were (what it still waits for and its region apart). -/
def goneOn (s t : State) (iss : Issue) (n : Nat) : Prop := ∀ l ∈ iss.lanes, ∀ u, s.thread? iss.gid l = some u →
  ∃ w, t.thread? iss.gid l = some w ∧ w.pc = u.pc + BitVec.ofNat 32 (4 * n) ∧ w.v = u.v ∧ w.pv = u.pv ∧ w.pp = u.pp ∧
    w.fctl = u.fctl ∧ w.stack = u.stack ∧ w.exited = u.exited

/-- The threads outside an issue, and the s-registers, are as they were. -/
def restStays (s t : State) (iss : Issue) : Prop :=
  (∀ k l u, s.thread? k l = some u → ¬ (k = iss.gid ∧ l ∈ iss.lanes) → t.thread? k l = some u) ∧
  ∀ k r, t.sreg k r = s.sreg k r

/-- An access that `s` did not hold is outstanding in `t` for one lane of an issue. -/
def outstanding (s t : State) (iss : Issue) (op : AccOp) (wid : Nat) (sync : Bool) (sp : Space) (l : LaneAcc) : Prop :=
  ∃ a ∈ t.accs, s.nextId ≤ a.id ∧ a.gid = iss.gid ∧ a.pc = iss.pc ∧ a.op = op ∧ a.wid = wid ∧ a.sync = sync ∧ a.space = sp ∧
    a.line = l.keys.headD 0 / 128 ∧ l ∈ a.lanes

/-- The bytes at keys replaced by those of a list, later ones last. -/
def putPairs (m : Memory) (ps : List (Nat × Byte)) : Memory := ps.foldl (fun m p => sset 0 m p.1 p.2) m

/-- The atomics of R198 with their operations and the codes of R410. -/
def atRows : List ((AtF → Instr) × AOp × Nat) :=
  [(.aadd, .add, 0x28), (.amin, .min, 0x29), (.amax, .max, 0x2A), (.aand, .and, 0x2B), (.aor, .or, 0x2C), (.axor, .xor, 0x2D),
   (.axch, .xch, 0x2E), (.acas, .cas, 0x2F), (.afadd, .fadd, 0x30)]

/-- A step ends in a next state. -/
def goesOn (s : State) : Prop := ∃ t, step s = .next t

/-! ### Tables of the register instructions: what each one computes, as arithmetic on the values of its operands -/

/-- The 32-bit bx instructions (R90-R92, R115): whether it reads D, and the result and clamp mark of a, b and d, by M[0]. -/
def bxRows : List ((Bx → Instr) × Bool × (Bool → Word → Word → Word → Word × Bool)) :=
  let p (f : Bool → Word → Word → Word → Word) (m : Bool) (a b d : Word) : Word × Bool := (f m a b d, false)
  [(.iadd, false, p fun _ a b _ => BitVec.ofNat 32 (a.toNat + b.toNat)),
   (.isub, false, p fun _ a b _ => BitVec.ofInt 32 (a.toInt - b.toInt)),
   (.imul, false, p fun _ a b _ => BitVec.ofNat 32 (a.toNat * b.toNat)),
   (.imulh, false, p fun u a b _ =>
     if u then BitVec.ofNat 32 (a.toNat * b.toNat / 2 ^ 32) else BitVec.ofInt 32 (a.toInt * b.toInt / 2 ^ 32)),
   (.imad, true, p fun _ a b d => BitVec.ofNat 32 (a.toNat * b.toNat + d.toNat)),
   (.imin, false, p fun u a b _ => if (if u then decide (b.toNat < a.toNat) else decide (b.toInt < a.toInt)) then b else a),
   (.imax, false, p fun u a b _ => if (if u then decide (a.toNat < b.toNat) else decide (a.toInt < b.toInt)) then b else a),
   (.sadd, false, fun u a b _ => satOp u false a b),
   (.ssub, false, fun u a b _ => satOp u true a b),
   (.idiv, false, p fun u a b _ => divOp u a b),
   (.irem, false, p fun u a b _ => remOp u a b),
   (.and, false, p fun _ a b _ => a &&& b),
   (.or, false, p fun _ a b _ => a ||| b),
   (.xor, false, p fun _ a b _ => a ^^^ b),
   (.andn, false, p fun _ a b _ => a &&& ~~~b),
   (.shl, false, p fun _ a b _ => BitVec.ofNat 32 (a.toNat * 2 ^ b.toNat)),
   (.shr, false, p fun _ a b _ => BitVec.ofNat 32 (a.toNat / 2 ^ b.toNat)),
   (.sar, false, p fun _ a b _ => BitVec.ofInt 32 (a.toInt / 2 ^ b.toNat)),
   (.rotl, false, p fun _ a b _ => a.rotateLeft (b.toNat % 32)),
   (.iamin, true, fun _ a b d =>
     let t := clampInt (a.toInt + b.toInt) (-(2 ^ 31)) (2 ^ 31 - 1)
     (BitVec.ofInt 32 (min d.toInt t.1), t.2))]

/-- The 64-bit bx instructions (R94): whether it reads D, and the result. -/
def bxRows64 : List ((Bx → Instr) × Bool × (DWord → DWord → DWord → DWord)) :=
  [(.iadd64, false, fun a b _ => BitVec.ofNat 64 (a.toNat + b.toNat)),
   (.isub64, false, fun a b _ => a - b),
   (.imad64, true, fun a b d => BitVec.ofNat 64 (a.toNat * b.toNat + d.toNat))]

/-- The unary instructions (R93). -/
def unRows : List ((Un → Instr) × (Word → Word)) :=
  [(.iabs, fun a => if a.toInt < 0 then -a else a), (.ineg, fun a => -a), (.popc, popcOp), (.clz, clzOp), (.brev, brevOp)]

/-- The two-operand float instructions (R112-R114): whether it reads D, and the result and flags of an element by rounding
mode and format. -/
def fbRows : List ((Fb → Instr) × Bool × (Mode → FSpec → Nat → Nat → Nat → Nat × Fl)) :=
  [(.fadd, false, fun m f a b _ => fmaR f m [] [fval f a, fval f b]),
   (.fsub, false, fun m f a b _ => fmaR f m [] [fval f a, (fval f b).neg]),
   (.fmul, false, fun m f a b _ => fmaR f m [(fval f a, fval f b)] []),
   (.ffma, true, fun m f a b d => fmaR f m [(fval f a, fval f b)] [fval f d]),
   (.ffnma, true, fun m f a b d => fmaR f m [((fval f a).neg, fval f b)] [fval f d]),
   (.fmin, false, fun _ f a b _ => fminR f false a b),
   (.fmax, false, fun _ f a b _ => fminR f true a b),
   (.fdiv, false, fun m f a b _ => fdivR f m (fval f a) (fval f b)),
   (.famin, true, fun m f a b d =>
     let t := fmaR f m [] [fval f a, fval f b]
     let r := fminR f false d t.1
     (r.1, t.2 ||| r.2))]

/-- The fp32 functions (R118). -/
def f1Rows : List ((F1 → Instr) × (Mode → FV → Nat × Fl)) :=
  [(.frcp, frcpR), (.frsq, frsqR), (.fex2, fex2R), (.flg2, flg2R), (.fsinp, fsinpR), (.fcosp, fcospR)]

/-- The lane exchanges (R123): the source lane from the lane's own number and b. -/
def exRows : List ((LaneF → Instr) × (Nat → Word → Int)) :=
  [(.lshuf, fun _ b => b.toNat), (.lshup, fun l b => l - b.toInt), (.lshdn, fun l b => l + b.toInt),
   (.lxor, fun l b => (Nat.xor l b.toNat : Nat))]

end Sys2Proof.Machine
end

