-- ==== Sys2Proof/Certificates/Slice0/Obligations.lean ====
section
/-! DEFINITION. The statements for the provers. -/

open Sys2Proof Sys2Proof.Machine

/-- Words written out from the encoding tables decode to their instructions (03_encoding.md). -/
def Obligations.DecodedWords : Prop :=
  decode .mix 0x00808283 0 = some (.iadd ⟨false, false, 2, 5, .s 3⟩) ∧
  decode .mem 0x0060C102 0 = some (.ld ⟨.x4, .dflt, 3, 2, 2⟩) ∧
  decode .eng 0x04008000 0 = some (.wait 2) ∧
  decode .fld 0x04004100 0 = some (.fdom 1 2) ∧
  decode .syn 0x01004000 0 = some (.bara 1) ∧
  decode .sys 0x02000000 0 = some .tret ∧
  decode .mtx 0x01000000 0 = some .wflip

/-- Decoding the words of any well-formed instruction gives that instruction (03_encoding.md). -/
def Obligations.EncodeDecodeAgree : Prop :=
  ∀ i, Sys2Proof.Laws.RoundTrip.Statement i

/-- A step runs the decoded instruction (03_encoding.md; 06_lanes_float.md; 07_group.md; log entry 2). -/
def Obligations.StepRunsDecoded : Prop :=
  (∀ (s : State) (iss : Issue) (rest : List Issue) (g : Group) (t : Thread) (ts : List Thread) (c : Sys2Proof.Class) (i : Instr),
    s.agenda = [] → s.stopped = false → s.issues = iss :: rest → headTaken s iss rest →
    s.group? iss.gid = some g → (g.threads.filter fun t => iss.lanes.contains t.lane) = t :: ts →
    (∀ u ∈ t :: ts, u.late = none) → t.cls = some c → decode c (t.wordAt iss.pc) (t.wordAt (iss.pc + 4)) = some i →
    step s = exec i { s with issues := rest, cur := some iss }) ∧
  (∀ (s : State) (iss j : Issue) (rest : List Issue), s.agenda = [] → s.stopped = false → s.issues = iss :: rest →
    (rest.find? fun j => j.gid == iss.gid) = some j →
    (wouldTrap { s with issues := rest } iss = false ∨ j.pc.toNat < iss.pc.toNat) →
    wouldTrap { s with issues := rest } j = true → step s = step { s with issues := j :: rest.filter fun x => x.gid != iss.gid })

/-- A step traps on an illegal word and on a late mark (03_encoding.md; 26_faults.md; 14_queue.md). -/
def Obligations.StepTraps : Prop :=
  (∀ (s : State) (iss : Issue) (rest : List Issue) (g : Group) (t : Thread) (ts : List Thread) (c : Sys2Proof.Class),
    s.agenda = [] → s.stopped = false → s.issues = iss :: rest → headTaken s iss rest →
    s.group? iss.gid = some g → (g.threads.filter fun t => iss.lanes.contains t.lane) = t :: ts →
    (∀ u ∈ t :: ts, u.late = none) → t.cls = some c → decode c (t.wordAt iss.pc) (t.wordAt (iss.pc + 4)) = none →
    step s = .next (takeTrap { s with issues := rest, cur := some iss } iss 0x01)) ∧
  (∀ (s : State) (iss : Issue) (rest : List Issue) (g : Group) (t : Thread) (q a : Nat),
    s.agenda = [] → s.stopped = false → s.issues = iss :: rest → headTaken s iss rest → s.group? iss.gid = some g →
    ((g.threads.filter fun t => iss.lanes.contains t.lane).find? fun t => t.late.isSome) = some t → t.late = some (q, a) →
    step s = .next (takeTrap { s with issues := rest, cur := some iss } iss 0x58
      { info0 := BitVec.ofNat 32 q, addr := a,
        lanes := ((g.threads.filter fun t => iss.lanes.contains t.lane).filter fun t => t.late.isSome).map (·.lane) }))

/-- The order in which the machine takes its own steps (the model's choice, log entry 2) (log entry 2). -/
def Obligations.StepOrder : Prop :=
  (∀ (s : State) (e : Instr) (rest : List Instr), s.agenda = e :: rest → step s = exec e { s with agenda := rest }) ∧
  (∀ s : State, s.agenda = [] → s.stopped = true → step s = .next s) ∧
  (∀ (s : State) (e : Instr), s.agenda = [] → s.stopped = false → s.issues = [] → nextDue s = some e → step s = exec e s) ∧
  (∀ s : State, s.agenda = [] → s.stopped = false → s.issues = [] → nextDue s = none → step s = exec .issueSelect s)

/-- Every step keeps memory in its canonical form (08_memory.md; log entry 4). -/
def Obligations.MemoryStaysCanonical : Prop :=
  ∀ s t : State, s.memWf = true → step s = .next t → t.memWf = true

/-- The state after reset (28_platform.md; 14_queue.md; 21_link.md). -/
def Obligations.ResetState : Prop :=
  State.reset.memWf = true ∧ State.reset.booted = false ∧ State.reset.ctxs = [] ∧ State.reset.health = [] ∧
  State.reset.cycle = 0 ∧ State.reset.quantum = 2400000 ∧ State.reset.ftoexp = 22 ∧ State.reset.powerCap = 1650 ∧
  State.reset.pwrst = 4 ∧ goesOn State.reset

/-- The 32-bit integer instructions write v[D] of every active lane (05_thread.md; 06_lanes_float.md). -/
def Obligations.IntegerLaneResults : Prop :=
  ∀ row ∈ bxRows, ∀ x : Bx, x.u = false → ∀ s iss g, Passes (row.1 x) s iss g →
    exec (row.1 x) s = .next (lanesDo s iss 1 fun t =>
      let r := row.2.2 x.f (t.vget x.a.toNat).w (bval iss.snap t x.b).w (t.vget x.d.toNat).w
      (if r.2 then t.setSat else t).vset x.d.toNat
        ⟨r.1, (t.vget x.a.toNat).poi || (bval iss.snap t x.b).poi || (row.2.1 && (t.vget x.d.toNat).poi)⟩)

/-- The 32-bit integer instructions in uniform form write s[D] once (05_thread.md). -/
def Obligations.IntegerUniformResults : Prop :=
  ∀ row ∈ bxRows, ∀ x : Bx, x.u = true → ∀ s iss g, Passes (row.1 x) s iss g →
    exec (row.1 x) s = .next (
      let a := sget {} iss.snap x.a.toNat
      let b := ubval iss.snap x.b
      let d := sget {} iss.snap x.d.toNat
      let r := row.2.2 x.f a.w b.w d.w
      let t := if r.2 then s.mapLanes iss.gid iss.lanes Thread.setSat else s
      advance (t.setS iss.gid x.d.toNat ⟨r.1, a.poi || b.poi || (row.2.1 && d.poi)⟩) iss 1)

/-- The 64-bit integer and shift instructions write a register pair (05_thread.md). -/
def Obligations.Integer64Results : Prop :=
  (∀ row ∈ bxRows64, ∀ x : Bx, ∀ s iss g, Passes (row.1 x) s iss g →
    exec (row.1 x) s = .next (
      if x.u then
        let a := spair iss.snap x.a.toNat
        let b := ubval64 iss.snap x.b
        let d := spair iss.snap x.d.toNat
        advance (s.setS64 iss.gid x.d.toNat ⟨row.2.2 a.w b.w d.w, a.poi || b.poi || (row.2.1 && d.poi)⟩) iss 1
      else lanesDo s iss 1 fun t =>
        let a := vpair t x.a.toNat
        let b := bval64 iss.snap t x.b
        let d := vpair t x.d.toNat
        t.vset64 x.d.toNat ⟨row.2.2 a.w b.w d.w, a.poi || b.poi || (row.2.1 && d.poi)⟩)) ∧
  (∀ x : Bx, ∀ s iss g, Passes (.shl64 x) s iss g → x.u = false →
    exec (.shl64 x) s = .next (lanesDo s iss 1 fun t =>
      let a := vpair t x.a.toNat
      let b := bval iss.snap t x.b
      t.vset64 x.d.toNat ⟨BitVec.ofNat 64 (a.w.toNat * 2 ^ b.w.toNat), a.poi || b.poi⟩)) ∧
  (∀ x : Bx, ∀ s iss g, Passes (.shl64 x) s iss g → x.u = true →
    exec (.shl64 x) s = .next (
      let a := spair iss.snap x.a.toNat
      let b := ubval iss.snap x.b
      advance (s.setS64 iss.gid x.d.toNat ⟨BitVec.ofNat 64 (a.w.toNat * 2 ^ b.w.toNat), a.poi || b.poi⟩) iss 1)) ∧
  (∀ x : Bx, ∀ s iss g, Passes (.shr64 x) s iss g → x.u = false →
    exec (.shr64 x) s = .next (lanesDo s iss 1 fun t =>
      let a := vpair t x.a.toNat
      let b := bval iss.snap t x.b
      t.vset64 x.d.toNat ⟨if x.f then BitVec.ofInt 64 (a.w.toInt / 2 ^ b.w.toNat) else BitVec.ofNat 64 (a.w.toNat / 2 ^ b.w.toNat),
        a.poi || b.poi⟩)) ∧
  (∀ x : Bx, ∀ s iss g, Passes (.shr64 x) s iss g → x.u = true →
    exec (.shr64 x) s = .next (
      let a := spair iss.snap x.a.toNat
      let b := ubval iss.snap x.b
      advance (s.setS64 iss.gid x.d.toNat ⟨if x.f then BitVec.ofInt 64 (a.w.toInt / 2 ^ b.w.toNat)
        else BitVec.ofNat 64 (a.w.toNat / 2 ^ b.w.toNat), a.poi || b.poi⟩) iss 1))

/-- Unary, bit-field, LEA and fixed-point instructions (05_thread.md). -/
def Obligations.UnaryAndFieldResults : Prop :=
  (∀ row ∈ unRows, ∀ x : Un, ∀ s iss g, Passes (row.1 x) s iss g →
    exec (row.1 x) s = .next (
      if x.u then advance (s.setS iss.gid x.d.toNat ⟨row.2 (sget {} iss.snap x.a.toNat).w, (sget {} iss.snap x.a.toNat).poi⟩) iss 1
      else lanesDo s iss 1 fun t => t.vset x.d.toNat ⟨row.2 (t.vget x.a.toNat).w, (t.vget x.a.toNat).poi⟩)) ∧
  (∀ (i : Instr) (u : Bool) (d a : VReg) (b : Opv) (rd : Bool) (n : Nat) (op : Word → Word → Word → Word × Bool),
    ((∃ sx, i = .bfe ⟨u, sx, d, a, b⟩ ∧ rd = false ∧ n = 1 ∧ op = fun (a b _ : Word) => (bfeOp sx a b, false)) ∨
     (∃ sx, i = .bfi ⟨u, sx, d, a, b⟩ ∧ rd = true ∧ n = 1 ∧ op = fun (a b d : Word) => (bfiOp a b d, false)) ∨
     (∃ sh, i = .lea ⟨u, sh, d, a, b⟩ ∧ rd = false ∧ n = 1 ∧ op = fun (a b _ : Word) => (b + (a <<< sh.toNat), false)) ∨
     (∃ r k, i = .qmul ⟨u, r, d, a, b, k⟩ ∧ rd = false ∧ n = 2 ∧ op = fun (a b _ : Word) => qmulOp r k.toNat a b) ∨
     (∃ r, i = .qshr ⟨u, r, d, a, b⟩ ∧ rd = false ∧ n = 1 ∧
       op = fun (a b _ : Word) => (BitVec.ofInt 32 (shiftRound r a.toInt (b.toNat % 64)), false))) →
    ∀ s iss g, Passes i s iss g →
    exec i s = .next (
      if u then
        let x := sget {} iss.snap a.toNat
        let y := uovval iss.snap b
        let z := sget {} iss.snap d.toNat
        let r := op x.w y.w z.w
        advance ((if r.2 then s.mapLanes iss.gid iss.lanes Thread.setSat else s).setS iss.gid d.toNat
          ⟨r.1, x.poi || y.poi || (rd && z.poi)⟩) iss n
      else lanesDo s iss n fun t =>
        let x := t.vget a.toNat
        let y := ovval iss.snap t b
        let z := t.vget d.toNat
        let r := op x.w y.w z.w
        (if r.2 then t.setSat else t).vset d.toNat ⟨r.1, x.poi || y.poi || (rd && z.poi)⟩))

/-- MOV, MOVI, MOVL, MOVS and POTAKE (05_thread.md; 26_faults.md). -/
def Obligations.MoveResults : Prop :=
  (∀ (i : Instr) (u : Bool) (d : VReg) (n : Nat) (uv : RegFile → Reg) (lv : RegFile → Thread → Reg),
    ((∃ b, i = .mov ⟨u, d, b⟩ ∧ n = 1 ∧ uv = (fun sf => uovval sf b) ∧ lv = fun sf t => ovval sf t b) ∨
     (∃ k, i = .movi ⟨u, d, k⟩ ∧ n = 1 ∧ uv = (fun _ => ⟨k.signExtend 32, false⟩) ∧ lv = fun _ _ => ⟨k.signExtend 32, false⟩) ∨
     (∃ l, i = .movl ⟨u, d, l⟩ ∧ n = 2 ∧ uv = (fun _ => ⟨l, false⟩) ∧ lv = fun _ _ => ⟨l, false⟩)) →
    ∀ s iss g, Passes i s iss g →
    exec i s = .next (if u then advance (s.setS iss.gid d.toNat (uv iss.snap)) iss n
      else lanesDo s iss n fun t => t.vset d.toNat (lv iss.snap t))) ∧
  (∀ x : MovsF, ∀ s iss g, Passes (.movs x) s iss g → x.u = false → x.num.toNat ≠ 0x0A →
    exec (.movs x) s = .next (lanesDo s iss 1 fun t => t.vset x.d.toNat ⟨special s g iss t x.num.toNat, false⟩)) ∧
  (∀ x : MovsF, ∀ s iss g, Passes (.movs x) s iss g → x.u = false → x.num.toNat = 0x0A →
    exec (.movs x) s = .next (lanesDo s iss 1 fun t => t.vset64 x.d.toNat ⟨BitVec.ofNat 64 s.cycle, false⟩)) ∧
  (∀ x : MovsF, ∀ s iss g t0, Passes (.movs x) s iss g → x.u = true → x.num.toNat ≠ 0x0A →
    (g.threads.find? fun t => iss.lanes.contains t.lane) = some t0 →
    exec (.movs x) s = .next (advance (s.setS iss.gid x.d.toNat ⟨special s g iss t0 x.num.toNat, false⟩) iss 1)) ∧
  (∀ x : MovsF, ∀ s iss g, Passes (.movs x) s iss g → x.u = true → x.num.toNat = 0x0A →
    exec (.movs x) s = .next (advance (s.setS64 iss.gid x.d.toNat ⟨BitVec.ofNat 64 s.cycle, false⟩) iss 1)) ∧
  (∀ (d : VReg) s iss g, Passes (.potake d) s iss g →
    exec (.potake d) s = .next (lanesDo s iss 1 fun t => { t.vset d.toNat ⟨poCause t.po, false⟩ with po := {} }))

/-- What the predicate instructions and GETFC and SETFC write (05_thread.md; 07_group.md; 04_numbers.md). -/
def Obligations.PredicateAndFctlResults : Prop :=
  ((∀ x : SelF, ∀ s iss g, Passes (.sel x) s iss g → exec (.sel x) s = .next (lanesDo s iss 1 fun t =>
    let v := if t.pval x.p.toNat then t.vget x.a.toNat else t.vget x.b.toNat
    t.vset x.d.toNat ⟨v.w, v.poi || t.ppoi x.p.toNat⟩)) ∧
  (∀ x : IcmpF, ∀ s iss g, Passes (.icmp x) s iss g → exec (.icmp x) s = .next (lanesDo s iss 1 fun t =>
    if x.w64 then t.pset x.p.toNat (icond x.c (vpair t x.a.toNat).w (bval64 iss.snap t x.b).w)
      ((vpair t x.a.toNat).poi || (bval64 iss.snap t x.b).poi)
    else t.pset x.p.toNat (icond x.c (t.vget x.a.toNat).w (bval iss.snap t x.b).w)
      ((t.vget x.a.toNat).poi || (bval iss.snap t x.b).poi))) ∧
  (∀ x : PlopF, ∀ s iss g, Passes (.plop x) s iss g → exec (.plop x) s = .next (lanesDo s iss 1 fun t =>
    let a := t.pval x.a.toNat
    let b := t.pval x.b.toNat
    let pa := t.ppoi x.a.toNat
    let pb := t.ppoi x.b.toNat
    match x.op with
    | .and => t.pset x.d.toNat (a && b) (pa || pb)
    | .or => t.pset x.d.toNat (a || b) (pa || pb)
    | .xor => t.pset x.d.toNat (a != b) (pa || pb)
    | .andn => t.pset x.d.toNat (a && !b) (pa || pb)
    | .orn => t.pset x.d.toNat (a || !b) (pa || pb)
    | .not => t.pset x.d.toNat (!a) pa
    | .set => t.pset x.d.toNat true false
    | .clr => t.pset x.d.toNat false false)) ∧
  (∀ x : PmovF, ∀ s iss g, Passes (.pmov x) s iss g → exec (.pmov x) s = .next (lanesDo s iss 1 fun t =>
    if x.tov then t.vset x.v.toNat ⟨if t.pval x.p.toNat then 1 else 0, t.ppoi x.p.toNat⟩
    else t.pset x.p.toNat ((t.vget x.v.toNat).w != 0) (t.vget x.v.toNat).poi)) ∧
  (∀ x : PchkF, ∀ s iss g, Passes (.pchk x) s iss g → exec (.pchk x) s = .next (lanesDo s iss 1 fun t =>
    t.pset x.p.toNat ((t.vget x.a.toNat).poi || (x.w64 && (t.vget (x.a.toNat + 1)).poi)) false))) ∧
  ((∀ (d : VReg) s iss g, Passes (.getfc d) s iss g →
    exec (.getfc d) s = .next (lanesDo s iss 1 fun t => t.vset d.toNat ⟨t.fctl, false⟩)) ∧
  (∀ (b : Src) s iss g, Passes (.setfc b) s iss g →
    exec (.setfc b) s = .next (lanesDo s iss 1 fun t =>
      if (bval iss.snap t b).poi then t
      else { t with fctl := (t.fctl &&& ~~~0x003F7F03) ||| ((bval iss.snap t b).w &&& 0x003F7F03) })))

/-- The two-operand float instructions where no enabled exception occurs (06_lanes_float.md; 04_numbers.md). -/
def Obligations.FloatResults : Prop :=
  ∀ row ∈ fbRows, ∀ x : Fb, ∀ s iss g, Passes (row.1 x) s iss g →
    let n := fmtRegs x.fmt
    let r (t : Thread) := elems x.fmt (row.2.2 t.rm) (vbits t n x.a.toNat).1 (obits iss.snap t n x.b).1 (vbits t n x.d.toNat).1
    (∀ t ∈ g.threads, t.lane ∈ iss.lanes → t.enabled (r t).2 = 0) →
    exec (row.1 x) s = .next (lanesDo s iss 1 fun t =>
      (t.vput n x.d.toNat (r t).1 ((vbits t n x.a.toNat).2 || (obits iss.snap t n x.b).2 ||
        (row.2.1 && (vbits t n x.d.toNat).2))).flag (r t).2)

/-- An enabled float exception traps the whole issue (06_lanes_float.md; 26_faults.md). -/
def Obligations.FloatTraps : Prop :=
  ∀ row ∈ fbRows, ∀ x : Fb, ∀ s iss g, Passes (row.1 x) s iss g →
    let n := fmtRegs x.fmt
    let r (t : Thread) := elems x.fmt (row.2.2 t.rm) (vbits t n x.a.toNat).1 (obits iss.snap t n x.b).1 (vbits t n x.d.toNat).1
    let hit := g.threads.filter fun t => iss.lanes.contains t.lane && decide (t.enabled (r t).2 ≠ 0)
    ∀ t ts, hit = t :: ts →
    exec (row.1 x) s = .next (takeTrap s iss (0x10 + lowFl (t.enabled (r t).2)) { lanes := hit.map (·.lane) })

/-- Float functions, square root, FRND and the conversions (06_lanes_float.md; 04_numbers.md). -/
def Obligations.FloatUnaryResults : Prop :=
  (∀ row ∈ f1Rows, ∀ x : F1, ∀ s iss g, Passes (row.1 x) s iss g →
    let r (t : Thread) := row.2 t.rm (fval spec32 (vbits t 1 x.a.toNat).1)
    (∀ t ∈ g.threads, t.lane ∈ iss.lanes → t.enabled (r t).2 = 0) →
    exec (row.1 x) s = .next (lanesDo s iss 1 fun t => (t.vput 1 x.d.toNat (r t).1 (vbits t 1 x.a.toNat).2).flag (r t).2)) ∧
  (∀ x : Fu, ∀ s iss g, Passes (.fsqrt x) s iss g →
    let n := fmtRegs x.fmt
    let r (t : Thread) := fsqrtR (fspec x.fmt) t.rm (fval (fspec x.fmt) (vbits t n x.a.toNat).1)
    (∀ t ∈ g.threads, t.lane ∈ iss.lanes → t.enabled (r t).2 = 0) →
    exec (.fsqrt x) s = .next (lanesDo s iss 1 fun t => (t.vput n x.d.toNat (r t).1 (vbits t n x.a.toNat).2).flag (r t).2)) ∧
  (∀ x : FrndF, ∀ s iss g, Passes (.frnd x) s iss g →
    let n := if x.f64 then 2 else 1
    let r (t : Thread) := frndR (if x.f64 then spec64 else spec32) (t.rnd x.rnd) (vbits t n x.a.toNat).1
    (∀ t ∈ g.threads, t.lane ∈ iss.lanes → t.enabled (r t).2 = 0) →
    exec (.frnd x) s = .next (lanesDo s iss 1 fun t => (t.vput n x.d.toNat (r t).1 (vbits t n x.a.toNat).2).flag (r t).2)) ∧
  (∀ x : CvtIntF, ∀ s iss g, Passes (.cvtif x) s iss g →
    let n := itypeRegs x.it
    let r (t : Thread) := cvtifR (ffspec x.ft) (t.rnd x.rnd) (intVal x.it (vbits t n x.a.toNat).1)
    (∀ t ∈ g.threads, t.lane ∈ iss.lanes → t.enabled (r t).2 = 0) →
    exec (.cvtif x) s = .next (lanesDo s iss 1 fun t =>
      (t.vput (ffmtRegs x.ft) x.d.toNat (r t).1 (vbits t n x.a.toNat).2).flag (r t).2)) ∧
  (∀ x : CvtIntF, ∀ s iss g, Passes (.cvtfi x) s iss g →
    let n := ffmtRegs x.ft
    let r (t : Thread) := cvtfiR (ffspec x.ft) x.it (t.rnd x.rnd) (narrow x.ft (vbits t n x.a.toNat).1)
    (∀ t ∈ g.threads, t.lane ∈ iss.lanes → t.enabled (r t).2 = 0) →
    exec (.cvtfi x) s = .next (lanesDo s iss 1 fun t =>
      (t.vput (itypeRegs x.it) x.d.toNat (BitVec.ofInt 64 (r t).1).toNat (vbits t n x.a.toNat).2).flag (r t).2)) ∧
  (∀ x : CvtFFF, ∀ s iss g, Passes (.cvtff x) s iss g →
    let n := ffmtRegs x.src
    let r (t : Thread) := cvtffOf x (t.rnd x.rnd) (vbits t n x.a.toNat).1
    (∀ t ∈ g.threads, t.lane ∈ iss.lanes → t.enabled (r t).2 = 0) →
    exec (.cvtff x) s = .next (lanesDo s iss 1 fun t =>
      (t.vput (ffmtRegs x.dst) x.d.toNat (r t).1 (vbits t n x.a.toNat).2).flag (r t).2))

/-- FSCALE, FSGN, FCLASS, FCMP, FDOT2, PACK and UNPK (06_lanes_float.md). -/
def Obligations.FloatMiscResults : Prop :=
  (∀ x : Fb, ∀ s iss g, Passes (.fscale x) s iss g →
    let n := fmtRegs x.fmt
    let k (t : Thread) : Int := if n = 2 then (BitVec.ofNat 64 (obits iss.snap t n x.b).1).toInt
      else (BitVec.ofNat 32 (obits iss.snap t n x.b).1).toInt
    let r (t : Thread) := fscaleR (fspec x.fmt) t.rm (fval (fspec x.fmt) (vbits t n x.a.toNat).1) (k t)
    (∀ t ∈ g.threads, t.lane ∈ iss.lanes → t.enabled (r t).2 = 0) →
    exec (.fscale x) s = .next (lanesDo s iss 1 fun t =>
      (t.vput n x.d.toNat (r t).1 ((vbits t n x.a.toNat).2 || (obits iss.snap t n x.b).2)).flag (r t).2)) ∧
  (∀ x : FsgnF, ∀ s iss g, Passes (.fsgn x) s iss g → exec (.fsgn x) s = .next (lanesDo s iss 1 fun t =>
    let n := if x.f64 then 2 else 1
    let a := (vbits t n x.a.toNat).1
    let b := (obits iss.snap t n x.b).1
    let sg := if x.x then a.testBit (32 * n - 1) != b.testBit (32 * n - 1) else b.testBit (32 * n - 1)
    t.vput n x.d.toNat (a % 2 ^ (32 * n - 1) + (if sg then 2 ^ (32 * n - 1) else 0))
      ((vbits t n x.a.toNat).2 || (obits iss.snap t n x.b).2))) ∧
  (∀ x : Fu, ∀ s iss g, Passes (.fclass x) s iss g → exec (.fclass x) s = .next (lanesDo s iss 1 fun t =>
    let a := (vbits t (fmtRegs x.fmt) x.a.toNat).1
    t.vput (fmtRegs x.fmt) x.d.toNat (match x.fmt with
      | .bf16 => fclassR specB (a % 65536) + 65536 * fclassR specB (a / 65536)
      | .f32 => fclassR spec32 a
      | .f64 => fclassR spec64 a) (vbits t (fmtRegs x.fmt) x.a.toNat).2)) ∧
  (∀ x : FcmpF, ∀ s iss g, Passes (.fcmp x) s iss g →
    let n := fmtRegs x.fmt
    let cut (v : Nat) := match x.fmt with | .bf16 => v % 65536 | _ => v
    let r (t : Thread) := fcmpR x.c (fval (fspec x.fmt) (cut (vbits t n x.a.toNat).1)) (fval (fspec x.fmt) (cut (obits iss.snap t n x.b).1))
    (∀ t ∈ g.threads, t.lane ∈ iss.lanes → t.enabled (r t).2 = 0) →
    exec (.fcmp x) s = .next (lanesDo s iss 1 fun t =>
      (t.pset x.p.toNat (r t).1 ((vbits t n x.a.toNat).2 || (obits iss.snap t n x.b).2)).flag (r t).2)) ∧
  (∀ x : Dot2F, ∀ s iss g, Passes (.fdot2 x) s iss g →
    let a (t : Thread) := (vbits t 1 x.a.toNat).1
    let b (t : Thread) := (obits iss.snap t 1 x.b).1
    let r (t : Thread) := fmaR spec32 t.rm [(fval specB (a t % 65536), fval specB (b t % 65536)),
      (fval specB (a t / 65536), fval specB (b t / 65536))] [fval spec32 (vbits t 1 x.d.toNat).1]
    (∀ t ∈ g.threads, t.lane ∈ iss.lanes → t.enabled (r t).2 = 0) →
    exec (.fdot2 x) s = .next (lanesDo s iss 1 fun t =>
      (t.vput 1 x.d.toNat (r t).1 ((vbits t 1 x.a.toNat).2 || (obits iss.snap t 1 x.b).2 || (vbits t 1 x.d.toNat).2)).flag (r t).2)) ∧
  (∀ x : PackF, ∀ s iss g, Passes (.pack x) s iss g →
    let n := match x.dst with | .bf16 => 2 | _ => 4
    let r (t : Thread) := (List.range n).map fun i => cvtffR (ffspec x.dst) x.sat (t.rnd x.rnd) (fval spec32 (t.vget (x.a.toNat + i)).w.toNat)
    let fl (t : Thread) := (r t).foldl (fun f e => f ||| e.2) 0
    (∀ t ∈ g.threads, t.lane ∈ iss.lanes → t.enabled (fl t) = 0) →
    exec (.pack x) s = .next (lanesDo s iss 1 fun t =>
      (t.vput 1 x.d.toNat ((r t).foldr (fun e acc => e.1 + (match x.dst with | .bf16 => 65536 | _ => 256) * acc) 0)
        ((List.range n).any fun i => (t.vget (x.a.toNat + i)).poi)).flag (fl t))) ∧
  (∀ x : UnpkF, ∀ s iss g, Passes (.unpk x) s iss g →
    let n := match x.src with | .bf16 => 2 | _ => 4
    let sz := match x.src with | .bf16 => 65536 | _ => 256
    let r (t : Thread) := (List.range n).map fun i => cvtffR spec32 false 0 (fval (ffspec x.src) ((t.vget x.a.toNat).w.toNat / sz ^ i % sz))
    let fl (t : Thread) := (r t).foldl (fun f e => f ||| e.2) 0
    (∀ t ∈ g.threads, t.lane ∈ iss.lanes → t.enabled (fl t) = 0) →
    exec (.unpk x) s = .next (lanesDo s iss 1 fun t =>
      ((List.range n).foldl (fun u i => u.vput 1 (x.d.toNat + i) ((r t).getD i (0, 0)).1 (t.vget x.a.toNat).poi) t).flag (fl t)))

/-- The lane instructions (06_lanes_float.md). -/
def Obligations.LaneResults : Prop :=
  (∀ row ∈ exRows, ∀ x : LaneF, ∀ s iss g, Passes (row.1 x) s iss g →
    exec (row.1 x) s = .next (lanesDo s iss 1 fun t =>
      let b := bval iss.snap t x.b
      let o := (srcLane g iss t.lane (row.2 (visible g.coursed t.lane) b.w)).getD t
      t.vset x.d.toNat ⟨(o.vget x.a.toNat).w, (o.vget x.a.toNat).poi || b.poi⟩)) ∧
  (∀ x : LvoteF, ∀ s iss g, Passes (.lvote x) s iss g → exec (.lvote x) s = .next (lanesDo s iss 1 fun t =>
    let ts := activeOf g iss t.lane
    let all := ts.all fun u => u.pval x.a.toNat
    let none_ := ts.all fun u => !u.pval x.a.toNat
    t.pset x.d.toNat (match x.op with | .all => all | .any => !none_ | .uni => all || none_) (ts.any fun u => u.ppoi x.a.toNat))) ∧
  (∀ x : LballF, ∀ s iss g, Passes (.lball x) s iss g → exec (.lball x) s = .next (lanesDo s iss 1 fun t =>
    let ts := activeOf g iss t.lane
    if ts.any fun u => u.ppoi x.p.toNat then t.vset64 x.d.toNat ⟨0, true⟩
    else t.vset64 x.d.toNat ⟨laneMask ((ts.filter fun u => u.pval x.p.toNat).map fun u => visible g.coursed u.lane), false⟩)) ∧
  (∀ x : Un, ∀ s iss g, Passes (.lfirst x) s iss g →
    let first (me : Nat) : Reg := ((activeOf g iss me).head?.map fun t => t.vget x.a.toNat).getD {}
    exec (.lfirst x) s = .next (if x.u then advance (s.setS iss.gid x.d.toNat (first 0)) iss 1
      else lanesDo s iss 1 fun t => t.vset x.d.toNat (first t.lane))) ∧
  (∀ (scan : Bool) (x : LredF), let i := if scan then Instr.lscan x else .lred x
    ∀ s iss g, Passes i s iss g →
    let n := match x.op with | .iadd64 => 2 | .fadd64 => 2 | _ => 1
    let out (t : Thread) := redScan x.op n x.a.toNat (activeOf g iss t.lane)
    let mine (t : Thread) := if scan then (out t).1.find? fun o => o.1 == t.lane else (out t).1.getLast?
    (∀ t ∈ g.threads, t.lane ∈ iss.lanes → t.enabled (out t).2 = 0) →
    exec i s = .next (lanesDo s iss 1 fun t =>
      match mine t with
      | some e => (t.vput n x.d.toNat e.2.1 e.2.2).flag (out t).2
      | none => t.flag 0))

/-- Where the control transfers go, and when they trap (07_group.md; 03_encoding.md). -/
def Obligations.ControlTransferResults : Prop :=
  (∀ (i : Instr) (n : Nat) (tgt : Thread → Option Word) (upd : Thread → Thread) (s : State) (iss : Issue) (g : Group),
    ((∃ off, i = .br off ∧ n = 1 ∧ upd = id ∧ tgt = fun t => some (relTarget t off)) ∨
     (∃ p off, i = .brp p off ∧ n = 1 ∧ upd = id ∧ (∀ t ∈ g.threads, t.lane ∈ iss.lanes → t.ppoi p.toNat = false) ∧
       tgt = fun t => if t.pval p.toNat then some (relTarget t off) else none) ∨
     (∃ p off, i = .brnp p off ∧ n = 1 ∧ upd = id ∧ (∀ t ∈ g.threads, t.lane ∈ iss.lanes → t.ppoi p.toNat = false) ∧
       tgt = fun t => if t.pval p.toNat then none else some (relTarget t off)) ∨
     (∃ w, i = .jmp w ∧ n = 2 ∧ upd = id ∧ tgt = fun _ => some w) ∨
     (∃ a, i = .jmpInd a ∧ n = 1 ∧ upd = id ∧ (∀ t ∈ g.threads, t.lane ∈ iss.lanes → (t.vget a.toNat).poi = false) ∧
       tgt = fun t => some (t.vget a.toNat).w) ∨
     (∃ off, i = .call off ∧ n = 1 ∧ (upd = fun t => { t with stack := ((iss.pc + 4) :: t.stack).take 16 }) ∧
       tgt = fun t => some (relTarget t off)) ∨
     (i = .ret ∧ n = 1 ∧ (upd = fun t => { t with stack := t.stack.tail }) ∧
       (∀ t ∈ g.threads, t.lane ∈ iss.lanes → t.stack.isEmpty = false) ∧ tgt = fun t => some (t.stack.headD 0))) →
    Passes i s iss g → coursedTargets g iss tgt = [] →
    (∀ t ∈ g.threads, t.lane ∈ iss.lanes → ∀ pc, tgt t = some pc →
      slideTargetBad s g (placeOf s g).2 (slideOf s g) pc.toNat = none ∧
      inFret (placeOf s g).2 (slideOf s g) t pc.toNat = true) →
    (∀ t ∈ g.threads, t.lane ∈ iss.lanes → tgt t = none → inFret (placeOf s g).2 (slideOf s g) t (t.advance n).pc.toNat = true) →
    exec i s = .next (s.mapLanes iss.gid iss.lanes fun t =>
      match tgt t with
      | some pc => (upd t).goto pc
      | none => t.advance n)) ∧
  ((∀ (p : PReg) (off : BitVec 14) (neg : Bool) (s : State) (iss : Issue) (g : Group),
    let i := if neg then Instr.brnp p off else .brp p off
    let ls := lanesThat g fun t => iss.lanes.contains t.lane && t.ppoi p.toNat
    Passes i s iss g → ls ≠ [] →
    exec i s = .next (takeTrap s iss 0x08 { info0 := BitVec.ofNat 32 (0x100 + p.toNat), lanes := ls })) ∧
  (∀ (a : VReg) (s : State) (iss : Issue) (g : Group),
    let ls := lanesThat g fun t => iss.lanes.contains t.lane && (t.vget a.toNat).poi
    Passes (.jmpInd a) s iss g → ls ≠ [] →
    exec (.jmpInd a) s = .next (takeTrap s iss 0x08 { info0 := BitVec.ofNat 32 a.toNat, lanes := ls })) ∧
  (∀ (s : State) (iss : Issue) (g : Group),
    let ls := lanesThat g fun t => iss.lanes.contains t.lane && t.stack.isEmpty
    Passes .ret s iss g → ls ≠ [] →
    exec .ret s = .next (takeTrap s iss 0x03 { addr := 0xFFFFFFFF, lanes := ls })) ∧
  (∀ (off : BitVec 14) (s : State) (iss : Issue) (g : Group),
    Passes (.br off) s iss g → coursedTargets g iss (fun t => some (relTarget t off)) = [] →
    ∀ t cs sub a, (g.threads.filter fun t => iss.lanes.contains t.lane) = [t] →
    slideTargetBad s g (placeOf s g).2 (slideOf s g) (relTarget t off).toNat = some (cs, sub, a, false) →
    exec (.br off) s = .next (takeTrap s iss cs { sub := sub, addr := a, lanes := [t.lane] })))

/-- SLIDE sends the active threads to a fret, or traps with cause 0x41 (23_slide.md). -/
def Obligations.SlideDeparts : Prop :=
  (∀ (n : BitVec 8) (s t : State) (iss : Issue) (g : Group),
    let f := s.fret (s.ctxOf g) n.toNat
    let act := g.threads.filter fun u => iss.lanes.contains u.lane
    let c := (placeOf s g).2
    let pc := BitVec.ofNat 32 f.start
    Passes (.slide n) s iss g → slideOf s g = true → f.state = .inUse →
    coursedTargets g iss (fun _ => some pc) = [] → slideTargetBad s g c true pc.toNat = none → act ≠ [] →
    (act.all fun u => u.derr.isNone) = true → departBlocked s g (act.map (·.lane)) = false →
    departAll s (g.mapLanes (act.map (·.lane)) fun u => u.goto pc) c.id ((s.sweepOf g).getD {}).det false
      (act.map fun u => (u.lane, (fretAt c pc.toNat).getD 0, pc)) = .ok t →
    exec (.slide n) s = .next (t.mapLanes iss.gid (iss.lanes.filter fun l => !(act.map (·.lane)).contains l) fun u => u.goto pc)) ∧
  (∀ (n : BitVec 8) (s : State) (iss : Issue) (g : Group), Passes (.slide n) s iss g →
    (slideOf s g = false ∨ (s.fret (s.ctxOf g) n.toNat).state ≠ .inUse) →
    exec (.slide n) s = .next (takeTrap s iss 0x41 { addr := (s.fret (s.ctxOf g) n.toNat).start }))

/-- EXIT ends the active threads; TRAP and BKPT enter the handler (07_group.md; 26_faults.md). -/
def Obligations.ExitAndSoftwareTraps : Prop :=
  (∀ (s : State) (iss : Issue) (g : Group), Passes .exit s iss g → accsDone s iss.gid iss.lanes = true →
    exec .exit s = .next (exitLanes s iss.gid iss.lanes)) ∧
  (∀ (s : State) (iss : Issue) (g : Group), Passes .exit s iss g → accsDone s iss.gid iss.lanes = false →
    exec .exit s = .next (hold s iss .drained)) ∧
  (∀ (code : BitVec 8) (s : State) (iss : Issue) (g : Group), Passes (.trap code) s iss g →
    exec (.trap code) s = .next (takeTrap s iss 0x50 { info0 := code.setWidth 32, lanes := iss.lanes })) ∧
  (∀ (code : BitVec 8) (s : State) (iss : Issue) (g : Group), Passes (.bkpt code) s iss g →
    exec (.bkpt code) s = .next (takeTrap s iss 0x51 { info0 := code.setWidth 32, lanes := iss.lanes }))

/-- NOP has no effect, and YIELD only gives way (R152). -/
def Obligations.NopAndYield : Prop :=
  (∀ (s : State) (iss : Issue) (g : Group), Passes .nop s iss g → exec .nop s = .next (advance s iss)) ∧
  (∀ (s : State) (iss : Issue) (g : Group), Passes .yield s iss g →
    ∃ t, exec .yield s = .next t ∧ sameMem s t ∧
      (∀ l, t.thread? iss.gid l = (advance s iss).thread? iss.gid l) ∧
      ∃ h, t.group? iss.gid = some h ∧ h.last = some s.cycle ∧ (h.counter (iss.pc + 4)).hold = s.cycle + 4 ∧
        (∀ c ls, (iss.pc + 4, ls) ∈ countersOf { t with cycle := c } h → s.cycle + 4 < c) ∧
        (∀ c, c ≤ s.cycle + 4 → ((passCounts { t with cycle := c } [] h).counter (iss.pc + 4)).passes ≤ (h.counter (iss.pc + 4)).passes)) ∧
  isTransfer .mix 0x67000000 = false

/-- Taking a trap, and the double trap (26_faults.md). -/
def Obligations.TrapEntry : Prop :=
  (∀ (s : State) (iss : Issue) (g : Group) (cause : Nat) (i : TrapInfo) (l : Nat) (t : Thread),
    s.group? iss.gid = some g → (g.threads.any fun t => iss.lanes.contains t.lane && t.handler) = false →
    s.thread? iss.gid l = some t → l ∈ iss.lanes →
    ∃ u, (takeTrap s iss cause i).thread? iss.gid l = some u ∧ u.handler = true ∧ u.pc = 0 ∧ u.entered = false ∧
      u.needT = true ∧ u.frame.v = true ∧ u.frame.cause = cause ∧ u.frame.pc = iss.pc ∧ u.frame.addr = i.addr ∧
      u.frame.sub = i.sub ∧ u.frame.resume = i.resume.getD (resumeOf cause) ∧ u.frame.info0 = i.info0 ∧
      u.v = t.v ∧ u.pv = t.pv ∧ u.pp = t.pp ∧ u.fctl = t.fctl ∧ u.k = t.k ∧ u.stack = t.stack ∧ u.po = t.po ∧
      u.exited = t.exited) ∧
  (∀ (s : State) (iss : Issue) (g : Group) (cause : Nat) (i : TrapInfo),
    s.group? iss.gid = some g → (g.threads.any fun t => iss.lanes.contains t.lane && t.handler) = true →
    let s₁ : State := { s with issues := s.issues.filter fun x => x.gid != iss.gid }
    let s' := if cause = 0x0D then noteWorld s₁ else s₁
    takeTrap s iss cause i =
      exitLanes (q0Push s' (s'.ctxOf g) (eventItem 9 iss.pc.toNat 0)) iss.gid iss.lanes)

/-- TRET returns each lane by its own frame, and traps outside the Handler state (26_faults.md). -/
def Obligations.TrapReturn : Prop :=
  (∀ (s : State) (iss : Issue) (g : Group), Passes .tret s iss g →
    (∀ t ∈ g.threads, t.lane ∈ iss.lanes → t.handler = true ∧ tretBad s g (placeOf s g).2 iss.pc t = none ∧
      (t.frame.resume ≠ 2 → inFret (placeOf s g).2 (slideOf s g) t t.tret.pc.toNat = true)) →
    let act := g.threads.filter fun t => iss.lanes.contains t.lane
    let s' := s.mapLanes iss.gid ((act.filter fun t => t.frame.resume != 2).map (·.lane)) Thread.tret
    let ends := (act.filter fun t => t.frame.resume == 2).map (·.lane)
    exec .tret s = .next (if ends.isEmpty then s' else exitLanes s' iss.gid ends) ∧
    ∀ t ∈ g.threads, t.lane ∈ iss.lanes →
      t.tret.handler = false ∧ t.tret.frame.v = false ∧ t.tret.v = t.v ∧ t.tret.stack = t.stack ∧
      (t.frame.resume = 0 → t.tret.pc = t.frame.pc) ∧
      (t.frame.resume = 1 → t.tret.pc = t.frame.pc + (if t.frame.lit then 8 else 4))) ∧
  (∀ (s : State) (iss : Issue) (g : Group), Passes .tret s iss g →
    let ls := ((g.threads.filter fun t => iss.lanes.contains t.lane).filter fun t => !t.handler).map (·.lane)
    ls ≠ [] → exec .tret s = .next (takeTrap s iss 0x01 { lanes := ls }))

/-- A privileged instruction in a context without privilege traps with cause 0x04 (03_encoding.md; 26_faults.md). -/
def Obligations.PrivilegeTraps : Prop :=
  ∀ (i : Instr) (s : State) (iss : Issue) (g : Group),
    (i = .tret ∨ (∃ r, i = .bsave r) ∨ (∃ r, i = .brst r) ∨ (∃ a r, i = .csave a r) ∨ (∃ a r, i = .crst a r) ∨
     (∃ a r, i = .fmapw a r) ∨ i = .tlbiCtx ∨ (∃ a, i = .tlbiPage a) ∨ i = .tlbiAll ∨ (∃ a r, i = .rngw a r) ∨
     (∃ a b, i = .pgmig a b) ∨ (∃ a, i = .pgpin a) ∨ (∃ a, i = .pgpinUnpin a) ∨ (∃ n, i = .wcall n) ∨ i = .idle ∨
     i = .halt ∨ (∃ a b, i = .frecl a b) ∨
     (∃ x : SrdF, (i = .srd x ∨ i = .hqpop x) ∧ (srdPriv x.num.toNat || x.other) = true) ∨
     (∃ x : SwrF, i ∈ [.swr x, .ctxset x, .cmaskWrite x, .rgnrst x, .ctlcmd x, .qcmdCreate x, .qcmdDestroy x, .qbudget x, .qlate x,
       .pagecfg x, .frmpush x, .partmask x] ∧ (!swrFree x.num.toNat || x.other) = true)) →
    s.cur = some iss → s.group? iss.gid = some g → s.privOf g = false →
    exec i s = .next (takeTrap s iss 0x04)

/-- A register at or above the declared count traps with cause 0x01 (05_thread.md; 03_encoding.md). -/
def Obligations.RegisterAndFormTraps : Prop :=
  (∀ (i : Instr) (s : State) (iss : Issue) (g : Group), s.cur = some iss → s.group? iss.gid = some g →
    (∃ r ∈ (regsOf iss.snap i).vr ++ (regsOf iss.snap i).vw, g.regs ≤ r) → (∃ eff, ∀ u, exec i u = issued i eff u) →
    exec i s = .next (takeTrap s iss 0x01)) ∧
  (∀ x : Bx, ∃ eff, ∀ u, exec (.iadd x) u = issued (.iadd x) eff u)

/-- An uncorrectable operand register and a pending deferred error trap (05_thread.md; 26_faults.md; 07_group.md; 10_barrier.md). -/
def Obligations.RegisterErrorTraps : Prop :=
  ((∀ (x : PchkF) (s : State) (iss : Issue) (g : Group) (loc : ErrLoc), s.cur = some iss → s.group? iss.gid = some g →
    ((regsOf iss.snap (.pchk x)).vr.all fun r => decide (r < g.regs)) = true →
    regsPending s iss (regsOf iss.snap (.pchk x)) = false → errAt g iss (regsOf iss.snap (.pchk x)) true = some loc →
    exec (.pchk x) s = .next (takeTrap (tallyErrs (healthPush s 0x01 g.core (errCode loc).1) [loc] true) iss 0x30
      { info0 := BitVec.ofNat 32 (errCode loc).1,
        lanes := match loc with
          | .vreg _ _ _ => g.threads.filterMap fun t =>
              if iss.lanes.contains t.lane && t.verr.any fun e => e.2 && (regsOf iss.snap (.pchk x)).vr.contains e.1 then some t.lane else none
          | _ => [] })) ∧
  (∀ (x : Bx) (s : State) (iss : Issue) (g : Group), Passes (.iadd x) s iss g → x.u = false →
    ∃ t, exec (.iadd x) s = .next t ∧ ∀ l ∈ iss.lanes, ∀ u, s.thread? iss.gid l = some u →
      ∃ w, t.thread? iss.gid l = some w ∧ w.verr = u.verr.filter fun e => e.1 != x.d.toNat)) ∧
  (∀ (s : State) (iss : Issue) (g : Group) (l : Nat) (t : Thread) (d : DErr), s.cur = some iss → s.group? iss.gid = some g →
    s.corrected = [] → xferOpen s iss.gid iss.lanes = false → minOf (derrLanes g iss) = some l → g.thread? l = some t → t.derr = some d →
    exec .exit s = .next (takeTrap (s.mapLanes iss.gid (pairOf g l) fun t => { t with derr := none }) iss d.cause
      { sub := d.sub, addr := d.addr, info0 := d.info.getD 0 0, info1 := d.info.getD 1 0, info2 := d.info.getD 2 0,
        info3 := d.info.getD 3 0, lanes := derrLanes g iss, dfr := true }))

/-- Barrier, exchange and XST instructions trap in a slide sweep (23_slide.md). -/
def Obligations.SlideSweepForbids : Prop :=
  ∀ (i : Instr) (s : State) (iss : Issue) (g : Group),
    ((∃ b, i = .bar b ∨ i = .bara b ∨ i = .barw b) ∨ (∃ b a p, i = .bart b a p) ∨ i = .gbar ∨ (∃ d a, i = .xjoin d a) ∨
     (∃ a, i = .xleave a) ∨ i = .xbar ∨ (∃ x, i = .xst x)) →
    s.cur = some iss → s.group? iss.gid = some g → slideOf s g = true → exec i s = .next (takeTrap s iss 0x01)

/-- SADD and SSUB clamp the exact result and set FCTL.SAT (R92). -/
def Obligations.SaturatingAddRule : Prop :=
  ∀ (x : Bx) (sub : Bool) (s : State) (iss : Issue) (g : Group),
    let i := if sub then Instr.ssub x else .sadd x
    let lo : Int := if x.f then 0 else -(2 ^ 31)
    let hi : Int := if x.f then 2 ^ 32 - 1 else 2 ^ 31 - 1
    let v (w : Word) : Int := if x.f then w.toNat else w.toInt
    let exact_ (a b : Val) : Int := if sub then v a.w - v b.w else v a.w + v b.w
    let noted (a b : Val) (u : Thread) : Thread :=
      if lo ≤ exact_ a b ∧ exact_ a b ≤ hi then u else { u with fctl := u.fctl ||| 0x4000 }
    Passes i s iss g → ∃ t, exec i s = .next t ∧
    (x.u = false → ∀ l u, l ∈ iss.lanes → s.thread? iss.gid l = some u →
      let a := u.vget x.a.toNat
      let b := bval iss.snap u x.b
      ∃ r : Word, v r = max lo (min hi (exact_ a b)) ∧
        t.thread? iss.gid l = some (((noted a b u).vset x.d.toNat ⟨r, a.poi || b.poi⟩).advance 1)) ∧
    (x.u = true →
      let a := sget {} iss.snap x.a.toNat
      let b := ubval iss.snap x.b
      (∃ r : Word, v r = max lo (min hi (exact_ a b)) ∧
        (t.group? iss.gid).map (fun g' => sget {} g'.s x.d.toNat) = some ⟨r, a.poi || b.poi⟩) ∧
      ∀ l u, l ∈ iss.lanes → s.thread? iss.gid l = some u → t.thread? iss.gid l = some ((noted a b u).advance 1))

/-- SHL64 and SHR64 by any amount (05_thread.md). -/
def Obligations.Shift64Rule : Prop :=
  ∀ (x : Bx) (s : State) (iss : Issue) (g : Group), x.u = false →
    (Passes (.shl64 x) s iss g → ∃ t, exec (.shl64 x) s = .next t ∧ ∀ l u, l ∈ iss.lanes → s.thread? iss.gid l = some u →
      let a := vpair u x.a.toNat
      let b := bval iss.snap u x.b
      t.thread? iss.gid l = some ((u.vset64 x.d.toNat
        ⟨if b.w.toNat < 64 then BitVec.ofNat 64 (a.w.toNat * 2 ^ b.w.toNat) else 0, a.poi || b.poi⟩).advance 1)) ∧
    (Passes (.shr64 x) s iss g → ∃ t, exec (.shr64 x) s = .next t ∧ ∀ l u, l ∈ iss.lanes → s.thread? iss.gid l = some u →
      let a := vpair u x.a.toNat
      let b := bval iss.snap u x.b
      t.thread? iss.gid l = some ((u.vset64 x.d.toNat
        ⟨if b.w.toNat < 64 then (if x.f then BitVec.ofInt 64 (a.w.toInt / 2 ^ b.w.toNat) else BitVec.ofNat 64 (a.w.toNat / 2 ^ b.w.toNat))
          else if x.f && a.w.msb then BitVec.allOnes 64 else 0, a.poi || b.poi⟩).advance 1)) ∧
    ((Instr.shl64 x).wf = true → x.f = false ∧ even x.d = true ∧ even x.a = true) ∧
    ((Instr.shr64 x).wf = true → even x.d = true ∧ even x.a = true)

/-- What register and uniform instructions leave unchanged, and that the float, lane, move and predicate instructions complete (05_thread.md; 06_lanes_float.md; 04_numbers.md). -/
def Obligations.RegisterFrames : Prop :=
  (∀ (i : Instr) (d : Nat) (n : Nat) (s t : State) (iss : Issue) (g : Group),
    ((∃ row ∈ bxRows, ∃ x : Bx, x.u = false ∧ i = row.1 x ∧ d = x.d.toNat ∧ n = 1) ∨
     (∃ row ∈ bxRows64, ∃ x : Bx, x.u = false ∧ i = row.1 x ∧ d = x.d.toNat ∧ n = 2) ∨
     (∃ row ∈ unRows, ∃ x : Un, x.u = false ∧ i = row.1 x ∧ d = x.d.toNat ∧ n = 1) ∨
     (∃ x : SelF, i = .sel x ∧ d = x.d.toNat ∧ n = 1) ∨
     (∃ x : MovF, x.u = false ∧ i = .mov x ∧ d = x.d.toNat ∧ n = 1) ∨
     (∃ row ∈ exRows, ∃ x : LaneF, i = row.1 x ∧ d = x.d.toNat ∧ n = 1)) →
    Passes i s iss g → exec i s = .next t →
    sameMem s t ∧ t.ctxs = s.ctxs ∧ t.wgs = s.wgs ∧ t.cores = s.cores ∧ t.accs = s.accs ∧ t.cmds = s.cmds ∧
    t.xfers = s.xfers ∧ t.queues = s.queues ∧ t.domains = s.domains ∧ t.marks = s.marks ∧ t.cycle = s.cycle ∧
    (∀ k r, t.sreg k r = s.sreg k r) ∧
    (∀ k l u, s.thread? k l = some u → ¬ (k = iss.gid ∧ l ∈ iss.lanes) → t.thread? k l = some u) ∧
    (∀ l u, s.thread? iss.gid l = some u → l ∈ iss.lanes → ∃ w, t.thread? iss.gid l = some w ∧ sameThread u w ∧
      w.pv = u.pv ∧ w.pp = u.pp ∧ w.po = u.po ∧ (w.fctl = u.fctl ∨ w.fctl = u.fctl ||| 0x4000) ∧
      ∀ r, ¬ (d ≤ r ∧ r < d + n) → w.vget r = u.vget r)) ∧
  (∀ (i : Instr) (d n : Nat) (s t : State) (iss : Issue) (g : Group),
    ((∃ row ∈ bxRows, ∃ x : Bx, x.u = true ∧ i = row.1 x ∧ d = x.d.toNat ∧ n = 1) ∨
     (∃ row ∈ bxRows64, ∃ x : Bx, x.u = true ∧ i = row.1 x ∧ d = x.d.toNat ∧ n = 2) ∨
     (∃ row ∈ unRows, ∃ x : Un, x.u = true ∧ i = row.1 x ∧ d = x.d.toNat ∧ n = 1) ∨
     (∃ x : MoviF, x.u = true ∧ i = .movi x ∧ d = x.d.toNat ∧ n = 1)) →
    Passes i s iss g → exec i s = .next t →
    sameMem s t ∧ t.ctxs = s.ctxs ∧ t.wgs = s.wgs ∧ t.cores = s.cores ∧ t.accs = s.accs ∧ t.cmds = s.cmds ∧
    t.xfers = s.xfers ∧ t.queues = s.queues ∧ t.domains = s.domains ∧ t.cycle = s.cycle ∧
    (∀ k r, ¬ (k = iss.gid ∧ d ≤ r ∧ r < d + n) → t.sreg k r = s.sreg k r) ∧
    (∀ k l u, s.thread? k l = some u → ∃ w, t.thread? k l = some w ∧ sameThread u w ∧ w.v = u.v ∧ w.pv = u.pv ∧
      w.pp = u.pp ∧ w.po = u.po)) ∧
  (∀ (i : Instr) (d n m : Nat) (p : Option Nat) (s : State) (iss : Issue) (g : Group),
    ((∃ row ∈ fbRows, ∃ x : Fb, i = row.1 x ∧ d = x.d.toNat ∧ n = fmtRegs x.fmt ∧ m = 1 ∧ p = none) ∨
     (∃ x : Fb, i = .fscale x ∧ d = x.d.toNat ∧ n = fmtRegs x.fmt ∧ m = 1 ∧ p = none) ∨
     (∃ x : FsgnF, i = .fsgn x ∧ d = x.d.toNat ∧ n = (if x.f64 then 2 else 1) ∧ m = 1 ∧ p = none) ∨
     (∃ row ∈ f1Rows, ∃ x : F1, i = row.1 x ∧ d = x.d.toNat ∧ n = 1 ∧ m = 1 ∧ p = none) ∨
     (∃ x : Fu, (i = .fsqrt x ∨ i = .fclass x) ∧ d = x.d.toNat ∧ n = fmtRegs x.fmt ∧ m = 1 ∧ p = none) ∨
     (∃ x : FrndF, i = .frnd x ∧ d = x.d.toNat ∧ n = (if x.f64 then 2 else 1) ∧ m = 1 ∧ p = none) ∨
     (∃ x : CvtIntF, i = .cvtif x ∧ d = x.d.toNat ∧ n = ffmtRegs x.ft ∧ m = 1 ∧ p = none) ∨
     (∃ x : CvtIntF, i = .cvtfi x ∧ d = x.d.toNat ∧ n = itypeRegs x.it ∧ m = 1 ∧ p = none) ∨
     (∃ x : CvtFFF, i = .cvtff x ∧ d = x.d.toNat ∧ n = ffmtRegs x.dst ∧ m = 1 ∧ p = none) ∨
     (∃ x : PackF, i = .pack x ∧ d = x.d.toNat ∧ n = 1 ∧ m = 1 ∧ p = none) ∨
     (∃ x : UnpkF, i = .unpk x ∧ d = x.d.toNat ∧ n = (match x.src with | .bf16 => 2 | _ => 4) ∧ m = 1 ∧ p = none) ∨
     (∃ x : Dot2F, i = .fdot2 x ∧ d = x.d.toNat ∧ n = 1 ∧ m = 1 ∧ p = none) ∨
     (∃ row ∈ exRows, ∃ x : LaneF, i = row.1 x ∧ d = x.d.toNat ∧ n = 1 ∧ m = 1 ∧ p = none) ∨
     (∃ x : LballF, i = .lball x ∧ d = x.d.toNat ∧ n = 2 ∧ m = 1 ∧ p = none) ∨
     (∃ x : LredF, (i = .lred x ∨ i = .lscan x) ∧ d = x.d.toNat ∧ n = (match x.op with | .iadd64 => 2 | .fadd64 => 2 | _ => 1) ∧
       m = 1 ∧ p = none) ∨
     (∃ x : Un, x.u = false ∧ i = .lfirst x ∧ d = x.d.toNat ∧ n = 1 ∧ m = 1 ∧ p = none) ∨
     (∃ x : MovlF, x.u = false ∧ i = .movl x ∧ d = x.d.toNat ∧ n = 1 ∧ m = 2 ∧ p = none) ∨
     (∃ x : MovsF, x.u = false ∧ i = .movs x ∧ d = x.d.toNat ∧ n = (if x.num.toNat = 0x0A then 2 else 1) ∧ m = 1 ∧ p = none) ∨
     (∃ x : VReg, i = .getfc x ∧ d = x.toNat ∧ n = 1 ∧ m = 1 ∧ p = none) ∨
     (∃ x : FcmpF, i = .fcmp x ∧ n = 0 ∧ m = 1 ∧ p = some x.p.toNat) ∨ (∃ x : IcmpF, i = .icmp x ∧ n = 0 ∧ m = 1 ∧ p = some x.p.toNat) ∨
     (∃ x : LvoteF, i = .lvote x ∧ n = 0 ∧ m = 1 ∧ p = some x.d.toNat) ∨ (∃ x : PlopF, i = .plop x ∧ n = 0 ∧ m = 1 ∧ p = some x.d.toNat) ∨
     (∃ x : PchkF, i = .pchk x ∧ n = 0 ∧ m = 1 ∧ p = some x.p.toNat)) →
    Passes i s iss g → (∀ u ∈ g.threads, u.lane ∈ iss.lanes → (u.fctl >>> 16).setWidth 5 = 0#5) →
    ∃ t, exec i s = .next t ∧ sameMem s t ∧ t.ctxs = s.ctxs ∧ t.wgs = s.wgs ∧ t.cores = s.cores ∧ t.accs = s.accs ∧ t.cmds = s.cmds ∧
      t.xfers = s.xfers ∧ t.queues = s.queues ∧ t.domains = s.domains ∧ t.marks = s.marks ∧ t.cycle = s.cycle ∧ restStays s t iss ∧
      ∀ l u, s.thread? iss.gid l = some u → l ∈ iss.lanes → ∃ w, t.thread? iss.gid l = some w ∧ sameThread u w ∧ w.po = u.po ∧
        w.pc = u.pc + BitVec.ofNat 32 (4 * m) ∧ w.fctl &&& 0xFFFFE0FF = u.fctl &&& 0xFFFFE0FF ∧
        (∀ k, k < 8 → p ≠ some k → w.pval k = u.pval k ∧ w.ppoi k = u.ppoi k) ∧ ∀ r, ¬ (d ≤ r ∧ r < d + n) → w.vget r = u.vget r)

/-- LD, LDACQ, ST, STREL and XST leave one access for each lane and go on (08_memory.md; 09_ordering.md). -/
def Obligations.LoadsAndStoresIssue : Prop :=
  (∀ (x : LsF) (acq : Bool) (s s' : State) (iss : Issue) (g : Group) (ls : List (Thread × Nat × Loc)),
    let i := if acq then Instr.ldacq x else .ld x
    let r := recAt iss.snap x.r
    let p := placeOf s g
    Passes i s iss g → accessSteps s iss g r x.r x.i (loadForm iss.snap r x acq) = .go ls [] [] →
    (∀ y ∈ ls, ∃ sp k leaf, y.2.2 = .at_ sp k leaf ∧ (r.kind = 7 → leaf.testBit 5 = true)) →
    (detOf s g = true → r.kind ≠ 0 ∧ r.kind ≠ 7) → (acq = true → accsDone s iss.gid iss.lanes = true) →
    raceCheck (fillFor s g.core p.2 r ls) iss g p.1 (touches r (r.sc x.sc) (placedOf ls) false acq) = .go s' →
    ∃ t, exec i s = .next t ∧ sameMem s t ∧ goneOn s t iss 1 ∧ restStays s t iss ∧ (∀ a ∈ s.accs, a ∈ t.accs) ∧
      ∀ y ∈ ls, ∀ sp k leaf, y.2.2 = .at_ sp k leaf →
        outstanding s t iss .load (wdBytes iss.snap x.wd x.r) acq sp { lane := y.1.lane, va := r.addr y.2.1, keys := k, dst := x.d.toNat }) ∧
  (∀ (x : LsF) (rel xst : Bool) (s s' : State) (iss : Issue) (g : Group) (ls : List (Thread × Nat × Loc)),
    let i := if xst then Instr.xst x else if rel then .strel x else .st x
    let r := recAt iss.snap x.r
    let p := placeOf s g
    let wid := wdBytes iss.snap x.wd x.r
    (xst = true → rel = false) → Passes i s iss g → accessSteps s iss g r x.r x.i (storeForm iss.snap r x rel xst) = .go ls [] [] →
    storeFault s iss r ls true = none → (xst = true → xstStalled s p.1 r ls = false) → (detOf s g = true → r.kind ≠ 0) →
    (rel = true → drained s iss.gid iss.lanes = true ∧ (r.sc x.sc = 3 → ∀ q ∈ s.posted, ¬ (q.1 = iss.gid ∧ q.2.1 ∈ iss.lanes))) →
    raceCheck (fillFor s g.core p.2 r ls) iss g p.1 (touches r (r.sc x.sc) (placedOf ls) true rel) = .go s' →
    ∃ t, exec i s = .next t ∧ sameMem s t ∧ goneOn s t iss 1 ∧ restStays s t iss ∧ (∀ a ∈ s.accs, a ∈ t.accs) ∧
      ∀ y ∈ ls, ∀ sp k leaf, y.2.2 = .at_ sp k leaf →
        outstanding s t iss .store wid rel sp
          { lane := y.1.lane, va := r.addr y.2.1, keys := k, data := y.1.bytesOf x.d.toNat (regsOfBytes wid) wid }) ∧
  (∀ (x : LsF) (rel : Bool) (s s' : State) (iss : Issue) (g : Group) (y : Sweep) (ls : List (Thread × Nat × Loc)),
    let i := if rel then Instr.strel x else .st x
    let r := recAt iss.snap x.r
    let wid := wdBytes iss.snap x.wd x.r
    Passes i s iss g → accessSteps s iss g r x.r x.i (storeForm iss.snap r x rel false) = .go ls [] [] → storeFault s iss r ls true = none →
    s.sweepOf g = some y → y.det = true → y.slide = false → r.kind = 0 → sparseWf {} s.cores = true →
    raceCheck (fillFor s g.core (placeOf s g).2 r ls) iss g (placeOf s g).1 (touches r (r.sc x.sc) (placedOf ls) true rel) = .go s' →
    ((stagedOf s y.id).filter fun e => e.wg == g.wg).length + ls.length ≤ stageShare y →
    ∃ t, exec i s = .next t ∧ sameMem s t ∧ goneOn s t iss 1 ∧ restStays s t iss ∧ t.accs = s.accs ∧
      ∀ z ∈ ls, ∃ e ∈ (t.core g.core).stage, s.nextId ≤ e.id ∧ e.gid = g.gid ∧ e.lane = z.1.lane ∧ e.va = r.addr z.2.1 ∧ e.wid = wid ∧
        e.op = none ∧ e.sync = rel ∧ e.data = z.1.bytesOf x.d.toNat (regsOfBytes wid) wid)

/-- Atomics: what they issue and what each leaves in memory (09_ordering.md; 10_barrier.md). -/
def Obligations.AtomicsIssue : Prop :=
  (∀ (i : Instr) (X : AtSpec) (s s' : State) (iss : Issue) (g : Group) (ls : List (Thread × Nat × Loc)),
    ((∃ row ∈ atRows, ∃ x : AtF, i = row.1 x ∧ X = atSpec row.2.1 row.2.2 x iss) ∨ (∃ x : CsigF, i = .csig x ∧ X = csigSpec x iss)) →
    let r := recAt iss.snap X.r
    let p := placeOf s g
    Passes i s iss g → accessSteps s iss g r X.r X.i (X.form r) = .go ls [] [] →
    storeFault s iss r ls true = none → (detOf s g = true → r.kind = 1 ∨ r.kind = 2) →
    (X.rel = true → drained s iss.gid iss.lanes = true ∧ (r.sc X.sc = 3 → ∀ q ∈ s.posted, ¬ (q.1 = iss.gid ∧ q.2.1 ∈ iss.lanes))) →
    (X.acq = true → accsDone s iss.gid iss.lanes = true) →
    raceCheck (fillFor s g.core p.2 r ls) iss g p.1 (touches r (r.sc X.sc) (placedOf ls) true true) = .go s' →
    ∃ t, exec i s = .next t ∧ sameMem s t ∧ goneOn s t iss 1 ∧ restStays s t iss ∧ (∀ a ∈ s.accs, a ∈ t.accs) ∧
      ∀ y ∈ ls, ∀ sp k leaf, y.2.2 = .at_ sp k leaf →
        outstanding s t iss (.atomic X.op X.ret) r.es (X.acq || X.rel) sp
          { lane := y.1.lane, va := r.addr y.2.1, keys := k, dst := X.d, data := X.data y.1 }) ∧
  (∀ (o x : List Byte), (o.length = 4 ∨ o.length = 8) → x.length = o.length →
    let n := 8 * o.length
    let A := BitVec.ofNat n (ofLE o)
    let B := BitVec.ofNat n (ofLE x)
    (BitVec.ofNat n (ofLE (aopNew .add o x)) = A + B) ∧
    (BitVec.ofNat n (ofLE (aopNew .and o x)) = A &&& B) ∧ (BitVec.ofNat n (ofLE (aopNew .or o x)) = A ||| B) ∧
    (BitVec.ofNat n (ofLE (aopNew .xor o x)) = A ^^^ B) ∧ aopNew .xch o x = x ∧
    (BitVec.ofNat n (ofLE (aopNew .min o x))).toInt = min A.toInt B.toInt ∧
    (BitVec.ofNat n (ofLE (aopNew .max o x))).toInt = max A.toInt B.toInt ∧
    (∀ y : List Byte, y.length = o.length → aopNew .cas o (x ++ y) = if o = x then y else o) ∧
    (∀ op, op ≠ .cas → (aopNew op o x).length = o.length))

/-- LOAD_RETURN, STORE_ACK and ATOMIC_APPLY: what an access reads and writes, and that it writes nothing else (09_ordering.md). -/
def Obligations.AccessesEnd : Prop :=
  (∀ (id : Nat) (s : State) (a : Acc) (g : Group), s.acc? id = some a → a.op = .load → a.req = none → a.fetch = none → accReady s a = true →
    s.group? a.gid = some g → g.coursed = false → (a.lanes.map (·.lane)).Nodup →
    ∃ t, exec (.loadReturn id) s = .next t ∧ sameMem s t ∧ t.acc? id = none ∧
      ∀ l ∈ a.lanes, ∀ u, s.thread? a.gid l.lane = some u → ∃ w, t.thread? a.gid l.lane = some w ∧ w.pc = u.pc ∧
        let bad := match a.space with | .remote _ => none | _ => dataPoison s a.space l.keys
        let u' := match bad with
          | none => u.load l.dst (loadBytes s g a l)
          | some sub => u.fault l.dst (regsOfBytes a.wid) 0x08 sub l.va a.pc
        w.v = u'.v ∧ w.po = u'.po ∧
        ((∀ ad, a.space ≠ .remote ad) → (a.space = .dev → detOf s g = false) → loadBytes s g a l = l.keys.map fun k => (s.mem a.space).get k)) ∧
  (∀ (id : Nat) (s : State) (a : Acc), s.acc? id = some a → a.op = .store → accReady s a = true → locksOver s a = true →
    a.committed = false → partMarked s a = false → s.memWf = true →
    ∃ t, exec (.storeAck id) s = .next t ∧ t.acc? id = none ∧ (∀ sp, sp ≠ a.space → t.mem sp = s.mem sp) ∧
      (∀ c, (∀ l ∈ a.lanes, c ∉ l.keys) → (t.mem a.space).get c = (s.mem a.space).get c) ∧
      ∀ pre l post, a.lanes = pre ++ l :: post → l.keys.Nodup → ∀ (n c : Nat) (b : Byte), l.keys[n]? = some c → l.data[n]? = some b →
        (∀ m ∈ post, c ∉ m.keys) → (t.mem a.space).get c = b) ∧
  (∀ (id : Nat) (s : State) (a : Acc) (op : AOp) (ret : Bool), s.acc? id = some a → a.op = .atomic op ret → accReady s a = true →
    locksOver s a = true → a.committed = false → (∀ l ∈ a.lanes, dataPoison s a.space l.keys = none) →
    ∃ t, exec (.atomicApply id) s = .next t ∧ t.acc? id = none ∧ (∀ sp, sp ≠ a.space → t.mem sp = s.mem sp) ∧
      t.mem a.space = a.lanes.foldl (fun m l => putPairs m (l.keys.zip (aopNew op (l.keys.map m.get) l.data))) (s.mem a.space) ∧
      ∀ l u g, a.lanes = [l] → ret = true → a.req = none → a.fetch = none → s.group? a.gid = some g → g.coursed = false →
        s.thread? a.gid l.lane = some u → ∃ w, t.thread? a.gid l.lane = some w ∧ w.pc = u.pc ∧
          w.v = (u.load l.dst (l.keys.map fun k => (s.mem a.space).get k)).v)

/-- How accesses trap, and load lanes without a place (08_memory.md; 26_faults.md; 09_ordering.md). -/
def Obligations.AccessTraps : Prop :=
  (∀ (i : Instr) (x : LsF) (f : RegFile → Rec → Form) (s : State) (iss : Issue) (g : Group),
    ((i = .ld x ∧ f = fun sf r => loadForm sf r x false) ∨ (i = .ldacq x ∧ f = fun sf r => loadForm sf r x true) ∨
     (i = .st x ∧ f = fun sf r => storeForm sf r x false false) ∨ (i = .strel x ∧ f = fun sf r => storeForm sf r x true false) ∨
     (i = .xst x ∧ f = fun sf r => storeForm sf r x false true)) →
    let r := recAt iss.snap x.r
    let F := f iss.snap r
    let act := acting g iss
    Passes i s iss g → coursedDiff g iss F.cmp = [] →
    (r.poi = true → exec i s = .next (takeTrap s iss 0x08
      { info0 := BitVec.ofNat 32 (0x80 + (firstPoisonS iss.snap (recRegs x.r)).getD 0) })) ∧
    (r.poi = false → (F.k28 && r.kind == 7) = true →
      exec i s = .next (takeTrap s iss 0x28 { addr := (act.head?.map fun t => r.addr (t.idx x.i).w.toNat).getD r.base })) ∧
    (r.poi = false → (F.k28 && r.kind == 7) = false →
      (∀ sub, recBad r F.kinds F.ok8 = some sub → exec i s = .next (takeTrap s iss 0x05 { sub := sub })) ∧
      (recBad r F.kinds F.ok8 = none → ∀ t r', (act.filter fun t => (firstPoison t F.poison).isSome) = t :: r' →
        exec i s = .next (takeTrap s iss 0x08 { info0 := BitVec.ofNat 32 ((firstPoison t F.poison).getD 0), lanes := (t :: r').map (·.lane) })) ∧
      (recBad r F.kinds F.ok8 = none → (∀ t ∈ act, firstPoison t F.poison = none) → (∀ t ∈ act, (t.idx x.i).poi = false) →
        let mis := act.filter fun t => decide ((r.base + r.off (t.idx x.i).w.toNat) % F.wid ≠ 0)
        let out := act.filter fun t => !inRange s (placeOf s g).1 r (t.idx x.i).w.toNat F.wid F.store && t.fctl.getLsbD 21
        (mis ≠ [] → exec i s = .next (takeTrap s iss 0x05 { sub := 7, lanes := mis.map (·.lane) })) ∧
        (mis = [] → ∀ t r', out = t :: r' →
          exec i s = .next (takeTrap s iss 0x09 { addr := r.addr (t.idx x.i).w.toNat, lanes := out.map (·.lane) }))))) ∧
  (∀ (x : LsF) (s : State) (iss : Issue) (g : Group) (ls : List (Thread × Nat × Loc)) (oob poi : List Nat),
    let r := recAt iss.snap x.r
    let n := regsOfBytes (wdBytes iss.snap x.wd x.r)
    let d := x.d.toNat
    Passes (.ld x) s iss g → g.coursed = false → (g.threads.map (·.lane)).Nodup →
    accessSteps s iss g r x.r x.i (loadForm iss.snap r x false) = .go ls oob poi → detOf s g = false → r.kind ≠ 7 → tracked r (r.sc x.sc) = false →
    ∃ t, exec (.ld x) s = .next t ∧ sameMem s t ∧
      (∀ l ∈ poi, ∀ u, s.thread? iss.gid l = some u → l ∈ iss.lanes → ∃ w, t.thread? iss.gid l = some w ∧ w.pc = u.pc + 4 ∧
        w.fctl = u.fctl ∧ w.v = ((List.range n).foldl (fun t k => t.vset (d + k) ⟨0, true⟩) u).v) ∧
      (∀ l ∈ oob, ∀ u, s.thread? iss.gid l = some u → l ∈ iss.lanes → ∃ w, t.thread? iss.gid l = some w ∧ w.pc = u.pc + 4 ∧
        w.fctl = u.fctl ||| 0x2000 ∧ w.v = ((List.range n).foldl (fun t k => t.vset (d + k) {}) u).v) ∧
      (∀ y ∈ ls, ∀ cs sub u, y.2.2 = .fault cs sub → s.thread? iss.gid y.1.lane = some u → y.1.lane ∈ iss.lanes →
        ∃ w, t.thread? iss.gid y.1.lane = some w ∧ w.pc = u.pc + 4 ∧ w.fctl = u.fctl ∧
          w.v = (u.fault d n cs sub (r.addr y.2.1) iss.pc).v ∧ w.po = (u.fault d n cs sub (r.addr y.2.1) iss.pc).po))

/-- PREF only fills caches, and FENCE waits and opens the next region (09_ordering.md). -/
def Obligations.PrefetchAndFence : Prop :=
  (∀ (x : PrefF) (s : State) (iss : Issue) (g : Group),
    let r := recAt iss.snap x.r
    Passes (.pref x) s iss g → sparseWf {} s.cores = true → coursedDiff g iss [x.i.toNat] = [] → r.poi = false →
    recBad r [0, 6, 7] (scopeOk r.kind (r.sc x.sc)) = none →
    ∃ t, exec (.pref x) s = .next t ∧ sameMem s t ∧ goneOn s t iss 1 ∧ restStays s t iss ∧ t.accs = s.accs ∧ t.sliceDet = s.sliceDet ∧
      (x.l2 = true → ∀ c, (t.core c).cache = (s.core c).cache)) ∧
  (∀ (sc : Sc) (s : State) (iss : Issue) (g : Group), Passes (.fence sc) s iss g → sparseWf {} s.cores = true → drained s iss.gid iss.lanes = true →
    (sc = .sys → ∀ q ∈ s.posted, ¬ (q.1 = iss.gid ∧ q.2.1 ∈ iss.lanes)) →
    ∃ t, exec (.fence sc) s = .next t ∧ sameMem s t ∧ goneOn s t iss 1 ∧ restStays s t iss ∧
      ((sc = .qrt ∨ sc = .dev ∨ sc = .sys) → (t.core g.core).cache = []) ∧
      (∀ l ∈ iss.lanes, ∀ u, s.thread? iss.gid l = some u → ∃ w, t.thread? iss.gid l = some w ∧ w.region = u.region + 1)) ∧
  (∀ (sc : Sc) (s : State) (iss : Issue) (g : Group), Passes (.fence sc) s iss g → drained s iss.gid iss.lanes = false →
    exec (.fence sc) s = .next (hold s iss .drained))

/-- Named barriers, the gang barrier and DFLUSH (10_barrier.md; 25_determinism.md). -/
def Obligations.NamedBarriers : Prop :=
  (∀ (i : Instr) (op : BarOp) (n : BReg) (noWait : Bool) (s : State) (iss : Issue) (g : Group) (w : Wg),
    ((i = .bar n ∧ op = .both ∧ noWait = false) ∨ (i = .bara n ∧ op = .arrive ∧ noWait = false) ∨ (i = .barw n ∧ op = .await ∧ noWait = false) ∨
     (∃ a p, i = .bart n a p ∧ op = .both ∧ noWait = (sget {} iss.snap a.toNat).poi)) →
    Passes i s iss g → s.wg? g.wg = some w → sparseWf {} w.barriers = true → (s.wgs.map (·.id)).Nodup →
    (op ≠ .await → drained s iss.gid iss.lanes = true) →
    let b : Barrier := sget {} w.barriers n.toNat
    let m := barStep op g.coursed noWait (iss.lanes.map fun l => g.grpId * 64 + l) ⟨b.arrived, b.doneM, b.wait, b.count⟩
    let target := if b.expect = 0 then visCount (wgCoursed s w.id) (liveBits s w.id) else b.expect
    ∃ t w', exec i s = .next t ∧ sameMem s t ∧ t.wg? w.id = some w' ∧ (∀ k r, t.sreg k r = s.sreg k r) ∧
      (∀ l ∈ iss.lanes, ∀ u, s.thread? iss.gid l = some u → ∃ v, t.thread? iss.gid l = some v ∧ v.pc = u.pc + 4 ∧ v.v = u.v) ∧
      let b' : Barrier := sget {} w'.barriers n.toNat
      b'.expect = b.expect ∧
      (if 0 < m.1.count ∧ target ≤ m.1.count then b'.phase = b.phase + 1 ∧ b'.count = 0 ∧ b'.arrived = 0 ∧ b'.wait = 0 ∧
          b'.broken = decide (b.expect ≠ 0 ∧ visCount (wgCoursed s w.id) (liveBits s w.id) < b.expect)
       else b'.phase = b.phase ∧ b'.count = m.1.count ∧ b'.arrived = m.1.arrived) ∧
      (0 < m.1.count ∧ target ≤ m.1.count → ∀ l ∈ iss.lanes, ∀ v, t.thread? iss.gid l = some v → v.wait = .none)) ∧
  ((∀ (s : State) (iss : Issue) (g : Group) (w : Wg) (x : Gang), Passes .gbar s iss g → drained s iss.gid iss.lanes = true →
    s.wg? g.wg = some w → s.gang? w.gang = some x → (s.gangs.map (·.id)).Nodup →
    let base := 1024 * w.ident.gangWg + g.grpId * 64
    let m := barStep .both g.coursed false (iss.lanes.map fun l => base + l) ⟨x.bar.arrived, x.bar.doneM, x.bar.wait, x.bar.count⟩
    let crs := (s.wgs.find? fun v => v.gang = w.gang).elim false fun v => wgCoursed s v.id
    ∃ t y, exec .gbar s = .next t ∧ sameMem s t ∧ t.gang? w.gang = some y ∧
      (∀ l ∈ iss.lanes, ∀ u, s.thread? iss.gid l = some u → ∃ v, t.thread? iss.gid l = some v ∧ v.pc = u.pc + 4 ∧ v.v = u.v) ∧
      if 0 < m.1.count ∧ visCount crs (gangBits s w.gang) ≤ m.1.count then y.bar.phase = x.bar.phase + 1 ∧ y.bar.count = 0
      else y.bar.phase = x.bar.phase ∧ y.bar.count = m.1.count) ∧
  (∀ (s : State) (iss : Issue) (g : Group), Passes .dflush s iss g →
    (detOf s g = false → exec .dflush s = .next (advance s iss)) ∧
    (detOf s g = true → ∃ t, exec .dflush s = .next t ∧ sameMem s t ∧ goneOn s t iss 1 ∧ restStays s t iss ∧
      ∀ l ∈ iss.lanes, ∀ u, s.thread? iss.gid l = some u → ∃ v, t.thread? iss.gid l = some v ∧ v.epoch = u.epoch + 1 ∧ v.wait = .epoch)) ∧
  (∀ (n : Nat) (s : State), ∃ t, exec (.epochClose n) s = .next t ∧ sameMem s t ∧
    ∀ g ∈ s.groups, g.wg = n → ∀ u ∈ g.threads, u.wait = .epoch → epochOver s g u = true →
      ∃ h ∈ t.groups, h.gid = g.gid ∧ u.ready ∈ h.threads))

/-- WAITM watches an element and ends with its predicate; a poisoned comparand or limit ends it at once; BART times out (10_barrier.md). -/
def Obligations.MemoryWaits : Prop :=
  (∀ (x : WaitmF) (s : State) (iss : Issue) (g : Group) (ls : List (Thread × Nat × Loc)),
    let r := recAt iss.snap x.r
    Passes (.waitm x) s iss g → accessSteps s iss g r x.r x.i (waitForm r x) = .go ls [] [] → ls ≠ [] → g.coursed = false →
    (iss.lanes.all fun l => ls.any fun y => y.1.lane == l) = true → (ls.map fun y => y.1.lane).Nodup →
    (∀ h ∈ g.threads, ∀ w, h.wait = .waitm w → w.issue < s.nextId) → (detOf s g = true → r.kind ≠ 0 ∧ r.kind ≠ 7) →
    ((waitCmp r x iss.snap).poi || (sget {} iss.snap x.lim.toNat).poi) = true →
    ∃ t, exec (.waitm x) s = .next t ∧ sameMem s t ∧ ∀ l ∈ iss.lanes, ∀ u, s.thread? iss.gid l = some u →
      ∃ v, t.thread? iss.gid l = some v ∧ v.pc = u.pc + 8 ∧ v.v = u.v ∧ v.pv = (u.pset x.p.toNat false true).pv ∧
        v.pp = (u.pset x.p.toNat false true).pp) ∧
  (∀ (x : WaitmF) (s : State) (iss : Issue) (g : Group) (ls : List (Thread × Nat × Loc)),
    let r := recAt iss.snap x.r
    let c := waitCmp r x iss.snap
    let lim := sget {} iss.snap x.lim.toNat
    Passes (.waitm x) s iss g → accessSteps s iss g r x.r x.i (waitForm r x) = .go ls [] [] → g.coursed = false → (detOf s g = true → r.kind ≠ 0 ∧ r.kind ≠ 7) →
    (ls.map fun y => y.1.lane).Nodup → ls ≠ [] →
    c.poi = false → lim.poi = false → (∀ y ∈ ls, ∃ sp k leaf, y.2.2 = .at_ sp k leaf ∧ (r.kind = 7 → leaf.testBit 5 = true)) →
    (∀ h ∈ g.threads, ∀ w, h.wait = .waitm w → w.issue < s.nextId) → (∀ y ∈ ls, (g.thread? y.1.lane).isSome = true) →
    ∃ t, exec (.waitm x) s = .next t ∧ sameMem s t ∧ ∀ y ∈ ls, ∀ sp k leaf, y.2.2 = .at_ sp k leaf →
      ∃ v w, t.thread? iss.gid y.1.lane = some v ∧ v.wait = .waitm w ∧ w.sp = sp ∧ w.keys = k ∧ w.va = r.addr y.2.1 ∧ w.wid = r.es ∧
        w.cond = x.c ∧ w.cmp = c.w ∧ w.p = x.p.toNat ∧ w.until_ = limitEnd s lim.w ∧ w.res = none) ∧
  (∀ (gid lane : Nat) (value : BitVec 64) (hit : Bool) (i : Instr) (s : State) (g : Group) (u : Thread) (w : Watch),
    ((i = .waitmWake gid lane ∧ hit = true ∧ w.remote = false ∧ (w.seen = false → dataPoison s w.sp w.keys = none) ∧ watchNow s g u w = true) ∨
     (i = .waitmRemotePoll gid lane value ∧ hit = true ∧ w.remote = true ∧ (w.first || decide (s.cycle ≤ w.until_)) = true ∧
       watchCond w value.toNat = true ∧
       ∃ a, pollAcc s w = some a ∧ (a.sent.isSome || decide (a.space = .host)) = true ∧ behind s a = false) ∨
     (i = .waitmTimeout gid lane ∧ hit = false ∧ w.until_ ≤ s.cycle ∧ w.seen = false ∧ (w.remote && w.first) = false ∧ watchBehind s g lane w = false ∧
       watchNow s g u w = false)) →
    s.group? gid = some g → s.thread? gid lane = some u → u.wait = .waitm w → w.res = none → groupRuns s g = true → w.track = false →
    g.coursed = false → (g.threads.map (·.lane)).Nodup → (∀ y ∈ watchersOf g w.issue, y.1.lane = lane) →
    ∃ t v, exec i s = .next t ∧ sameMem s t ∧ t.thread? gid lane = some v ∧ v.pc = u.pc + 8 ∧ v.v = u.v ∧
      v.pv = (u.pset w.p hit false).pv ∧ v.pp = (u.pset w.p hit false).pp) ∧
  (∀ (gid lane n p e : Nat) (s : State) (g : Group) (u : Thread), s.group? gid = some g → s.thread? gid lane = some u →
    u.wait = .bar n (some e) p → e ≤ s.cycle → groupRuns s g = true → g.coursed = false → p < 7 →
    ∃ t v, exec (.bartTimeout gid lane) s = .next t ∧ sameMem s t ∧ t.thread? gid lane = some v ∧ v.wait = .none ∧ v.pc = u.pc ∧
      v.v = u.v ∧ v.pval p = false ∧ v.pval (p + 1) = false ∧ v.ppoi p = false ∧ v.ppoi (p + 1) = false)

/-- XJOIN, XBAR, XLEAVE and the boundary of an exchange group (10_barrier.md). -/
def Obligations.ExchangeGroups : Prop :=
  (∀ (d a : SReg) (s : State) (iss : Issue) (g : Group) (w : Wg),
    let gw := sget {} iss.snap a.toNat
    let win := gwWin gw.w
    let grp := gwGid gw.w
    Passes (.xjoin d a) s iss g → gw.poi = false → s.wg? g.wg = some w →
    let ok := bits gw.w.toNat 31 22 = 0 ∧ 1 ≤ win ∧ win ≤ 32 ∧ 1 ≤ gwQuorum gw.w ∧ gwQuorum gw.w ≤ 64
    (¬ ok → exec (.xjoin d a) s = .next (advance (s.setS iss.gid d.toNat ⟨0xFFFFFFFF, false⟩) iss)) ∧
    (ok → w.xm = none → (s.wgs.map (·.id)).Nodup → xmembers s w.ctx grp = [] → (xgroup s w.ctx grp).gone = [] → 4096 * win ≤ w.size → sparseWf {} g.s = true →
      ∃ t, exec (.xjoin d a) s = .next t ∧ sameMem s t ∧ t.sreg iss.gid d.toNat = ⟨0, false⟩ ∧
        (∀ v, t.wg? w.id = some v → v.xm = some { grp := grp, member := 0, pending := false, base := w.size - 4096 * win }) ∧
        ∀ l ∈ iss.lanes, ∀ u, s.thread? iss.gid l = some u → ∃ v, t.thread? iss.gid l = some v ∧ v.pc = u.pc + 4 ∧ v.v = u.v) ∧
    (ok → w.xm = none → xmembers s w.ctx grp ≠ [] → (xgroup s w.ctx grp).win ≠ win →
      exec (.xjoin d a) s = .next (advance (s.setS iss.gid d.toNat ⟨0xFFFFFFFF, false⟩) iss)) ∧
    (ok → ∀ y, w.xm = some y →
      ((y.grp ≠ grp ∨ (xgroup s w.ctx grp).win ≠ win) → exec (.xjoin d a) s = .next (advance (s.setS iss.gid d.toNat ⟨0xFFFFFFFF, false⟩) iss)) ∧
      (y.grp = grp → (xgroup s w.ctx grp).win = win → y.pending = false →
        exec (.xjoin d a) s = .next (advance (s.setS iss.gid d.toNat ⟨BitVec.ofNat 32 y.member, false⟩) iss)))) ∧
  (∀ (i : Instr) (leave : Bool) (s : State) (iss : Issue) (g : Group) (w : Wg) (y : XMember),
    ((i = .xbar ∧ leave = false) ∨ (∃ a, i = .xleave a ∧ leave = true ∧ gwGid (sget {} iss.snap a.toNat).w = y.grp)) →
    Passes i s iss g → s.wg? g.wg = some w → w.xm = some y → drained s iss.gid iss.lanes = true →
    ∃ t v, exec i s = .next t ∧ sameMem s t ∧ goneOn s t iss 1 ∧ restStays s t iss ∧ t.wg? w.id = some v ∧
      (∀ l ∈ iss.lanes, ∀ u, t.thread? iss.gid l = some u → u.wait = .xchange y.grp) ∧
      let m := maskOf 1024 (iss.lanes.map fun l => g.grpId * 64 + l)
      v.xm = some { y with arrived := y.arrived ||| m, left := if leave then y.left ||| m else y.left }) ∧
  (∀ (s : State) (iss : Issue) (g : Group) (w : Wg), s.wg? g.wg = some w → w.xm = none →
    (Passes .xbar s iss g → exec .xbar s = .next (takeTrap s iss 0x0E)) ∧
    (∀ a, Passes (.xleave a) s iss g → exec (.xleave a) s = .next (takeTrap s iss 0x0E))) ∧
  (∀ (a : SReg) (s : State) (iss : Issue) (g : Group) (w : Wg) (y : XMember), s.wg? g.wg = some w → w.xm = some y →
    gwGid (sget {} iss.snap a.toNat).w ≠ y.grp → Passes (.xleave a) s iss g → exec (.xleave a) s = .next (takeTrap s iss 0x0E)) ∧
  (∀ (ctx grp : Nat) (s : State) (c : Context), xgone s ctx grp = [] → xclosed s ctx grp = true → s.ctx? ctx = some c →
    sparseWf {} c.xgroups = true →
    ∃ t, exec (.xchangeBoundary ctx grp) s = .next t ∧ sameMem s t ∧
      ((xmembers t ctx grp ≠ []) → (xgroup t ctx grp).phase = (xgroup s ctx grp).phase + 1 ∧ (xgroup t ctx grp).open_ = true) ∧
      ((xmembers t ctx grp = []) → xgroup t ctx grp = {}) ∧
      ∀ w ∈ xmembers s ctx grp, (s.wgs.map (·.id)).Nodup → ∀ y, w.xm = some y → y.pending = false → y.left = 0 → liveBits s w.id ≠ [] →
        ∃ v, t.wg? w.id = some v ∧ v.xm = some { y with bank := 1 - y.bank, arrived := 0, left := 0 })

/-- The instructions of class MTX enter the array's queue, and DRAIN.byp fills the bypass buffer (12_tile.md; 11_copy.md). -/
def Obligations.MatrixInstructionsAccepted : Prop :=
  ∀ (s : State) (iss : Issue) (g : Group), arrFull s g = false → (∀ c ∈ s.cmds, c.id < s.nextId) →
    let q := (s.core g.core).arr.queue
    let rows (n : Nat) (a : Nat) : Except State (List (Nat × List Byte)) :=
      if (s.core g.core).arr.armed then .ok (bypRows s iss g) else rowBlocks s iss g a n
    let queued (i : Instr) (op : ArrOp) : Prop :=
      ∃ t, exec i s = .next t ∧ sameMem s t ∧ goneOn s t iss 1 ∧ restStays s t iss ∧ (t.core g.core).arr.queue = q ++ [op]
    let command (i : Instr) (P : Cmd → Prop) : Prop :=
      ∃ t c, exec i s = .next t ∧ sameMem s t ∧ goneOn s t iss 1 ∧ restStays s t iss ∧ (t.core g.core).arr.queue = q ++ [.cmd s.nextId] ∧
        t.cmd? s.nextId = some c ∧ c.state = .running ∧ c.owners = (iss.lanes.map fun l => (g.gid, l)) ∧ P c ∧
        ∀ l ∈ iss.lanes, ∀ u, s.thread? iss.gid l = some u → ∃ w, t.thread? iss.gid l = some w ∧ w.batch = u.batch ++ [s.nextId]
    (∀ x : LdwF, Passes (.ldw x) s iss g → firstPoisonS iss.snap [x.a.toNat] = none → iss.sv x.a % 2 ^ 19 % 128 = 0 →
      iss.sv x.a % 2 ^ 19 ≤ 507904 → queued (.ldw x) (.ldw x.fmt x.tr (iss.sv x.a % 2 ^ 19) s.nextId g.gid iss.lanes)) ∧
    (Passes .wflip s iss g → queued .wflip .wflip) ∧
    (∀ t : TReg, Passes (.accz t) s iss g → queued (.accz t) (.accz t.toNat)) ∧
    (∀ x : AccF, Passes (.accrd x) s iss g → queued (.accrd x) (.accrd s.nextId g.gid iss.lanes x.v.toNat x.t.toNat x.c.toNat)) ∧
    (∀ (x : AccF) bs, Passes (.accwr x) s iss g → rowBlocks s iss g x.v.toNat 8 = .ok bs →
      queued (.accwr x) (.accwr x.t.toNat x.c.toNat (bs.map fun r => (r.1, bytesToWords r.2 8)))) ∧
    (∀ (d : SReg) (sel : BitVec 2), Passes (.mstat d sel) s iss g → queued (.mstat d sel) (.mstat s.nextId g.gid d.toNat sel.toNat)) ∧
    (∀ (x : MmaF) bs, Passes (.mma x) s iss g → engineFull s g = false → rows 32 x.a.toNat = .ok bs →
      command (.mma x) fun c => c.kind = .mma x.fmt x.t.toNat ∧ c.rows = bs ∧ c.byp = (s.core g.core).arr.armed) ∧
    (∀ (x : MmasF) bs, Passes (.mmas x) s iss g → engineFull s g = false → firstPoisonS iss.snap [x.b.toNat] = none →
      iss.sv x.b % 2 ^ 19 % 128 = 0 → iss.sv x.b % 2 ^ 19 + 96 * mRows x.fmt ≤ Config.weightBytes →
      rows (if x.n16 then 128 else 64) x.a.toNat = .ok bs →
      command (.mmas x) fun c => c.kind = .mmas x.fmt x.n16 x.t.toNat (iss.sv x.b % 2 ^ 19) ∧ c.rows = bs ∧
        c.byp = (s.core g.core).arr.armed) ∧
    (∀ (x : DrainF) (s' : State) rs cs locs, Passes (.drain x) s iss g → engineFull s g = false →
      firstPoisonS iss.snap (recRegs x.r ++ [x.b.toNat]) = none →
      recBad (recAt iss.snap x.r) [0, 1, 2] ((recAt iss.snap x.r).es == drainEs x.fmt) = none →
      scalesOf s g.gid g.core (placeOf s g).2 (iss.sv x.b) = .ok s' rs cs locs → (locs ≠ [] → accsDone s iss.gid iss.lanes = true) →
      uniFetch s iss g locs = none → drainPast s' (placeOf s g).1 (recAt iss.snap x.r) x.fmt = false →
      command (.drain x) fun c =>
        c.kind = .drain x.fmt x.t.toNat ((recRegs x.r).map fun i => (sget {} iss.snap i).w) rs cs) ∧
    (∀ (x : DrainBypF) (s' : State) rs cs locs,
      let f : MFmt := if x.rq8 then .rq8 else .f8e4
      let a := (s.core g.core).arr
      Passes (.drainByp x) s iss g → a.queue = [] → firstPoisonS iss.snap [x.b.toNat] = none → drainTagBad a f x.t.toNat = false →
      scalesOf s g.gid g.core (placeOf s g).2 (iss.sv x.b) = .ok s' rs cs locs → (locs ≠ [] → accsDone s iss.gid iss.lanes = true) →
      uniFetch s iss g locs = none → s.softErrs = [] → sparseWf {} s.cores = true →
      ∃ t, exec (.drainByp x) s = .next t ∧ sameMem s t ∧ goneOn s t iss 1 ∧ restStays s t iss ∧
        (t.core g.core).arr.byp = some f ∧ (t.core g.core).arr.armed = true ∧ (t.core g.core).arr.tiles = (a.closeTile x.t.toNat none).tiles ∧
        ∀ n, n < 8192 → (t.core g.core).arr.bypBytes.get n =
          BitVec.ofNat 8 (drainElem f (tileValue (a.closeTile x.t.toNat none) f x.t.toNat (n / 128) (n % 128))
            (rs.getD (n / 128) 0x78) (cs.getD (n % 128) 0x78)).1)

/-- ARRAY_EXECUTE carries out the oldest matrix instruction (12_tile.md). -/
def Obligations.ArrayExecutes : Prop :=
  ∀ (k : Nat) (s : State) (op : ArrOp) (rest : List ArrOp), (s.core k).arr.queue = op :: rest → s.softErrs = [] → sparseWf {} s.cores = true →
    let a := (s.core k).arr
    ∃ t, exec (.arrayExecute k) s = .next t ∧ ((∀ id, op ≠ .cmd id) → sameMem s t ∧ (t.core k).arr.queue = rest) ∧
      (∀ f tr o id gid ls, op = .ldw f tr o id gid ls → (t.core k).arr.shadow = (ldwPlane s k f tr o).1 ∧ (t.core k).arr.stat = a.stat ∧
        (t.core k).arr.tiles = a.tiles) ∧
      (op = .wflip → (t.core k).arr.stat = a.shadow ∧ (t.core k).arr.shadow = a.stat ∧ (t.core k).arr.tiles = a.tiles) ∧
      (∀ n, op = .accz n → sparseWf {} (a.closeTile n none).tiles = true →
        (sget {} (t.core k).arr.tiles n).words = [] ∧ (sget {} (t.core k).arr.tiles n).pass = none ∧
        ∀ m, m ≠ n → sget {} (t.core k).arr.tiles m = sget {} a.tiles m) ∧
      (∀ id gid ls v n b g, op = .accrd id gid ls v n b → s.group? gid = some g → ∀ l ∈ ls, ∀ u, s.thread? gid l = some u →
        ∃ w, t.thread? gid l = some w ∧ w.pc = u.pc ∧ (u.wait = .array id → w.wait = .none) ∧
          w.v = (u.vsets v ((List.range 8).map fun i =>
            sget 0 (sget {} (a.closeTile n none).tiles n).words (visible g.coursed l * 128 + 8 * b + i))).v) ∧
      (∀ n b i ws, op = .accwr n b [(i, ws)] → ws.length = 8 → b < 16 → sparseWf 0 (sget {} (a.closeTile n none).tiles n).words = true →
        sparseWf {} (a.closeTile n none).tiles = true →
        ∀ e, sget 0 (sget {} (t.core k).arr.tiles n).words e =
          if i * 128 + 8 * b ≤ e ∧ e < i * 128 + 8 * b + 8 then ws.getD (e - (i * 128 + 8 * b)) 0
          else sget 0 (sget {} (a.closeTile n none).tiles n).words e) ∧
      (∀ id gid d sel g, op = .mstat id gid d sel → s.group? gid = some g → ⟨gid, d, .array id⟩ ∈ s.samples → sparseWf {} g.s = true →
        t.sreg gid d = ⟨if sel = 2 then arrayWord a else statusWord a, false⟩ ∧
        (t.core k).arr.status = if sel = 1 then 0 else a.status) ∧
      (∀ id c f n, op = .cmd id → s.cmd? id = some c → c.state = .running → behindFailed s c = false → c.core = k → c.pos = 0 →
        c.kind = .mma f n → sameMem s t ∧ (t.core k).arr =
          { (c.rows.foldl (fun a r => a.row f n r.1 r.2 none c.byp) (a.begin f n)) with
              queue := rest, byp := if a.bypBy = some id then none else a.byp,
              bypBy := if a.bypBy = some id then none else a.bypBy } ∧
        ∃ d, t.cmd? id = some d ∧ d.state = .ended) ∧
      (∀ id c f n rw rs cs x, op = .cmd id → s.cmd? id = some c → c.state = .running → behindFailed s c = false → c.core = k → c.scan = false →
        c.kind = .drain f n rw rs cs → f ≠ .rq4 → drainReady s c f n rw rs cs = true → drainTagBad a f n = false → s.marks = [] →
        tracked (recOfWords rw) 0 = false → ackOf s c x = none →
        ePlace s k ((s.wg? c.wg).getD {}) ((s.ctx? c.ctx).getD {}) (recOfWords rw).kind (recOfWords rw).swz (recOfWords rw).base
          (drainOff (recOfWords rw) f (c.pos / 128) (c.pos % 128)) ((drainNibs f + 1) / 2) 2 = .ok x → x.sp = .scratch →
        let b := if f = .f64 ∧ (sget {} (a.closeTile n none).tiles n).tag = .f64 then (a.closeTile n none).closeTile (n + 1) none
          else a.closeTile n none
        let e := drainElem f (tileValue b f n (c.pos / 128) (c.pos % 128)) (rs.getD (c.pos / 128) 0x78) (cs.getD (c.pos % 128) 0x78)
        t.scratch = putPairs s.scratch (x.keys.zip (toLE ((drainNibs f + 1) / 2) e.1)) ∧ t.dev = s.dev ∧ t.weight = s.weight ∧
        t.host = s.host ∧ (t.core k).arr.tiles = b.tiles ∧ (t.core k).arr.status = b.status ||| e.2 ∧
        ∃ d, t.cmd? id = some d ∧ d.pos = c.pos + 1)

/-- The three residue channels give back the exact sum of a pass (04_numbers.md). -/
def Obligations.ResiduePassSum : Prop :=
  ∀ v : Int, -8388480 ≤ v → v < 8388480 → passSum (v % 255).toNat (v % 256).toNat (v % 257).toNat = v

/-- COPY, COPYL and COPYR add a command to their threads' open batch (11_copy.md). -/
def Obligations.CopyInstructionsIssue : Prop :=
  ∀ (s : State) (iss : Issue) (g : Group), engineFull s g = false → (∀ c ∈ s.cmds, c.id < s.nextId) →
    let stem (kind : CmdKind) (trap : Bool) : Cmd :=
      { id := s.nextId, kind := kind, trap := trap, core := g.core, wg := g.wg, ctx := s.ctxOf g }
    let named (kind : CmdKind) (trap : Bool) (d a b : SReg) : Cmd :=
      rereadCmd s { stem kind trap with ids := (sget {} iss.snap b.toNat).w, so := origins iss.snap a, dorg := origins iss.snap d }
    let made (i : Instr) (m : Cmd) (P : State → Cmd → Prop) : Prop :=
      ∃ t c, exec i s = .next t ∧ sameMem s t ∧ restStays s t iss ∧ t.cmd? s.nextId = some c ∧ c.pos = 0 ∧
        c.owners = (iss.lanes.map fun l => (g.gid, l)) ∧ c.kind = m.kind ∧ c.trap = m.trap ∧ c.core = m.core ∧ c.wg = m.wg ∧
        c.ctx = m.ctx ∧ c.ids = m.ids ∧ c.so = m.so ∧ c.dorg = m.dorg ∧ c.src = m.src ∧ c.dst = m.dst ∧ c.srcIdx = m.srcIdx ∧
        c.dstIdx = m.dstIdx ∧ c.pieces = m.pieces ∧ P t c ∧
        ∀ l ∈ iss.lanes, ∀ u, s.thread? iss.gid l = some u → ∃ w, t.thread? iss.gid l = some w ∧ w.batch = u.batch ++ [s.nextId] ∧
          w.pc = u.pc + 4 ∧ w.v = u.v ∧ w.pv = u.pv ∧ w.pp = u.pp
    let running (i : Instr) (m : Cmd) : Prop :=
      made i m fun t c => c.state = .running ∧ ∀ d ∈ s.cmds, t.cmd? d.id = s.cmd? d.id
    let ended (i : Instr) (m : Cmd) (code : Nat) : Prop := made i m fun _ c => c.state = .failed ∧ c.code = code
    (∀ x : CopyF, Passes (.copy x) s iss g → firstPoisonS iss.snap (span x.d.toNat 5 ++ span x.a.toNat 5 ++ [x.b.toNat]) = none →
      let m := named .copy x.trp x.d x.a x.b
      (copyCheck s m = 0 → running (.copy x) m) ∧ (copyCheck s m ≠ 0 → ended (.copy x) m (copyCheck s m))) ∧
    (∀ x : CopyrF, Passes (.copyr x) s iss g →
      firstPoisonS iss.snap (span x.d.toNat 5 ++ span x.a.toNat 5 ++ [x.b.toNat, x.b.toNat + 1]) = none →
      let m := named (.copyr x.op (bits (sget {} iss.snap x.b.toNat).w.toNat 27 16) (sget {} iss.snap (x.b.toNat + 1)).w.toNat)
        x.trp x.d x.a x.b
      (copyCheck s m = 0 → running (.copyr x) m) ∧ (copyCheck s m ≠ 0 → ended (.copyr x) m (copyCheck s m))) ∧
    (∀ (x : CopylF) l₁ o₁ p₁ l₂ o₂ p₂, Passes (.copyl x) s iss g →
      (g.coursed = true → ∀ l ∈ iss.lanes, l % 2 = 0 → l + 1 ∈ iss.lanes) →
      accessSteps s iss g (recAt iss.snap x.src) x.src x.d (copylForm x (recAt iss.snap x.src) false) = .go l₁ o₁ p₁ →
      accessSteps s iss g (recAt iss.snap x.dst) x.dst (x.d + 1) (copylForm x (recAt iss.snap x.dst) true) = .go l₂ o₂ p₂ →
      let ws (r : RecN) : List Word := (recRegs r).map fun i => (sget {} iss.snap i).w
      let m := { stem (.copyl (cwidBytes x.wd) (ws x.src) (ws x.dst)) x.trp with pieces := copylPieces s iss g x }
      (copylCheck s m = 0 → running (.copyl x) m) ∧ (copylCheck s m ≠ 0 → ended (.copyl x) m (copylCheck s m)))

/-- COPY's elements, COPYR's sequence numbers, and the detector's stalls and entries (11_copy.md; 09_ordering.md). -/
def Obligations.CopyElementsAndSequence : Prop :=
  (∀ (id : Nat) (s s' : State) (c : Cmd) (w : Wg) (cx : Context) (x y : Side) (hi hj : Bool),
    s.cmd? id = some c → channelReady s c = true → c.kind = .copy → s.wg? c.wg = some w → s.ctx? c.ctx = some cx → c.scan = false →
    (cx.world = true ∨ channelsSecure s c.core = false) →
    (∀ o g, c.owners.head? = some o → s.group? o.1 = some g → detOf s g = false) →
    elemAt s id c.core w cx c.dstRole (ivOf c.dst c.pos) = .at_ x hi → elemAt s id c.core w cx c.srcRole (ivOf c.dst c.pos) = .at_ y hj →
    y.keys ≠ [] → y.far = false → farPlace s c.ctx x.sp x.va = false → x.sp ≠ .host → s.softErrs = [] → s.marks = [] →
    (∀ h ∈ s.held, h.cmd ≠ id) → ackOf s c x = none →
    ((x.sp = .dev ∨ y.sp = .dev) → c.out = true) →
    cmdRace s c (sideTouch c.src y false ++ sideTouch c.dst x true) = .ok s' → eFmt c.src ≠ 6 → eFmt c.dst ≠ 6 →
    let v := convElem (eFmt c.src) (eFmt c.dst) (ofLE (y.keys.map fun a => (s.mem y.sp).get a))
    ∃ t d, exec (.copyWriteAck id) s = .next t ∧ t.cmd? id = some d ∧ d.pos = c.pos + 1 ∧
      d.bytes = c.bytes + (fmtNibs (eFmt c.src) + 1) / 2 ∧ d.void_ = (c.void_ || v.2.1) ∧ d.clamp = (c.clamp || v.2.2) ∧
      (d.state = .ended ↔ boxTotal c.dst ≤ c.pos + 1) ∧ (∀ q, q ≠ x.sp → t.mem q = s.mem q) ∧
      t.mem x.sp = putPairs (s.mem x.sp) (x.keys.zip (toLE ((fmtNibs (eFmt c.dst) + 1) / 2) v.1))) ∧
  (∀ (id : Nat) (s s' : State) (c : Cmd) (w : Wg) (cx : Context) (x y : Side) (hi hj : Bool) (op : ROp) (region seq : Nat),
    s.cmd? id = some c → channelReady s c = true → c.kind = .copyr op region seq → s.wg? c.wg = some w → s.ctx? c.ctx = some cx →
    c.scan = false → (cx.world = true ∨ channelsSecure s c.core = false) →
    (∀ o g, c.owners.head? = some o → s.group? o.1 = some g → detOf s g = false) →
    elemAt s id c.core w cx c.dstRole (ivOf c.dst c.pos) = .at_ x hi → elemAt s id c.core w cx c.srcRole (ivOf c.dst c.pos) = .at_ y hj →
    y.keys ≠ [] → y.far = false → x.sp = .dev → (seqReady (regionAt s (homeSlice (x.keys.headD 0)) c.ctx region).next seq = true →
      farPlace s c.ctx x.sp x.va = false) → s.softErrs = [] → s.marks = [] →
    ackOf s c x = none → c.out = true → cmdRace s c (sideTouch c.src y false ++ sideTouch c.dst x true) = .ok s' →
    let r := regionAt s (homeSlice (x.keys.headD 0)) c.ctx region
    let bs := y.keys.map fun a => (s.mem y.sp).get a
    r.gap = false → (seqReady r.next seq = true ∨ storeFull s (homeSlice (x.keys.headD 0)) = false) → ∃ t d, exec (.copyWriteAck id) s = .next t ∧ t.cmd? id = some d ∧ d.pos = c.pos + 1 ∧
      (∀ q, q ≠ .dev → t.mem q = s.mem q) ∧
      (seqReady r.next seq = true → t.held = s.held ∧ t.dev = putPairs s.dev (x.keys.zip (toLE (fmtNibs (eFmt c.dst) / 2)
        (reduceElem op (eFmt c.dst) (ofLE (x.keys.map s.dev.get)) (ofLE bs))))) ∧
      (seqReady r.next seq = false → storeFull s (homeSlice (x.keys.headD 0)) = false → t.dev = s.dev ∧
        ∃ h, t.held = s.held ++ [h] ∧ h.slice = homeSlice (x.keys.headD 0) ∧ h.region = region ∧ h.seq = seq ∧ h.keys = x.keys ∧ h.data = bs)) ∧
  (∀ (slice ctx region : Nat) (s : State), retirable s (regionAt s slice ctx region) = true →
    ∃ t, exec (.copyrSeqRetire slice ctx region) s = .next t ∧
      (regionAt t slice ctx region).next = ((regionAt s slice ctx region).next + 1) % 2 ^ 32 ∧
      (regionAt t slice ctx region).gap = (regionAt s slice ctx region).gap ∧ (s.held = [] → sameMem s t) ∧
      ∀ h pa leaf, s.held = [h] → h.slice = slice → h.ctx = ctx → h.region = region →
        seqReady (((regionAt s slice ctx region).next + 1) % 2 ^ 32) h.seq = true → h.sent = none → keysFrozen s h.keys = false →
        heldPlace s h = .here pa leaf → farPlace s h.ctx .dev h.va = false → s.softErrs = [] → s.marks = [] →
        let keys := keysFrom pa h.keys.length
        t.held = [] ∧ t.dev = putPairs s.dev (keys.zip (toLE (fmtNibs h.fmt / 2)
          (reduceElem h.op h.fmt (ofLE (keys.map s.dev.get)) (ofLE h.data))))) ∧
  (∀ (slice ctx region : Nat) (s : State) (c : Cmd) (op : ROp) (seq : Nat) (x : Side) (hi : Bool), s.cmds = [c] → s.held = [] → c.ctx = ctx →
    c.state = .running → wgRuns s c.wg = true → c.kind = .copyr op region seq →
    elemAt s c.id c.core ((s.wg? c.wg).getD {}) ((s.ctx? ctx).getD {}) c.dstRole (ivOf c.dst c.pos) = .at_ x hi → x.sp = .dev →
    homeSlice (x.keys.headD 0) = slice → (∃ n, c.turn = some n ∧ n + Config.gapWait ≤ s.cycle) →
    ∃ t d, exec (.copyrGapTimeout slice ctx region) s = .next t ∧ sameMem s t ∧ (regionAt t slice ctx region).gap = true ∧
      t.cmd? c.id = some d ∧ d.state = .failed ∧ d.code = 6) ∧
  (∀ (gid : Nat) (s : State) (g : Group) (u : Thread) (n a : Nat) (ls : List Nat), s.group? gid = some g → g.threads = [u] → u.wait = .detector n a ls → 0 < n →
    n ≤ s.cycle → s.cmds = [] →
    exec (.detectorStallTimeout gid) s = .next (if ((s.ctx? (s.ctxOf g)).map fun c => c.mask21).getD false
      then s.mapLanes gid [u.lane] fun t => { t with wait := .detector 0 0 [] }
      else trapAt s gid [u.lane] u.pc 0x21 { addr := a, lanes := ls })) ∧
  (∀ (n : Nat) (s : State) (d : Det), s.sliceDet[n]? = some d → detDone s d = true →
    exec (.detectorEntryRetire n) s = .next { s with sliceDet := s.sliceDet.eraseIdx n })

/-- Token instructions and the tensor table (11_copy.md). -/
def Obligations.TokenInstructions : Prop :=
  (∀ (k : KReg) (s : State) (iss : Issue) (g : Group), (g.threads.map (·.lane)).Nodup →
    let act := g.threads.filter fun t => iss.lanes.contains t.lane
    (Passes (.wait k) s iss g → (∀ t ∈ act, tokenTraps s (t.kget k.toNat) = false ∧ tokenPend s (t.kget k.toNat) = false) →
      ∃ t, exec (.wait k) s = .next t ∧ sameMem s t ∧ goneOn s t iss 1 ∧ restStays s t iss ∧
        ∀ l ∈ iss.lanes, ∀ u, s.thread? iss.gid l = some u → ∃ w, t.thread? iss.gid l = some w ∧ w.k = u.k ∧ w.region = u.region + 1) ∧
    (Passes (.wait k) s iss g → (∀ t ∈ act, tokenTraps s (t.kget k.toNat) = true) → act ≠ [] →
      exec (.wait k) s = .next (takeTrap s iss 0x38 { info0 := BitVec.ofNat 32 k.toNat, lanes := act.map (·.lane) })) ∧
    (Passes (.seal k) s iss g → (∀ t ∈ act, tokenFailed s (t.kget k.toNat) = none ∧ tokenPend s (t.kget k.toNat) = false) →
      ∃ t, exec (.seal k) s = .next t ∧ sameMem s t ∧ goneOn s t iss 1 ∧ restStays s t iss ∧
        ∀ l ∈ iss.lanes, ∀ u, s.thread? iss.gid l = some u → ∃ w, t.thread? iss.gid l = some w ∧ w.batch = [] ∧
          (sparseWf {} u.k = true → w.kget k.toNat = { ids := u.batch }) ∧ ∀ j, j ≠ k.toNat → w.kget j = u.kget j) ∧
    (∀ d : VReg, Passes (.tstat d k) s iss g → exec (.tstat d k) s =
      .next (advance (s.mapLanes iss.gid iss.lanes fun t => t.vsets d.toNat (tokenWords s (t.kget k.toNat))) iss)) ∧
    (∀ d : VReg, Passes (.cwp d k) s iss g → exec (.cwp d k) s =
      .next (advance (s.mapLanes iss.gid iss.lanes fun t => t.vset d.toNat ⟨(tokenWords s (t.kget k.toNat)).getD 2 0, false⟩) iss)) ∧
    (Passes (.cabort k) s iss g → ∃ t, exec (.cabort k) s = .next t ∧ sameMem s t ∧ goneOn s t iss 1 ∧ restStays s t iss ∧
      ∀ l ∈ iss.lanes, ∀ u, s.thread? iss.gid l = some u → ∃ w, t.thread? iss.gid l = some w ∧ w.batch = u.batch ∧
        w.kget k.toNat = (if tokenErr s (u.kget k.toNat) then { last := abortWords (tokenWords s (u.kget k.toNat)) } else u.kget k.toNat) ∧
        ∀ j, j ≠ k.toNat → w.kget j = u.kget j)) ∧
  (∀ (a : SReg) (r : RecN) (s s' : State) (iss : Issue) (g : Group) (locs : List (Space × Nat)), firstPoisonS iss.snap [a.toNat] = none →
    (∀ c, Passes (.tdef a r) s iss g → uniAccess s iss g r 128 [0, 1] 1 = .ok s' locs → s.ctx? (s.ctxOf g) = some c →
      ∃ t d, exec (.tdef a r) s = .next t ∧ sameMem s t ∧ goneOn s t iss 1 ∧ restStays s t iss ∧ t.ctx? (s.ctxOf g) = some d ∧
        sget [] d.tensors (iss.sv a % 256) = bytesToWords (uniRead s' g.gid locs).1 32 ∧
        (∀ n, n ≠ iss.sv a % 256 → sget [] d.tensors n = sget [] c.tensors n)) ∧
    (Passes (.tget a r) s iss g → uniAccess s iss g r 128 [0, 1] 2 = .ok s' locs → locs.Nodup → s.memWf = true → s.marks = [] →
      s.repsets = [] → s.migs = [] → (∀ l ∈ locs, ∀ p, l.1 ≠ .remote p) →
      ∃ t, exec (.tget a r) s = .next t ∧ goneOn s t iss 1 ∧ (∀ k n, t.sreg k n = s.sreg k n) ∧
        (∀ sp c, (sp, c) ∉ locs → (t.mem sp).get c = (s.mem sp).get c) ∧
        ∀ (n : Nat) (sp : Space) (c : Nat), n < 128 → locs[n]? = some (sp, c) → (sp = .dev ∨ sp = .scratch ∨ sp = .weight) →
          (t.mem sp).get c = (wordsToBytes ((List.range 32).map fun i =>
            (sget [] (((s.ctx? (s.ctxOf g)).map (·.tensors)).getD []) (iss.sv a % 256)).getD i 0)).getD n 0))

/-- QPUSH, CAPP, QPOP, QPEEK, QSTAT, QFLUSH and QUIESCE (14_queue.md; 15_kernel.md). -/
def Obligations.QueueAndListInstructions : Prop :=
  ∀ (s : State) (iss : Issue) (g : Group) (c : Context) (n : Nat), s.ctx? (s.ctxOf g) = some c → sparseWf {} c.lists = true →
    (g.threads.map (·.lane)).Nodup →
    let act := acting g iss
    let after (t : State) : List DWord := itemsOf ((t.ctx? (s.ctxOf g)).getD {}) n
    let got (t : State) (u : Thread) (d : VReg) (p : PReg) (x : Option DWord) : Prop :=
      (∃ w, t.thread? iss.gid u.lane = some w ∧ w.pc = u.pc + 4) ∧
      ∀ l ∈ withShadow g [u.lane], ∀ v, s.thread? iss.gid l = some v → ∃ w, t.thread? iss.gid l = some w ∧
        w.v = (v.item d.toNat p.toNat x).v ∧ w.pv = (v.item d.toNat p.toNat x).pv ∧ w.pp = (v.item d.toNat p.toNat x).pp
    (∀ q a, Passes (.qpush q a) s iss g → pushTarget s iss g q.toNat a.toNat = .ok n → n < 64 → drained s iss.gid iss.lanes = true →
      (c.list n).items.length + act.length ≤ Config.workListItems →
      ∃ t, exec (.qpush q a) s = .next t ∧ sameMem s t ∧ goneOn s t iss 1 ∧ restStays s t iss ∧
        after t = itemsOf c n ++ act.map fun u => itemOf u a.toNat) ∧
    (∀ q a, Passes (.capp q a) s iss g → pushTarget s iss g q.toNat a.toNat = .ok n → n < 64 → drained s iss.gid iss.lanes = true →
      (c.list n).items.length + act.length ≤ Config.workListItems →
      ∃ t, exec (.capp q a) s = .next t ∧ sameMem s t ∧ goneOn s t iss 1 ∧ restStays s t iss ∧
        after t = itemsOf c n ++ act.map fun u => itemOf u a.toNat) ∧
    (∀ d q p, Passes (.qpop d q p) s iss g → popSource s iss g q.toNat = .ok n → drained s iss.gid iss.lanes = true →
      act.length ≤ (itemsOf c n).length → (∀ h ∈ s.groups, ∀ u ∈ h.threads, waitsFor n u = false) →
      ∃ t, exec (.qpop d q p) s = .next t ∧ sameMem s t ∧ restStays s t iss ∧ after t = (itemsOf c n).drop act.length ∧
        ∀ (k : Nat) (u : Thread) (x : DWord), act[k]? = some u → (itemsOf c n)[k]? = some x → got t u d p (some x)) ∧
    (∀ d q p, Passes (.qpop d q p) s iss g → popSource s iss g q.toNat = .ok n → drained s iss.gid iss.lanes = true → n < 64 →
      itemsOf c n = [] → (c.list n).ended = true →
      ∃ t, exec (.qpop d q p) s = .next t ∧ sameMem s t ∧ restStays s t iss ∧ after t = [] ∧
        ∀ u ∈ act, got t u d p none) ∧
    (∀ d q p, Passes (.qpeek d q p) s iss g → popSource s iss g q.toNat = .ok n →
      ∃ t, exec (.qpeek d q p) s = .next t ∧ sameMem s t ∧ restStays s t iss ∧ after t = itemsOf c n ∧
        ∀ (k : Nat) (u : Thread), act[k]? = some u → got t u d p (itemsOf c n)[k]?) ∧
    (∀ d a q, Passes (.qstat d a) s iss g → queueArg s iss g a 11 = .ok q →
      exec (.qstat d a) s = .next
        (advance ((List.range 4).foldl (fun s i => s.owe iss.gid (d.toNat + i) (.queue q.id (iss.sv a / 512) i)) s) iss)) ∧
    (∀ d q page Q, s.samples = ((List.range 4).map fun i => ⟨g.gid, d + i, .queue q page i⟩) → s.queue? q = some Q → s.group? g.gid = some g → sparseWf {} g.s = true →
      ∃ t, exec .issueSelect s = .next t ∧
        ∀ i, i < 4 → t.sreg g.gid (d + i) = ⟨BitVec.ofNat 32 ((queuePage s Q page).getD i 0), false⟩) ∧
    (∀ a q, Passes (.qflush a) s iss g → queueArg s iss g a 9 = .ok q →
      ∃ t q', exec (.qflush a) s = .next t ∧ t.queue? q.id = some q' ∧ q'.entries = [] ∧ q'.state = 5 ∧ q'.signalling = false ∧
        (∀ x ∈ t.sweeps, x.queue ≠ some q.id) ∧ (∀ l ∈ iss.lanes, ∀ u, t.thread? iss.gid l = some u → u.wait = .flush q.id) ∧
        ∀ m, m ≠ q.id → (t.queue? m).map (fun x => { x with seen := [] }) = (s.queue? m).map (fun x => { x with seen := [] })) ∧
    (∀ a, Passes (.quiesce a) s iss g → firstPoisonS iss.snap [a.toNat] = none → 0 < iss.sv a → iss.sv a < 256 →
      (∀ i, i < 8 → (iss.sv a).testBit i = true → (listOf c (8 + i)).isSome = true) →
      ∃ t set_, exec (.quiesce a) s = .next t ∧ sameMem s t ∧ goneOn s t iss 1 ∧ restStays s t iss ∧
        (∀ l ∈ iss.lanes, ∀ u, t.thread? iss.gid l = some u → u.wait = .quiesce set_) ∧
        ∀ m, m ∈ set_ ↔ ∃ i, i < 8 ∧ (iss.sv a).testBit i = true ∧ listOf c (8 + i) = some m)

/-- SPAWN, GLAUNCH and GEDIT (15_kernel.md; 14_queue.md). -/
def Obligations.LaunchInstructions : Prop :=
  (∀ (s s' : State) (iss : Issue) (g : Group) (q : QReg) (a : SReg) (x : Nat) (e : QEntry) (Q : Queue),
    s.queue? x = some Q → queueFull s x = false →
    let pushed (t : State) (e : QEntry) : Prop := ∃ Q', t.queue? x = some Q' ∧ Q'.entries = Q.entries ++ [e] ∧
      Q'.pushed = (Q.pushed + 1) % 2 ^ 32 ∧ Q'.state = (if Q.state = 1 then 2 else Q.state)
    (Passes (.spawn q a) s iss g → resumed g iss Wait.isPush = none → launchArgs s iss g q a 0 = .ok (x, e, s') →
      drained s iss.gid iss.lanes = true →
      ∃ t, exec (.spawn q a) s = .next t ∧ sameMem s t ∧ goneOn s t iss 1 ∧ restStays s t iss ∧ pushed t e ∧
        ∀ m, m ≠ x → t.queue? m = s.queue? m) ∧
    (∀ ws iss', Passes (.spawn q a) s iss g → resumed g iss Wait.isPush = some (.push x ws, iss') → drained s iss'.gid iss'.lanes = true →
      ∃ t, exec (.spawn q a) s = .next t ∧ sameMem s t ∧ goneOn s t iss' 1 ∧ restStays s t iss' ∧ pushed t { words := ws }) ∧
    (∀ locs, Passes (.glaunch q a) s iss g → resumed g iss Wait.isPush = none → launchArgs s iss g q a 1 = .ok (x, e, s) →
      runAt s iss g 1 e.body 64 = .ok locs → (∀ p ∈ locs, p.1 = .dev) → s.marks = [] → s.repsets = [] → s.migs = [] →
      drained s iss.gid iss.lanes = true → graphTurn s (s.ctxOf g) e.body s.time = true →
      let h := bytesToWords (locs.map fun p => s.dev.get p.2) 16
      let v := wnat h 0 % 4
      (wnat h 6).testBit v = true → 1 ≤ wnat h (8 + v) → wnat h (8 + v) ≤ 256 →
      ∃ t, exec (.glaunch q a) s = .next t ∧ goneOn s t iss 1 ∧ pushed t { e with launch := some s.nextId } ∧
        (let L : Launch := ⟨s.nextId, s.ctxOf g, x, e.body, v, (wnat h 0).testBit 2, wnat h (8 + v), [], [], false, false⟩
         t.launches = s.launches ++ [L]) ∧
        (∀ k, (∀ p ∈ (locs.drop (8 + 4 * v)).take 4, p.2 ≠ k) → t.dev.get k = s.dev.get k) ∧
        (∀ pa, locs = (keysFrom pa 64).map (fun k => (Space.dev, k)) → s.memWf = true →
          ofLE (t.read .dev (pa + 8 + 4 * v) 4) = (wnat h (2 + v) + 1) % 2 ^ 32) ∧ t.scratch = s.scratch ∧ t.weight = s.weight)) ∧
  (∀ (d a b : SReg) (s : State) (iss : Issue) (g : Group) (hl bl : List (Space × Nat)), Passes (.gedit d a b) s iss g → sparseWf {} g.s = true →
    resumed g iss Wait.isEdit = none → s.marks = [] → s.softErrs = [] → s.repsets = [] → s.migs = [] →
    firstPoisonS iss.snap [a.toNat, a.toNat + 1, b.toNat, b.toNat + 1] = none → iss.saddr a % 64 = 0 → iss.saddr b % 64 = 0 →
    runAt s iss g 3 (iss.saddr a) 64 = .ok hl → runAt s iss g 1 (iss.saddr b) 16 = .ok bl → (∀ p ∈ hl ++ bl, p.1 = .dev) →
    let bytes (l : List (Space × Nat)) : List Byte := l.map fun p => s.dev.get p.2
    let h := bytesToWords (bytes hl) 16
    let k := bytesToWords (bytes bl) 4
    let count := bits (wnat k 0) 6 0
    let old := wnat h 0 % 4
    ((bits (wnat k 0) 31 7 ≠ 0 ∨ count = 0 ∨ 64 < count) →
      ∃ t, exec (.gedit d a b) s = .next t ∧ sameMem s t ∧ goneOn s t iss 1 ∧ t.sreg iss.gid d.toNat = ⟨geditError 1 0, false⟩) ∧
    (∀ new rl cl nl, bits (wnat k 0) 31 7 = 0 → 1 ≤ count → count ≤ 64 → (k.drop 1).all (· == 0) = true →
      graphTurn s (s.ctxOf g) (iss.saddr a) s.time = true → ((List.range 4).find? fun v => !(wnat h 6).testBit v) = some new →
      runAt s iss g 1 (iss.saddr b + 16) (16 * count) = .ok rl → runAt s iss g 3 (iss.saddr a + 64 + 16384 * old) 16384 = .ok cl →
      runAt s iss g 3 (iss.saddr a + 64 + 16384 * new) 16384 = .ok nl → (∀ p ∈ rl ++ cl ++ nl, p.1 = .dev) →
      let rw_ := bytesToWords (bytes rl) (4 * count)
      let out := applyEdits (bytesToWords (bytes cl) 4096) (wnat h (8 + old)) 0 ((List.range count).map fun i => (rw_.drop (4 * i)).take 4)
      let bad := resultBad s ((s.ctx? (s.ctxOf g)).getD {}) out.1 out.2.1
      ∃ t h' w, exec (.gedit d a b) s = .next t ∧ goneOn s t iss 1 ∧ t.sreg iss.gid d.toNat = ⟨w, false⟩ ∧
        t.scratch = s.scratch ∧ t.weight = s.weight ∧ (∀ c, (∀ p ∈ hl ++ nl, p.2 ≠ c) → t.dev.get c = s.dev.get c) ∧
        ((nl.map (·.2)).Nodup → s.memWf = true → ∀ (i c : Nat), i < 16384 → nl[i]? = some (Space.dev, c) → (∀ p ∈ hl, p.2 ≠ c) →
          t.dev.get c = (wordsToBytes out.1).getD i 0) ∧
        ((hl.map (·.2)).Nodup → s.memWf = true → ∀ (i c : Nat), i < 64 → hl[i]? = some (Space.dev, c) → t.dev.get c = (wordsToBytes h').getD i 0) ∧
        wnat h' (8 + new) = out.2.1 % 2 ^ 32 ∧
        (∀ i, out.2.2 = some i → w = geditError 2 i ∧ ∀ n, n ≠ 8 + new → wnat h' n = wnat h n) ∧
        (out.2.2 = none → bad = true → w = geditError 3 0 ∧ ∀ n, n ≠ 8 + new → wnat h' n = wnat h n) ∧
        (out.2.2 = none → bad = false → w = BitVec.ofNat 32 new ∧ wnat h' 0 = wnat h 0 - old + new ∧
          (wnat h 6 < 16 → (wnat h 6).testBit old = true →
            ∀ v, v < 4 → (wnat h' 6).testBit v = (v == new || ((wnat h 6).testBit v && !(v == old && wnat h (2 + old) == 0)))) ∧
          ∀ n, n ≠ 0 → n ≠ 6 → n ≠ 8 + new → wnat h' n = wnat h n)))

/-- How a queue's head entry waits, starts, completes and signals (14_queue.md; 15_kernel.md). -/
def Obligations.QueueSteps : Prop :=
  ∀ (n : Nat) (s : State) (q : Queue) (e : QEntry) (r : List QEntry), s.queue? n = some q → q.entries = e :: r →
    (∀ i v, i < e.nwait → q.state = 2 → readCounter s q.owner (e.adr i) = .remote → i < 2 →
      ∃ t q', exec (.queueWaitPoll n i (some v)) s = .next t ∧ sameMem s t ∧ t.queue? n = some q' ∧ q'.entries = q.entries ∧
        q'.held.getD i false = decide (e.val i ≤ v.toNat)) ∧
    (∀ x s', startable s q = some e → e.launch = none → readSweep s ((s.ctx? q.owner).getD {}) e.body = some (x, s') →
      ∃ t q', exec (.queueEntryStart n) s = .next t ∧ sameMem s t ∧ t.queue? n = some q' ∧ q'.state = 3 ∧ q'.entries = q.entries ∧
        ∃ y ∈ t.sweeps, y.id = s.nextId ∧ y.queue = some n ∧ y.params = x.params ∧ y.gangs = x.gangs) ∧
    (startable s q = some e → e.launch = none → readSweep s ((s.ctx? q.owner).getD {}) e.body = none →
      ∃ t q', exec (.queueEntryStart n) s = .next t ∧ sameMem s t ∧ t.queue? n = some q' ∧ q'.bad = true ∧ q'.entries = r) ∧
    (entryOver s q = true → q.nextAt = none → e.sig = false →
      ∃ t q', exec (.queueEntryComplete n) s = .next t ∧ sameMem s t ∧ t.queue? n = some q' ∧ q'.entries = r ∧
        q'.state = (if r.isEmpty then 1 else 2)) ∧
    (entryOver s q = true → q.nextAt = none → e.sig = true →
      ∃ t q', exec (.queueEntryComplete n) s = .next t ∧ sameMem s t ∧ t.queue? n = some q' ∧ q'.entries = q.entries ∧ q'.signalling = true) ∧
    (∀ pa, q.signalling = true → q.nextAt = none → q.sigAcc = none → writesOpen s q = false → signalPlace s q e = some (.dev, pa) →
      s.repsets = [] → s.migs = [] → s.memWf = true →
      ∃ t q', exec (.signalAck n) s = .next t ∧ t.queue? n = some q' ∧ q'.entries = q.entries ∧ q'.nextAt = some (s.cycle + 1) ∧
        q'.bad = q.bad ∧ read64 t pa = (read64 s pa + e.sigamt) % 2 ^ 64 ∧ (∀ k, ¬ (pa ≤ k ∧ k < pa + 8) → t.dev.get k = s.dev.get k) ∧
        t.scratch = s.scratch ∧ t.weight = s.weight ∧ t.host = s.host) ∧
    (∀ p va, q.signalling = true → q.nextAt = none → q.sigAcc = none → writesOpen s q = false → signalPlace s q e = some (.remote p, va) →
      (∃ x ∈ s.postedQ, x.1 = q.id) →
      ∃ t q', exec (.signalAck n) s = .next t ∧ sameMem s t ∧ t.queue? n = some q' ∧ q'.sigAcc = none ∧ q'.entries = q.entries ∧
        (∀ x ∈ t.postedQ, x.1 ≠ q.id) ∧ ∀ x ∈ s.postedQ, x.1 = q.id →
        ∃ a ∈ t.accs, s.nextId ≤ a.id ∧ a.queue = some q.id ∧ a.space = .host ∧ a.line = x.2 ∧ a.op = .load ∧ a.lanes = []) ∧
    (∀ p va, q.signalling = true → q.nextAt = none → q.sigAcc = none → writesOpen s q = false → signalPlace s q e = some (.remote p, va) →
      (∀ x ∈ s.postedQ, x.1 ≠ q.id) →
      ∃ t q', exec (.signalAck n) s = .next t ∧ sameMem s t ∧ t.queue? n = some q' ∧ q'.sigAcc = some s.nextId ∧ q'.entries = q.entries ∧
        ∃ a ∈ t.accs, a.id = s.nextId ∧ a.op = .atomic .add false ∧ a.space = .remote p ∧
          a.lanes.map (fun l => (l.va, l.data)) = [(e.sigadr, toLE 8 e.sigamt)]) ∧
    (q.signalling = true → q.nextAt = none → q.sigAcc = none → writesOpen s q = false → signalPlace s q e = none →
      ∃ t q', exec (.signalAck n) s = .next t ∧ sameMem s t ∧ t.queue? n = some q' ∧ q'.bad = true ∧ q'.nextAt = some (s.cycle + 1)) ∧
    (∀ m, q.state ≠ 5 → q.nextAt = some m → m ≤ s.cycle →
      ∃ t q', exec (.queueEntryComplete n) s = .next t ∧ sameMem s t ∧ t.queue? n = some q' ∧ q'.entries = r ∧ q'.signalling = false ∧
        q'.nextAt = none ∧ q'.state = (if r.isEmpty then 1 else 2))

/-- How gangs are placed, retired and pre-empted, how nodes start and launches end, and how work lists end (15_kernel.md; 14_queue.md; 07_group.md). -/
def Obligations.GangSteps : Prop :=
  (∀ (s : State) (x : Sweep) (i r q : Nat) (ms : List (Nat × List (Nat × Nat))), chosen s = some (x, .run i r, q, ms) →
    (∀ g ∈ s.groups, g.gid < s.nextId) →
    ∃ t, exec .gangPlace s = .next t ∧ sameMem s t ∧ (∃ y ∈ t.gangs, y.id = s.nextId ∧ y.sweep = x.id ∧ y.index = i ∧ y.run = r ∧
        y.quartet = q ∧ y.state = .running) ∧
      (∀ g ∈ s.groups, g.wg < s.nextId → ∃ h ∈ t.groups, h.gid = g.gid ∧ h.s = g.s) ∧
      ∀ g ∈ t.groups, s.nextId ≤ g.gid → g.s = sImage x ∧ g.regs = x.regs ∧ g.threads.length = 64 ∧
        ∀ u ∈ g.threads, u.pc = x.entry ∧ u.v = [] ∧ u.pv = 0 ∧ u.exited = false ∧ u.handler = false) ∧
  (∀ (n : Nat) (s : State) (w : Wg), s.wg? n = some w → w.state = .closing → wgBusy s n = false →
    exec (.workgroupDone n) s = .next (s.modWg n fun w => { w with state := .done })) ∧
  (∀ (n : Nat) (s : State) (y : Gang) (x : Sweep), s.gang? n = some y → gangDone s y = true → s.sweep? y.sweep = some x → x.slide = false →
    (∀ c, s.ctx? y.ctx = some c → c.state ≠ .saving) →
    ∃ t, exec (.gangRetire n) s = .next t ∧ sameMem s t ∧ t.gang? n = none ∧ (∀ w ∈ t.wgs, w.gang ≠ n) ∧
      (∀ z, t.sweep? x.id = some z → z.retired = x.retired + (if y.run = 0 then 1 else 0))) ∧
  (∀ (n i : Nat) (s s' : State) (l : Launch) (x : Sweep), s.launch? n = some l → readyNode s l = some (i, .start x s') →
    ∃ t m, exec (.nodeStart n) s = .next t ∧ sameMem s t ∧ t.launch? n = some m ∧ m.started = l.started ++ [i] ∧
      ∃ y ∈ t.sweeps, y.launch = some (n, i) ∧ y.queue = some l.queue ∧ y.params = x.params) ∧
  (∀ (n i : Nat) (s s' : State) (l : Launch), s.launch? n = some l → readyNode s l = some (i, .bad s') →
    ∃ t m, exec (.nodeStart n) s = .next t ∧ sameMem s t ∧ t.launch? n = some m ∧ m.bad = true ∧
      ∀ q, t.queue? l.queue = some q → q.bad = true) ∧
  (∀ (n : Nat) (s : State) (l : Launch), s.launch? n = some l → launchOver l = true →
    ((s.queue? l.queue).elim true (·.signalling)) = false →
    ∃ t, exec (.graphLaunchComplete n) s = .next t ∧ t.launch? n = none ∧ t.scratch = s.scratch ∧ t.weight = s.weight ∧ t.host = s.host) ∧
  (∀ (n : Nat) (s : State) (c o : Context) (x : Sweep) (k : Next) (q m : Nat), s.ctx? n = some c → starved s c = some (x, k) →
    (s.ctxs.filter fun o => decide (c.cls ≤ o.cls) && !(s.gangs.filter fun g => g.ctx == o.id && decide (g.state = .running) &&
      (gangWgs s g.id).any fun w => c.cmask.getLsbD w.core).isEmpty) = [o] →
    dedup ((s.gangs.filter fun g => g.ctx == o.id && decide (g.state = .running) &&
      (gangWgs s g.id).any fun w => c.cmask.getLsbD w.core).map (·.quartet)) = [q] →
    needed s x k (gangsOn s o.id q) = some m →
    exec (.quantumPreempt n) s = .next ((((gangsOn s o.id q).take m).foldl (fun s g => preemptGang s g.id) s).modCtx n
      fun c => { c with preemptedAt := some s.cycle })) ∧
  (∀ (ctx : Nat) (ls : List Nat) (s : State) (c : Context), terminated s ctx ls = true → s.ctx? ctx = some c → sparseWf {} c.lists = true →
    ∃ t d, exec (.terminationDetect ctx ls) s = .next t ∧ sameMem s t ∧ t.ctx? ctx = some d ∧ (∀ n ∈ ls, (d.list n).ended = true) ∧
      ∀ g ∈ s.groups, s.ctxOf g = ctx → ∀ u ∈ g.threads, u.wait = .quiesce ls →
        ∃ h ∈ t.groups, h.gid = g.gid ∧ ∃ w ∈ h.threads, w.lane = u.lane ∧ w.wait = .none ∧ w.pc = u.pc)

/-- A field transfer moves its amount between two cells, or is refused and moves nothing (18_field.md). -/
def Obligations.FieldTransfers : Prop :=
  (∀ (i : Instr) (p : Option Nat) (d b : VReg) (r : RecN) (s : State) (iss : Issue) (g : Group) (ins : List Thread),
    ((i = .fxfer d r b ∧ p = none) ∨ (∃ q : PReg, i = .fxferw q d r b ∧ p = some q.toNat)) →
    Passes i s iss g → xferSteps d r b iss g s = .go ins [] → detOf s g = false → (g.threads.map (·.lane)).Nodup →
    (p.isSome = true → g.coursed = true → ∀ l ∈ iss.lanes, l % 2 = 0 → l + 1 ∈ iss.lanes) →
    ∃ t, exec i s = .next t ∧ sameMem s t ∧ goneOn s t iss 1 ∧ restStays s t iss ∧
      ∀ u ∈ ins, ∃ x ∈ t.xfers, s.nextId ≤ x.id ∧ x.gid = g.gid ∧ x.lane = u.lane ∧ x.pc = iss.pc ∧ x.wait = p ∧
        x.sidx = xferIx b u 0 ∧ x.didx = xferIx b u 1 ∧ x.amount = xferAmount (recAt iss.snap r).es d u ∧
        x.sva = (recAt iss.snap r).addr (xferIx b u 0) ∧ x.dva = (recAt iss.snap r).addr (xferIx b u 1) ∧
        (p.isSome = true → ∃ w, t.thread? g.gid u.lane = some w ∧ w.wait = .xfer x.id)) ∧
  (∀ (n pa : Nat) (s : State) (x : Xfer) (d : Domain), s.xfer? n = some x → xferReady s x = true → s.memWf = true →
    cellPlace s x.ctx x.dva = .here pa → domainAt s x.ctx x.esize x.sva = some d → sourceReason s x (some d) (.here pa) = none →
    homeSlice pa = homeSlice x.spa → destReason s x d pa = none → d.isSource x.sva = false → d.isSink x.dva = false →
    (x.spa + x.esize ≤ pa ∨ pa + x.esize ≤ x.spa) →
    ∃ t, exec (.fxferApply n) s = .next t ∧ t.xfer? n = none ∧ cellAt t x.spa x.esize = cellAt s x.spa x.esize - x.amount ∧
      cellAt t pa x.esize = cellAt s pa x.esize + x.amount ∧ t.scratch = s.scratch ∧ t.weight = s.weight ∧ t.host = s.host ∧
      (∀ k, ¬ (x.spa ≤ k ∧ k < x.spa + x.esize) → ¬ (pa ≤ k ∧ k < pa + x.esize) → t.dev.get k = s.dev.get k) ∧
      ∀ e, t.dom? d.id = some e → s.dom? d.id = some d → e.total = d.total ∧ e.transit = d.transit) ∧
  (∀ (n pa : Nat) (s : State) (x : Xfer) (d : Domain), s.xfer? n = some x → xferReady s x = true → s.memWf = true →
    cellPlace s x.ctx x.dva = .here pa → domainAt s x.ctx x.esize x.sva = some d → s.dom? d.id = some d →
    sourceReason s x (some d) (.here pa) = none → homeSlice pa ≠ homeSlice x.spa → d.isSource x.sva = false → x.amount ≠ 0 →
    ∃ t y e, exec (.fxferApply n) s = .next t ∧ t.xfer? n = some y ∧ y.stage = 1 ∧ y.dpa = pa ∧ y.dom = d.id ∧ t.dom? d.id = some e ∧
      e.transit = d.transit + BitVec.ofInt 128 x.amount ∧ cellAt t x.spa x.esize = cellAt s x.spa x.esize - x.amount) ∧
  (∀ (n : Nat) (s : State) (x : Xfer), s.xfer? n = some x → xferReady s x = true → x.amount = 0 →
    ∃ t, exec (.fxferApply n) s = .next t ∧ sameMem s t ∧ t.xfer? n = none ∧ t.domains = s.domains) ∧
  (∀ (n r : Nat) (s : State) (x : Xfer), s.xfer? n = some x → xferReady s x = true →
    sourceReason s x (domainAt s x.ctx x.esize x.sva) (cellPlace s x.ctx x.dva) = some r → x.amount ≠ 0 →
    ∃ t, exec (.fxferApply n) s = .next t ∧ sameMem s t ∧ t.xfer? n = none) ∧
  (∀ (n : Nat) (s : State) (x : Xfer) (d : Domain), s.xfer? n = some x → creditReady s x = true → s.dom? x.dom = some d → s.memWf = true →
    destReason s x d x.dpa = none → d.isSink x.dva = false → (x.esize = 4 ∨ x.esize = 8) →
    ∃ t e, exec (.fxferCredit n) s = .next t ∧ t.xfer? n = none ∧ t.dom? x.dom = some e ∧
      e.transit = d.transit - BitVec.ofInt 128 x.amount ∧
      (d.isSource x.dva = false → cellAt t x.dpa x.esize = cellAt s x.dpa x.esize + x.amount) ∧
      (∀ k, ¬ (x.dpa ≤ k ∧ k < x.dpa + x.esize) → t.dev.get k = s.dev.get k)) ∧
  (let arrived (s : State) (c : CreditMsg) : State :=
      (s.dom? c.dom).elim s fun d => noteAfter s d.ctx (c.va / 65536) c.peer c.after c.hops
   (∀ (c : CreditMsg) (s : State), creditWaits (arrived s c) c = true →
    ∃ t, exec (.fieldCredit c) s = .next t ∧ sameMem s t ∧ t.domains = s.domains ∧ t.creditsIn = s.creditsIn ++ [(s.nextId, c)]) ∧
   (∀ (c : CreditMsg) (s : State), creditWaits (arrived s c) c = false → c.page = true →
    ∃ t, exec (.fieldCredit c) s = .next t ∧ sameMem s t ∧ t.domains = s.domains ∧
      ∃ k ∈ t.sent, k.pkt.typ = 0x10 ∧ k.pkt.dst = c.peer ∧ k.pkt.tag = c.num * 4096 + c.peer) ∧
   (∀ (c : CreditMsg) (s : State) (d : Domain) (pa : Nat), creditTarget s c = some (d, pa) → d.credited.contains (c.peer, c.num) = false →
    s.memWf = true → s.dom? d.id = some d → d.isSink c.va = false → creditWaits (arrived s c) c = false → c.page = false → creditStub s c = none →
    ∃ t e, exec (.fieldCredit c) s = .next t ∧ t.dom? d.id = some e ∧ (c.peer, c.num) ∈ e.credited ∧
      e.inflow = d.inflow + BitVec.ofInt 128 c.amount ∧ cellAt t pa d.es = cellAt s pa d.es + c.amount ∧
      ∃ k ∈ t.sent, k.pkt.typ = 0x10 ∧ k.pkt.dst = c.peer ∧ k.pkt.tag = c.num * 4096 + c.peer) ∧
   (∀ (c : CreditMsg) (s : State) (d : Domain), s.dom? c.dom = some d → d.credited.contains (c.peer, c.num) = true →
    creditWaits (arrived s c) c = false → c.page = false → creditStub s c = none →
    ∃ t, exec (.fieldCredit c) s = .next t ∧ sameMem s t ∧ t.domains = s.domains ∧
      ∃ k ∈ t.sent, k.pkt.typ = 0x10 ∧ k.pkt.dst = c.peer ∧ k.pkt.tag = c.num * 4096 + c.peer) ∧
   (∀ (c : CreditMsg) (s : State), creditTarget s c = none → (∀ d, s.dom? c.dom = some d → d.credited.contains (c.peer, c.num) = false) →
    creditWaits (arrived s c) c = false → c.page = false → creditStub s c = none →
    ∃ t, exec (.fieldCredit c) s = .next t ∧ sameMem s t ∧ t.domains = s.domains ∧
      ∃ k ∈ t.sent, k.pkt.typ = 0x31 ∧ k.pkt.dst = c.peer ∧ k.pkt.tag = c.num * 4096 + c.peer)) ∧
  (∀ (n : Nat) (s : State) (x : Xfer) (d : Domain), s.xfer? n = some x → (x.stage = 2 ∨ x.stage = 3) → s.dom? x.dom = some d →
    ∃ t e, exec (.fieldAck n) s = .next t ∧ sameMem s t ∧ t.xfer? n = none ∧ t.dom? x.dom = some e ∧
      e.outflow = d.outflow + BitVec.ofInt 128 x.amount ∧ e.transit = d.transit - BitVec.ofInt 128 x.amount) ∧
  (∀ (n : Nat) (s : State) (x : Xfer) (d : Domain), s.xfer? n = some x → (x.stage = 2 ∨ x.stage = 3) → s.dom? x.dom = some d → s.memWf = true →
    (x.esize = 4 ∨ x.esize = 8) → x.fromSource = false → d.isSource x.sva = false → d.isSink x.sva = false → cellFits x.esize (cellAt s x.spa x.esize + x.amount) = true →
    ∃ t e, exec (.fieldNack n) s = .next t ∧ t.xfer? n = none ∧ t.dom? x.dom = some e ∧
      e.transit = d.transit - BitVec.ofInt 128 x.amount ∧ e.outflow = d.outflow ∧
      cellAt t x.spa x.esize = cellAt s x.spa x.esize + x.amount) ∧
  (∀ (n : Nat) (s : State) (d : Domain), s.dom? n = some d → d.state = .closing →
    (s.xfers.any fun x => decide (x.stage = 1 ∨ x.stage = 2 ∨ x.stage = 3 ∨ x.stage = 5) && x.dom == n) = false →
    exec (.domainAbsent n) s = .next { s with domains := s.domains.filter fun d => d.id != n })

/-- FTOT, FSTAT, FDOM, FDECL, FLINK, FCLOSE and FRECL (18_field.md). -/
def Obligations.FieldInstructions : Prop :=
  ∀ (s : State) (iss : Issue) (g : Group) (a : SReg),
    (∀ d x, Passes (.ftot d a) s iss g → domainArg s iss g a [] false = .ok x → domXferOpen s iss.gid iss.lanes x = false →
      exec (.ftot d a) s = .next (advance (s.setSs iss.gid d.toNat (words128 (x.issued + x.inflow - x.absorbed - x.outflow - x.transit))) iss)) ∧
    (∀ d x, Passes (.ftot d a) s iss g → domainArg s iss g a [] false = .ok x → domXferOpen s iss.gid iss.lanes x = true →
      exec (.ftot d a) s = .next (hold s iss .retry)) ∧
    (∀ (d : SReg) (sel : BitVec 3) x, Passes (.fstat d a sel) s iss g → domainArg s iss g a [] false = .ok x → sel.toNat ≤ 4 →
      exec (.fstat d a sel) s = .next (advance (s.setSs iss.gid d.toNat (words128
        (match sel.toNat with | 0 => x.issued | 1 => x.absorbed | 2 => x.inflow | 3 => x.outflow | _ => x.transit))) iss)) ∧
    (∀ (d : SReg) (sel : BitVec 3) x, Passes (.fstat d a sel) s iss g → domainArg s iss g a [] false = .ok x → 5 ≤ sel.toNat →
      ∃ t, exec (.fstat d a sel) s = .next t ∧ sameMem s t ∧ goneOn s t iss 1 ∧
        (sel ≠ 7 → t = advance (s.setSs iss.gid d.toNat (if sel = 6 then (refusalWords s x).drop 4 else (refusalWords s x).take 4)) iss) ∧
        (sel = 7 → ∀ e, t.dom? x.id = some e → e.v = false ∧ e.more = false ∧ e.count = x.count)) ∧
    (∀ (d : SReg) (r : RecN) (s' : State) locs, Passes (.fdom d r) s iss g → uniAccess s iss g r 32 [0, 1] 1 = .ok s' locs → sparseWf {} g.s = true →
      let ws := bytesToWords (uniRead s' g.gid locs).1 8
      (∀ k, fdomReason (uniRead s' g.gid locs).2 g.core (placeOf s g).2 ws = some k →
        ∃ t, exec (.fdom d r) s = .next t ∧ sameMem s t ∧ goneOn s t iss 1 ∧ t.domains = s.domains ∧
          t.sreg iss.gid d.toNat = ⟨BitVec.ofNat 32 (2 ^ 31 + k * 2 ^ 16), false⟩) ∧
      ∀ n, fdomReason (uniRead s' g.gid locs).2 g.core (placeOf s g).2 ws = none → ((List.range 256).find? fun i => (s.dom? i).isNone) = some n →
        ∃ t x, exec (.fdom d r) s = .next t ∧ goneOn s t iss 1 ∧ t.sreg iss.gid d.toNat = ⟨BitVec.ofNat 32 n, false⟩ ∧
          t.domains = s.domains ++ [x] ∧ x.id = n ∧ x.ctx = (placeOf s g).2.id ∧ x.base = waddr ws 0 ∧ x.ncell = wnat ws 2 ∧
          x.fq64 = (wnat ws 3).testBit 8 ∧ x.nonneg = (wnat ws 3).testBit 9 ∧ x.state = .open_ ∧ x.total = 0 ∧ x.sources = [] ∧ x.sinks = [] ∧
          t.scratch = s.scratch ∧ ∀ k, t.dev.get k = s.dev.get k ∨ t.dev.get k = 0) ∧
    (∀ (r : RecN) x (s₁ s₂ : State) l₁ l₂, Passes (.fdecl a r) s iss g → domainArg s iss g a [] true = .ok x →
      uniAccess s iss g r 16 [0, 1] 1 = .ok s₁ l₁ →
      let ws := bytesToWords (uniRead s₁ g.gid l₁).1 4
      let n := bits (wnat ws 0) 6 0
      let sink := (wnat ws 0).testBit 8
      1 ≤ n → n ≤ 64 → (wnat ws 0).testBit 7 = false → bits (wnat ws 0) 31 9 = 0 → (ws.drop 1).any (· != 0) = false →
      uniAccess (uniRead s₁ g.gid l₁).2 iss g r (16 + 4 * n) [0, 1] 1 = .ok s₂ l₂ → s.dom? x.id = some x →
      let is := (bytesToWords ((uniRead s₂ g.gid l₂).1.drop 16) n).map (·.toNat)
      (fdeclBad (uniRead s₂ g.gid l₂).2 x sink is = true → ∃ t, exec (.fdecl a r) s = .next (uniTidy iss (takeTrap t iss 0x05 { sub := 13 })) ∧
        sameMem s t ∧ t.domains = s.domains ∧ t.groups = s.groups) ∧
      (fdeclBad (uniRead s₂ g.gid l₂).2 x sink is = false → ∃ t, exec (.fdecl a r) s = .next t ∧ sameMem s t ∧ goneOn s t iss 1 ∧ restStays s t iss ∧
        t.dom? x.id = some (if sink then { x with sinks := x.sinks ++ is } else { x with sources := x.sources ++ is }) ∧
        ∀ m, m ≠ x.id → t.dom? m = s.dom? m)) ∧
    (∀ (b : SReg) x, Passes (.flink a b) s iss g → domainArg s iss g a [b.toNat, b.toNat + 1] true = .ok x → iss.sv b < 4096 →
      (sget {} iss.snap (b.toNat + 1)).w.toNat < 256 → peerBad s ((s.ctx? x.ctx).getD {}) (iss.sv b) = none →
      (x.links.all fun l => l.1 != iss.sv b) = true → x.links.length < 16 →
      exec (.flink a b) s = .next (advance (s.modDom x.id fun d =>
        { d with links := d.links ++ [(iss.sv b, (sget {} iss.snap (b.toNat + 1)).w.toNat)] }) iss)) ∧
    (∀ x, Passes (.fclose a) s iss g → domainArg s iss g a [] false = .ok x →
      exec (.fclose a) s = .next (advance (s.modDom x.id fun d => { d with state := .closing }) iss)) ∧
    (∀ (b : SReg) x y, Passes (.frecl a b) s iss g → domainArg s iss g a [b.toNat] false = .ok x → s.memWf = true → s.dom? x.id = some x →
      x.isSource y.sva = false → x.isSink y.sva = false →
      (s.xfers.filter fun x' => x'.dom == x.id && x'.stage == 3 && x'.peer == iss.sv b % 4096) = [y] → y.fromSource = false →
      (y.esize = 4 ∨ y.esize = 8) → cellFits y.esize (cellAt s y.spa y.esize + y.amount) = true →
      ∃ t e, exec (.frecl a b) s = .next t ∧ t.xfer? y.id = none ∧ cellAt t y.spa y.esize = cellAt s y.spa y.esize + y.amount ∧
        t.dom? x.id = some e ∧ e.transit = x.transit - BitVec.ofInt 128 y.amount ∧ y.id ∈ e.reclaimed ∧
        ∀ k, ¬ (y.spa ≤ k ∧ k < y.spa + y.esize) → t.dev.get k = s.dev.get k)

/-- SRD, SWR and its forms, BSAVE, BRST, CSAVE, CRST, UCNT, WCALL, IDLE and HALT (13_context.md; 14_queue.md; 20_page.md; 21_link.md; 10_barrier.md; 26_faults.md). -/
def Obligations.SystemInstructions : Prop :=
  ∀ (s : State) (iss : Issue) (g : Group),
    (∀ (x : SrdF) (c : Context), Passes (.srd x) s iss g → s.ctx? (stateTarget s g x.other x.ctx) = some c →
      exec (.srd x) s = .next (advance (s.setS iss.gid x.d.toNat ⟨BitVec.ofNat 32 (srdValue s c g.hqHigh x.num.toNat), false⟩) iss 2)) ∧
    (∀ (x : SrdF), Passes (.srd x) s iss g → s.ctx? (stateTarget s g x.other x.ctx) = none →
      exec (.srd x) s = .next (advance (s.setS iss.gid x.d.toNat ⟨0xFFFFFFFF, false⟩) iss 2)) ∧
    (∀ (x : SrdF) (item : DWord) (rest : List DWord), Passes (.hqpop x) s iss g → (s.ctx? (stateTarget s g x.other x.ctx)).isSome = true →
      s.health = item :: rest → item ≠ 0 → sparseWf {} g.s = true →
      ∃ t h, exec (.hqpop x) s = .next t ∧ sameMem s t ∧ goneOn s t iss 2 ∧ t.health = rest ∧ t.group? iss.gid = some h ∧
        h.sget' x.d.toNat = ⟨item.setWidth 32, false⟩ ∧ h.hqHigh = (item >>> 32).setWidth 32) ∧
    (∀ (x : SrdF), Passes (.hqpop x) s iss g → (s.ctx? (stateTarget s g x.other x.ctx)).isSome = true → s.health = [] →
      exec (.hqpop x) s = .next (advance (s.setS iss.gid x.d.toNat ⟨0, false⟩) iss 2)) ∧
    (∀ (i : Instr) (x : SwrF) (v : Option Word), (i, v) ∈ ([(.swr x, none), (.ctxset x, none), (.cmaskWrite x, none), (.rgnrst x, none),
        (.ctlcmd x, none), (.qcmdCreate x, some 1), (.qcmdDestroy x, some 2), (.qbudget x, none), (.qlate x, none), (.pagecfg x, none),
        (.frmpush x, none), (.partmask x, none)] : List (Instr × Option Word)) → Passes i s iss g →
      firstPoisonS iss.snap [x.a.toNat] = none →
      let ctx := stateTarget s g x.other x.ctx
      exec i s = .next (advance (if (s.ctx? ctx).isSome then swrApply s ctx x.num.toNat (v.getD (BitVec.ofNat 32 (iss.sv x.a))) else s) iss 2)) ∧
    (∀ (r : RecN) (s' : State) (locs : List (Space × Nat)), Passes (.bsave r) s iss g → uniAccess s iss g r 6400 [0, 1] 2 = .ok s' locs →
      locs.Nodup → s.memWf = true → s.marks = [] → s.repsets = [] → s.migs = [] → (∀ l ∈ locs, ∀ p, l.1 ≠ .remote p) →
      ∃ t, exec (.bsave r) s = .next t ∧ goneOn s t iss 1 ∧ restStays s t iss ∧
        (∀ sp c, (sp, c) ∉ locs → (t.mem sp).get c = (s.mem sp).get c) ∧
        ∀ (n : Nat) (sp : Space) (c : Nat), n < 6400 → locs[n]? = some (sp, c) → (sp = .dev ∨ sp = .scratch) →
          (t.mem sp).get c = ((List.range 16).flatMap fun n => barrierImage (sget {} (placeOf s g).1.barriers n)).getD n 0) ∧
    (∀ (r : RecN) (s' : State) (locs : List (Space × Nat)), Passes (.brst r) s iss g → uniAccess s iss g r 6400 [0, 1] 1 = .ok s' locs →
      let w := (placeOf s g).1
      let got := uniRead s' g.gid locs
      let image (n : Nat) : Option Barrier := barrierOf (sget {} w.barriers n) ((got.1.drop (400 * n)).take 400)
      ((∀ n, n < 16 → (image n).isSome = true) →
        let bs := ((List.range 16).map fun n => (n, image n)).foldl (fun m e => sset {} m e.1 (e.2.getD {})) []
        exec (.brst r) s = .next (uniTidy iss ((List.range 16).foldl (fun s n => barTest s w.id n)
          (rewait ((advance got.2 iss).modWg w.id fun w => { w with barriers := bs }) w.id bs)))) ∧
      (∀ n, n < 16 → image n = none → exec (.brst r) s = .next (uniTidy iss (takeTrap got.2 iss 0x05 { sub := 2 })))) ∧
    (∀ (a : SReg) (r : RecN) (n : Nat) (c : Context) (s' : State) (locs : List (Space × Nat)), Passes (.csave a r) s iss g → ctxArg s iss g a = .ok n →
      s.ctx? n = some c → c.state = .active → areaShort s iss g r c.saveSize = false → uniAccess s iss g r Config.saveHeader [0] 2 = .ok s' locs →
      let run := s.gangs.filter fun x => x.ctx == n && decide (x.state = .running)
      (run ≠ [] → (∀ y ∈ s.sweeps, y.slide = false) →
        ∃ t d, exec (.csave a r) s = .next t ∧ sameMem s t ∧ goneOn s t iss 1 ∧ (∀ x ∈ t.gangs, x.ctx = n → x.state ≠ .running) ∧
        (∀ x ∈ run, ∃ y ∈ t.gangs, y.id = x.id ∧ y.state = .preempting ∧ y.stopAt = s.cycle) ∧
        t.ctx? n = some d ∧ d.state = .saving ∧ ∀ l ∈ iss.lanes, ∀ u, t.thread? iss.gid l = some u → u.wait = .ctxop n) ∧
      ((∀ x ∈ s.gangs, x.ctx = n → x.state = .saved) →
        ∃ t d, exec (.csave a r) s = .next t ∧ goneOn s t iss 1 ∧ t.ctx? n = some d ∧ d.state = .saved)) ∧
    (∀ (a : SReg) (r : RecN) (n : Nat) (s' : State) (locs : List (Space × Nat)), Passes (.crst a r) s iss g → ctxArg s iss g a = .ok n →
      areaShort s iss g r Config.saveHeader = false → uniAccess s iss g r Config.saveHeader [0] 1 = .ok s' locs →
      let bs := (uniRead s' g.gid locs).1
      let u := (uniRead s' g.gid locs).2
      let ws := bytesToWords bs 64
      headerBad u ws = false → areaShort u iss g r (wnat ws 21) = false →
      (∀ c, s.ctx? n = some c → c.state = .saved → bits (wnat ws 0) 31 28 = 1 → wnat ws 0 % 64 = n →
        ∃ t d, exec (.crst a r) s = .next t ∧ sameMem s t ∧ goneOn s t iss 1 ∧ t.ctx? n = some d ∧ d.state = .active ∧ d.tensors = tensorsOf bs ∧
          d.weight = c.weight ∧ d.q0 = c.q0) ∧
      (∀ x v, s.ctx? n = none → bits (wnat ws 0) 31 28 = 0 →
        (let c := { ctxOfHeader n ws (tensorsOf bs) with saveAt := (recAt iss.snap r).base, saver := s.ctxOf g }
         residentSweep u c = some (x, v) →
         ∃ t d, exec (.crst a r) s = .next t ∧ sameMem s t ∧ goneOn s t iss 1 ∧ t.ctx? n = some d ∧ d.state = .active ∧ d.weight = c.weight ∧
          d.cls = c.cls ∧ d.priv = c.priv ∧ d.cmask = c.cmask ∧ d.ptroot = c.ptroot ∧ d.tensors = c.tensors ∧ d.resident.isSome = true)) ∧
      (∀ c, s.ctx? n = some c → c.state ≠ .saved → exec (.crst a r) s = .next (uniTidy iss (takeTrap u iss 0x05 { sub := 10 })))) ∧
    (∀ (r : RecN) (s' : State) (locs : List (Space × Nat)) (c : Context), Passes (.ucnt r) s iss g →
      uniAccess s iss g r usageBytes [0] 3 = .ok s' locs → uniPoison s' (locs.take 16) = none →
      (placeOf s g).2 = c → s.ctx? c.id = some c → c.ucntPending = none → (∀ p ∈ locs, p.1 = .dev) → s.marks = [] → s.repsets = [] → s.migs = [] →
      ∃ t d, exec (.ucnt r) s = .next t ∧ goneOn s t iss 1 ∧ t.ctx? c.id = some d ∧ d.ucntPending = some ((recAt iss.snap r).base, s.nextId, false) ∧
        (∀ n, d.usage.getD n 0 = c.usage.getD n 0) ∧ t.scratch = s.scratch ∧
        (∀ k, (∀ p ∈ (locs.drop 16).take 112, p.2 ≠ k) → t.dev.get k = s.dev.get k) ∧
        (s.memWf = true → (locs.map (·.2)).Nodup → ∀ n, n < 11 → ∀ (k : Nat) (p : Space × Nat), k < 8 → locs[32 + 8 * n + k]? = some p →
          t.dev.get p.2 = (toLE 8 (d.usage.getD n 0)).getD k 0)) ∧
    (Passes (.wcall 0) s iss g →
      exec (.wcall 0) s = .next ((advance s iss).setSs iss.gid 0 [BitVec.ofNat 32 (sget 0 s.fwVersions 4), 0, 0, 0])) ∧
    (∀ n : BitVec 8, n ≠ 0 → Passes (.wcall n) s iss g →
      exec (.wcall n) s = .next ((({ advance s iss with nextId := s.nextId + 1 } : State)).mapLanes iss.gid iss.lanes fun t =>
        { t with wait := .wcall n.toNat s.nextId })) ∧
    (Passes .idle s iss g →
      exec .idle s = .next ((advance s iss).mapLanes iss.gid iss.lanes fun t => { t with wait := .idle (s.cycle + Config.idleWait) })) ∧
    (Passes .halt s iss g → s.ctxOf g ≠ 0 →
      ∃ t, exec .halt s = .next t ∧ t = closeCtx s (s.ctxOf g) ∧ (∀ d ∈ t.ctxs, d.id = s.ctxOf g → d.state = .closing ∧ d.q0 = [] ∧ d.slots = []) ∧
        ∀ d ∈ t.domains, d.ctx = s.ctxOf g → d.state = .closing) ∧
    (Passes .halt s iss g → s.ctxOf g = 0 → ∃ t, exec .halt s = .next t ∧ t.stopped = true ∧ step { t with agenda := [] } = .next { t with agenda := [] })

/-- What the writes of a context's state do (13_context.md; 14_queue.md; 20_page.md; 21_link.md). -/
def Obligations.SystemWrites : Prop :=
  ∀ (s : State) (n : Nat) (c : Context) (v : Word), s.ctx? n = some c →
    (0 < bits v.toNat 7 0 → bits v.toNat 9 8 ≠ 3 →
      (swrApply s n 0x002 v).ctx? n = some { c with weight := bits v.toNat 7 0, cls := bits v.toNat 9 8, mask21 := v.toNat.testBit 12 }) ∧
    (∀ k, k < 8 → ∃ d, (swrApply s n (0x008 + k) v).ctx? n = some d ∧
      ∀ i, i < 256 → d.cmask.getLsbD i = if i / 32 = k then v.getLsbD (i % 32) else c.cmask.getLsbD i) ∧
    (∀ r ∈ (swrApply s n 0x018 v).regions, ¬ (r.ctx = n ∧ r.region = v.toNat % 4096)) ∧
    (∀ m ∈ (swrApply s n 0x018 v).markers, ¬ (m.1 = n ∧ m.2.1 = v.toNat % 4096)) ∧
    (v ≠ 1 → swrApply s n 0x019 v = s) ∧
    (v = 1 → c.state ≠ .closing → ∀ d ∈ (swrApply s n 0x019 v).ctxs, d.id = n → d.state = .closing ∧ d.q0 = [] ∧ d.slots = []) ∧
    (∃ d, (swrApply s n 0x020 v).ctx? n = some d ∧ d.pagecfg.getLsbD 31 = v.getLsbD 31 ∧
      bits d.pagecfg.toNat 4 0 = if 16 ≤ v.toNat % 32 ∧ v.toNat % 32 ≤ 30 then v.toNat % 32 else bits c.pagecfg.toNat 4 0) ∧
    (c.frames.length < 256 → (swrApply s n 0x021 v).ctx? n = some { c with frames := c.frames ++ [v.toNat] }) ∧
    (∀ k p, k < 128 → p < 4096 → ∃ d, (swrApply s n (0x100 + k) v).ctx? n = some d ∧
      d.partition_.contains p = if p / 32 = k then v.getLsbD (p % 32) else c.partition_.contains p) ∧
    ((swrApply s n 0x210 v).ctx? n = some { c with qsel := v.toNat % 512 }) ∧
    (s.queue? c.qsel = none → (swrApply s n 0x211 1).queue? c.qsel = some { id := c.qsel, owner := n, state := 1 }) ∧
    (∀ q ∈ (swrApply s n 0x211 2).queues, ¬ (q.id = c.qsel ∧ q.owner = n ∧ q.state = 1)) ∧
    (∀ q, s.queue? c.qsel = some q → q.owner = n →
      (swrApply s n 0x212 v).queue? c.qsel =
        some { q with latee := v.getLsbD 31, budget := if v.toNat % 32768 = 0 then 32767 else v.toNat % 32768 } ∧
      (swrApply s n 0x213 v).queue? c.qsel = some { q with late := v.toNat }) ∧
    (∀ q, s.queue? c.qsel = some q → q.owner ≠ n →
      (swrApply s n 0x212 v).queue? c.qsel = some q ∧ (swrApply s n 0x211 2).queue? c.qsel = some q) ∧
    (∀ (old b : Barrier), b.expect < 2048 → b.count < 2048 → b.arrived &&& b.doneM = 0 →
      barrierOf old (barrierImage b) = some { b with expect := old.expect })

/-- The mailbox, pre-emption, save and restore, the resident gang, and the ends of waits (13_context.md; 26_faults.md; 15_kernel.md). -/
def Obligations.ContextSteps : Prop :=
  (∀ (n slot : Nat) (v : Word) (s : State) (c : Context), s.ctx? n = some c → windowOpen s c = true → windowWorld s c = false → slot < 256 →
    let old : Slot := sget {} c.slots slot
    let bytes := writeBytes old.bytes 60 (toLE 4 v.toNat)
    let kind := bits v.toNat 30 28
    let len := bits v.toNat 27 22
    (old.busy = true → ∃ t, exec (.mailboxMessage n slot v) s = .next t ∧ sameMem s t ∧ t.ctx? n = some { c with mbdrop := c.mbdrop + 1 }) ∧
    (old.busy = false → v.getLsbD 31 = true → bits v.toNat 15 0 = c.mbseq → c.mbseq % 256 = slot → bits v.toNat 21 16 = 0 →
      (kind = 0 ∨ (kind = 1 ∧ 1 ≤ len ∧ len ≤ 48)) → sparseWf {} c.slots = true →
      ∃ t d m, exec (.mailboxMessage n slot v) s = .next t ∧ sameMem s t ∧ t.ctx? n = some d ∧ d.mbseq = (c.mbseq + 1) % 2 ^ 16 ∧
        d.mbdrop = c.mbdrop ∧ d.q0 = c.q0 ∧ (sget {} d.slots slot : Slot) = { bytes := bytes, busy := true } ∧ d.msgs = c.msgs ++ [m] ∧
        m.slot = slot ∧ m.seq = c.mbseq ∧ m.kind = kind ∧ m.va = ofLE (readBytes bytes 0 8) ∧ m.data = readBytes bytes 8 len ∧ m.stage = 0) ∧
    (old.busy = false → v.getLsbD 31 = true → bits v.toNat 15 0 ≠ c.mbseq →
      ∃ t d m, exec (.mailboxMessage n slot v) s = .next t ∧ sameMem s t ∧ t.ctx? n = some d ∧ d.mbseq = c.mbseq ∧ d.msgs = c.msgs ++ [m] ∧
        m.slot = slot ∧ m.seq = bits v.toNat 15 0 ∧ m.kind = kind ∧ m.stage = 3 ∧ m.err = true)) ∧
  (∀ (n slot : Nat) (v : Word) (s : State) (c : Context) (m : Msg) (r : List Msg), s.ctx? n = some c → c.id = n → 256 ≤ slot → c.msgs = m :: r →
    (s.accs.any fun a => a.fetch == some m.id) = false → s.marks = [] → s.softErrs = [] → s.repsets = [] → s.migs = [] → s.memWf = true →
    let failed := m.err || s.fetched.any fun f => f.key == m.id && f.cause != 0 && (decide (m.stage ≠ 2) || !(f.cause == 0x08 || f.cause == 0x60))
    let ended (err : Bool) : Prop := ∃ t d, exec (.mailboxMessage n slot v) s = .next t ∧ sameMem s t ∧ t.ctx? n = some d ∧ d.msgs = r ∧
      d.q0 = c.q0 ++ [messageItem m.seq m.slot m.kind err]
    let wrote (a stage : Nat) (bs : List Byte) : Prop := ∀ locs, placesAt s noCore c 2 a bs.length = .ok locs → (∀ p ∈ locs, p.1 = .dev) →
      (locs.map (·.2)).Nodup → ∃ t d, exec (.mailboxMessage n slot v) s = .next t ∧ t.ctx? n = some d ∧ d.msgs = { m with stage := stage } :: r ∧
        d.q0 = c.q0 ∧ (∀ (i : Nat) (p : Space × Nat), locs[i]? = some p → t.dev.get p.2 = bs.getD i 0) ∧
        ∀ k, (∀ p ∈ locs, p.2 ≠ k) → t.dev.get k = s.dev.get k
    (m.stage = 0 → wrote (c.mbring + 64 * m.slot) 1 (readBytes (sget {} c.slots m.slot : Slot).bytes 0 64)) ∧
    (m.stage = 1 → (failed = true ∨ m.kind ≠ 1) → ended failed) ∧ (m.stage = 1 → failed = false → m.kind = 1 → wrote m.va 2 m.data) ∧
    (2 ≤ m.stage → ended failed)) ∧
  (∀ (n k o : Nat) (data : List Byte) (s : State) (c : Context), s.ctx? n = some c → windowOpen s c = true → windowWorld s c = false → k < 256 →
    o + data.length ≤ 60 → sparseWf {} c.slots = true → (sget {} c.slots k : Slot).busy = false → (sget {} c.slots k : Slot).bytes.wf = true →
    ∃ t d, exec (.mailboxSlotWrite n (64 * k + o) data) s = .next t ∧ sameMem s t ∧ t.ctx? n = some d ∧ d.q0 = c.q0 ∧ d.mbseq = c.mbseq ∧
      ∀ i, i < 60 → (sget {} d.slots k : Slot).bytes.get i =
        if o ≤ i ∧ i < o + data.length then data.getD (i - o) 0 else (sget {} c.slots k : Slot).bytes.get i) ∧
  (∀ (n : Nat) (s : State) (g : Gang) (x : Sweep), s.gang? n = some g → s.sweep? g.sweep = some x → x.slide = false → g.state = .running →
    ∃ t, exec (.preempt n) s = .next t ∧ sameMem s t ∧ t.groups = s.groups ∧ t.gang? n = some { g with state := .preempting, stopAt := s.cycle }) ∧
  (∀ (n : Nat) (s : State) (g : Gang), s.gang? n = some g → g.state = .preempting → g.stopAt + Config.preemptWait ≤ s.cycle →
    ∃ t, exec (.preemptLoadTimeout n) s = .next t ∧ sameMem s t ∧ t.gang? n = some { g with redo := g.redo ++ gangLoads s n } ∧
      ∀ a ∈ gangLoads s n, t.acc? a.id = none) ∧
  (∀ (n : Nat) (s : State) (g : Gang), s.gang? n = some g → saveDue s g = true →
    ∃ t d, exec (.saveComplete n) s = .next t ∧ t.scratch = s.scratch ∧ t.weight = s.weight ∧ t.gang? n = some d ∧ d.state = .saved ∧
      d.savedScratch = (gangWgs s n).map (fun w => (w.id, cutRange s.scratch (scratchKey w 0) w.size)) ∧
      (∀ w ∈ t.wgs, w.gang = n → w.state = .saved) ∧ ∀ h ∈ t.groups, h.wg ∈ (gangWgs s n).map (·.id) → h.saved = true) ∧
  (∀ (n q : Nat) (s : State) (g : Gang) (x : Sweep) (ms : List (Nat × List (Nat × Nat))), s.gang? n = some g → chosen s = some (x, .saved n, q, ms) →
    x.slide = false → (∀ w ∈ gangWgs s n, w.ident.gangWg < ms.length) →
    ∃ t d, exec (.restore n) s = .next t ∧ t.dev = s.dev ∧ t.weight = s.weight ∧ t.host = s.host ∧ t.gang? n = some d ∧ d.state = .running ∧
      d.quartet = q ∧ (∀ h ∈ t.groups, h.wg ∈ (gangWgs s n).map (·.id) → h.saved = false) ∧
      t.groups.map (·.gid) = s.groups.map (·.gid) ∧ t.groups.map (·.s) = s.groups.map (·.s) ∧
      (g.redo = [] → t.groups.map (fun h => h.threads.map (·.v)) = s.groups.map (fun h => h.threads.map (·.v)))) ∧
  (∀ (n since : Nat) (s : State) (c : Context), s.ctx? n = some c → c.residentWanted = some since → c.state = .active → c.resident = none →
    (∀ x s', residentSweep s c = some (x, s') →
      ∃ t d, exec (.residentRelaunch n) s = .next t ∧ sameMem s t ∧ t.ctx? n = some d ∧ d.resident = some s.nextId ∧ d.residentWanted = none ∧
        ∃ y ∈ t.sweeps, y.id = s.nextId ∧ y.resident = true ∧ y.params = x.params ∧ y.readySince = since) ∧
    (residentSweep s c = none →
      exec (.residentRelaunch n) s = .next (healthPush ((blockNote s c c.param 384).modCtx n fun c => { c with residentWanted := none }) 0x0E n 0))) ∧
  (∀ (n : Nat) (s : State) (c : Context), s.ctx? n = some c → ctxEmpty s c = true →
    ∃ t, exec (.contextAbsent n) s = .next t ∧ sameMem s t ∧ t.ctx? n = none ∧ (∀ q ∈ t.queues, q.owner ≠ n) ∧ ∀ d ∈ t.domains, d.ctx ≠ n) ∧
  (∀ (n a id : Nat) (sent : Bool) (s : State) (c : Context) (locs : List (Space × Nat)), s.ctx? n = some c → c.ucntPending = some (a, id, sent) →
    placesAt s noCore c 2 a usageBytes = .ok locs → (∀ p ∈ locs, p.1 = .dev) → (locs.map (·.2)).Nodup → s.memWf = true →
    s.marks = [] → s.repsets = [] → s.migs = [] → (∀ x ∈ s.accs, x.ctx = n → x.op = .store → ¬ (a ≤ x.va ∧ x.va < a + 128)) →
    (∀ x ∈ s.accs, x.fetch ≠ some id) →
    (s.keys = true → sent = false → ∃ t d, exec (.ucntSignDone n) s = .next t ∧ t.ctx? n = some d ∧ d.ucntPending = some (a, id, true) ∧
      (∀ (k : Nat) (p : Space × Nat), locs[128 + k]? = some p → t.dev.get p.2 = Config.signatureByte id k) ∧
      ∀ k, (∀ p ∈ locs.drop 128, p.2 ≠ k) → t.dev.get k = s.dev.get k) ∧
    (s.keys = false ∨ sent = true → ∃ t d, exec (.ucntSignDone n) s = .next t ∧ t.ctx? n = some d ∧ d.ucntPending = none ∧
      (∀ (k : Nat) (p : Space × Nat), k < 4 → locs[120 + k]? = some p → t.dev.get p.2 = (toLE 4 (if s.keys then 1 else 2)).getD k 0) ∧
      ∀ k, (∀ p ∈ (locs.drop 120).take 4, p.2 ≠ k) → t.dev.get k = s.dev.get k)) ∧
  (∀ (n k m : Nat) (r0 r1 r2 r3 : Word) (s : State) (g : Group), s.group? n = some g → groupRuns s g = true → sparseWf {} g.s = true →
    firstCall g = some (k, m) →
    ∃ t, exec (.wcallServiceReturn n r0 r1 r2 r3) s = .next t ∧ sameMem s t ∧
      (Config.serviceDefined k = true → t.sreg n 0 = ⟨r0, false⟩ ∧ t.sreg n 1 = ⟨r1, false⟩ ∧ t.sreg n 2 = ⟨r2, false⟩ ∧ t.sreg n 3 = ⟨r3, false⟩) ∧
      (Config.serviceDefined k = false → t.sreg n 0 = ⟨0xFFFFFFFF, false⟩ ∧ t.sreg n 1 = ⟨0, false⟩ ∧ t.sreg n 2 = ⟨0, false⟩ ∧ t.sreg n 3 = ⟨0, false⟩) ∧
      ∀ (l j p : Nat) (u : Thread), s.thread? n l = some u → u.wait = .wcall j p → ∃ w, t.thread? n l = some w ∧
        w.wait = (if p = m then .none else .wcall j p) ∧ w.pc = u.pc ∧ w.v = u.v) ∧
  (∀ (n l c : Nat) (s : State) (u : Thread), s.thread? n l = some u → u.wait = .idle c →
    exec (.idleTimeout n l) s = .next (if s.cycle < c then s else s.modThread n l Thread.ready))

/-- FMAPW, TLBI, RNGW, PGMIG and PGPIN (20_page.md; 23_slide.md). -/
def Obligations.PageInstructions : Prop :=
  ∀ (s : State) (iss : Issue) (g : Group) (a : SReg),
    let ctx := s.ctxOf g
    (∀ (r : RecN) (s' : State) (locs : List (Space × Nat)), Passes (.fmapw a r) s iss g → firstPoisonS iss.snap [a.toNat] = none →
      uniAccess s iss g r 32 [0, 1] 1 = .ok s' locs →
      let got := uniRead s' g.gid locs
      let ws := bytesToWords got.1 8
      let id := iss.sv a
      let valid := (wnat ws 0).testBit 31
      (id < 256 → (valid = true → fretBad ws = false) → (s.fret ctx id).state ≠ .inUse →
        exec (.fmapw a r) s = .next (uniTidy iss
          (advance (got.2.modFret ctx id fun f => { f with words := ws, state := if valid then .mapped else .unmapped }) iss))) ∧
      ((256 ≤ id ∨ (valid = true ∧ fretBad ws = true)) → exec (.fmapw a r) s = .next (uniTidy iss (takeTrap got.2 iss 0x05 { sub := 2 }))) ∧
      (id < 256 → (valid = true → fretBad ws = false) → (s.fret ctx id).state = .inUse →
        exec (.fmapw a r) s = .next (uniTidy iss (takeTrap got.2 iss 0x05 { sub := 17 })))) ∧
    (∀ (i : Instr) (sel : Nat → Nat → Bool) (selW : WalkE → Bool), ((i = .tlbiCtx ∧ sel = (fun x _ => x == ctx) ∧ selW = fun e => e.ctx == ctx) ∨
        (i = .tlbiAll ∧ sel = (fun _ _ => true) ∧ selW = fun _ => true) ∨
        (∃ va, i = .tlbiPage a ∧ pageArg s iss a [] = .ok va ∧ va < Config.virtualBytes ∧ sel = pageParts s ctx (va / 65536) ∧
          selW = fun e => e.ctx == ctx && e.covers (va / 65536))) →
      Passes i s iss g →
      (drained s iss.gid iss.lanes = true → ∃ t, exec i s = .next t ∧ sameMem s t ∧ goneOn s t iss 1 ∧
        (∀ k, ∀ e ∈ (t.core k).tlb, ∀ j, j < e.size → sel e.ctx (e.page + j) = false) ∧
        (∀ p ∈ t.qtlb, ∀ e ∈ p.2, ∀ j, j < e.size → sel e.ctx (e.page + j) = false) ∧
        (∀ e ∈ t.walkCache, selW e = false) ∧ (∀ e ∈ t.owners, sel e.ctx e.page = false) ∧ (∀ r ∈ t.replicas, sel r.ctx (r.va / 65536) = false) ∧
        (sparseWf {} s.cores = true → (t.core g.core).cache = [])) ∧
      (drained s iss.gid iss.lanes = false → exec i s = .next (hold s iss .drained))) ∧
    (∀ va, Passes (.tlbiPage a) s iss g → pageArg s iss a [] = .ok va → Config.virtualBytes ≤ va →
      exec (.tlbiPage a) s = .next (takeTrap s iss 0x05 { sub := 6 })) ∧
    (∀ (r : RecN) (s' : State) (locs : List (Space × Nat)), Passes (.rngw a r) s iss g → firstPoisonS iss.snap [a.toNat] = none →
      uniAccess s iss g r 32 [0, 1] 1 = .ok s' locs →
      let got := uniRead s' g.gid locs
      let ws := bytesToWords got.1 8
      let i := iss.sv a
      (i < 48 → rangeBad ws = false → sparseWf [] s.ranges = true →
        ∃ t, exec (.rngw a r) s = .next t ∧ sameMem s t ∧ goneOn s t iss 1 ∧ restStays s t iss ∧
          sget [] t.ranges i = (if ws.all (· == 0) then [] else ws) ∧ (∀ k, k ≠ i → sget [] t.ranges k = sget [] s.ranges k) ∧
          ∀ k, ∀ e ∈ (t.core k).tlb, e ∈ (got.2.core k).tlb ∧ fromRange i e = false) ∧
      ((48 ≤ i ∨ rangeBad ws = true) → exec (.rngw a r) s = .next (uniTidy iss (takeTrap got.2 iss 0x05 { sub := 2 })))) ∧
    (∀ va (b : SReg), pageArg s iss a [b.toNat] = .ok va → (placeOf s g).2.id = ctx → Passes (.pgmig a b) s iss g →
      let page := va / 65536
      (4096 ≤ iss.sv b → exec (.pgmig a b) s = .next (takeTrap s iss 0x05 { sub := 2 })) ∧
      (iss.sv b < 4096 → va < Config.virtualBytes → leafValid (leafNow s ctx page) = true →
        (pageMovable s ctx page = false → exec (.pgmig a b) s = .next (takeTrap s iss 0x05 { sub := 14 })) ∧
        (pageMovable s ctx page = true → iss.sv b = Config.peerId → exec (.pgmig a b) s = .next (advance s iss)) ∧
        (pageMovable s ctx page = true → iss.sv b ≠ Config.peerId → peerBad s (placeOf s g).2 (iss.sv b) = none →
          (∀ cs sub, translate s g.core (placeOf s g).2 0 va ≠ .fault cs sub) → linkMissing s ctx page (leafNow s ctx page) (iss.sv b) = false →
          let m : Migration := { ctx := ctx, page := page, peer := iss.sv b, born := s.nextId, issuer := some iss.gid, crossing := false }
          ∃ t, exec (.pgmig a b) s = .next t ∧ sameMem s t ∧ { m with copied := !acceptedLeft s m } ∈ t.migs ∧
            (acceptedLeft s m = false → ∃ e ∈ t.sent, e.needs = true ∧ e.pkt.typ = 0x50 ∧ e.pkt.dst = iss.sv b ∧ e.pkt.va = page * 65536) ∧
            ∀ l ∈ iss.lanes, ∀ u, s.thread? iss.gid l = some u → t.thread? iss.gid l = some { u with wait := .page ctx page }))) ∧
    (∀ va, pageArg s iss a [] = .ok va →
      let page := va / 65536
      let r := pageRec s ctx page
      (ownedHere (leafNow s ctx page) = false → Passes (.pgpin a) s iss g → exec (.pgpin a) s = .next (takeTrap s iss 0x05 { sub := 14 })) ∧
      (ownedHere (leafNow s ctx page) = true → va < Config.virtualBytes → Passes (.pgpin a) s iss g →
        (s.pages.length < Config.pageRecords →
          ∃ t, exec (.pgpin a) s = .next t ∧ sameMem s t ∧ goneOn s t iss 1 ∧ restStays s t iss ∧
            pageRec t ctx page = if isCapo (leafNow s ctx page) then { r with pinLater := true } else { r with pinned := true }) ∧
        (Config.pageRecords ≤ s.pages.length → (s.pages.any fun x => x.ctx == ctx && x.page == page) = false → replaceable s = none →
          exec (.pgpin a) s = .next (takeTrap s iss 0x05 { sub := 16 }))) ∧
      (ownedHere (leafNow s ctx page) = true → va < Config.virtualBytes → Passes (.pgpinUnpin a) s iss g →
        ∃ t, exec (.pgpinUnpin a) s = .next t ∧ sameMem s t ∧ goneOn s t iss 1 ∧ restStays s t iss ∧
          (∀ x ∈ t.pages, x.ctx = ctx → x.page = page → x.pinned = false ∧ x.pinLater = false) ∧
          ∀ x ∈ s.pages, ¬ (x.ctx = ctx ∧ x.page = page) → x ∈ t.pages))

/-- Walks, migration, stubs, owners, the move window and replicas (20_page.md; 09_ordering.md). -/
def Obligations.PageSteps : Prop :=
  (∀ (k n va : Nat) (s : State) (c : Context) (e : TlbE), s.ctx? n = some c → va < Config.virtualBytes → lookup s k c va = some e →
    ∃ t, exec (.pageWalk k n va) s = .next t ∧ sameMem s t ∧ (t.core k).tlb.head? = some e) ∧
  (∀ (n page peer : Nat) (s : State), ownedHere (leafNow s n page) = true → isCapo (leafNow s n page) = false → (pageRec s n page).pinned = false →
    migOf s n page = none → leafThr (leafNow s n page) ≤ (pageRec s n page).count → peer ≠ Config.peerId →
    linkMissing s n page (leafNow s n page) peer = false →
    let m : Migration := { ctx := n, page := page, peer := peer, born := s.nextId, issuer := none, crossing := true }
    ∃ t, exec (.migrationStart n page peer) s = .next t ∧ sameMem s t ∧ { m with copied := !acceptedLeft s m } ∈ t.migs ∧
      (acceptedLeft s m = false → ∃ e ∈ t.sent, e.needs = true ∧ e.pkt.typ = 0x50 ∧ e.pkt.dst = peer ∧ e.pkt.va = page * 65536)) ∧
  (∀ (n page : Nat) (s : State) (m : Migration), migOf s n page = some m → (acceptedLeft s m = true ∨ m.copied = false) →
    exec (.migrationCommit n page) s = .next s) ∧
  (∀ (n page adr : Nat) (s : State) (c : Context) (m : Migration), s.ctx? n = some c → migOf s n page = some m → acceptedLeft s m = false →
    m.copied = true → leafAt s c.ptroot (page * 65536) = some adr → s.memWf = true →
    leafAt (if homeOf s n page = Config.peerId then setLeaf s n page fun l => setField l 20 9 m.peer else s) c.ptroot (page * 65536) = some adr →
    homeOf s n page = Config.peerId ∨ homeOf s n page = m.peer ∨ m.told = true →
    ∃ t, exec (.migrationCommit n page) s = .next t ∧ migOf t n page = none ∧ (∀ r ∈ t.pages, ¬ (r.ctx = n ∧ r.page = page)) ∧
      (∃ st ∈ t.stubs, st.ctx = n ∧ st.page = page ∧ st.frame = leafPfn (leafNow s n page) ∧ st.since = s.cycle) ∧
      leafPeer (read64 t adr) = m.peer % 4096 ∧ (read64 t adr).testBit 28 = true ∧ isCapo (read64 t adr) = false ∧
      (∀ k, ¬ (adr ≤ k ∧ k < adr + 8) → t.dev.get k = s.dev.get k) ∧ t.scratch = s.scratch) ∧
  (∀ (n page : Nat) (s : State) (m : Migration), migOf s n page = some m → acceptedLeft s m = false → m.copied = true →
    homeOf s n page ≠ Config.peerId → homeOf s n page ≠ m.peer → m.told = false →
    ∃ t, exec (.migrationCommit n page) s = .next t ∧ sameMem s t ∧ migOf t n page = some { m with told := true } ∧
      ∃ e ∈ t.sent, e.needs = true ∧ e.pkt.typ = 0x40 ∧ e.pkt.dst = homeOf s n page ∧ e.pkt.va = page * 65536 ∧ e.pkt.data = toLE 2 m.peer) ∧
  (∀ (n page : Nat) (s : State) (m : Migration), migOf s n page = some m → m.issuer = none →
    ∃ t, exec (.migrationRefused n page) s = .next t ∧ sameMem s t ∧ migOf t n page = none ∧ t.stubs = s.stubs ∧
      ∀ r ∈ t.pages, r.ctx = n → r.page = page → r.count = 0) ∧
  (∀ (m : PageCopyMsg) (s : State) (c : Context), s.ctx? m.ctx = some c → m.refused = true →
    exec (.pageCopyReceive m) s = .next (pageEventAt s m.ctx 3 m.page)) ∧
  (∀ (m : PageCopyMsg) (s : State) (c : Context), s.ctx? m.ctx = some c → m.refused = false →
    (s.waiting.any fun p => p.ctx == m.ctx && p.va / 65536 == m.page) = false →
    (frameFor s c m.page = none → exec (.pageCopyReceive m) s = .next (answerCopy (pageEventAt s m.ctx 3 m.page) m false)) ∧
    (∀ f rest adr, frameFor s c m.page = some (f, rest) → (leafAt s c.ptroot (m.page * 65536)).isSome = true →
      leafAt { s with dev := putRange s.dev (f * 65536) 65536 (m.bytes.filter fun b => decide (b.1 < 65536)) } c.ptroot (m.page * 65536) = some adr →
      linkBack s m (leafNow s m.ctx m.page) = false →
      s.memWf = true → f < 2 ^ 32 → (adr + 8 ≤ f * 65536 ∨ (f + 1) * 65536 ≤ adr) →
      ∃ t d, exec (.pageCopyReceive m) s = .next t ∧ t.ctx? m.ctx = some d ∧ d.frames = rest ∧ leafPfn (read64 t adr) = f ∧
        isCapo (read64 t adr) = m.capo ∧ stubOf t m.ctx m.page = none ∧
        (∃ e ∈ t.sent, e.pkt.typ = 0x10 ∧ e.pkt.dst = m.peer ∧ e.pkt.data = [1]) ∧ leafMode (read64 t adr) = 3 ∧ leafPeer (read64 t adr) = Config.peerId ∧
        ((m.bytes.map (·.1)).Nodup → ∀ p ∈ m.bytes, p.1 < 65536 → t.dev.get (f * 65536 + p.1) = p.2) ∧
        (∀ o, o < 65536 → (∀ p ∈ m.bytes, p.1 ≠ o) → t.dev.get (f * 65536 + o) = 0))) ∧
  (∀ (n page owner adr : Nat) (s : State) (c : Context), s.ctx? n = some c → homeOf s n page = Config.peerId → leafMode (leafNow s n page) = 3 →
    leafAt s c.ptroot (page * 65536) = some adr → s.memWf = true →
    ∃ t, exec (.homeUpdate n page owner) s = .next t ∧ leafPeer (read64 t adr) = owner % 4096 ∧ leafPfn (read64 t adr) = leafPfn (leafNow s n page) ∧
      ∀ k, ¬ (adr ≤ k ∧ k < adr + 8) → t.dev.get k = s.dev.get k) ∧
  (∀ (n page : Nat) (s : State) (st : Stub) (p : Packet) (rest : List Packet), stubOf s n page = some st → s.waiting = p :: rest → p.ctx = n →
    p.va / 65536 = page → 2 ≤ p.hops →
    ∃ t e, exec (.stubRelay n page) s = .next t ∧ sameMem s t ∧ t.waiting = rest ∧ stubOf t n page = some st ∧ e ∈ t.sent ∧
      e.pkt.typ = 0x41 ∧ e.pkt.dst = p.tag % 4096 ∧ e.pkt.tag = p.tag ∧ e.pkt.part = p.part) ∧
  (∀ (n page : Nat) (s : State) (st : Stub) (p : Packet) (rest : List Packet), stubOf s n page = some st → s.waiting = p :: rest → p.ctx = n →
    p.va / 65536 = page → p.hops < 2 →
    let owner := leafPeer (leafNow s n page)
    let k := sget 0 st.counts (p.tag % 4096) + 1
    ∃ t st' e, exec (.stubRelay n page) s = .next t ∧ sameMem s t ∧ t.waiting = rest ∧ stubOf t n page = some st' ∧
      sget 0 st'.counts (p.tag % 4096) = k ∧ e ∈ t.sent ∧
      (p.tag % 4096 = owner → e.pkt.typ = p.typ ∧ e.pkt.dst = owner ∧ e.pkt.hops = p.hops + 1 ∧ e.pkt.tag = p.tag ∧ e.pkt.data = p.data) ∧
      (p.tag % 4096 ≠ owner → e.pkt.typ = 0x40 ∧ e.pkt.dst = p.tag % 4096 ∧ e.pkt.data = toLE 2 owner ++ toLE 4 k ∧
        t.outSeq = sset 0 (sset 0 s.outSeq owner ((sget 0 s.outSeq owner + 1) % 2 ^ 32)) (p.tag % 4096)
          ((sget 0 (sset 0 s.outSeq owner ((sget 0 s.outSeq owner + 1) % 2 ^ 32)) (p.tag % 4096) + 1) % 2 ^ 32))) ∧
  (∀ (n page owner k : Nat) (s : State), (s.ctx? n).isSome = true →
    ∃ t, exec (.redirect n page owner k) s = .next t ∧ sameMem s t ∧ t.owners.head? =
      some { ctx := n, page := page, owner := owner, count := k, pending := s.owners.any fun e => e.pending && e.ctx == n && e.page == page }) ∧
  (∀ (id p : Nat) (s : State) (a : Acc) (q : Sent), s.acc? id = some a → a.space = .remote p → a.served = true →
    (s.sent.find? fun e => e.needs && e.pkt.tag == tagOf id) = some q → homeOf s a.ctx (a.va / 65536) ≠ Config.peerId →
    ∃ t b e, exec (.nackRefresh id) s = .next t ∧ sameMem s t ∧ t.acc? id = some b ∧ q.pkt.part ∈ b.again ∧ b.route = [fabricPoint] ∧
      (∀ x ∈ t.sent, x.needs = true → x.pkt.tag = tagOf id → x.pkt.part = q.pkt.part → x.pkt.typ = 0x41) ∧
      t.owners.head? = some { ctx := a.ctx, page := a.va / 65536, owner := p, pending := true } ∧
      e ∈ t.sent ∧ e.needs = true ∧ e.pkt.typ = 0x41 ∧ e.pkt.dst = homeOf s a.ctx (a.va / 65536)) ∧
  (∀ (n page owner : Nat) (s : State), (s.owners.any fun e => e.pending && e.ctx == n && e.page == page) = true →
    ∃ t, exec (.ownerRefreshAnswer n page owner) s = .next t ∧ sameMem s t ∧ t.owners.head? = some { ctx := n, page := page, owner := owner }) ∧
  (∀ (n page : Nat) (s : State) (st : Stub), stubOf s n page = some st → st.retiring = false → st.since + Config.stubLife ≤ s.cycle → st.overflow = false →
    ∃ t st', exec (.stubExpiry n page) s = .next t ∧ sameMem s t ∧ stubOf t n page = some st' ∧ st'.retiring = true ∧ st'.awaiting = st.tracked) ∧
  (∀ (n page owner : Nat) (s : State),
    let open_ := (s.sent.any fun e => e.needs && e.pkt.dst == owner && e.pkt.ctx == n && e.pkt.va / 65536 == page) ||
      s.owners.any fun e => (e.ctx == n && e.page == page && e.owner == owner) && e.pending
    (open_ = false →
      ∃ t e, exec (.stubRetire n page owner) s = .next t ∧ sameMem s t ∧ (∀ x ∈ t.owners, ¬ (x.ctx = n ∧ x.page = page ∧ x.owner = owner)) ∧
        e ∈ t.sent ∧ e.pkt.typ = 0x42 ∧ e.pkt.dst = owner ∧ e.pkt.data = [1]) ∧
    (open_ = true →
      ∃ t, exec (.stubRetire n page owner) s = .next t ∧ sameMem s t ∧ t.owners = s.owners ∧ t.sent = s.sent ∧ (n, page, owner) ∈ t.retires)) ∧
  (∀ (n page peer : Nat) (s : State) (st : Stub), stubOf s n page = some st → st.awaiting.contains peer = true → st.asked + 2 ^ s.ftoexp ≤ s.cycle →
    ∃ t st', exec (.stubRetireAckTimeout n page peer) s = .next t ∧ sameMem s t ∧ stubOf t n page = some st' ∧
      st'.awaiting = st.awaiting.filter (· != peer)) ∧
  (∀ (n page : Nat) (s : State) (c : Context) (st : Stub), s.ctx? n = some c → stubOf s n page = some st → stubOver s st = true →
    c.frames.length < Config.framePoolMax →
    ∃ t d, exec (.stubRetireDone n page) s = .next t ∧ stubOf t n page = none ∧ t.ctx? n = some d ∧ d.frames = c.frames ++ [st.frame]) ∧
  (∀ (n page : Nat) (s : State) (r : PageRec), (s.pages.find? fun r => r.ctx == n && r.page == page) = some r → windowOver s r = true →
    ∃ t, exec (.windowEnd n page) s = .next t ∧ (∀ x ∈ t.pages, x.ctx = n → x.page = page → x.moves = 0 ∧ x.pinLater = false) ∧
      (r.pinLater = true → (pageRec t n page).pinned = true) ∧ (isCapo (leafNow s n page) = false → sameMem s t)) ∧
  (∀ (n va : Nat) (s : State), (s.ctx? n).isSome = true →
    ∃ t e, exec (.replicaLock n va) s = .next t ∧ sameMem s t ∧ (∀ r ∈ t.replicas, r.ctx = n → r.va = va / 128 * 128 → r.locked = some s.cycle) ∧
      e ∈ t.sent ∧ e.pkt.typ = 0x60 ∧ e.pkt.dst = replicaOwner s n (va / 128 * 128) ∧ e.pkt.data = [2]) ∧
  (∀ (n va : Nat) (data : List Byte) (s : State), (s.ctx? n).isSome = true → data.length = 128 →
    ∃ t e, exec (.replicaUpdate n va data) s = .next t ∧ sameMem s t ∧
      (∀ r ∈ t.replicas, r.ctx = n → r.va = va / 128 * 128 → r.data = data ∧ r.locked = none) ∧ e ∈ t.sent ∧ e.pkt.typ = 0x60 ∧ e.pkt.data = [2]) ∧
  (∀ (id : Nat) (s : State) (a : Acc), s.acc? id = some a → a.committed = false → a.locking = true → replicaPeers s a ≠ [] → unanswered s (tagOf id) = false →
    accReady s a = true →
    ∃ t b, exec (.replicaCommit id) s = .next t ∧ t.acc? id = some b ∧ b.committed = true ∧ (a.op = .load → sameMem s t) ∧
      (a.op = .store → sameMem (applyStore s a) t) ∧ (∀ op r, a.op = .atomic op r → sameMem (applyAtomic s a op r).1 t) ∧
      ∀ p ∈ replicaPeers s a, ∃ e ∈ t.sent, e.needs = true ∧ e.pkt.typ = 0x60 ∧ e.pkt.dst = p ∧ e.pkt.tag = tagOf id) ∧
  (∀ (id : Nat) (i : Instr) (data : List Byte) (s : State) (a : Acc) (g : Group), s.acc? id = some a → a.op = .load → a.fetch = none → data.length = 128 →
    s.group? a.gid = some g → g.coursed = false → detOf s g = false → (a.lanes.map (·.lane)).Nodup →
    ((i = .replicaReadTimeout id data ∧ (∃ r, replicaFor s a.ctx a.va = some r ∧ r.locked.isSome = true) ∧ unanswered s (tagOf id) = false ∧
        (∃ n, a.sent = some n ∧ n + Config.replicaStall ≤ s.cycle)) ∨
      (i = .replicaFill id data ∧ unanswered s (tagOf id) = true ∧ leafMode (leafNow s a.ctx (a.va / 65536)) = 2 ∧
        (leafNow s a.ctx (a.va / 65536)).testBit 6 = true)) →
    ∃ t, exec i s = .next t ∧ sameMem s t ∧ t.acc? id = none ∧
      (i = .replicaFill id data → replicaFor t a.ctx a.va = some { ctx := a.ctx, va := a.va / 128 * 128, data := data }) ∧
      ∀ l ∈ a.lanes, ∀ u, s.thread? a.gid l.lane = some u → ∃ w, t.thread? a.gid l.lane = some w ∧ w.pc = u.pc ∧
        w.v = (u.load l.dst ((data.drop (l.va % 128)).take a.wid)).v)

/-- Links, packets, the fabric timeout, combining, and the host ports (21_link.md; 14_queue.md; 09_ordering.md). -/
def Obligations.LinkSteps : Prop :=
  (∀ (n : Nat) (s : State), nextServed s n = none → exec (.packetServe n) s = .next s) ∧
  (∀ (n : Nat) (s : State) (r : Waiting) (a : Acc), nextServed s n = some r → r.isAcc = true → s.acc? r.id = some a →
    ∃ t b, exec (.packetServe n) s = .next t ∧ sameMem s t ∧ t.acc? r.id = some b ∧ b.route = a.route.tail ∧ b.op = a.op ∧ b.lanes = a.lanes ∧
      ∀ p, a.route.tail = [] → a.space = .remote p → a.again = [] → ¬ (a.op = .load ∧ (replicaFor s a.ctx a.va).isSome = true) → a.lanes ≠ [] →
        ∃ e ∈ t.sent, e.needs = true ∧ e.pkt.tag = tagOf a.id ∧ e.pkt.dst = p) ∧
  (∀ (n : Nat) (s : State) (r : Waiting) (x : Xfer), nextServed s n = some r → r.isAcc = false → r.isCmd = false → r.isDie = false →
    s.xfer? r.id = some x →
    ∃ t y, exec (.packetServe n) s = .next t ∧ sameMem s t ∧ t.xfer? r.id = some y ∧ y.route = x.route.tail ∧ y.stage = x.stage ∧
      y.amount = x.amount ∧ ((x.stage = 2 ∨ x.stage = 4) → x.route.tail = [] →
        ∃ e ∈ t.sent, e.needs = true ∧ e.pkt.typ = (if x.stage = 2 then 0x30 else 0x20) ∧ e.pkt.tag = tagOf x.id ∧ e.pkt.dst = x.peer)) ∧
  (∀ (n : Nat) (s : State) (r : Waiting) (c : Cmd), nextServed s n = some r → r.isAcc = false → r.isCmd = true → s.cmd? r.id = some c →
    ∃ t d, exec (.packetServe n) s = .next t ∧ sameMem s t ∧ t.cmd? r.id = some d ∧ d.route = c.route.tail ∧ d.pos = c.pos ∧ d.state = c.state) ∧
  (∀ (n : Nat) (s : State) (r : Waiting) (d : DieTag), nextServed s n = some r → r.isAcc = false → r.isCmd = false → r.isDie = true →
    (s.dieTags.find? fun d => d.num == r.id) = some d →
    ∃ t, exec (.packetServe n) s = .next t ∧ sameMem s t ∧
      t.dieTags = s.dieTags.map fun e => if e.num = d.num then { e with served := true } else e) ∧
  (∀ (n : Nat) (s : State) (l : Link), sget {} s.links n = l →
    let after (t : State) : Link := sget {} t.links n
    ((l.state = .training ∨ l.state = .retrain) → s.cycle ≤ l.since + Config.trainWait →
      ∃ t, exec (.linkTrainingLock n) s = .next t ∧ sameMem s t ∧ after t = ⟨.up, 0, s.cycle, 0, 0⟩) ∧
    (l.state = .training → l.since + Config.trainWait ≤ s.cycle →
      ∃ t, exec (.linkTrainTimeout n) s = .next t ∧ sameMem s t ∧
        after t = if 2 ≤ l.fails then ⟨.down, 0, s.cycle, 0, 0⟩ else { l with fails := l.fails + 1, since := s.cycle }) ∧
    (l.state = .retrain → l.since + Config.trainWait ≤ s.cycle →
      ∃ t, exec (.linkTrainTimeout n) s = .next t ∧ sameMem s t ∧ after t = ⟨.down, 0, s.cycle, 0, 0⟩) ∧
    (l.state = .up →
      (∃ t, exec (.laneLoss n) s = .next t ∧ sameMem s t ∧ after t = ⟨.retrain, 0, s.cycle, 0, 0⟩) ∧
      ∀ nak : Nak, nak.link = n →
        ((s.sent.find? fun e => e.on nak) = none → exec (.linkReplay nak) s = .next s) ∧
        ∀ e, (s.sent.find? fun e => e.on nak) = some e →
          (15 ≤ e.naks → ∃ t, exec (.linkReplay nak) s = .next t ∧ sameMem s t ∧ after t = ⟨.retrain, 0, s.cycle, 0, 0⟩) ∧
          (e.naks < 15 → exec (.linkReplay nak) s = .next { s with sent := s.sent.map fun x => if x.on nak then { x with naks := x.naks + 1 } else x })) ∧
    (manageable s = true → n < 12 →
      (l.state = .disabled → ∃ t, exec (.linkControl n .enable) s = .next t ∧ sameMem s t ∧ after t = ⟨.training, 0, s.cycle, 0, 0⟩) ∧
      (l.state = .down → ∃ t, exec (.linkControl n .retrain) s = .next t ∧ sameMem s t ∧ after t = ⟨.training, 0, s.cycle, 0, 0⟩))) ∧
  (∀ (n : Nat) (p : Packet) (tag : BitVec 64) (s : State),
    let l : Link := sget {} s.links n
    let z : State := { s with links := s.links.map fun l => if l.1 = n then (l.1, { l.2 with bad := 0 }) else l }
    (l.state ≠ .up ∨ tag = ~~~(packetCrc p) → exec (.packetReceive n p tag) s = .next s) ∧
    (l.state = .up → tag ≠ packetCrc p → tag ≠ ~~~(packetCrc p) → ∃ t, exec (.packetReceive n p tag) s = .next t ∧ sameMem s t ∧
      (sget {} t.links n : Link) = if 15 ≤ l.bad then ⟨.retrain, 0, s.cycle, 0, 0⟩ else { l with bad := l.bad + 1, naks := l.naks + 1 }) ∧
    (l.state = .up → tag = packetCrc p →
      ((knownType p.typ = false ∨ packetReserved p = true ∨ p.dst ≠ Config.peerId ∨ packetFits p = false) →
        exec (.packetReceive n p tag) s = .next { z with discards := s.discards + 1 }) ∧
      (knownType p.typ = true → packetReserved p = false → p.dst = Config.peerId → packetFits p = true →
        let ahead := (p.seq.toNat + 2 ^ 32 - nextIn s p.src) % 2 ^ 32
        (2 ^ 31 ≤ ahead → exec (.packetReceive n p tag) s = .next { z with discards := s.discards + 1 }) ∧
        (0 < ahead → ahead < 2 ^ 31 → (s.reorder.any fun q => q.2.src == p.src && q.2.seq == p.seq) = false → s.reorder.length < 8192 →
          exec (.packetReceive n p tag) s = .next { z.usage p.ctx 8 (packetLength p) with reorder := s.reorder ++ [(n, p)] }) ∧
        (∀ c pa l, ahead = 0 → s.reorder = [] → p.typ = 0x01 → s.ctx? p.ctx = some c → stubOf s p.ctx (p.va / 65536) = none → p.after = 0 →
          (leafNow s p.ctx (p.va / 65536)).testBit 0 = false ∨ leafMode (leafNow s p.ctx (p.va / 65536)) = 0 ∨
            leafPeer (leafNow s p.ctx (p.va / 65536)) = Config.peerId →
          translate s noCore { c with world := c.world && s.secureLinks.contains n } 1 p.va = .here pa l →
          ∃ t a, exec (.packetReceive n p tag) s = .next t ∧ sameMem s t ∧ a ∈ t.accs ∧ a.id = s.nextId ∧ a.req = some p ∧ a.op = .load ∧
            a.space = .dev ∧ a.line = pa / 128 ∧ a.ctx = p.ctx ∧ a.route = fromFabric (dieOfLink n) pa) ∧
        (∀ a g ws, ahead = 0 → s.reorder = [] → p.typ = 0x03 → p.tag = tagOf a.id → s.acc? a.id = some a → a.op = .load → a.fetch = none →
          a.again = [] → a.parts[p.part]? = some ws → (s.sent.any fun e => e.needs && e.pkt.tag == p.tag && e.pkt.part == p.part) = true →
          (∀ e ∈ s.sent, e.needs = true → e.pkt.tag = p.tag → e.pkt.part = p.part) →
          p.data.getD 0 0 = 0 → s.group? a.gid = some g → g.coursed = false → detOf s g = false → (ws.map (·.lane)).Nodup →
          (∀ e ∈ s.sent, e.parts = []) →
          ∃ t, exec (.packetReceive n p tag) s = .next t ∧ sameMem s t ∧ t.acc? a.id = none ∧
            ∀ (i : Nat) (l : LaneAcc) (u : Thread), ws[i]? = some l → s.thread? a.gid l.lane = some u →
              ∃ w, t.thread? a.gid l.lane = some w ∧ w.pc = u.pc ∧ w.v = (u.load l.dst (((p.data.drop 2).drop (i * a.wid)).take a.wid)).v)))) ∧
  (∀ (peer : Nat) (s : State), (s.sent.any fun e => e.needs && e.pkt.dst == peer && decide (e.at_ + 2 ^ s.ftoexp ≤ s.cycle)) = true →
    ∃ t, exec (.fabricTimeout peer) s = .next t ∧ ((∀ m ∈ s.migs, m.told = false) → sameMem s t) ∧ peer ∉ t.enabled ∧ ∀ e ∈ t.sent, e.needs = true → e.pkt.dst ≠ peer) ∧
  (∀ (i j : Nat) (s : State) (a b : Sent), s.sent[i]? = some a → s.sent[j]? = some b → i ≠ j → a.pkt.typ = 0x21 → b.pkt.typ = 0x21 →
    a.pkt.dst = b.pkt.dst → a.pkt.ctx = b.pkt.ctx → a.pkt.va = b.pkt.va → a.pkt.opw = b.pkt.opw → a.pkt.nreq + b.pkt.nreq ≤ 64 → b.parts = [] →
    a.needs = true → b.needs = true → a.merged = false → b.merged = false → a.pkt.tag ≠ b.pkt.tag →
    ∃ t m, exec (.faaCombine i j) s = .next t ∧ sameMem s t ∧ t.sent[i]? = some m ∧ m.pkt.nreq = a.pkt.nreq + b.pkt.nreq ∧
      ofLE m.pkt.data = (ofLE a.pkt.data + ofLE b.pkt.data) % 2 ^ (if a.pkt.opw = 3 then 64 else 32) ∧
      m.parts = a.parts ++ [(b.pkt.tag, ofLE b.pkt.data)] ∧ t.sent[j]? = some { b with merged := true }) ∧
  (∀ (id : Nat) (s : State) (a : Acc), s.acc? id = some a → a.space = .host → a.op ≠ .store →
    (behind s a = false → ∃ t, exec (.hostCompletion id none) s = .next t ∧ sameMem s t ∧ t.acc? id = none) ∧
    (∃ t, exec (.hostCompletionTimeout id) s = .next t ∧ sameMem s t ∧ t.acc? id = none) ∧
    (∀ g bs, a.op = .load → a.fetch = none → behind s a = false → bs.length = a.lanes.length * a.wid → s.group? a.gid = some g → g.coursed = false →
      (a.lanes.map (·.lane)).Nodup →
      ∃ t, exec (.hostCompletion id (some bs)) s = .next t ∧ sameMem s t ∧ t.acc? id = none ∧
        ∀ (i : Nat) (l : LaneAcc) (u : Thread), a.lanes[i]? = some l → s.thread? a.gid l.lane = some u →
          ∃ w, t.thread? a.gid l.lane = some w ∧ w.pc = u.pc ∧ w.v = (u.load l.dst ((bs.drop (i * a.wid)).take a.wid)).v)) ∧
  (∀ (port : Nat) (s : State), port < 2 →
    (exec (.hostPortLinkChange port true) s = .next (if port = 0 then { s with hostUp0 := true } else { s with hostUp1 := true })) ∧
    ∃ t, exec (.hostPortLinkChange port false) s = .next t ∧ sameMem s t ∧ (if port = 0 then t.hostUp0 else t.hostUp1) = false ∧
      ∀ a ∈ s.accs, a.space = .host → hostPort s a = port → t.acc? a.id = none) ∧
  (∀ (peer k : Nat) (p e : Bool) (s : State), manageable s = true → peer < 4096 →
    ∃ t, exec (.peerTableSet peer p e) s = .next t ∧ sameMem s t ∧ t.populated.contains peer = p ∧ t.enabled.contains peer = e ∧
      (k ≠ peer → t.populated.contains k = s.populated.contains k ∧ t.enabled.contains k = s.enabled.contains k))

/-- Slide mode's steps, the release of staged entries, and the unison check (23_slide.md; 25_determinism.md). -/
def Obligations.SlideAndTailSteps : Prop :=
  (∀ (n id : Nat) (s : State) (x : Sweep) (c : Context), s.sweep? n = some x → s.ctx? x.ctx = some c → injecting s x = true →
    fretAt c x.entry.toNat = some id →
    let f := s.fret c.id id
    let u := startThread x f id x.injected
    let k := f.coreOf (chooseReplica s f x.det x.injected)
    0 < queueFree s k f.qcap → (f.waiting.any (mayTake x.det (headOf s c.id) (chooseReplica s f x.det x.injected))) = false →
    u.pc = x.entry ∧ u.stn = x.injected ∧ u.lane = x.injected % 64 ∧ u.v = [] ∧ u.fret = some id ∧ u.ident.ticket = x.injected / (64 * x.gpw) ∧
    ∃ t, exec (.slideStart n) s = .next t ∧ sameMem s t ∧ t.travel = s.travel ++ [(k, u)] ∧
      t.sweep? n = some { x with injected := x.injected + 1 }) ∧
  (∀ (n q : Nat) (s : State) (x y : Sweep) (c : Context) (ms : List (Nat × List (Nat × Nat))), s.sweep? n = some x → s.ctx? x.ctx = some c →
    injecting s x = false → chosen s = some (y, .slide, q, ms) → y.id = n → slideBlockBad s c x = false →
    (∀ p ∈ c.frets, p.2.state = .mapped → (ringPlace s c p.2.ringAt 8).isSome = true) →
    ∃ t d z, exec (.slideStart n) s = .next t ∧ t.weight = s.weight ∧ t.host = s.host ∧ t.groups.map (·.s) = s.groups.map (·.s) ∧
      t.ctx? x.ctx = some d ∧ t.sweep? n = some z ∧ z.slideOn = true ∧ z.placed = 1 ∧ (∀ p ∈ d.frets, p.2.state ≠ .mapped) ∧
      ∀ p ∈ c.frets, p.2.state = .mapped → ∃ r ∈ d.frets, r.1 = p.1 ∧ r.2.state = .inUse ∧ r.2.ring = [] ∧ r.2.head = 0 ∧ r.2.tail = 0 ∧
        r.2.words = p.2.words) ∧
  (∀ (stn k : Nat) (s : State) (u : Thread), (s.travel.find? fun p => p.2.stn == stn) = some (k, u) →
    ∃ t, exec (.slideArrival stn) s = .next t ∧ sameMem s t ∧ t.travel.length + 1 = s.travel.length ∧
      (t.core k).arrivals = (s.core k).arrivals ++ [{ u with arrived := s.cycle }]) ∧
  (∀ (fret n : Nat) (s : State) (c : Context), fretCtx s fret (fun _ f => f.ring.any fun r => r.n == n && !r.acked) = some c →
    exec (.spillAck fret n) s = .next (s.modFret c.id fret fun f =>
      { f with ring := f.ring.map fun r => if r.n = n then { r with acked := true } else r })) ∧
  (∀ (fret rep : Nat) (s : State) (c : Context) (x : Sweep) (r : RingRec),
    fretCtx s fret (fun c _ => (takable s c fret rep).isSome) = some c → takable s c fret rep = some (x, r) →
    let f := s.fret c.id fret
    (∀ pa, ringPlace s c (f.ringAt + 1024 + 1024 * (r.n % max 1 f.rcap)) 1024 = some pa →
      ∃ t, exec (.ringTake fret rep) s = .next t ∧ t.scratch = s.scratch ∧ t.weight = s.weight ∧ t.host = s.host ∧
        (t.core (f.coreOf rep)).arrivals = (s.core (f.coreOf rep)).arrivals ++ [{ r.thread with arrived := s.cycle, parked := r.parked }]) ∧
    (ringPlace s c (f.ringAt + 1024 + 1024 * (r.n % max 1 f.rcap)) 1024 = none →
      exec (.ringTake fret rep) s = .next (loseSweep s x fret))) ∧
  (∀ (core stn : Nat) (i : Instr) (s : State) (w : Wg) (x : Sweep) (f : Fret) (sl : Nat × Nat) (ts : List Thread),
    nextGroup s core = some (w, x, f, sl, ts) →
    ((i = .groupForm core ∧ (64 ≤ ts.length ∨ f.qcap ≤ (s.core core).arrivals.length)) ∨
      (i = .regroupTimeout core stn ∧ maxOf (ts.map (·.arrived)) + 64 ≤ s.cycle ∧ ∃ u ∈ ts, u.stn = stn)) →
    ∃ t g, exec i s = .next t ∧ sameMem s t ∧ g ∈ t.groups ∧ g.gid = s.nextId ∧ g.wg = w.id ∧ g.core = core ∧ g.quadrant = sl.1 ∧ g.slot = sl.2 ∧
      g.threads.length = min 64 ts.length ∧
      (∀ (k : Nat) (v : Thread), ts[k]? = some v → k < 64 → ∃ u, g.threads[k]? = some u ∧ u.lane = k ∧ u.pc = v.pc ∧ u.v = v.v ∧ u.stn = v.stn ∧ u.pv = v.pv) ∧
      (sparseWf {} s.cores = true → ∀ v ∈ (t.core core).arrivals, v.stn ∉ (ts.take 64).map (·.stn))) ∧
  (∀ (n pa leaf gid lane : Nat) (s : State) (x : Sweep) (e : Staged) (c : Context), s.sweep? n = some x → x.det = true →
    nextEcho s x = none → nextRelease s x = some e → e.xfer = none → (e.isRel = true → e.early s = false) → releaseFlush s x e = none →
    (let here := (entryThread s x e).map fun p => (p.1.gid, p.2.lane)
     (if x.slide then some (here.getD (0, e.lane)) else here) = some (gid, lane)) → s.ctx? x.ctx = some c →
    translate s (stageCore s e) c (if e.op.isSome then 3 else 2) e.va = .here pa leaf →
    (leaf.testBit 5 = true → ∃ t, exec (.entryRelease n) s = .next t ∧ sameMem s t ∧ t.accs = s.accs ∧ ∀ y ∈ stagedOf t n, y.id ≠ e.id) ∧
    (leaf.testBit 5 = false → ∃ t a, exec (.entryRelease n) s = .next t ∧ sameMem s t ∧ a ∈ t.accs ∧ a.id = s.nextId ∧ a.gid = gid ∧ a.space = .dev ∧ a.wid = e.wid ∧
      a.op = (match e.op with | some op => AccOp.atomic op e.ret | none => .store) ∧
      a.lanes = [{ lane := lane, va := e.va, keys := keysFrom pa e.wid, dst := e.dst, data := e.data }] ∧
      ∀ y ∈ stagedOf t n, y.id ≠ e.id)) ∧
  (∀ (n k : Nat) (s : State) (g h : Gang) (x : Sweep) (w v : Wg), s.gang? n = some g → s.sweep? g.sweep = some x → g.run = 0 →
    selected x g.index = true → gangWgs s n = [w] → rivals s g = [h] → memberOf s h.id w.ident.gangWg = some v → k = sget 0 x.agreed w.id →
    closedPast s w k = true → closedPast s v k = true → compared s x w v k = false →
    (digest s x.id w.id k = digest s x.id v.id k →
      exec (.digestCompare n) s = .next (s.modSweep x.id fun y => { y with agreed := sset 0 y.agreed w.id (k + 1) })) ∧
    (digest s x.id w.id k ≠ digest s x.id v.id k →
      (h.run ≠ 2 → g.primary = none → x.wants.contains (g.index, 2) = false →
        exec (.digestCompare n) s = .next (s.modSweep x.id fun y => { y with wants := y.wants ++ [(g.index, 2)] })) ∧
      ((h.run = 2 ∨ g.primary.isSome = true) → exec (.digestCompare n) s = .next (unisonError s x g.index))))

/-- Die ports, errors and spares, boot, security, management, reset, clocks (28_platform.md; 01_device.md; 26_faults.md; 21_link.md). -/
def Obligations.PlatformSteps : Prop :=
  (∀ (slice chan sector n : Nat) (both : Bool) (en : BitVec 128) (s : State), homeSlice (sector * 64) = slice → chanOf (sector * 64) = chan →
    (both = true → sector % 2 = 0) → freeTag s slice chan = some n →
    let a := s.accs.find? fun a => decide (a.space = .dev) && a.served && a.line == sector / 2
    let tag (write : Bool) (en : BitVec 128) : DieTag :=
      { slice := slice, chan := chan, tag := n, sector := sector, both := both, write := write, enables := en, acc := a.map (·.id),
        stamp := (a.bind (·.stamp)).getD ((s.cycle + 32767) % 65536), born := s.cycle }
    exec (.diePortRead slice chan ⟨sector, both⟩) s = .next { s with dieTags := s.dieTags ++ [tag false 0] } ∧
    exec (.diePortWrite slice chan ⟨sector, both⟩ en) s = .next { s with dieTags := s.dieTags ++ [tag true en] } ∧
    n < Config.dieTags ∧ ∀ d ∈ s.dieTags, ¬ (d.slice = slice ∧ d.chan = chan ∧ d.tag = n)) ∧
  (∀ (slice chan n : Nat) (s : State) (d : DieTag), (s.dieTags.find? fun d => d.slice == slice && d.chan == chan && d.tag == n) = some d →
    let err (x : Nat) : Option Bool := ((d.saw.find? fun y => y.1 == x).map (·.2)).getD (sectorErr s x)
    (d.served = false ∨ dieReady s d = false → exec (.diePortReply slice chan n) s = .next s) ∧
    (d.served = true → dieReady s d = true →
      ∃ t, exec (.diePortReply slice chan n) s = .next t ∧ sameMem s t ∧ (∀ e ∈ t.dieTags, ¬ (e.slice = slice ∧ e.chan = chan ∧ e.tag = n)) ∧
        (d.write = false → ∀ x ∈ d.sectors, writesBefore s d x = [] →
          (err x = some false → sectorErr t x = none) ∧ (err x = some true → x / 2 ∈ t.marks)) ∧
        (d.write = false → d.both = false → writesBefore s d d.sector = [] → err d.sector = some false → t.cntMem = satInc s.cntMem) ∧
        (d.write = false → (∀ x ∈ d.sectors, writesBefore s d x ≠ []) → t.softErrs = s.softErrs ∧ t.marks = s.marks ∧ t.cntMem = s.cntMem) ∧
        (∀ x ∈ d.sectors, d.full x = true → sectorErr t x = none) ∧
        ((∀ x ∈ d.sectors, d.full x = true) → t.cntMem = s.cntMem ∧ t.marks = s.marks))) ∧
  (∀ (l : ErrLoc) (unc : Bool) (s : State), (∀ k lane r, l ≠ .vreg k lane r) → (∀ k r, l ≠ .sreg k r) →
    ∃ t, exec (.softError l unc) s = .next t ∧ sameMem s t ∧ t.groups = s.groups ∧
      (t.softErrs.find? fun e => e.1 == l) = some (l, unc || s.softErrs.any fun e => e.1 == l && e.2)) ∧
  (∀ (k r : Nat) (unc : Bool) (s : State) (g : Group), s.group? k = some g →
    ∃ t h, exec (.softError (.sreg k r) unc) s = .next t ∧ sameMem s t ∧ t.softErrs = s.softErrs ∧ t.group? k = some h ∧ h.s = g.s ∧
      h.threads = g.threads ∧ regErr h (.sreg k r) = some (unc || g.serr.any fun e => e.1 == r && e.2)) ∧
  (∀ (k lane r : Nat) (unc : Bool) (s : State) (u : Thread), s.thread? k lane = some u →
    ∃ t w, exec (.softError (.vreg k lane r) unc) s = .next t ∧ sameMem s t ∧ t.softErrs = s.softErrs ∧ t.thread? k lane = some w ∧ w.v = u.v ∧
      w.pc = u.pc ∧ (w.verr.find? fun e => e.1 == r) = some (r, unc || u.verr.any fun e => e.1 == r && e.2)) ∧
  (∀ (u : RepairUnit) (s : State), declared s u = false → exec (.spareRepair u) s = .next s) ∧
  (∀ (u : RepairUnit) (s : State), declared s u = true →
    let z : State := { s with tally := s.tally.filter fun e => e.1 != u, selfFail := s.selfFail.filter (· != u) }
    (∀ q, u = .quartet q → q < Config.numQuartets →
      (s.spares.getLsbD (q % 4) = true → ∃ t, exec (.spareRepair u) s = .next t ∧ t.spares = s.spares &&& ~~~(1#4 <<< (q % 4)) ∧
        q ∈ t.spareIds ∧ t.qmask = s.qmask) ∧
      (s.spares.getLsbD (q % 4) = false → exec (.spareRepair u) s = .next (healthPush
        (loseCores { z with qmask := s.qmask &&& ~~~(1#64 <<< q) } ((List.range 4).map (4 * q + ·))) 0x06 q 0))) ∧
    (∀ k col line, u = .arrayLine k col line → k < Config.numCores →
      let free (s : State) : Bool := if col then (s.core k).spareCol else (s.core k).spareRow
      (free s = true → ∃ t, exec (.spareRepair u) s = .next t ∧ free t = false ∧ (t.core k).disabled = (s.core k).disabled) ∧
      (free s = false → exec (.spareRepair u) s =
        .next (healthPush (loseCores (z.modCore k fun c => { c with disabled := true }) [k]) 0x05 k 0))) ∧
    (∀ st f, u = .dramRow st f → f < Config.deviceBytes / 2 ^ 16 → st < 8 →
      (sget 0 s.rowsUsed st < Config.dramSpareRows st → exec (.spareRepair u) s =
        .next (healthPush { z with rowsUsed := sset 0 s.rowsUsed st (sget 0 s.rowsUsed st + 1) } 0x04 st 2)) ∧
      (Config.dramSpareRows st ≤ sget 0 s.rowsUsed st →
        ∃ t, exec (.spareRepair u) s = .next t ∧ sameMem s t ∧ ∀ l, l / 512 = f → l ∈ t.marks))) ∧
  (∀ (b : BootImages) (s : State), s.booted = false → s.stopped = false → s.recovery = false →
    let z : State := { s with dualHost := b.dual, selfFail := b.selfFail }
    let ok1 := imageLoads s 1 b.im1
    let ok2 := imageLoads s 2 b.im2
    let ok3 := imageLoads s 3 b.im3
    let ok4 := imageLoads s 4 b.im4
    (ok1 = false → exec (.boot b) s = .next { z with recovery := true, measured := [] }) ∧
    (ok1 = true → ok2 = false → exec (.boot b) s = .next { z with recovery := true, measured := [b.im1.digest] }) ∧
    (ok1 = true → ok2 = true → ok3 = false → exec (.boot b) s = .next { z with stopped := true, measured := [b.im1.digest, b.im2.digest] }) ∧
    (ok1 = true → ok2 = true → ok3 = true → ok4 = false → exec (.boot b) s =
      .next { z with recovery := true, measured := [b.im1.digest, b.im2.digest, b.im3.digest] }) ∧
    (ok1 = true → ok2 = true → ok3 = true → ok4 = true →
      ∃ t d, exec (.boot b) s = .next t ∧ sameMem s t ∧ t.booted = true ∧
        t.measured = [b.im1.digest, b.im2.digest, b.im3.digest, b.im4.digest] ∧ t.dualHost = b.dual ∧ t.policy = b.policy % 4 ∧
        t.secureRegions = b.regions.take 32 ∧ t.ctxs = [d] ∧ d.id = 0 ∧ d.priv = true ∧ d.state = .active ∧ d.entry = b.entry ∧ d.ptroot = b.ptroot)) ∧
  (∀ (a : AlarmSource) (s : State), s.stopped = false → (a = .violations → 256 ≤ recentViolations s) →
    ∃ t, exec (.securityAlarm a) s = .next t ∧
      (s.policy = 0 → sameMem s t ∧ t.ctxs = s.ctxs ∧ t.alarms = s.alarms ++ [alarmCode a] ∧ t.stopped = false) ∧
      (1 ≤ s.policy → t.keys = false ∧ t.insecure = allStreams ∧ ∀ c ∈ t.ctxs, c.state = .closing) ∧
      (2 ≤ s.policy → t.stopped = true)) ∧
  (∀ (x : IdeStream) (s : State),
    let z : State := { s with insecure := x :: s.insecure.filter (· != x) }
    ∃ t, exec (.ideFailure x) s = .next t ∧ sameMem s t ∧ t.insecure = z.insecure ∧
      (∀ a ∈ s.accs, a.space = .host → streamBad z a.ctx (hostPort s a) = true → t.acc? a.id = none) ∧ t.violations.getLast? = some s.cycle) ∧
  (∀ (x : IdeStream) (p e : Nat) (s : State), exec (.spdmMessage .measure) s = .next s ∧
    (s.keys = true → exec (.spdmMessage (.setKey x)) s =
      .next { s with insecure := s.insecure.filter (· != x), keyed := x :: s.keyed.filter (· != x) }) ∧
    (s.keys = false → exec (.spdmMessage (.setKey x)) s = .next s) ∧
    (p < 2 → exec (.spdmMessage (.endpoint p e)) s = .next { s with endpoints := sset 0 s.endpoints p e })) ∧
  (∀ (v : Nat) (s : State), manageable s = true →
    exec (.ftoexpSet v) s = .next (if 18 ≤ v ∧ v ≤ 26 then { s with ftoexp := v } else s) ∧
    exec (.quantumSet v) s = .next (if 2 ^ 16 ≤ v ∧ v ≤ 2 ^ 28 then { s with quantum := v } else s) ∧
    exec (.powerCapSet v) s = .next (if 800 ≤ v ∧ v ≤ 1650 then { s with powerCap := v } else s)) ∧
  (∀ s : State, s.recovery = true → exec .moduleReset s = .next s) ∧
  (∀ s : State, s.recovery = false → ∃ t, exec .moduleReset s = .next t ∧ t.booted = false ∧ t.stopped = false ∧ t.ctxs = [] ∧ t.groups = [] ∧
    t.queues = [] ∧ t.dev = [] ∧ t.scratch = [] ∧ t.health = [] ∧ t.cycle = 0 ∧ t.quantum = 2400000 ∧ t.ftoexp = 22 ∧ t.host = s.host ∧
    t.keys = s.keys ∧ t.fuses = s.fuses ∧ t.insecure = s.insecure ∧ t.rowsUsed = s.rowsUsed ∧
    t.fwPending = [] ∧ ∀ i v, s.fwPending = [(i, v)] → v ≠ 0 → sget 0 t.fwVersions i = v) ∧
  (∀ (i v : Nat) (s : State), s.stopped = false →
    exec (.firmwareUpdate i v true) s = .next { s with fwPending := sset 0 s.fwPending i v } ∧
    exec (.firmwareUpdate i v false) s = .next s) ∧
  (∀ (c : ClockReport) (s : State),
    let temp (n : Nat) : Nat := (c.temps.getD n 0).toNat
    let power (n : Nat) : Nat := (c.powers.getD n 0).toNat
    let fits (n : Nat) : Prop := temp n ≤ 95 ∧ 8 * power n ≤ s.powerCap
    let reports (t : State) (n : Nat) : Prop :=
      bits t.pwrst.toNat 7 0 = n ∧ bits t.pwrst.toNat 15 8 = temp n ∧ bits t.pwrst.toNat 23 16 = power n ∧
      (t.pwrst.getLsbD 31 = true ↔ ∃ m, n < m ∧ m ≤ 4 ∧ 95 < temp m) ∧ (t.pwrst.getLsbD 30 = true ↔ ∃ m, n < m ∧ m ≤ 4 ∧ s.powerCap < 8 * power m)
    (∀ n, n ≤ 4 → fits n → (∀ m, n < m → m ≤ 4 → ¬ fits m) →
      ∃ t, exec (.clockStateChange c) s = .next t ∧ sameMem s t ∧ t.ctxs = s.ctxs ∧ t.groups = s.groups ∧ t.stopped = s.stopped ∧ reports t n) ∧
    ((∀ n, n ≤ 4 → ¬ fits n) → ∃ t, exec (.clockStateChange c) s = .next t ∧ reports t 0 ∧
      (110 ≤ temp 0 → t.stopped = true ∧ t.keys = s.keys ∧ ∀ d ∈ t.ctxs, d.state = .closing) ∧
      (temp 0 < 110 → sameMem s t ∧ t.ctxs = s.ctxs ∧ t.groups = s.groups))) ∧
  (∀ s : State, ∃ t, exec .shutdownTemperature s = .next t ∧ t.stopped = true ∧ t.keys = s.keys ∧ t.insecure = allStreams ∧
    ∀ c ∈ t.ctxs, c.state = .closing)

/-- Clauses are entered and their waits met, registers replayed, and issues chosen (03_encoding.md; 07_group.md; 11_copy.md; 26_faults.md). -/
def Obligations.ClauseAndIssueSteps : Prop :=
  (∀ (n : Nat) (pc : Word) (s : State) (g : Group) (t0 : Thread), s.group? n = some g →
    (g.threads.find? fun t => !t.exited && !t.entered && decide (t.wait = .none) && t.pc == pc) = some t0 → groupRuns s g = true → t0.resume = false →
    inFret (placeOf s g).2 (slideOf s g) t0 pc.toNat = true →
    let c := (placeOf s g).2
    let code := codeOf s g
    let with_ (t : Thread) : Bool := !t.exited && !t.entered && decide (t.wait = .none) && t.pc == pc && t.resume == false && t.needT == t0.needT &&
      t.fret == t0.fret
    (outside s c.id code pc.toNat = false → ∀ ws, fetchClause s g.core c code pc.toNat = .ok ws → (t0.needT = true → headerT (ws.headD 0) = true) →
      (clauseBad ws = false →
        ∃ t, exec (.clauseEntry n pc) s = .next t ∧ sameMem s t ∧ ∀ l u, s.thread? n l = some u → with_ u = true →
          ∃ w, t.thread? n l = some w ∧ w.hdr = pc ∧ w.clause = ws ∧ w.entered = true ∧ w.v = u.v ∧
            w.passed = (headerKW (ws.headD 0) == 0) ∧ w.pc = if headerKW (ws.headD 0) = 0 then pc + 4 else pc) ∧
      (clauseBad ws = true → (∀ u ∈ g.threads, u.handler = false) →
        ∃ t, exec (.clauseEntry n pc) s = .next t ∧ sameMem s t ∧ ∀ l u, s.thread? n l = some u → with_ u = true →
          ∃ w, t.thread? n l = some w ∧ w.handler = true ∧ w.pc = 0 ∧ w.frame.cause = 0x02 ∧ w.frame.pc = pc)) ∧
    (outside s c.id code pc.toNat = true → (∀ u ∈ g.threads, u.handler = false) → ∃ t, exec (.clauseEntry n pc) s = .next t ∧ sameMem s t ∧
      ∀ l u, s.thread? n l = some u → with_ u = true → ∃ w, t.thread? n l = some w ∧ w.handler = true ∧ w.pc = 0 ∧ w.frame.cause = 0x03 ∧
        w.frame.addr = pc.toNat)) ∧
  (∀ (n : Nat) (pc : Word) (s : State) (g : Group), s.group? n = some g → groupRuns s g = true →
    let ks (t : Thread) : List Nat := kwTokens (t.clause.headD 0)
    let done (t : Thread) : Bool := !t.exited && t.entered && !t.passed && decide (t.wait = .none) && t.pc == pc && !pendTokens s t (ks t)
    ((∀ u ∈ g.threads, done u = true → trapTokens s u (ks u) = none) →
      ∃ t, exec (.clauseWaitMet n pc) s = .next t ∧ sameMem s t ∧ ∀ l u, s.thread? n l = some u → done u = true →
        ∃ w, t.thread? n l = some w ∧ w.passed = true ∧ w.pc = u.hdr + 4 ∧ w.v = u.v ∧ w.k = u.k) ∧
    ((∀ u ∈ g.threads, u.handler = false) → ∀ l u, s.thread? n l = some u → done u = true → (trapTokens s u (ks u)).isSome = true →
      ∃ t w, exec (.clauseWaitMet n pc) s = .next t ∧ sameMem s t ∧ t.thread? n l = some w ∧ w.handler = true ∧ w.pc = 0 ∧ w.frame.cause = 0x38 ∧
        w.frame.pc = pc)) ∧
  (∀ (n : Nat) (s : State),
    ∃ t, exec (.registerReplay n) s = .next t ∧ sameMem s t ∧ t.softErrs = s.softErrs ∧ (∀ k r, t.sreg k r = s.sreg k r) ∧
      (∀ k l u, s.thread? k l = some u → ∃ w, t.thread? k l = some w ∧ w.v = u.v ∧ w.pc = u.pc ∧ ∀ e ∈ w.verr, e ∈ u.verr) ∧
      (∀ h l pc, t.group? n = some h → (l, pc, false) ∈ s.corrected → ((∃ r, l = .sreg n r) ∨ ∃ k r, l = .vreg n k r) → regErr h l ≠ some false) ∧
      ∀ g r pc, s.group? n = some g → g.serr = [(r, false)] → s.corrected = [(.sreg n r, pc, false)] →
        t.cntReg = satInc s.cntReg ∧ t.corrected = [(.sreg n r, pc, true)]) ∧
  (∀ s : State, ∃ t, exec .issueSelect s = .next t ∧ sameMem s t ∧ t.cycle = (s.cycle + 1) % 2 ^ 64 ∧
    (let u := passClock (endClock s); t.issues = orderIssues u (clockIssues u)) ∧ (∀ i ∈ t.issues, i.lanes ≠ []) ∧
    ((∀ e ∈ s.samples, ∃ id, e.src = .array id) → ∀ k r, t.sreg k r = s.sreg k r) ∧
    (∀ e ∈ t.samples, e ∈ s.samples ∧ ∃ id, e.src = .array id) ∧
    ∀ k l u, s.thread? k l = some u → ∃ w, t.thread? k l = some w ∧ w.v = u.v ∧ w.pv = u.pv ∧ w.pp = u.pp ∧ w.pc = u.pc ∧ w.wait = u.wait) ∧
  (∀ (n : Nat) (pc : Word) (s : State) (g : Group) (c : Counter), s.group? n = some g → c ∈ g.counters → c.pc = pc → Config.promoteAt ≤ c.passes →
    c.promoted = none → ∃ t h, exec (.counterPromotion n pc) s = .next t ∧ sameMem s t ∧ t.group? n = some h ∧
      { c with promoted := some s.cycle } ∈ h.counters ∧ h.threads = g.threads)
end

