-- ==== Sys2Proof/Laws/Int.lean ====
section
/-! SUPPORT. The integer operations as arithmetic on numbers (R90-R95). -/

namespace Sys2Proof.Machine
set_option Elab.async false

theorem add_nat (a b : Word) : a + b = BitVec.ofNat 32 (a.toNat + b.toNat) := by
  apply BitVec.eq_of_toNat_eq; simp [BitVec.toNat_add]
theorem sub_int (a b : Word) : a - b = BitVec.ofInt 32 (a.toInt - b.toInt) := by
  apply BitVec.eq_of_toInt_eq; rw [BitVec.toInt_sub, BitVec.toInt_ofInt]
theorem mul_nat (a b : Word) : a * b = BitVec.ofNat 32 (a.toNat * b.toNat) := by
  apply BitVec.eq_of_toNat_eq; simp [BitVec.toNat_mul]
theorem mad_nat (a b d : Word) : a * b + d = BitVec.ofNat 32 (a.toNat * b.toNat + d.toNat) := by
  apply BitVec.eq_of_toNat_eq; simp [BitVec.toNat_mul, BitVec.toNat_add]

/-- A shift by the whole amount multiplies by a power of two, modulo 2^32 (R90). -/
theorem shlOp_nat (a b : Word) : shlOp a b = BitVec.ofNat 32 (a.toNat * 2 ^ b.toNat) := by
  unfold shlOp
  apply BitVec.eq_of_toNat_eq
  split
  · rw [BitVec.toNat_shiftLeft, BitVec.toNat_ofNat, Nat.shiftLeft_eq]
  · rename_i h
    have : 2 ^ b.toNat = 2 ^ 32 * 2 ^ (b.toNat - 32) := by rw [← Nat.pow_add]; congr 1; omega
    rw [BitVec.toNat_ofNat, this, Nat.mul_left_comm, Nat.mul_mod_right]; rfl

/-- A logical right shift divides (R90). -/
theorem shrOp_nat (a b : Word) : shrOp a b = BitVec.ofNat 32 (a.toNat / 2 ^ b.toNat) := by
  unfold shrOp
  apply BitVec.eq_of_toNat_eq
  have ha := a.isLt
  split
  · rw [BitVec.toNat_ushiftRight, BitVec.toNat_ofNat, Nat.shiftRight_eq_div_pow, Nat.mod_eq_of_lt]
    exact lt_of_le_of_lt (Nat.div_le_self _ _) ha
  · rename_i h
    have hp : 2 ^ 32 ≤ 2 ^ b.toNat := Nat.pow_le_pow_right (by omega) (by omega)
    rw [BitVec.toNat_ofNat, Nat.div_eq_of_lt (lt_of_lt_of_le ha hp)]; rfl

/-- An arithmetic right shift divides and rounds down (R90). -/
theorem sarOp_int (a b : Word) : sarOp a b = BitVec.ofInt 32 (a.toInt / 2 ^ b.toNat) := by
  unfold sarOp
  apply BitVec.eq_of_toInt_eq
  rw [BitVec.toInt_sshiftRight, BitVec.toInt_ofInt, Int.shiftRight_eq_div_pow]
  have h1 := BitVec.toInt_lt (x := a)
  have h2 := BitVec.le_toInt (x := a)
  have key : a.toInt / ((2 ^ min b.toNat 32 : Nat) : Int) = a.toInt / 2 ^ b.toNat := by
    rcases Nat.le_total b.toNat 32 with h | h
    · rw [Nat.min_eq_left h]; push_cast; rfl
    · rw [Nat.min_eq_right h]
      have hp : (2 : Int) ^ 32 ≤ 2 ^ b.toNat := by
        have : 2 ^ 32 ≤ 2 ^ b.toNat := Nat.pow_le_pow_right (by omega) h
        exact_mod_cast this
      rcases lt_or_ge a.toInt 0 with hn | hn
      · have e1 : a.toInt / (2 ^ 32 : Int) = -1 := by omega
        have e2 : a.toInt / (2 ^ b.toNat : Int) = -1 := by
          apply (Int.ediv_eq_iff_of_pos (by positivity)).mpr
          norm_num at h2 hp
          constructor <;> omega
        rw [e2]
        simpa using e1
      · push_cast
        rw [Int.ediv_eq_zero_of_lt hn (by simp at h1; omega), Int.ediv_eq_zero_of_lt hn (by simp at h1; omega)]
  rw [key]
  have hb : -(2 ^ 31) ≤ a.toInt / 2 ^ b.toNat ∧ a.toInt / 2 ^ b.toNat < 2 ^ 31 := by
    have hp : (1 : Int) ≤ 2 ^ b.toNat := by exact_mod_cast Nat.one_le_two_pow
    simp at h1 h2
    constructor
    · apply (Int.le_ediv_iff_mul_le (by omega)).mpr; nlinarith
    · apply (Int.ediv_lt_iff_lt_mul (by omega)).mpr; nlinarith
  rw [Int.bmod_eq_of_le] <;> simp <;> omega

end Sys2Proof.Machine
end

