-- ==== Sys2Proof/Laws/Issue.lean ====
section
/-! SUPPORT. What the shared operations of an issue do: the common checks, lanes that change and go on, a hold, a trap. -/

namespace Sys2Proof.Machine
set_option Elab.async false

/-- An issue that passes reaches its instruction's own effect, on the state as it stands. -/
theorem precheck_of_passes {i : Instr} {s : State} {iss : Issue} {g : Group} (h : Passes i s iss g) :
    precheck s iss g i = .go s := by
  have hs : replayed s iss = s := by
    have hc := h.replay
    cases s; simp only [replayed, State.mk.injEq, and_true, true_and]; simp_all
  have hbits : checkBits s iss g (operRegs s iss g i) = .go s := by
    simp [checkBits, h.bad, h.soft, hs]
  have hr : ((regsOf iss.snap i).vr ++ (regsOf iss.snap i).vw).any (fun r => decide (g.regs ≤ r)) = false := by
    have := h.regs
    simp only [List.all_eq_true, decide_eq_true_eq] at this
    simp only [List.any_eq_false, decide_eq_true_eq]
    intro r hr; have := this r hr; omega
  have hslide : (slideOf s g && slideBad i) = false := by
    cases hsl : slideOf s g with
    | false => rfl
    | true => simpa using (h.form hsl).1
  have hlane : (slideOf s g && detOf s g && laneBad i) = false := by
    cases hsl : slideOf s g with
    | false => rfl
    | true =>
      cases hd : detOf s g with
      | false => rfl
      | true => simpa using (h.form hsl).2 hd
  have hpriv : (needsPriv i && !s.privOf g) = false := by
    cases hp : needsPriv i with
    | false => rfl
    | true => simpa using h.priv hp
  unfold precheck
  simp only [hr, h.tiles, hslide, Bool.or_self, Bool.false_eq_true, if_false, hpriv, h.free, hbits, hlane]
  split
  · rename_i hf
    obtain ⟨hx, hd⟩ := h.flush hf
    simp [hx, takeDeferred, hd, minOf]
  · rfl

/-- Where an issue passes, the instruction's effect is the next state. -/
theorem issued_of_passes {i : Instr} {s : State} {iss : Issue} {g : Group} (h : Passes i s iss g)
    (eff : Issue → Group → State → State) : issued i eff s = .next (eff iss g s) := by
  simp [issued, State.curGroup, h.cur, h.grp, precheck_of_passes h]

theorem laneEff_of_passes {i : Instr} {s : State} {iss : Issue} {g : Group} (h : Passes i s iss g)
    (f : RegFile → Thread → Thread) : laneEff i f s = .next (lanesDo s iss (wordsOf i) (f iss.snap)) :=
  issued_of_passes h _

theorem uniEff_of_passes {i : Instr} {s : State} {iss : Issue} {g : Group} (h : Passes i s iss g)
    (f : RegFile → Nat → State → State) : uniEff i f s = .next (advance (f iss.snap iss.gid s) iss (wordsOf i)) :=
  issued_of_passes h _

/-- Every issued instruction answers a next state, or has no issue to execute for. -/
theorem issued_cases (i : Instr) (eff : Issue → Group → State → State) (s : State) :
    (s.curGroup = none ∧ issued i eff s = .fault .noIssue) ∨
    ∃ iss g, s.curGroup = some (iss, g) ∧
      ((∃ t, precheck s iss g i = .stop t ∧ issued i eff s = .next t) ∨
       (∃ t, precheck s iss g i = .go t ∧ issued i eff s = .next (eff iss g t))) := by
  unfold issued
  cases hc : s.curGroup with
  | none => exact .inl ⟨rfl, rfl⟩
  | some p =>
    obtain ⟨iss, g⟩ := p
    refine .inr ⟨iss, g, rfl, ?_⟩
    cases hp : precheck s iss g i with
    | stop t => exact .inl ⟨t, rfl, by simp [hp]⟩
    | go t => exact .inr ⟨t, rfl, by simp [hp]⟩

/-! ### Lanes -/

theorem sameMem_refl (s : State) : sameMem s s := ⟨rfl, rfl, rfl, rfl⟩
theorem sameMem_modGroup (s : State) (gid : Nat) (f : Group → Group) : sameMem s (s.modGroup gid f) := ⟨rfl, rfl, rfl, rfl⟩
theorem sameMem_mapLanes (s : State) (gid : Nat) (ls : List Nat) (f : Thread → Thread) : sameMem s (s.mapLanes gid ls f) :=
  ⟨rfl, rfl, rfl, rfl⟩
theorem sameMem_advance (s : State) (iss : Issue) (n : Nat) : sameMem s (advance s iss n) := ⟨rfl, rfl, rfl, rfl⟩
theorem sameMem_hold (s : State) (iss : Issue) (w : Wait) : sameMem s (hold s iss w) := ⟨rfl, rfl, rfl, rfl⟩
theorem sameMem_lanesDo (s : State) (iss : Issue) (n : Nat) (f : Thread → Thread) : sameMem s (lanesDo s iss n f) :=
  ⟨rfl, rfl, rfl, rfl⟩
theorem sameMem_trans {s t u : State} (h : sameMem s t) (k : sameMem t u) : sameMem s u :=
  ⟨k.1.trans h.1, k.2.1.trans h.2.1, k.2.2.1.trans h.2.2.1, k.2.2.2.trans h.2.2.2⟩

/-- A group after a change of one group: itself changed, any other as it was. -/
theorem group?_modGroup (s : State) (gid : Nat) (f : Group → Group) (hf : ∀ g, (f g).gid = g.gid) (k : Nat) :
    (s.modGroup gid f).group? k = (s.group? k).map fun g => if g.gid == gid then f g else g := by
  unfold State.group? State.modGroup
  simp only [List.find?_map]
  congr 1
  congr 1
  funext g
  by_cases h : g.gid == gid <;> simp [Function.comp, h, hf]

/-- A thread after a change of lanes that keeps lane numbers. -/
theorem thread?_mapLanes (s : State) (gid : Nat) (ls : List Nat) (f : Thread → Thread) (hf : ∀ t, (f t).lane = t.lane)
    (k l : Nat) : (s.mapLanes gid ls f).thread? k l =
      (s.thread? k l).map fun t => if k = gid ∧ l ∈ ls then f t else t := by
  unfold State.thread? State.mapLanes
  rw [group?_modGroup s gid (fun g => g.mapLanes ls f) (fun _ => rfl)]
  cases hg : s.group? k with
  | none => rfl
  | some g =>
    have hk : g.gid = k := by
      have := List.find?_some hg
      simpa using this
    simp only [Option.map_some, Option.bind_some]
    by_cases h : k = gid
    · subst h
      simp only [hk, beq_self_eq_true, if_true, true_and, Group.mapLanes, Group.thread?, List.find?_map]
      have : ((fun t : Thread => t.lane == l) ∘ fun t => if ls.contains t.lane = true then f t else t) = fun t => t.lane == l := by
        funext t; simp only [Function.comp]; split <;> simp [hf]
      rw [this]
      cases ht : g.threads.find? fun t => t.lane == l with
      | none => rfl
      | some t =>
        have hl : t.lane = l := by have := List.find?_some ht; simpa using this
        simp [hl]
    · have : (g.gid == gid) = false := by simpa [hk] using h
      simp only [this, h, false_and, if_false, Option.map_id']
      rfl

/-- Advancing keeps everything of a thread but its counter, its wait, and its stand in the clause. -/
theorem sameThread_advance (n : Nat) (t : Thread) : sameThread t (t.advance n) ∧ (t.advance n).v = t.v ∧
    (t.advance n).pv = t.pv ∧ (t.advance n).pp = t.pp ∧ (t.advance n).fctl = t.fctl ∧ (t.advance n).po = t.po := by
  unfold Thread.advance sameThread
  dsimp only
  split <;> simp

end Sys2Proof.Machine
end

