-- ==== Sys2Proof/Laws/Memory.lean ====
section
/-! SUPPORT. Laws of sparse maps and memory: read after write, and the canonical form under every memory operation. -/

namespace Sys2Proof.Machine
set_option Elab.async false

section Sparse

variable {α : Type} [DecidableEq α] {d x : α}

theorem sparseWf_cons {k : Nat} {v : α} {m : List (Nat × α)} :
    sparseWf d ((k, v) :: m) = true ↔ v ≠ d ∧ (∀ p ∈ m.head?, k < p.1) ∧ sparseWf d m = true := by
  cases m with
  | nil => simp [sparseWf]
  | cons p r => obtain ⟨k', v'⟩ := p; simp [sparseWf, and_assoc]

theorem sset_head {m : List (Nat × α)} {n b : Nat} (hn : b < n) (h : ∀ p ∈ m.head?, b < p.1) :
    sparseWf d m = true → ∀ p ∈ (sset d m n x).head?, b < p.1 := by
  cases m with
  | nil => intro _; by_cases hx : x = d <;> simp [sset, hx, hn]
  | cons p r =>
    obtain ⟨k, v⟩ := p
    intro hw
    have hk : b < k := h (k, v) rfl
    rw [sparseWf_cons] at hw
    simp only [sset]
    split
    · split <;> simp [hk, hn]
    · split
      · split
        · intro p hp; exact lt_trans hk (hw.2.1 p hp)
        · simp [hn]
      · simp [hk]

/-- Setting a key keeps the canonical form. -/
theorem sparseWf_sset (m : List (Nat × α)) (n : Nat) (x : α) (hw : sparseWf d m = true) :
    sparseWf d (sset d m n x) = true := by
  induction m with
  | nil => by_cases hx : x = d <;> simp [sset, hx, sparseWf]
  | cons p r ih =>
    obtain ⟨k, v⟩ := p
    have hw' := hw
    rw [sparseWf_cons] at hw'
    obtain ⟨hv, hh, hr⟩ := hw'
    simp only [sset]
    split
    · rename_i hlt
      split
      · exact hw
      · rename_i hx; rw [sparseWf_cons]; exact ⟨hx, by simpa using hlt, hw⟩
    · split
      · rename_i heq
        split
        · exact hr
        · rename_i hx; rw [sparseWf_cons]; exact ⟨hx, by simpa [heq] using hh, hr⟩
      · rename_i h1 h2
        rw [sparseWf_cons]
        exact ⟨hv, sset_head (by omega) hh hr, ih hr⟩

theorem sget_lt {m : List (Nat × α)} {n : Nat} (hw : sparseWf d m = true) (h : ∀ p ∈ m.head?, n < p.1) : sget d m n = d := by
  induction m with
  | nil => rfl
  | cons p r ih =>
    obtain ⟨k, v⟩ := p
    rw [sparseWf_cons] at hw
    have hk : n < k := h (k, v) rfl
    simp only [sget]
    rw [if_neg (by omega)]
    exact ih hw.2.2 fun p hp => lt_trans hk (hw.2.1 p hp)

/-- A key reads what was set. -/
theorem sget_sset_same (m : List (Nat × α)) (n : Nat) (x : α) (hw : sparseWf d m = true) : sget d (sset d m n x) n = x := by
  induction m with
  | nil => by_cases hx : x = d <;> simp [sset, sget, hx]
  | cons p r ih =>
    obtain ⟨k, v⟩ := p
    have hw' := hw
    rw [sparseWf_cons] at hw'
    simp only [sset]
    split
    · rename_i hlt
      split
      · rename_i hx
        rw [hx]; exact sget_lt hw (by simpa using hlt)
      · simp [sget]
    · split
      · rename_i heq
        split
        · rename_i hx; rw [hx, heq]; exact sget_lt hw'.2.2 hw'.2.1
        · simp [sget]
      · rename_i h1 h2
        simp [sget, h2, ih hw'.2.2]

/-- Every other key reads as before. -/
theorem sget_sset_ne (m : List (Nat × α)) (n : Nat) (x : α) {a : Nat} (h : a ≠ n) : sget d (sset d m n x) a = sget d m a := by
  induction m with
  | nil => by_cases hx : x = d <;> simp [sset, sget, hx, h]
  | cons p r ih =>
    obtain ⟨k, v⟩ := p
    simp only [sset]
    split
    · split <;> simp [sget, h]
    · split
      · rename_i heq
        split
        · simp [sget, ← heq, h]
        · simp [sget, ← heq, h]
      · by_cases hk : a = k <;> simp [sget, hk, ih]

theorem sparseWf_filter (m : List (Nat × α)) (f : Nat × α → Bool) (hw : sparseWf d m = true) : sparseWf d (m.filter f) = true := by
  have key : ∀ (m : List (Nat × α)) (b : Nat), sparseWf d m = true → (∀ p ∈ m.head?, b < p.1) →
      ∀ p ∈ (m.filter f).head?, b < p.1 := by
    intro m
    induction m with
    | nil => intro b _ _; simp
    | cons p r ih =>
      intro b hw h
      obtain ⟨k, v⟩ := p
      rw [sparseWf_cons] at hw
      have hk : b < k := h (k, v) rfl
      by_cases hf : f (k, v) = true
      · simp [hf, hk]
      · simp only [List.filter_cons, hf]
        exact ih b hw.2.2 fun p hp => lt_trans hk (hw.2.1 p hp)
  induction m with
  | nil => simp [sparseWf]
  | cons p r ih =>
    obtain ⟨k, v⟩ := p
    rw [sparseWf_cons] at hw
    by_cases hf : f (k, v) = true
    · simp only [List.filter_cons, hf, if_true]
      rw [sparseWf_cons]
      exact ⟨hw.1, key r k hw.2.2 hw.2.1, ih hw.2.2⟩
    · simp only [List.filter_cons, hf]
      exact ih hw.2.2

end Sparse

/-! ### Memory -/

theorem Memory.wf_sset (m : Memory) (a : Nat) (b : Byte) (h : m.wf = true) : Memory.wf (sset 0 m a b) = true :=
  sparseWf_sset m a b h
theorem Memory.get_sset_same (m : Memory) (a : Nat) (b : Byte) (h : m.wf = true) : Memory.get (sset 0 m a b) a = b :=
  sget_sset_same m a b h
theorem Memory.get_sset_ne (m : Memory) {a c : Nat} (b : Byte) (h : c ≠ a) : Memory.get (sset 0 m a b) c = m.get c :=
  sget_sset_ne m a b h

theorem Memory.wf_writeBytes (bs : List Byte) : ∀ (m : Memory) (a : Nat), m.wf = true → (writeBytes m a bs).wf = true := by
  induction bs with
  | nil => intro m a h; exact h
  | cons b r ih => intro m a h; exact ih _ _ (Memory.wf_sset m a b h)

/-- A write leaves every byte outside it alone. -/
theorem Memory.get_writeBytes_ne (bs : List Byte) : ∀ (m : Memory) (a c : Nat), (c < a ∨ a + bs.length ≤ c) →
    (writeBytes m a bs).get c = m.get c := by
  induction bs with
  | nil => intro m a c _; rfl
  | cons b r ih =>
    intro m a c h
    simp only [List.length_cons] at h
    rw [writeBytes, ih _ _ _ (by omega), Memory.get_sset_ne m b (by omega)]

theorem Memory.wf_putPairs (ps : List (Nat × Byte)) : ∀ m : Memory, m.wf = true →
    Memory.wf (ps.foldl (fun m p => sset 0 m p.1 p.2) m) = true := by
  induction ps with
  | nil => intro m h; exact h
  | cons p r ih => intro m h; exact ih _ (Memory.wf_sset m _ _ h)

/-- A byte at none of the keys reads as before. -/
theorem Memory.get_putPairs_ne (ps : List (Nat × Byte)) : ∀ (m : Memory) (c : Nat), (∀ p ∈ ps, p.1 ≠ c) →
    Memory.get (ps.foldl (fun m p => sset 0 m p.1 p.2) m) c = m.get c := by
  induction ps with
  | nil => intro m c _; rfl
  | cons p r ih =>
    intro m c h
    rw [List.foldl_cons, ih _ c fun q hq => h q (List.mem_cons_of_mem _ hq)]
    exact Memory.get_sset_ne m p.2 (Ne.symm (h p List.mem_cons_self))

theorem Memory.wf_dropRange (m : Memory) (lo n : Nat) (h : m.wf = true) : (dropRange m lo n).wf = true :=
  sparseWf_filter m _ h

theorem Memory.wf_putRange (m : Memory) (lo n : Nat) (x : Memory) (h : m.wf = true) : (putRange m lo n x).wf = true := by
  unfold putRange
  have : ∀ (x : Memory) (m : Memory), m.wf = true → Memory.wf (x.foldl (fun m p => sset 0 m (lo + p.1) p.2) m) = true := by
    intro x
    induction x with
    | nil => intro m h; exact h
    | cons p r ih => intro m h; exact ih _ (Memory.wf_sset m _ _ h)
  exact this x _ (Memory.wf_dropRange m lo n h)

/-! ### The state's memories -/

theorem State.memWf_iff (s : State) : s.memWf = true ↔
    s.dev.wf = true ∧ s.scratch.wf = true ∧ s.weight.wf = true ∧ s.host.wf = true := by
  simp [State.memWf, and_assoc]

theorem State.wf_mem (s : State) (sp : Space) (h : s.memWf = true) : (s.mem sp).wf = true := by
  rw [State.memWf_iff] at h
  cases sp with
  | dev => exact h.1
  | scratch => exact h.2.1
  | weight => exact h.2.2.1
  | host => exact h.2.2.2
  | remote _ => rfl

/-- Putting a canonical memory into a space keeps all four canonical. -/
theorem State.memWf_setMem (s : State) (sp : Space) (m : Memory) (h : s.memWf = true) (hm : m.wf = true) :
    (s.setMem sp m).memWf = true := by
  rw [State.memWf_iff] at *
  cases sp <;> simp [State.setMem, h, hm]

theorem State.memWf_write (s : State) (sp : Space) (a : Nat) (bs : List Byte) (h : s.memWf = true) :
    (s.write sp a bs).memWf = true :=
  State.memWf_setMem s sp _ h (Memory.wf_writeBytes bs _ a (State.wf_mem s sp h))

theorem State.memWf_congr {s t : State} (h : sameMem s t) : t.memWf = s.memWf := by
  obtain ⟨a, b, c, d⟩ := h
  simp [State.memWf, a, b, c, d]

/-- A write leaves the waits of queues' heads and the watches of threads to look at memory, and changes none. -/
theorem sameMem_waitTouch (s : State) (sp : Space) (keys : List Nat) : sameMem s (waitTouch s sp keys) := by
  unfold waitTouch
  dsimp only
  split <;> exact ⟨rfl, rfl, rfl, rfl⟩

theorem sameMem_watchTouch (s : State) (sp : Space) (keys : List Nat) : sameMem s (watchTouch s sp keys) := ⟨rfl, rfl, rfl, rfl⟩

/-- All that the shared write of bytes at keys does to memory. -/
theorem sameMem_putKeys (s : State) (sp : Space) (keys : List Nat) (bs : List Byte) :
    sameMem (s.setMem sp ((keys.zip bs).foldl (fun m p => sset 0 m p.1 p.2) (s.mem sp))) (putKeys s sp keys bs) := by
  unfold putKeys
  dsimp only
  obtain ⟨a, b, c, d⟩ := sameMem_waitTouch (watchTouch { s.setMem sp ((keys.zip bs).foldl (fun m p => sset 0 m p.1 p.2) (s.mem sp)) with
    softErrs := (s.setMem sp ((keys.zip bs).foldl (fun m p => sset 0 m p.1 p.2) (s.mem sp))).softErrs.filter fun e => !(match sp, e.1 with
      | .scratch, .scratch p => keys.any fun k => k / 8 == p
      | .weight, .weight p => keys.any fun k => k / 8 == p
      | _, _ => false) } sp keys) sp keys
  exact ⟨a, b, c, d⟩

theorem State.memWf_putKeys (s : State) (sp : Space) (keys : List Nat) (bs : List Byte) (h : s.memWf = true) :
    (putKeys s sp keys bs).memWf = true := by
  rw [State.memWf_congr (sameMem_putKeys s sp keys bs)]
  exact State.memWf_setMem s sp _ h (Memory.wf_putPairs _ _ (State.wf_mem s sp h))

/-- Sending an access leaves memory. -/
theorem sameMem_sendFetch (s : State) (key gid lane core ctx : Nat) (op : AccOp) (sp : Space) (keys : List Nat) (va : Nat)
    (data : List Byte) (stamp : Nat × Option Nat) : sameMem s (sendFetch s key gid lane core ctx op sp keys va data stamp).1 :=
  ⟨rfl, rfl, rfl, rfl⟩

/-- A write of the device keeps the canonical form. -/
theorem State.memWf_deviceWrite (s : State) (key core ctx va : Nat) (locs : List (Space × Nat)) (bs : List Byte) (h : s.memWf = true) :
    (deviceWrite s key core ctx va locs bs).memWf = true := by
  unfold deviceWrite
  generalize byLine locs = l
  suffices ∀ (l : List (Space × List Nat)) (z : State × Nat), z.1.memWf = true → (l.foldl _ z).1.memWf = true from this l (s, 0) h
  intro l
  induction l with
  | nil => exact fun _ h => h
  | cons p l ih =>
    rintro ⟨s, n⟩ h
    obtain ⟨sp, ks⟩ := p
    refine ih _ ?_
    dsimp only
    split
    · exact h
    · split
      · rw [State.memWf_congr (sameMem_sendFetch ..)]; exact h
      · split
        · exact State.memWf_putKeys _ _ _ _ h
        · split
          · exact h
          · exact State.memWf_putKeys _ _ _ _ h

/-- Reset memory is canonical. -/
theorem reset_memWf : State.reset.memWf = true := rfl

end Sys2Proof.Machine
end

