-- ==== Sys2Proof/Laws/State.lean ====
section
/-! SUPPORT. What each update of a state leaves alone: one lemma per update and field. -/

namespace Sys2Proof.Machine.State
set_option Elab.async false

@[simp] theorem modGroup_agenda (s : State) (gid : Nat) (f : Group → Group) : (s.modGroup gid f).agenda = s.agenda := rfl
@[simp] theorem modGroup_issues (s : State) (gid : Nat) (f : Group → Group) : (s.modGroup gid f).issues = s.issues := rfl
@[simp] theorem modGroup_cur (s : State) (gid : Nat) (f : Group → Group) : (s.modGroup gid f).cur = s.cur := rfl
@[simp] theorem modGroup_samples (s : State) (gid : Nat) (f : Group → Group) : (s.modGroup gid f).samples = s.samples := rfl
@[simp] theorem modGroup_freeCount (s : State) (gid : Nat) (f : Group → Group) : (s.modGroup gid f).freeCount = s.freeCount := rfl
@[simp] theorem modGroup_nextId (s : State) (gid : Nat) (f : Group → Group) : (s.modGroup gid f).nextId = s.nextId := rfl
@[simp] theorem modGroup_time (s : State) (gid : Nat) (f : Group → Group) : (s.modGroup gid f).time = s.time := rfl
@[simp] theorem modGroup_codes (s : State) (gid : Nat) (f : Group → Group) : (s.modGroup gid f).codes = s.codes := rfl
@[simp] theorem modGroup_dev (s : State) (gid : Nat) (f : Group → Group) : (s.modGroup gid f).dev = s.dev := rfl
@[simp] theorem modGroup_scratch (s : State) (gid : Nat) (f : Group → Group) : (s.modGroup gid f).scratch = s.scratch := rfl
@[simp] theorem modGroup_weight (s : State) (gid : Nat) (f : Group → Group) : (s.modGroup gid f).weight = s.weight := rfl
@[simp] theorem modGroup_host (s : State) (gid : Nat) (f : Group → Group) : (s.modGroup gid f).host = s.host := rfl
@[simp] theorem modGroup_marks (s : State) (gid : Nat) (f : Group → Group) : (s.modGroup gid f).marks = s.marks := rfl
@[simp] theorem modGroup_softErrs (s : State) (gid : Nat) (f : Group → Group) : (s.modGroup gid f).softErrs = s.softErrs := rfl
@[simp] theorem modGroup_corrected (s : State) (gid : Nat) (f : Group → Group) : (s.modGroup gid f).corrected = s.corrected := rfl
@[simp] theorem modGroup_accs (s : State) (gid : Nat) (f : Group → Group) : (s.modGroup gid f).accs = s.accs := rfl
@[simp] theorem modGroup_fetched (s : State) (gid : Nat) (f : Group → Group) : (s.modGroup gid f).fetched = s.fetched := rfl
@[simp] theorem modGroup_cmds (s : State) (gid : Nat) (f : Group → Group) : (s.modGroup gid f).cmds = s.cmds := rfl
@[simp] theorem modGroup_xfers (s : State) (gid : Nat) (f : Group → Group) : (s.modGroup gid f).xfers = s.xfers := rfl
@[simp] theorem modGroup_travel (s : State) (gid : Nat) (f : Group → Group) : (s.modGroup gid f).travel = s.travel := rfl
@[simp] theorem modGroup_wgs (s : State) (gid : Nat) (f : Group → Group) : (s.modGroup gid f).wgs = s.wgs := rfl
@[simp] theorem modGroup_gangs (s : State) (gid : Nat) (f : Group → Group) : (s.modGroup gid f).gangs = s.gangs := rfl
@[simp] theorem modGroup_sweeps (s : State) (gid : Nat) (f : Group → Group) : (s.modGroup gid f).sweeps = s.sweeps := rfl
@[simp] theorem modGroup_launches (s : State) (gid : Nat) (f : Group → Group) : (s.modGroup gid f).launches = s.launches := rfl
@[simp] theorem modGroup_queues (s : State) (gid : Nat) (f : Group → Group) : (s.modGroup gid f).queues = s.queues := rfl
@[simp] theorem modGroup_ctxs (s : State) (gid : Nat) (f : Group → Group) : (s.modGroup gid f).ctxs = s.ctxs := rfl
@[simp] theorem modGroup_cores (s : State) (gid : Nat) (f : Group → Group) : (s.modGroup gid f).cores = s.cores := rfl
@[simp] theorem modGroup_qtlb (s : State) (gid : Nat) (f : Group → Group) : (s.modGroup gid f).qtlb = s.qtlb := rfl
@[simp] theorem modGroup_walkCache (s : State) (gid : Nat) (f : Group → Group) : (s.modGroup gid f).walkCache = s.walkCache := rfl
@[simp] theorem modGroup_qmask (s : State) (gid : Nat) (f : Group → Group) : (s.modGroup gid f).qmask = s.qmask := rfl
@[simp] theorem modGroup_spares (s : State) (gid : Nat) (f : Group → Group) : (s.modGroup gid f).spares = s.spares := rfl
@[simp] theorem modGroup_spareIds (s : State) (gid : Nat) (f : Group → Group) : (s.modGroup gid f).spareIds = s.spareIds := rfl
@[simp] theorem modGroup_tally (s : State) (gid : Nat) (f : Group → Group) : (s.modGroup gid f).tally = s.tally := rfl
@[simp] theorem modGroup_selfFail (s : State) (gid : Nat) (f : Group → Group) : (s.modGroup gid f).selfFail = s.selfFail := rfl
@[simp] theorem modGroup_rowsUsed (s : State) (gid : Nat) (f : Group → Group) : (s.modGroup gid f).rowsUsed = s.rowsUsed := rfl
@[simp] theorem modGroup_sliceDet (s : State) (gid : Nat) (f : Group → Group) : (s.modGroup gid f).sliceDet = s.sliceDet := rfl
@[simp] theorem modGroup_regions (s : State) (gid : Nat) (f : Group → Group) : (s.modGroup gid f).regions = s.regions := rfl
@[simp] theorem modGroup_held (s : State) (gid : Nat) (f : Group → Group) : (s.modGroup gid f).held = s.held := rfl
@[simp] theorem modGroup_markers (s : State) (gid : Nat) (f : Group → Group) : (s.modGroup gid f).markers = s.markers := rfl
@[simp] theorem modGroup_domains (s : State) (gid : Nat) (f : Group → Group) : (s.modGroup gid f).domains = s.domains := rfl
@[simp] theorem modGroup_ranges (s : State) (gid : Nat) (f : Group → Group) : (s.modGroup gid f).ranges = s.ranges := rfl
@[simp] theorem modGroup_pages (s : State) (gid : Nat) (f : Group → Group) : (s.modGroup gid f).pages = s.pages := rfl
@[simp] theorem modGroup_thawed (s : State) (gid : Nat) (f : Group → Group) : (s.modGroup gid f).thawed = s.thawed := rfl
@[simp] theorem modGroup_copyIn (s : State) (gid : Nat) (f : Group → Group) : (s.modGroup gid f).copyIn = s.copyIn := rfl
@[simp] theorem modGroup_creditsIn (s : State) (gid : Nat) (f : Group → Group) : (s.modGroup gid f).creditsIn = s.creditsIn := rfl
@[simp] theorem modGroup_retires (s : State) (gid : Nat) (f : Group → Group) : (s.modGroup gid f).retires = s.retires := rfl
@[simp] theorem modGroup_migs (s : State) (gid : Nat) (f : Group → Group) : (s.modGroup gid f).migs = s.migs := rfl
@[simp] theorem modGroup_stubs (s : State) (gid : Nat) (f : Group → Group) : (s.modGroup gid f).stubs = s.stubs := rfl
@[simp] theorem modGroup_owners (s : State) (gid : Nat) (f : Group → Group) : (s.modGroup gid f).owners = s.owners := rfl
@[simp] theorem modGroup_replicas (s : State) (gid : Nat) (f : Group → Group) : (s.modGroup gid f).replicas = s.replicas := rfl
@[simp] theorem modGroup_repsets (s : State) (gid : Nat) (f : Group → Group) : (s.modGroup gid f).repsets = s.repsets := rfl
@[simp] theorem modGroup_populated (s : State) (gid : Nat) (f : Group → Group) : (s.modGroup gid f).populated = s.populated := rfl
@[simp] theorem modGroup_enabled (s : State) (gid : Nat) (f : Group → Group) : (s.modGroup gid f).enabled = s.enabled := rfl
@[simp] theorem modGroup_links (s : State) (gid : Nat) (f : Group → Group) : (s.modGroup gid f).links = s.links := rfl
@[simp] theorem modGroup_outSeq (s : State) (gid : Nat) (f : Group → Group) : (s.modGroup gid f).outSeq = s.outSeq := rfl
@[simp] theorem modGroup_inSeq (s : State) (gid : Nat) (f : Group → Group) : (s.modGroup gid f).inSeq = s.inSeq := rfl
@[simp] theorem modGroup_reorder (s : State) (gid : Nat) (f : Group → Group) : (s.modGroup gid f).reorder = s.reorder := rfl
@[simp] theorem modGroup_sent (s : State) (gid : Nat) (f : Group → Group) : (s.modGroup gid f).sent = s.sent := rfl
@[simp] theorem modGroup_waiting (s : State) (gid : Nat) (f : Group → Group) : (s.modGroup gid f).waiting = s.waiting := rfl
@[simp] theorem modGroup_relays (s : State) (gid : Nat) (f : Group → Group) : (s.modGroup gid f).relays = s.relays := rfl
@[simp] theorem modGroup_discards (s : State) (gid : Nat) (f : Group → Group) : (s.modGroup gid f).discards = s.discards := rfl
@[simp] theorem modGroup_dieTags (s : State) (gid : Nat) (f : Group → Group) : (s.modGroup gid f).dieTags = s.dieTags := rfl
@[simp] theorem modGroup_ftoexp (s : State) (gid : Nat) (f : Group → Group) : (s.modGroup gid f).ftoexp = s.ftoexp := rfl
@[simp] theorem modGroup_hostUp0 (s : State) (gid : Nat) (f : Group → Group) : (s.modGroup gid f).hostUp0 = s.hostUp0 := rfl
@[simp] theorem modGroup_hostUp1 (s : State) (gid : Nat) (f : Group → Group) : (s.modGroup gid f).hostUp1 = s.hostUp1 := rfl
@[simp] theorem modGroup_posted (s : State) (gid : Nat) (f : Group → Group) : (s.modGroup gid f).posted = s.posted := rfl
@[simp] theorem modGroup_postedQ (s : State) (gid : Nat) (f : Group → Group) : (s.modGroup gid f).postedQ = s.postedQ := rfl
@[simp] theorem modGroup_health (s : State) (gid : Nat) (f : Group → Group) : (s.modGroup gid f).health = s.health := rfl
@[simp] theorem modGroup_hqovf (s : State) (gid : Nat) (f : Group → Group) : (s.modGroup gid f).hqovf = s.hqovf := rfl
@[simp] theorem modGroup_cntReg (s : State) (gid : Nat) (f : Group → Group) : (s.modGroup gid f).cntReg = s.cntReg := rfl
@[simp] theorem modGroup_cntMem (s : State) (gid : Nat) (f : Group → Group) : (s.modGroup gid f).cntMem = s.cntMem := rfl
@[simp] theorem modGroup_cntUnc (s : State) (gid : Nat) (f : Group → Group) : (s.modGroup gid f).cntUnc = s.cntUnc := rfl
@[simp] theorem modGroup_cycle (s : State) (gid : Nat) (f : Group → Group) : (s.modGroup gid f).cycle = s.cycle := rfl
@[simp] theorem modGroup_quantum (s : State) (gid : Nat) (f : Group → Group) : (s.modGroup gid f).quantum = s.quantum := rfl
@[simp] theorem modGroup_pwrst (s : State) (gid : Nat) (f : Group → Group) : (s.modGroup gid f).pwrst = s.pwrst := rfl
@[simp] theorem modGroup_powerCap (s : State) (gid : Nat) (f : Group → Group) : (s.modGroup gid f).powerCap = s.powerCap := rfl
@[simp] theorem modGroup_secureRegions (s : State) (gid : Nat) (f : Group → Group) : (s.modGroup gid f).secureRegions = s.secureRegions := rfl
@[simp] theorem modGroup_secureCores (s : State) (gid : Nat) (f : Group → Group) : (s.modGroup gid f).secureCores = s.secureCores := rfl
@[simp] theorem modGroup_secureQuartets (s : State) (gid : Nat) (f : Group → Group) : (s.modGroup gid f).secureQuartets = s.secureQuartets := rfl
@[simp] theorem modGroup_secureSlices (s : State) (gid : Nat) (f : Group → Group) : (s.modGroup gid f).secureSlices = s.secureSlices := rfl
@[simp] theorem modGroup_secureChannels (s : State) (gid : Nat) (f : Group → Group) : (s.modGroup gid f).secureChannels = s.secureChannels := rfl
@[simp] theorem modGroup_secureLinks (s : State) (gid : Nat) (f : Group → Group) : (s.modGroup gid f).secureLinks = s.secureLinks := rfl
@[simp] theorem modGroup_secureFunctions (s : State) (gid : Nat) (f : Group → Group) : (s.modGroup gid f).secureFunctions = s.secureFunctions := rfl
@[simp] theorem modGroup_policy (s : State) (gid : Nat) (f : Group → Group) : (s.modGroup gid f).policy = s.policy := rfl
@[simp] theorem modGroup_alarms (s : State) (gid : Nat) (f : Group → Group) : (s.modGroup gid f).alarms = s.alarms := rfl
@[simp] theorem modGroup_violations (s : State) (gid : Nat) (f : Group → Group) : (s.modGroup gid f).violations = s.violations := rfl
@[simp] theorem modGroup_keys (s : State) (gid : Nat) (f : Group → Group) : (s.modGroup gid f).keys = s.keys := rfl
@[simp] theorem modGroup_insecure (s : State) (gid : Nat) (f : Group → Group) : (s.modGroup gid f).insecure = s.insecure := rfl
@[simp] theorem modGroup_keyed (s : State) (gid : Nat) (f : Group → Group) : (s.modGroup gid f).keyed = s.keyed := rfl
@[simp] theorem modGroup_dualHost (s : State) (gid : Nat) (f : Group → Group) : (s.modGroup gid f).dualHost = s.dualHost := rfl
@[simp] theorem modGroup_endpoints (s : State) (gid : Nat) (f : Group → Group) : (s.modGroup gid f).endpoints = s.endpoints := rfl
@[simp] theorem modGroup_fuses (s : State) (gid : Nat) (f : Group → Group) : (s.modGroup gid f).fuses = s.fuses := rfl
@[simp] theorem modGroup_fwVersions (s : State) (gid : Nat) (f : Group → Group) : (s.modGroup gid f).fwVersions = s.fwVersions := rfl
@[simp] theorem modGroup_fwPending (s : State) (gid : Nat) (f : Group → Group) : (s.modGroup gid f).fwPending = s.fwPending := rfl
@[simp] theorem modGroup_measured (s : State) (gid : Nat) (f : Group → Group) : (s.modGroup gid f).measured = s.measured := rfl
@[simp] theorem modGroup_stopped (s : State) (gid : Nat) (f : Group → Group) : (s.modGroup gid f).stopped = s.stopped := rfl
@[simp] theorem modGroup_recovery (s : State) (gid : Nat) (f : Group → Group) : (s.modGroup gid f).recovery = s.recovery := rfl
@[simp] theorem modGroup_booted (s : State) (gid : Nat) (f : Group → Group) : (s.modGroup gid f).booted = s.booted := rfl
@[simp] theorem mapLanes_agenda (s : State) (gid : Nat) (ls : List Nat) (f : Thread → Thread) : (s.mapLanes gid ls f).agenda = s.agenda := rfl
@[simp] theorem mapLanes_issues (s : State) (gid : Nat) (ls : List Nat) (f : Thread → Thread) : (s.mapLanes gid ls f).issues = s.issues := rfl
@[simp] theorem mapLanes_cur (s : State) (gid : Nat) (ls : List Nat) (f : Thread → Thread) : (s.mapLanes gid ls f).cur = s.cur := rfl
@[simp] theorem mapLanes_samples (s : State) (gid : Nat) (ls : List Nat) (f : Thread → Thread) : (s.mapLanes gid ls f).samples = s.samples := rfl
@[simp] theorem mapLanes_freeCount (s : State) (gid : Nat) (ls : List Nat) (f : Thread → Thread) : (s.mapLanes gid ls f).freeCount = s.freeCount := rfl
@[simp] theorem mapLanes_nextId (s : State) (gid : Nat) (ls : List Nat) (f : Thread → Thread) : (s.mapLanes gid ls f).nextId = s.nextId := rfl
@[simp] theorem mapLanes_time (s : State) (gid : Nat) (ls : List Nat) (f : Thread → Thread) : (s.mapLanes gid ls f).time = s.time := rfl
@[simp] theorem mapLanes_codes (s : State) (gid : Nat) (ls : List Nat) (f : Thread → Thread) : (s.mapLanes gid ls f).codes = s.codes := rfl
@[simp] theorem mapLanes_dev (s : State) (gid : Nat) (ls : List Nat) (f : Thread → Thread) : (s.mapLanes gid ls f).dev = s.dev := rfl
@[simp] theorem mapLanes_scratch (s : State) (gid : Nat) (ls : List Nat) (f : Thread → Thread) : (s.mapLanes gid ls f).scratch = s.scratch := rfl
@[simp] theorem mapLanes_weight (s : State) (gid : Nat) (ls : List Nat) (f : Thread → Thread) : (s.mapLanes gid ls f).weight = s.weight := rfl
@[simp] theorem mapLanes_host (s : State) (gid : Nat) (ls : List Nat) (f : Thread → Thread) : (s.mapLanes gid ls f).host = s.host := rfl
@[simp] theorem mapLanes_marks (s : State) (gid : Nat) (ls : List Nat) (f : Thread → Thread) : (s.mapLanes gid ls f).marks = s.marks := rfl
@[simp] theorem mapLanes_softErrs (s : State) (gid : Nat) (ls : List Nat) (f : Thread → Thread) : (s.mapLanes gid ls f).softErrs = s.softErrs := rfl
@[simp] theorem mapLanes_corrected (s : State) (gid : Nat) (ls : List Nat) (f : Thread → Thread) : (s.mapLanes gid ls f).corrected = s.corrected := rfl
@[simp] theorem mapLanes_accs (s : State) (gid : Nat) (ls : List Nat) (f : Thread → Thread) : (s.mapLanes gid ls f).accs = s.accs := rfl
@[simp] theorem mapLanes_fetched (s : State) (gid : Nat) (ls : List Nat) (f : Thread → Thread) : (s.mapLanes gid ls f).fetched = s.fetched := rfl
@[simp] theorem mapLanes_cmds (s : State) (gid : Nat) (ls : List Nat) (f : Thread → Thread) : (s.mapLanes gid ls f).cmds = s.cmds := rfl
@[simp] theorem mapLanes_xfers (s : State) (gid : Nat) (ls : List Nat) (f : Thread → Thread) : (s.mapLanes gid ls f).xfers = s.xfers := rfl
@[simp] theorem mapLanes_travel (s : State) (gid : Nat) (ls : List Nat) (f : Thread → Thread) : (s.mapLanes gid ls f).travel = s.travel := rfl
@[simp] theorem mapLanes_wgs (s : State) (gid : Nat) (ls : List Nat) (f : Thread → Thread) : (s.mapLanes gid ls f).wgs = s.wgs := rfl
@[simp] theorem mapLanes_gangs (s : State) (gid : Nat) (ls : List Nat) (f : Thread → Thread) : (s.mapLanes gid ls f).gangs = s.gangs := rfl
@[simp] theorem mapLanes_sweeps (s : State) (gid : Nat) (ls : List Nat) (f : Thread → Thread) : (s.mapLanes gid ls f).sweeps = s.sweeps := rfl
@[simp] theorem mapLanes_launches (s : State) (gid : Nat) (ls : List Nat) (f : Thread → Thread) : (s.mapLanes gid ls f).launches = s.launches := rfl
@[simp] theorem mapLanes_queues (s : State) (gid : Nat) (ls : List Nat) (f : Thread → Thread) : (s.mapLanes gid ls f).queues = s.queues := rfl
@[simp] theorem mapLanes_ctxs (s : State) (gid : Nat) (ls : List Nat) (f : Thread → Thread) : (s.mapLanes gid ls f).ctxs = s.ctxs := rfl
@[simp] theorem mapLanes_cores (s : State) (gid : Nat) (ls : List Nat) (f : Thread → Thread) : (s.mapLanes gid ls f).cores = s.cores := rfl
@[simp] theorem mapLanes_qtlb (s : State) (gid : Nat) (ls : List Nat) (f : Thread → Thread) : (s.mapLanes gid ls f).qtlb = s.qtlb := rfl
@[simp] theorem mapLanes_walkCache (s : State) (gid : Nat) (ls : List Nat) (f : Thread → Thread) : (s.mapLanes gid ls f).walkCache = s.walkCache := rfl
@[simp] theorem mapLanes_qmask (s : State) (gid : Nat) (ls : List Nat) (f : Thread → Thread) : (s.mapLanes gid ls f).qmask = s.qmask := rfl
@[simp] theorem mapLanes_spares (s : State) (gid : Nat) (ls : List Nat) (f : Thread → Thread) : (s.mapLanes gid ls f).spares = s.spares := rfl
@[simp] theorem mapLanes_spareIds (s : State) (gid : Nat) (ls : List Nat) (f : Thread → Thread) : (s.mapLanes gid ls f).spareIds = s.spareIds := rfl
@[simp] theorem mapLanes_tally (s : State) (gid : Nat) (ls : List Nat) (f : Thread → Thread) : (s.mapLanes gid ls f).tally = s.tally := rfl
@[simp] theorem mapLanes_selfFail (s : State) (gid : Nat) (ls : List Nat) (f : Thread → Thread) : (s.mapLanes gid ls f).selfFail = s.selfFail := rfl
@[simp] theorem mapLanes_rowsUsed (s : State) (gid : Nat) (ls : List Nat) (f : Thread → Thread) : (s.mapLanes gid ls f).rowsUsed = s.rowsUsed := rfl
@[simp] theorem mapLanes_sliceDet (s : State) (gid : Nat) (ls : List Nat) (f : Thread → Thread) : (s.mapLanes gid ls f).sliceDet = s.sliceDet := rfl
@[simp] theorem mapLanes_regions (s : State) (gid : Nat) (ls : List Nat) (f : Thread → Thread) : (s.mapLanes gid ls f).regions = s.regions := rfl
@[simp] theorem mapLanes_held (s : State) (gid : Nat) (ls : List Nat) (f : Thread → Thread) : (s.mapLanes gid ls f).held = s.held := rfl
@[simp] theorem mapLanes_markers (s : State) (gid : Nat) (ls : List Nat) (f : Thread → Thread) : (s.mapLanes gid ls f).markers = s.markers := rfl
@[simp] theorem mapLanes_domains (s : State) (gid : Nat) (ls : List Nat) (f : Thread → Thread) : (s.mapLanes gid ls f).domains = s.domains := rfl
@[simp] theorem mapLanes_ranges (s : State) (gid : Nat) (ls : List Nat) (f : Thread → Thread) : (s.mapLanes gid ls f).ranges = s.ranges := rfl
@[simp] theorem mapLanes_pages (s : State) (gid : Nat) (ls : List Nat) (f : Thread → Thread) : (s.mapLanes gid ls f).pages = s.pages := rfl
@[simp] theorem mapLanes_thawed (s : State) (gid : Nat) (ls : List Nat) (f : Thread → Thread) : (s.mapLanes gid ls f).thawed = s.thawed := rfl
@[simp] theorem mapLanes_copyIn (s : State) (gid : Nat) (ls : List Nat) (f : Thread → Thread) : (s.mapLanes gid ls f).copyIn = s.copyIn := rfl
@[simp] theorem mapLanes_creditsIn (s : State) (gid : Nat) (ls : List Nat) (f : Thread → Thread) : (s.mapLanes gid ls f).creditsIn = s.creditsIn := rfl
@[simp] theorem mapLanes_retires (s : State) (gid : Nat) (ls : List Nat) (f : Thread → Thread) : (s.mapLanes gid ls f).retires = s.retires := rfl
@[simp] theorem mapLanes_migs (s : State) (gid : Nat) (ls : List Nat) (f : Thread → Thread) : (s.mapLanes gid ls f).migs = s.migs := rfl
@[simp] theorem mapLanes_stubs (s : State) (gid : Nat) (ls : List Nat) (f : Thread → Thread) : (s.mapLanes gid ls f).stubs = s.stubs := rfl
@[simp] theorem mapLanes_owners (s : State) (gid : Nat) (ls : List Nat) (f : Thread → Thread) : (s.mapLanes gid ls f).owners = s.owners := rfl
@[simp] theorem mapLanes_replicas (s : State) (gid : Nat) (ls : List Nat) (f : Thread → Thread) : (s.mapLanes gid ls f).replicas = s.replicas := rfl
@[simp] theorem mapLanes_repsets (s : State) (gid : Nat) (ls : List Nat) (f : Thread → Thread) : (s.mapLanes gid ls f).repsets = s.repsets := rfl
@[simp] theorem mapLanes_populated (s : State) (gid : Nat) (ls : List Nat) (f : Thread → Thread) : (s.mapLanes gid ls f).populated = s.populated := rfl
@[simp] theorem mapLanes_enabled (s : State) (gid : Nat) (ls : List Nat) (f : Thread → Thread) : (s.mapLanes gid ls f).enabled = s.enabled := rfl
@[simp] theorem mapLanes_links (s : State) (gid : Nat) (ls : List Nat) (f : Thread → Thread) : (s.mapLanes gid ls f).links = s.links := rfl
@[simp] theorem mapLanes_outSeq (s : State) (gid : Nat) (ls : List Nat) (f : Thread → Thread) : (s.mapLanes gid ls f).outSeq = s.outSeq := rfl
@[simp] theorem mapLanes_inSeq (s : State) (gid : Nat) (ls : List Nat) (f : Thread → Thread) : (s.mapLanes gid ls f).inSeq = s.inSeq := rfl
@[simp] theorem mapLanes_reorder (s : State) (gid : Nat) (ls : List Nat) (f : Thread → Thread) : (s.mapLanes gid ls f).reorder = s.reorder := rfl
@[simp] theorem mapLanes_sent (s : State) (gid : Nat) (ls : List Nat) (f : Thread → Thread) : (s.mapLanes gid ls f).sent = s.sent := rfl
@[simp] theorem mapLanes_waiting (s : State) (gid : Nat) (ls : List Nat) (f : Thread → Thread) : (s.mapLanes gid ls f).waiting = s.waiting := rfl
@[simp] theorem mapLanes_relays (s : State) (gid : Nat) (ls : List Nat) (f : Thread → Thread) : (s.mapLanes gid ls f).relays = s.relays := rfl
@[simp] theorem mapLanes_discards (s : State) (gid : Nat) (ls : List Nat) (f : Thread → Thread) : (s.mapLanes gid ls f).discards = s.discards := rfl
@[simp] theorem mapLanes_dieTags (s : State) (gid : Nat) (ls : List Nat) (f : Thread → Thread) : (s.mapLanes gid ls f).dieTags = s.dieTags := rfl
@[simp] theorem mapLanes_ftoexp (s : State) (gid : Nat) (ls : List Nat) (f : Thread → Thread) : (s.mapLanes gid ls f).ftoexp = s.ftoexp := rfl
@[simp] theorem mapLanes_hostUp0 (s : State) (gid : Nat) (ls : List Nat) (f : Thread → Thread) : (s.mapLanes gid ls f).hostUp0 = s.hostUp0 := rfl
@[simp] theorem mapLanes_hostUp1 (s : State) (gid : Nat) (ls : List Nat) (f : Thread → Thread) : (s.mapLanes gid ls f).hostUp1 = s.hostUp1 := rfl
@[simp] theorem mapLanes_posted (s : State) (gid : Nat) (ls : List Nat) (f : Thread → Thread) : (s.mapLanes gid ls f).posted = s.posted := rfl
@[simp] theorem mapLanes_postedQ (s : State) (gid : Nat) (ls : List Nat) (f : Thread → Thread) : (s.mapLanes gid ls f).postedQ = s.postedQ := rfl
@[simp] theorem mapLanes_health (s : State) (gid : Nat) (ls : List Nat) (f : Thread → Thread) : (s.mapLanes gid ls f).health = s.health := rfl
@[simp] theorem mapLanes_hqovf (s : State) (gid : Nat) (ls : List Nat) (f : Thread → Thread) : (s.mapLanes gid ls f).hqovf = s.hqovf := rfl
@[simp] theorem mapLanes_cntReg (s : State) (gid : Nat) (ls : List Nat) (f : Thread → Thread) : (s.mapLanes gid ls f).cntReg = s.cntReg := rfl
@[simp] theorem mapLanes_cntMem (s : State) (gid : Nat) (ls : List Nat) (f : Thread → Thread) : (s.mapLanes gid ls f).cntMem = s.cntMem := rfl
@[simp] theorem mapLanes_cntUnc (s : State) (gid : Nat) (ls : List Nat) (f : Thread → Thread) : (s.mapLanes gid ls f).cntUnc = s.cntUnc := rfl
@[simp] theorem mapLanes_cycle (s : State) (gid : Nat) (ls : List Nat) (f : Thread → Thread) : (s.mapLanes gid ls f).cycle = s.cycle := rfl
@[simp] theorem mapLanes_quantum (s : State) (gid : Nat) (ls : List Nat) (f : Thread → Thread) : (s.mapLanes gid ls f).quantum = s.quantum := rfl
@[simp] theorem mapLanes_pwrst (s : State) (gid : Nat) (ls : List Nat) (f : Thread → Thread) : (s.mapLanes gid ls f).pwrst = s.pwrst := rfl
@[simp] theorem mapLanes_powerCap (s : State) (gid : Nat) (ls : List Nat) (f : Thread → Thread) : (s.mapLanes gid ls f).powerCap = s.powerCap := rfl
@[simp] theorem mapLanes_secureRegions (s : State) (gid : Nat) (ls : List Nat) (f : Thread → Thread) : (s.mapLanes gid ls f).secureRegions = s.secureRegions := rfl
@[simp] theorem mapLanes_secureCores (s : State) (gid : Nat) (ls : List Nat) (f : Thread → Thread) : (s.mapLanes gid ls f).secureCores = s.secureCores := rfl
@[simp] theorem mapLanes_secureQuartets (s : State) (gid : Nat) (ls : List Nat) (f : Thread → Thread) : (s.mapLanes gid ls f).secureQuartets = s.secureQuartets := rfl
@[simp] theorem mapLanes_secureSlices (s : State) (gid : Nat) (ls : List Nat) (f : Thread → Thread) : (s.mapLanes gid ls f).secureSlices = s.secureSlices := rfl
@[simp] theorem mapLanes_secureChannels (s : State) (gid : Nat) (ls : List Nat) (f : Thread → Thread) : (s.mapLanes gid ls f).secureChannels = s.secureChannels := rfl
@[simp] theorem mapLanes_secureLinks (s : State) (gid : Nat) (ls : List Nat) (f : Thread → Thread) : (s.mapLanes gid ls f).secureLinks = s.secureLinks := rfl
@[simp] theorem mapLanes_secureFunctions (s : State) (gid : Nat) (ls : List Nat) (f : Thread → Thread) : (s.mapLanes gid ls f).secureFunctions = s.secureFunctions := rfl
@[simp] theorem mapLanes_policy (s : State) (gid : Nat) (ls : List Nat) (f : Thread → Thread) : (s.mapLanes gid ls f).policy = s.policy := rfl
@[simp] theorem mapLanes_alarms (s : State) (gid : Nat) (ls : List Nat) (f : Thread → Thread) : (s.mapLanes gid ls f).alarms = s.alarms := rfl
@[simp] theorem mapLanes_violations (s : State) (gid : Nat) (ls : List Nat) (f : Thread → Thread) : (s.mapLanes gid ls f).violations = s.violations := rfl
@[simp] theorem mapLanes_keys (s : State) (gid : Nat) (ls : List Nat) (f : Thread → Thread) : (s.mapLanes gid ls f).keys = s.keys := rfl
@[simp] theorem mapLanes_insecure (s : State) (gid : Nat) (ls : List Nat) (f : Thread → Thread) : (s.mapLanes gid ls f).insecure = s.insecure := rfl
@[simp] theorem mapLanes_keyed (s : State) (gid : Nat) (ls : List Nat) (f : Thread → Thread) : (s.mapLanes gid ls f).keyed = s.keyed := rfl
@[simp] theorem mapLanes_dualHost (s : State) (gid : Nat) (ls : List Nat) (f : Thread → Thread) : (s.mapLanes gid ls f).dualHost = s.dualHost := rfl
@[simp] theorem mapLanes_endpoints (s : State) (gid : Nat) (ls : List Nat) (f : Thread → Thread) : (s.mapLanes gid ls f).endpoints = s.endpoints := rfl
@[simp] theorem mapLanes_fuses (s : State) (gid : Nat) (ls : List Nat) (f : Thread → Thread) : (s.mapLanes gid ls f).fuses = s.fuses := rfl
@[simp] theorem mapLanes_fwVersions (s : State) (gid : Nat) (ls : List Nat) (f : Thread → Thread) : (s.mapLanes gid ls f).fwVersions = s.fwVersions := rfl
@[simp] theorem mapLanes_fwPending (s : State) (gid : Nat) (ls : List Nat) (f : Thread → Thread) : (s.mapLanes gid ls f).fwPending = s.fwPending := rfl
@[simp] theorem mapLanes_measured (s : State) (gid : Nat) (ls : List Nat) (f : Thread → Thread) : (s.mapLanes gid ls f).measured = s.measured := rfl
@[simp] theorem mapLanes_stopped (s : State) (gid : Nat) (ls : List Nat) (f : Thread → Thread) : (s.mapLanes gid ls f).stopped = s.stopped := rfl
@[simp] theorem mapLanes_recovery (s : State) (gid : Nat) (ls : List Nat) (f : Thread → Thread) : (s.mapLanes gid ls f).recovery = s.recovery := rfl
@[simp] theorem mapLanes_booted (s : State) (gid : Nat) (ls : List Nat) (f : Thread → Thread) : (s.mapLanes gid ls f).booted = s.booted := rfl
@[simp] theorem setS_agenda (s : State) (gid r : Nat) (x : Reg) : (s.setS gid r x).agenda = s.agenda := rfl
@[simp] theorem setS_issues (s : State) (gid r : Nat) (x : Reg) : (s.setS gid r x).issues = s.issues := rfl
@[simp] theorem setS_cur (s : State) (gid r : Nat) (x : Reg) : (s.setS gid r x).cur = s.cur := rfl
@[simp] theorem setS_freeCount (s : State) (gid r : Nat) (x : Reg) : (s.setS gid r x).freeCount = s.freeCount := rfl
@[simp] theorem setS_nextId (s : State) (gid r : Nat) (x : Reg) : (s.setS gid r x).nextId = s.nextId := rfl
@[simp] theorem setS_time (s : State) (gid r : Nat) (x : Reg) : (s.setS gid r x).time = s.time := rfl
@[simp] theorem setS_codes (s : State) (gid r : Nat) (x : Reg) : (s.setS gid r x).codes = s.codes := rfl
@[simp] theorem setS_dev (s : State) (gid r : Nat) (x : Reg) : (s.setS gid r x).dev = s.dev := rfl
@[simp] theorem setS_scratch (s : State) (gid r : Nat) (x : Reg) : (s.setS gid r x).scratch = s.scratch := rfl
@[simp] theorem setS_weight (s : State) (gid r : Nat) (x : Reg) : (s.setS gid r x).weight = s.weight := rfl
@[simp] theorem setS_host (s : State) (gid r : Nat) (x : Reg) : (s.setS gid r x).host = s.host := rfl
@[simp] theorem setS_marks (s : State) (gid r : Nat) (x : Reg) : (s.setS gid r x).marks = s.marks := rfl
@[simp] theorem setS_softErrs (s : State) (gid r : Nat) (x : Reg) : (s.setS gid r x).softErrs = s.softErrs := rfl
@[simp] theorem setS_corrected (s : State) (gid r : Nat) (x : Reg) : (s.setS gid r x).corrected = s.corrected := rfl
@[simp] theorem setS_accs (s : State) (gid r : Nat) (x : Reg) : (s.setS gid r x).accs = s.accs := rfl
@[simp] theorem setS_fetched (s : State) (gid r : Nat) (x : Reg) : (s.setS gid r x).fetched = s.fetched := rfl
@[simp] theorem setS_cmds (s : State) (gid r : Nat) (x : Reg) : (s.setS gid r x).cmds = s.cmds := rfl
@[simp] theorem setS_xfers (s : State) (gid r : Nat) (x : Reg) : (s.setS gid r x).xfers = s.xfers := rfl
@[simp] theorem setS_travel (s : State) (gid r : Nat) (x : Reg) : (s.setS gid r x).travel = s.travel := rfl
@[simp] theorem setS_wgs (s : State) (gid r : Nat) (x : Reg) : (s.setS gid r x).wgs = s.wgs := rfl
@[simp] theorem setS_gangs (s : State) (gid r : Nat) (x : Reg) : (s.setS gid r x).gangs = s.gangs := rfl
@[simp] theorem setS_sweeps (s : State) (gid r : Nat) (x : Reg) : (s.setS gid r x).sweeps = s.sweeps := rfl
@[simp] theorem setS_launches (s : State) (gid r : Nat) (x : Reg) : (s.setS gid r x).launches = s.launches := rfl
@[simp] theorem setS_queues (s : State) (gid r : Nat) (x : Reg) : (s.setS gid r x).queues = s.queues := rfl
@[simp] theorem setS_ctxs (s : State) (gid r : Nat) (x : Reg) : (s.setS gid r x).ctxs = s.ctxs := rfl
@[simp] theorem setS_cores (s : State) (gid r : Nat) (x : Reg) : (s.setS gid r x).cores = s.cores := rfl
@[simp] theorem setS_qtlb (s : State) (gid r : Nat) (x : Reg) : (s.setS gid r x).qtlb = s.qtlb := rfl
@[simp] theorem setS_walkCache (s : State) (gid r : Nat) (x : Reg) : (s.setS gid r x).walkCache = s.walkCache := rfl
@[simp] theorem setS_qmask (s : State) (gid r : Nat) (x : Reg) : (s.setS gid r x).qmask = s.qmask := rfl
@[simp] theorem setS_spares (s : State) (gid r : Nat) (x : Reg) : (s.setS gid r x).spares = s.spares := rfl
@[simp] theorem setS_spareIds (s : State) (gid r : Nat) (x : Reg) : (s.setS gid r x).spareIds = s.spareIds := rfl
@[simp] theorem setS_tally (s : State) (gid r : Nat) (x : Reg) : (s.setS gid r x).tally = s.tally := rfl
@[simp] theorem setS_selfFail (s : State) (gid r : Nat) (x : Reg) : (s.setS gid r x).selfFail = s.selfFail := rfl
@[simp] theorem setS_rowsUsed (s : State) (gid r : Nat) (x : Reg) : (s.setS gid r x).rowsUsed = s.rowsUsed := rfl
@[simp] theorem setS_sliceDet (s : State) (gid r : Nat) (x : Reg) : (s.setS gid r x).sliceDet = s.sliceDet := rfl
@[simp] theorem setS_regions (s : State) (gid r : Nat) (x : Reg) : (s.setS gid r x).regions = s.regions := rfl
@[simp] theorem setS_held (s : State) (gid r : Nat) (x : Reg) : (s.setS gid r x).held = s.held := rfl
@[simp] theorem setS_markers (s : State) (gid r : Nat) (x : Reg) : (s.setS gid r x).markers = s.markers := rfl
@[simp] theorem setS_domains (s : State) (gid r : Nat) (x : Reg) : (s.setS gid r x).domains = s.domains := rfl
@[simp] theorem setS_ranges (s : State) (gid r : Nat) (x : Reg) : (s.setS gid r x).ranges = s.ranges := rfl
@[simp] theorem setS_pages (s : State) (gid r : Nat) (x : Reg) : (s.setS gid r x).pages = s.pages := rfl
@[simp] theorem setS_thawed (s : State) (gid r : Nat) (x : Reg) : (s.setS gid r x).thawed = s.thawed := rfl
@[simp] theorem setS_copyIn (s : State) (gid r : Nat) (x : Reg) : (s.setS gid r x).copyIn = s.copyIn := rfl
@[simp] theorem setS_creditsIn (s : State) (gid r : Nat) (x : Reg) : (s.setS gid r x).creditsIn = s.creditsIn := rfl
@[simp] theorem setS_retires (s : State) (gid r : Nat) (x : Reg) : (s.setS gid r x).retires = s.retires := rfl
@[simp] theorem setS_migs (s : State) (gid r : Nat) (x : Reg) : (s.setS gid r x).migs = s.migs := rfl
@[simp] theorem setS_stubs (s : State) (gid r : Nat) (x : Reg) : (s.setS gid r x).stubs = s.stubs := rfl
@[simp] theorem setS_owners (s : State) (gid r : Nat) (x : Reg) : (s.setS gid r x).owners = s.owners := rfl
@[simp] theorem setS_replicas (s : State) (gid r : Nat) (x : Reg) : (s.setS gid r x).replicas = s.replicas := rfl
@[simp] theorem setS_repsets (s : State) (gid r : Nat) (x : Reg) : (s.setS gid r x).repsets = s.repsets := rfl
@[simp] theorem setS_populated (s : State) (gid r : Nat) (x : Reg) : (s.setS gid r x).populated = s.populated := rfl
@[simp] theorem setS_enabled (s : State) (gid r : Nat) (x : Reg) : (s.setS gid r x).enabled = s.enabled := rfl
@[simp] theorem setS_links (s : State) (gid r : Nat) (x : Reg) : (s.setS gid r x).links = s.links := rfl
@[simp] theorem setS_outSeq (s : State) (gid r : Nat) (x : Reg) : (s.setS gid r x).outSeq = s.outSeq := rfl
@[simp] theorem setS_inSeq (s : State) (gid r : Nat) (x : Reg) : (s.setS gid r x).inSeq = s.inSeq := rfl
@[simp] theorem setS_reorder (s : State) (gid r : Nat) (x : Reg) : (s.setS gid r x).reorder = s.reorder := rfl
@[simp] theorem setS_sent (s : State) (gid r : Nat) (x : Reg) : (s.setS gid r x).sent = s.sent := rfl
@[simp] theorem setS_waiting (s : State) (gid r : Nat) (x : Reg) : (s.setS gid r x).waiting = s.waiting := rfl
@[simp] theorem setS_relays (s : State) (gid r : Nat) (x : Reg) : (s.setS gid r x).relays = s.relays := rfl
@[simp] theorem setS_discards (s : State) (gid r : Nat) (x : Reg) : (s.setS gid r x).discards = s.discards := rfl
@[simp] theorem setS_dieTags (s : State) (gid r : Nat) (x : Reg) : (s.setS gid r x).dieTags = s.dieTags := rfl
@[simp] theorem setS_ftoexp (s : State) (gid r : Nat) (x : Reg) : (s.setS gid r x).ftoexp = s.ftoexp := rfl
@[simp] theorem setS_hostUp0 (s : State) (gid r : Nat) (x : Reg) : (s.setS gid r x).hostUp0 = s.hostUp0 := rfl
@[simp] theorem setS_hostUp1 (s : State) (gid r : Nat) (x : Reg) : (s.setS gid r x).hostUp1 = s.hostUp1 := rfl
@[simp] theorem setS_posted (s : State) (gid r : Nat) (x : Reg) : (s.setS gid r x).posted = s.posted := rfl
@[simp] theorem setS_postedQ (s : State) (gid r : Nat) (x : Reg) : (s.setS gid r x).postedQ = s.postedQ := rfl
@[simp] theorem setS_health (s : State) (gid r : Nat) (x : Reg) : (s.setS gid r x).health = s.health := rfl
@[simp] theorem setS_hqovf (s : State) (gid r : Nat) (x : Reg) : (s.setS gid r x).hqovf = s.hqovf := rfl
@[simp] theorem setS_cntReg (s : State) (gid r : Nat) (x : Reg) : (s.setS gid r x).cntReg = s.cntReg := rfl
@[simp] theorem setS_cntMem (s : State) (gid r : Nat) (x : Reg) : (s.setS gid r x).cntMem = s.cntMem := rfl
@[simp] theorem setS_cntUnc (s : State) (gid r : Nat) (x : Reg) : (s.setS gid r x).cntUnc = s.cntUnc := rfl
@[simp] theorem setS_cycle (s : State) (gid r : Nat) (x : Reg) : (s.setS gid r x).cycle = s.cycle := rfl
@[simp] theorem setS_quantum (s : State) (gid r : Nat) (x : Reg) : (s.setS gid r x).quantum = s.quantum := rfl
@[simp] theorem setS_pwrst (s : State) (gid r : Nat) (x : Reg) : (s.setS gid r x).pwrst = s.pwrst := rfl
@[simp] theorem setS_powerCap (s : State) (gid r : Nat) (x : Reg) : (s.setS gid r x).powerCap = s.powerCap := rfl
@[simp] theorem setS_secureRegions (s : State) (gid r : Nat) (x : Reg) : (s.setS gid r x).secureRegions = s.secureRegions := rfl
@[simp] theorem setS_secureCores (s : State) (gid r : Nat) (x : Reg) : (s.setS gid r x).secureCores = s.secureCores := rfl
@[simp] theorem setS_secureQuartets (s : State) (gid r : Nat) (x : Reg) : (s.setS gid r x).secureQuartets = s.secureQuartets := rfl
@[simp] theorem setS_secureSlices (s : State) (gid r : Nat) (x : Reg) : (s.setS gid r x).secureSlices = s.secureSlices := rfl
@[simp] theorem setS_secureChannels (s : State) (gid r : Nat) (x : Reg) : (s.setS gid r x).secureChannels = s.secureChannels := rfl
@[simp] theorem setS_secureLinks (s : State) (gid r : Nat) (x : Reg) : (s.setS gid r x).secureLinks = s.secureLinks := rfl
@[simp] theorem setS_secureFunctions (s : State) (gid r : Nat) (x : Reg) : (s.setS gid r x).secureFunctions = s.secureFunctions := rfl
@[simp] theorem setS_policy (s : State) (gid r : Nat) (x : Reg) : (s.setS gid r x).policy = s.policy := rfl
@[simp] theorem setS_alarms (s : State) (gid r : Nat) (x : Reg) : (s.setS gid r x).alarms = s.alarms := rfl
@[simp] theorem setS_violations (s : State) (gid r : Nat) (x : Reg) : (s.setS gid r x).violations = s.violations := rfl
@[simp] theorem setS_keys (s : State) (gid r : Nat) (x : Reg) : (s.setS gid r x).keys = s.keys := rfl
@[simp] theorem setS_insecure (s : State) (gid r : Nat) (x : Reg) : (s.setS gid r x).insecure = s.insecure := rfl
@[simp] theorem setS_keyed (s : State) (gid r : Nat) (x : Reg) : (s.setS gid r x).keyed = s.keyed := rfl
@[simp] theorem setS_dualHost (s : State) (gid r : Nat) (x : Reg) : (s.setS gid r x).dualHost = s.dualHost := rfl
@[simp] theorem setS_endpoints (s : State) (gid r : Nat) (x : Reg) : (s.setS gid r x).endpoints = s.endpoints := rfl
@[simp] theorem setS_fuses (s : State) (gid r : Nat) (x : Reg) : (s.setS gid r x).fuses = s.fuses := rfl
@[simp] theorem setS_fwVersions (s : State) (gid r : Nat) (x : Reg) : (s.setS gid r x).fwVersions = s.fwVersions := rfl
@[simp] theorem setS_fwPending (s : State) (gid r : Nat) (x : Reg) : (s.setS gid r x).fwPending = s.fwPending := rfl
@[simp] theorem setS_measured (s : State) (gid r : Nat) (x : Reg) : (s.setS gid r x).measured = s.measured := rfl
@[simp] theorem setS_stopped (s : State) (gid r : Nat) (x : Reg) : (s.setS gid r x).stopped = s.stopped := rfl
@[simp] theorem setS_recovery (s : State) (gid r : Nat) (x : Reg) : (s.setS gid r x).recovery = s.recovery := rfl
@[simp] theorem setS_booted (s : State) (gid r : Nat) (x : Reg) : (s.setS gid r x).booted = s.booted := rfl
@[simp] theorem modWg_agenda (s : State) (id : Nat) (f : Wg → Wg) : (s.modWg id f).agenda = s.agenda := rfl
@[simp] theorem modWg_issues (s : State) (id : Nat) (f : Wg → Wg) : (s.modWg id f).issues = s.issues := rfl
@[simp] theorem modWg_cur (s : State) (id : Nat) (f : Wg → Wg) : (s.modWg id f).cur = s.cur := rfl
@[simp] theorem modWg_samples (s : State) (id : Nat) (f : Wg → Wg) : (s.modWg id f).samples = s.samples := rfl
@[simp] theorem modWg_freeCount (s : State) (id : Nat) (f : Wg → Wg) : (s.modWg id f).freeCount = s.freeCount := rfl
@[simp] theorem modWg_nextId (s : State) (id : Nat) (f : Wg → Wg) : (s.modWg id f).nextId = s.nextId := rfl
@[simp] theorem modWg_time (s : State) (id : Nat) (f : Wg → Wg) : (s.modWg id f).time = s.time := rfl
@[simp] theorem modWg_codes (s : State) (id : Nat) (f : Wg → Wg) : (s.modWg id f).codes = s.codes := rfl
@[simp] theorem modWg_dev (s : State) (id : Nat) (f : Wg → Wg) : (s.modWg id f).dev = s.dev := rfl
@[simp] theorem modWg_scratch (s : State) (id : Nat) (f : Wg → Wg) : (s.modWg id f).scratch = s.scratch := rfl
@[simp] theorem modWg_weight (s : State) (id : Nat) (f : Wg → Wg) : (s.modWg id f).weight = s.weight := rfl
@[simp] theorem modWg_host (s : State) (id : Nat) (f : Wg → Wg) : (s.modWg id f).host = s.host := rfl
@[simp] theorem modWg_marks (s : State) (id : Nat) (f : Wg → Wg) : (s.modWg id f).marks = s.marks := rfl
@[simp] theorem modWg_softErrs (s : State) (id : Nat) (f : Wg → Wg) : (s.modWg id f).softErrs = s.softErrs := rfl
@[simp] theorem modWg_corrected (s : State) (id : Nat) (f : Wg → Wg) : (s.modWg id f).corrected = s.corrected := rfl
@[simp] theorem modWg_accs (s : State) (id : Nat) (f : Wg → Wg) : (s.modWg id f).accs = s.accs := rfl
@[simp] theorem modWg_fetched (s : State) (id : Nat) (f : Wg → Wg) : (s.modWg id f).fetched = s.fetched := rfl
@[simp] theorem modWg_cmds (s : State) (id : Nat) (f : Wg → Wg) : (s.modWg id f).cmds = s.cmds := rfl
@[simp] theorem modWg_xfers (s : State) (id : Nat) (f : Wg → Wg) : (s.modWg id f).xfers = s.xfers := rfl
@[simp] theorem modWg_travel (s : State) (id : Nat) (f : Wg → Wg) : (s.modWg id f).travel = s.travel := rfl
@[simp] theorem modWg_groups (s : State) (id : Nat) (f : Wg → Wg) : (s.modWg id f).groups = s.groups := rfl
@[simp] theorem modWg_gangs (s : State) (id : Nat) (f : Wg → Wg) : (s.modWg id f).gangs = s.gangs := rfl
@[simp] theorem modWg_sweeps (s : State) (id : Nat) (f : Wg → Wg) : (s.modWg id f).sweeps = s.sweeps := rfl
@[simp] theorem modWg_launches (s : State) (id : Nat) (f : Wg → Wg) : (s.modWg id f).launches = s.launches := rfl
@[simp] theorem modWg_queues (s : State) (id : Nat) (f : Wg → Wg) : (s.modWg id f).queues = s.queues := rfl
@[simp] theorem modWg_ctxs (s : State) (id : Nat) (f : Wg → Wg) : (s.modWg id f).ctxs = s.ctxs := rfl
@[simp] theorem modWg_cores (s : State) (id : Nat) (f : Wg → Wg) : (s.modWg id f).cores = s.cores := rfl
@[simp] theorem modWg_qtlb (s : State) (id : Nat) (f : Wg → Wg) : (s.modWg id f).qtlb = s.qtlb := rfl
@[simp] theorem modWg_walkCache (s : State) (id : Nat) (f : Wg → Wg) : (s.modWg id f).walkCache = s.walkCache := rfl
@[simp] theorem modWg_qmask (s : State) (id : Nat) (f : Wg → Wg) : (s.modWg id f).qmask = s.qmask := rfl
@[simp] theorem modWg_spares (s : State) (id : Nat) (f : Wg → Wg) : (s.modWg id f).spares = s.spares := rfl
@[simp] theorem modWg_spareIds (s : State) (id : Nat) (f : Wg → Wg) : (s.modWg id f).spareIds = s.spareIds := rfl
@[simp] theorem modWg_tally (s : State) (id : Nat) (f : Wg → Wg) : (s.modWg id f).tally = s.tally := rfl
@[simp] theorem modWg_selfFail (s : State) (id : Nat) (f : Wg → Wg) : (s.modWg id f).selfFail = s.selfFail := rfl
@[simp] theorem modWg_rowsUsed (s : State) (id : Nat) (f : Wg → Wg) : (s.modWg id f).rowsUsed = s.rowsUsed := rfl
@[simp] theorem modWg_sliceDet (s : State) (id : Nat) (f : Wg → Wg) : (s.modWg id f).sliceDet = s.sliceDet := rfl
@[simp] theorem modWg_regions (s : State) (id : Nat) (f : Wg → Wg) : (s.modWg id f).regions = s.regions := rfl
@[simp] theorem modWg_held (s : State) (id : Nat) (f : Wg → Wg) : (s.modWg id f).held = s.held := rfl
@[simp] theorem modWg_markers (s : State) (id : Nat) (f : Wg → Wg) : (s.modWg id f).markers = s.markers := rfl
@[simp] theorem modWg_domains (s : State) (id : Nat) (f : Wg → Wg) : (s.modWg id f).domains = s.domains := rfl
@[simp] theorem modWg_ranges (s : State) (id : Nat) (f : Wg → Wg) : (s.modWg id f).ranges = s.ranges := rfl
@[simp] theorem modWg_pages (s : State) (id : Nat) (f : Wg → Wg) : (s.modWg id f).pages = s.pages := rfl
@[simp] theorem modWg_thawed (s : State) (id : Nat) (f : Wg → Wg) : (s.modWg id f).thawed = s.thawed := rfl
@[simp] theorem modWg_copyIn (s : State) (id : Nat) (f : Wg → Wg) : (s.modWg id f).copyIn = s.copyIn := rfl
@[simp] theorem modWg_creditsIn (s : State) (id : Nat) (f : Wg → Wg) : (s.modWg id f).creditsIn = s.creditsIn := rfl
@[simp] theorem modWg_retires (s : State) (id : Nat) (f : Wg → Wg) : (s.modWg id f).retires = s.retires := rfl
@[simp] theorem modWg_migs (s : State) (id : Nat) (f : Wg → Wg) : (s.modWg id f).migs = s.migs := rfl
@[simp] theorem modWg_stubs (s : State) (id : Nat) (f : Wg → Wg) : (s.modWg id f).stubs = s.stubs := rfl
@[simp] theorem modWg_owners (s : State) (id : Nat) (f : Wg → Wg) : (s.modWg id f).owners = s.owners := rfl
@[simp] theorem modWg_replicas (s : State) (id : Nat) (f : Wg → Wg) : (s.modWg id f).replicas = s.replicas := rfl
@[simp] theorem modWg_repsets (s : State) (id : Nat) (f : Wg → Wg) : (s.modWg id f).repsets = s.repsets := rfl
@[simp] theorem modWg_populated (s : State) (id : Nat) (f : Wg → Wg) : (s.modWg id f).populated = s.populated := rfl
@[simp] theorem modWg_enabled (s : State) (id : Nat) (f : Wg → Wg) : (s.modWg id f).enabled = s.enabled := rfl
@[simp] theorem modWg_links (s : State) (id : Nat) (f : Wg → Wg) : (s.modWg id f).links = s.links := rfl
@[simp] theorem modWg_outSeq (s : State) (id : Nat) (f : Wg → Wg) : (s.modWg id f).outSeq = s.outSeq := rfl
@[simp] theorem modWg_inSeq (s : State) (id : Nat) (f : Wg → Wg) : (s.modWg id f).inSeq = s.inSeq := rfl
@[simp] theorem modWg_reorder (s : State) (id : Nat) (f : Wg → Wg) : (s.modWg id f).reorder = s.reorder := rfl
@[simp] theorem modWg_sent (s : State) (id : Nat) (f : Wg → Wg) : (s.modWg id f).sent = s.sent := rfl
@[simp] theorem modWg_waiting (s : State) (id : Nat) (f : Wg → Wg) : (s.modWg id f).waiting = s.waiting := rfl
@[simp] theorem modWg_relays (s : State) (id : Nat) (f : Wg → Wg) : (s.modWg id f).relays = s.relays := rfl
@[simp] theorem modWg_discards (s : State) (id : Nat) (f : Wg → Wg) : (s.modWg id f).discards = s.discards := rfl
@[simp] theorem modWg_dieTags (s : State) (id : Nat) (f : Wg → Wg) : (s.modWg id f).dieTags = s.dieTags := rfl
@[simp] theorem modWg_ftoexp (s : State) (id : Nat) (f : Wg → Wg) : (s.modWg id f).ftoexp = s.ftoexp := rfl
@[simp] theorem modWg_hostUp0 (s : State) (id : Nat) (f : Wg → Wg) : (s.modWg id f).hostUp0 = s.hostUp0 := rfl
@[simp] theorem modWg_hostUp1 (s : State) (id : Nat) (f : Wg → Wg) : (s.modWg id f).hostUp1 = s.hostUp1 := rfl
@[simp] theorem modWg_posted (s : State) (id : Nat) (f : Wg → Wg) : (s.modWg id f).posted = s.posted := rfl
@[simp] theorem modWg_postedQ (s : State) (id : Nat) (f : Wg → Wg) : (s.modWg id f).postedQ = s.postedQ := rfl
@[simp] theorem modWg_health (s : State) (id : Nat) (f : Wg → Wg) : (s.modWg id f).health = s.health := rfl
@[simp] theorem modWg_hqovf (s : State) (id : Nat) (f : Wg → Wg) : (s.modWg id f).hqovf = s.hqovf := rfl
@[simp] theorem modWg_cntReg (s : State) (id : Nat) (f : Wg → Wg) : (s.modWg id f).cntReg = s.cntReg := rfl
@[simp] theorem modWg_cntMem (s : State) (id : Nat) (f : Wg → Wg) : (s.modWg id f).cntMem = s.cntMem := rfl
@[simp] theorem modWg_cntUnc (s : State) (id : Nat) (f : Wg → Wg) : (s.modWg id f).cntUnc = s.cntUnc := rfl
@[simp] theorem modWg_cycle (s : State) (id : Nat) (f : Wg → Wg) : (s.modWg id f).cycle = s.cycle := rfl
@[simp] theorem modWg_quantum (s : State) (id : Nat) (f : Wg → Wg) : (s.modWg id f).quantum = s.quantum := rfl
@[simp] theorem modWg_pwrst (s : State) (id : Nat) (f : Wg → Wg) : (s.modWg id f).pwrst = s.pwrst := rfl
@[simp] theorem modWg_powerCap (s : State) (id : Nat) (f : Wg → Wg) : (s.modWg id f).powerCap = s.powerCap := rfl
@[simp] theorem modWg_secureRegions (s : State) (id : Nat) (f : Wg → Wg) : (s.modWg id f).secureRegions = s.secureRegions := rfl
@[simp] theorem modWg_secureCores (s : State) (id : Nat) (f : Wg → Wg) : (s.modWg id f).secureCores = s.secureCores := rfl
@[simp] theorem modWg_secureQuartets (s : State) (id : Nat) (f : Wg → Wg) : (s.modWg id f).secureQuartets = s.secureQuartets := rfl
@[simp] theorem modWg_secureSlices (s : State) (id : Nat) (f : Wg → Wg) : (s.modWg id f).secureSlices = s.secureSlices := rfl
@[simp] theorem modWg_secureChannels (s : State) (id : Nat) (f : Wg → Wg) : (s.modWg id f).secureChannels = s.secureChannels := rfl
@[simp] theorem modWg_secureLinks (s : State) (id : Nat) (f : Wg → Wg) : (s.modWg id f).secureLinks = s.secureLinks := rfl
@[simp] theorem modWg_secureFunctions (s : State) (id : Nat) (f : Wg → Wg) : (s.modWg id f).secureFunctions = s.secureFunctions := rfl
@[simp] theorem modWg_policy (s : State) (id : Nat) (f : Wg → Wg) : (s.modWg id f).policy = s.policy := rfl
@[simp] theorem modWg_alarms (s : State) (id : Nat) (f : Wg → Wg) : (s.modWg id f).alarms = s.alarms := rfl
@[simp] theorem modWg_violations (s : State) (id : Nat) (f : Wg → Wg) : (s.modWg id f).violations = s.violations := rfl
@[simp] theorem modWg_keys (s : State) (id : Nat) (f : Wg → Wg) : (s.modWg id f).keys = s.keys := rfl
@[simp] theorem modWg_insecure (s : State) (id : Nat) (f : Wg → Wg) : (s.modWg id f).insecure = s.insecure := rfl
@[simp] theorem modWg_keyed (s : State) (id : Nat) (f : Wg → Wg) : (s.modWg id f).keyed = s.keyed := rfl
@[simp] theorem modWg_dualHost (s : State) (id : Nat) (f : Wg → Wg) : (s.modWg id f).dualHost = s.dualHost := rfl
@[simp] theorem modWg_endpoints (s : State) (id : Nat) (f : Wg → Wg) : (s.modWg id f).endpoints = s.endpoints := rfl
@[simp] theorem modWg_fuses (s : State) (id : Nat) (f : Wg → Wg) : (s.modWg id f).fuses = s.fuses := rfl
@[simp] theorem modWg_fwVersions (s : State) (id : Nat) (f : Wg → Wg) : (s.modWg id f).fwVersions = s.fwVersions := rfl
@[simp] theorem modWg_fwPending (s : State) (id : Nat) (f : Wg → Wg) : (s.modWg id f).fwPending = s.fwPending := rfl
@[simp] theorem modWg_measured (s : State) (id : Nat) (f : Wg → Wg) : (s.modWg id f).measured = s.measured := rfl
@[simp] theorem modWg_stopped (s : State) (id : Nat) (f : Wg → Wg) : (s.modWg id f).stopped = s.stopped := rfl
@[simp] theorem modWg_recovery (s : State) (id : Nat) (f : Wg → Wg) : (s.modWg id f).recovery = s.recovery := rfl
@[simp] theorem modWg_booted (s : State) (id : Nat) (f : Wg → Wg) : (s.modWg id f).booted = s.booted := rfl
@[simp] theorem modGang_agenda (s : State) (id : Nat) (f : Gang → Gang) : (s.modGang id f).agenda = s.agenda := rfl
@[simp] theorem modGang_issues (s : State) (id : Nat) (f : Gang → Gang) : (s.modGang id f).issues = s.issues := rfl
@[simp] theorem modGang_cur (s : State) (id : Nat) (f : Gang → Gang) : (s.modGang id f).cur = s.cur := rfl
@[simp] theorem modGang_samples (s : State) (id : Nat) (f : Gang → Gang) : (s.modGang id f).samples = s.samples := rfl
@[simp] theorem modGang_freeCount (s : State) (id : Nat) (f : Gang → Gang) : (s.modGang id f).freeCount = s.freeCount := rfl
@[simp] theorem modGang_nextId (s : State) (id : Nat) (f : Gang → Gang) : (s.modGang id f).nextId = s.nextId := rfl
@[simp] theorem modGang_time (s : State) (id : Nat) (f : Gang → Gang) : (s.modGang id f).time = s.time := rfl
@[simp] theorem modGang_codes (s : State) (id : Nat) (f : Gang → Gang) : (s.modGang id f).codes = s.codes := rfl
@[simp] theorem modGang_dev (s : State) (id : Nat) (f : Gang → Gang) : (s.modGang id f).dev = s.dev := rfl
@[simp] theorem modGang_scratch (s : State) (id : Nat) (f : Gang → Gang) : (s.modGang id f).scratch = s.scratch := rfl
@[simp] theorem modGang_weight (s : State) (id : Nat) (f : Gang → Gang) : (s.modGang id f).weight = s.weight := rfl
@[simp] theorem modGang_host (s : State) (id : Nat) (f : Gang → Gang) : (s.modGang id f).host = s.host := rfl
@[simp] theorem modGang_marks (s : State) (id : Nat) (f : Gang → Gang) : (s.modGang id f).marks = s.marks := rfl
@[simp] theorem modGang_softErrs (s : State) (id : Nat) (f : Gang → Gang) : (s.modGang id f).softErrs = s.softErrs := rfl
@[simp] theorem modGang_corrected (s : State) (id : Nat) (f : Gang → Gang) : (s.modGang id f).corrected = s.corrected := rfl
@[simp] theorem modGang_accs (s : State) (id : Nat) (f : Gang → Gang) : (s.modGang id f).accs = s.accs := rfl
@[simp] theorem modGang_fetched (s : State) (id : Nat) (f : Gang → Gang) : (s.modGang id f).fetched = s.fetched := rfl
@[simp] theorem modGang_cmds (s : State) (id : Nat) (f : Gang → Gang) : (s.modGang id f).cmds = s.cmds := rfl
@[simp] theorem modGang_xfers (s : State) (id : Nat) (f : Gang → Gang) : (s.modGang id f).xfers = s.xfers := rfl
@[simp] theorem modGang_travel (s : State) (id : Nat) (f : Gang → Gang) : (s.modGang id f).travel = s.travel := rfl
@[simp] theorem modGang_groups (s : State) (id : Nat) (f : Gang → Gang) : (s.modGang id f).groups = s.groups := rfl
@[simp] theorem modGang_wgs (s : State) (id : Nat) (f : Gang → Gang) : (s.modGang id f).wgs = s.wgs := rfl
@[simp] theorem modGang_sweeps (s : State) (id : Nat) (f : Gang → Gang) : (s.modGang id f).sweeps = s.sweeps := rfl
@[simp] theorem modGang_launches (s : State) (id : Nat) (f : Gang → Gang) : (s.modGang id f).launches = s.launches := rfl
@[simp] theorem modGang_queues (s : State) (id : Nat) (f : Gang → Gang) : (s.modGang id f).queues = s.queues := rfl
@[simp] theorem modGang_ctxs (s : State) (id : Nat) (f : Gang → Gang) : (s.modGang id f).ctxs = s.ctxs := rfl
@[simp] theorem modGang_cores (s : State) (id : Nat) (f : Gang → Gang) : (s.modGang id f).cores = s.cores := rfl
@[simp] theorem modGang_qtlb (s : State) (id : Nat) (f : Gang → Gang) : (s.modGang id f).qtlb = s.qtlb := rfl
@[simp] theorem modGang_walkCache (s : State) (id : Nat) (f : Gang → Gang) : (s.modGang id f).walkCache = s.walkCache := rfl
@[simp] theorem modGang_qmask (s : State) (id : Nat) (f : Gang → Gang) : (s.modGang id f).qmask = s.qmask := rfl
@[simp] theorem modGang_spares (s : State) (id : Nat) (f : Gang → Gang) : (s.modGang id f).spares = s.spares := rfl
@[simp] theorem modGang_spareIds (s : State) (id : Nat) (f : Gang → Gang) : (s.modGang id f).spareIds = s.spareIds := rfl
@[simp] theorem modGang_tally (s : State) (id : Nat) (f : Gang → Gang) : (s.modGang id f).tally = s.tally := rfl
@[simp] theorem modGang_selfFail (s : State) (id : Nat) (f : Gang → Gang) : (s.modGang id f).selfFail = s.selfFail := rfl
@[simp] theorem modGang_rowsUsed (s : State) (id : Nat) (f : Gang → Gang) : (s.modGang id f).rowsUsed = s.rowsUsed := rfl
@[simp] theorem modGang_sliceDet (s : State) (id : Nat) (f : Gang → Gang) : (s.modGang id f).sliceDet = s.sliceDet := rfl
@[simp] theorem modGang_regions (s : State) (id : Nat) (f : Gang → Gang) : (s.modGang id f).regions = s.regions := rfl
@[simp] theorem modGang_held (s : State) (id : Nat) (f : Gang → Gang) : (s.modGang id f).held = s.held := rfl
@[simp] theorem modGang_markers (s : State) (id : Nat) (f : Gang → Gang) : (s.modGang id f).markers = s.markers := rfl
@[simp] theorem modGang_domains (s : State) (id : Nat) (f : Gang → Gang) : (s.modGang id f).domains = s.domains := rfl
@[simp] theorem modGang_ranges (s : State) (id : Nat) (f : Gang → Gang) : (s.modGang id f).ranges = s.ranges := rfl
@[simp] theorem modGang_pages (s : State) (id : Nat) (f : Gang → Gang) : (s.modGang id f).pages = s.pages := rfl
@[simp] theorem modGang_thawed (s : State) (id : Nat) (f : Gang → Gang) : (s.modGang id f).thawed = s.thawed := rfl
@[simp] theorem modGang_copyIn (s : State) (id : Nat) (f : Gang → Gang) : (s.modGang id f).copyIn = s.copyIn := rfl
@[simp] theorem modGang_creditsIn (s : State) (id : Nat) (f : Gang → Gang) : (s.modGang id f).creditsIn = s.creditsIn := rfl
@[simp] theorem modGang_retires (s : State) (id : Nat) (f : Gang → Gang) : (s.modGang id f).retires = s.retires := rfl
@[simp] theorem modGang_migs (s : State) (id : Nat) (f : Gang → Gang) : (s.modGang id f).migs = s.migs := rfl
@[simp] theorem modGang_stubs (s : State) (id : Nat) (f : Gang → Gang) : (s.modGang id f).stubs = s.stubs := rfl
@[simp] theorem modGang_owners (s : State) (id : Nat) (f : Gang → Gang) : (s.modGang id f).owners = s.owners := rfl
@[simp] theorem modGang_replicas (s : State) (id : Nat) (f : Gang → Gang) : (s.modGang id f).replicas = s.replicas := rfl
@[simp] theorem modGang_repsets (s : State) (id : Nat) (f : Gang → Gang) : (s.modGang id f).repsets = s.repsets := rfl
@[simp] theorem modGang_populated (s : State) (id : Nat) (f : Gang → Gang) : (s.modGang id f).populated = s.populated := rfl
@[simp] theorem modGang_enabled (s : State) (id : Nat) (f : Gang → Gang) : (s.modGang id f).enabled = s.enabled := rfl
@[simp] theorem modGang_links (s : State) (id : Nat) (f : Gang → Gang) : (s.modGang id f).links = s.links := rfl
@[simp] theorem modGang_outSeq (s : State) (id : Nat) (f : Gang → Gang) : (s.modGang id f).outSeq = s.outSeq := rfl
@[simp] theorem modGang_inSeq (s : State) (id : Nat) (f : Gang → Gang) : (s.modGang id f).inSeq = s.inSeq := rfl
@[simp] theorem modGang_reorder (s : State) (id : Nat) (f : Gang → Gang) : (s.modGang id f).reorder = s.reorder := rfl
@[simp] theorem modGang_sent (s : State) (id : Nat) (f : Gang → Gang) : (s.modGang id f).sent = s.sent := rfl
@[simp] theorem modGang_waiting (s : State) (id : Nat) (f : Gang → Gang) : (s.modGang id f).waiting = s.waiting := rfl
@[simp] theorem modGang_relays (s : State) (id : Nat) (f : Gang → Gang) : (s.modGang id f).relays = s.relays := rfl
@[simp] theorem modGang_discards (s : State) (id : Nat) (f : Gang → Gang) : (s.modGang id f).discards = s.discards := rfl
@[simp] theorem modGang_dieTags (s : State) (id : Nat) (f : Gang → Gang) : (s.modGang id f).dieTags = s.dieTags := rfl
@[simp] theorem modGang_ftoexp (s : State) (id : Nat) (f : Gang → Gang) : (s.modGang id f).ftoexp = s.ftoexp := rfl
@[simp] theorem modGang_hostUp0 (s : State) (id : Nat) (f : Gang → Gang) : (s.modGang id f).hostUp0 = s.hostUp0 := rfl
@[simp] theorem modGang_hostUp1 (s : State) (id : Nat) (f : Gang → Gang) : (s.modGang id f).hostUp1 = s.hostUp1 := rfl
@[simp] theorem modGang_posted (s : State) (id : Nat) (f : Gang → Gang) : (s.modGang id f).posted = s.posted := rfl
@[simp] theorem modGang_postedQ (s : State) (id : Nat) (f : Gang → Gang) : (s.modGang id f).postedQ = s.postedQ := rfl
@[simp] theorem modGang_health (s : State) (id : Nat) (f : Gang → Gang) : (s.modGang id f).health = s.health := rfl
@[simp] theorem modGang_hqovf (s : State) (id : Nat) (f : Gang → Gang) : (s.modGang id f).hqovf = s.hqovf := rfl
@[simp] theorem modGang_cntReg (s : State) (id : Nat) (f : Gang → Gang) : (s.modGang id f).cntReg = s.cntReg := rfl
@[simp] theorem modGang_cntMem (s : State) (id : Nat) (f : Gang → Gang) : (s.modGang id f).cntMem = s.cntMem := rfl
@[simp] theorem modGang_cntUnc (s : State) (id : Nat) (f : Gang → Gang) : (s.modGang id f).cntUnc = s.cntUnc := rfl
@[simp] theorem modGang_cycle (s : State) (id : Nat) (f : Gang → Gang) : (s.modGang id f).cycle = s.cycle := rfl
@[simp] theorem modGang_quantum (s : State) (id : Nat) (f : Gang → Gang) : (s.modGang id f).quantum = s.quantum := rfl
@[simp] theorem modGang_pwrst (s : State) (id : Nat) (f : Gang → Gang) : (s.modGang id f).pwrst = s.pwrst := rfl
@[simp] theorem modGang_powerCap (s : State) (id : Nat) (f : Gang → Gang) : (s.modGang id f).powerCap = s.powerCap := rfl
@[simp] theorem modGang_secureRegions (s : State) (id : Nat) (f : Gang → Gang) : (s.modGang id f).secureRegions = s.secureRegions := rfl
@[simp] theorem modGang_secureCores (s : State) (id : Nat) (f : Gang → Gang) : (s.modGang id f).secureCores = s.secureCores := rfl
@[simp] theorem modGang_secureQuartets (s : State) (id : Nat) (f : Gang → Gang) : (s.modGang id f).secureQuartets = s.secureQuartets := rfl
@[simp] theorem modGang_secureSlices (s : State) (id : Nat) (f : Gang → Gang) : (s.modGang id f).secureSlices = s.secureSlices := rfl
@[simp] theorem modGang_secureChannels (s : State) (id : Nat) (f : Gang → Gang) : (s.modGang id f).secureChannels = s.secureChannels := rfl
@[simp] theorem modGang_secureLinks (s : State) (id : Nat) (f : Gang → Gang) : (s.modGang id f).secureLinks = s.secureLinks := rfl
@[simp] theorem modGang_secureFunctions (s : State) (id : Nat) (f : Gang → Gang) : (s.modGang id f).secureFunctions = s.secureFunctions := rfl
@[simp] theorem modGang_policy (s : State) (id : Nat) (f : Gang → Gang) : (s.modGang id f).policy = s.policy := rfl
@[simp] theorem modGang_alarms (s : State) (id : Nat) (f : Gang → Gang) : (s.modGang id f).alarms = s.alarms := rfl
@[simp] theorem modGang_violations (s : State) (id : Nat) (f : Gang → Gang) : (s.modGang id f).violations = s.violations := rfl
@[simp] theorem modGang_keys (s : State) (id : Nat) (f : Gang → Gang) : (s.modGang id f).keys = s.keys := rfl
@[simp] theorem modGang_insecure (s : State) (id : Nat) (f : Gang → Gang) : (s.modGang id f).insecure = s.insecure := rfl
@[simp] theorem modGang_keyed (s : State) (id : Nat) (f : Gang → Gang) : (s.modGang id f).keyed = s.keyed := rfl
@[simp] theorem modGang_dualHost (s : State) (id : Nat) (f : Gang → Gang) : (s.modGang id f).dualHost = s.dualHost := rfl
@[simp] theorem modGang_endpoints (s : State) (id : Nat) (f : Gang → Gang) : (s.modGang id f).endpoints = s.endpoints := rfl
@[simp] theorem modGang_fuses (s : State) (id : Nat) (f : Gang → Gang) : (s.modGang id f).fuses = s.fuses := rfl
@[simp] theorem modGang_fwVersions (s : State) (id : Nat) (f : Gang → Gang) : (s.modGang id f).fwVersions = s.fwVersions := rfl
@[simp] theorem modGang_fwPending (s : State) (id : Nat) (f : Gang → Gang) : (s.modGang id f).fwPending = s.fwPending := rfl
@[simp] theorem modGang_measured (s : State) (id : Nat) (f : Gang → Gang) : (s.modGang id f).measured = s.measured := rfl
@[simp] theorem modGang_stopped (s : State) (id : Nat) (f : Gang → Gang) : (s.modGang id f).stopped = s.stopped := rfl
@[simp] theorem modGang_recovery (s : State) (id : Nat) (f : Gang → Gang) : (s.modGang id f).recovery = s.recovery := rfl
@[simp] theorem modGang_booted (s : State) (id : Nat) (f : Gang → Gang) : (s.modGang id f).booted = s.booted := rfl
@[simp] theorem modSweep_agenda (s : State) (id : Nat) (f : Sweep → Sweep) : (s.modSweep id f).agenda = s.agenda := rfl
@[simp] theorem modSweep_issues (s : State) (id : Nat) (f : Sweep → Sweep) : (s.modSweep id f).issues = s.issues := rfl
@[simp] theorem modSweep_cur (s : State) (id : Nat) (f : Sweep → Sweep) : (s.modSweep id f).cur = s.cur := rfl
@[simp] theorem modSweep_samples (s : State) (id : Nat) (f : Sweep → Sweep) : (s.modSweep id f).samples = s.samples := rfl
@[simp] theorem modSweep_freeCount (s : State) (id : Nat) (f : Sweep → Sweep) : (s.modSweep id f).freeCount = s.freeCount := rfl
@[simp] theorem modSweep_nextId (s : State) (id : Nat) (f : Sweep → Sweep) : (s.modSweep id f).nextId = s.nextId := rfl
@[simp] theorem modSweep_time (s : State) (id : Nat) (f : Sweep → Sweep) : (s.modSweep id f).time = s.time := rfl
@[simp] theorem modSweep_codes (s : State) (id : Nat) (f : Sweep → Sweep) : (s.modSweep id f).codes = s.codes := rfl
@[simp] theorem modSweep_dev (s : State) (id : Nat) (f : Sweep → Sweep) : (s.modSweep id f).dev = s.dev := rfl
@[simp] theorem modSweep_scratch (s : State) (id : Nat) (f : Sweep → Sweep) : (s.modSweep id f).scratch = s.scratch := rfl
@[simp] theorem modSweep_weight (s : State) (id : Nat) (f : Sweep → Sweep) : (s.modSweep id f).weight = s.weight := rfl
@[simp] theorem modSweep_host (s : State) (id : Nat) (f : Sweep → Sweep) : (s.modSweep id f).host = s.host := rfl
@[simp] theorem modSweep_marks (s : State) (id : Nat) (f : Sweep → Sweep) : (s.modSweep id f).marks = s.marks := rfl
@[simp] theorem modSweep_softErrs (s : State) (id : Nat) (f : Sweep → Sweep) : (s.modSweep id f).softErrs = s.softErrs := rfl
@[simp] theorem modSweep_corrected (s : State) (id : Nat) (f : Sweep → Sweep) : (s.modSweep id f).corrected = s.corrected := rfl
@[simp] theorem modSweep_accs (s : State) (id : Nat) (f : Sweep → Sweep) : (s.modSweep id f).accs = s.accs := rfl
@[simp] theorem modSweep_fetched (s : State) (id : Nat) (f : Sweep → Sweep) : (s.modSweep id f).fetched = s.fetched := rfl
@[simp] theorem modSweep_cmds (s : State) (id : Nat) (f : Sweep → Sweep) : (s.modSweep id f).cmds = s.cmds := rfl
@[simp] theorem modSweep_xfers (s : State) (id : Nat) (f : Sweep → Sweep) : (s.modSweep id f).xfers = s.xfers := rfl
@[simp] theorem modSweep_travel (s : State) (id : Nat) (f : Sweep → Sweep) : (s.modSweep id f).travel = s.travel := rfl
@[simp] theorem modSweep_groups (s : State) (id : Nat) (f : Sweep → Sweep) : (s.modSweep id f).groups = s.groups := rfl
@[simp] theorem modSweep_wgs (s : State) (id : Nat) (f : Sweep → Sweep) : (s.modSweep id f).wgs = s.wgs := rfl
@[simp] theorem modSweep_gangs (s : State) (id : Nat) (f : Sweep → Sweep) : (s.modSweep id f).gangs = s.gangs := rfl
@[simp] theorem modSweep_launches (s : State) (id : Nat) (f : Sweep → Sweep) : (s.modSweep id f).launches = s.launches := rfl
@[simp] theorem modSweep_queues (s : State) (id : Nat) (f : Sweep → Sweep) : (s.modSweep id f).queues = s.queues := rfl
@[simp] theorem modSweep_ctxs (s : State) (id : Nat) (f : Sweep → Sweep) : (s.modSweep id f).ctxs = s.ctxs := rfl
@[simp] theorem modSweep_cores (s : State) (id : Nat) (f : Sweep → Sweep) : (s.modSweep id f).cores = s.cores := rfl
@[simp] theorem modSweep_qtlb (s : State) (id : Nat) (f : Sweep → Sweep) : (s.modSweep id f).qtlb = s.qtlb := rfl
@[simp] theorem modSweep_walkCache (s : State) (id : Nat) (f : Sweep → Sweep) : (s.modSweep id f).walkCache = s.walkCache := rfl
@[simp] theorem modSweep_qmask (s : State) (id : Nat) (f : Sweep → Sweep) : (s.modSweep id f).qmask = s.qmask := rfl
@[simp] theorem modSweep_spares (s : State) (id : Nat) (f : Sweep → Sweep) : (s.modSweep id f).spares = s.spares := rfl
@[simp] theorem modSweep_spareIds (s : State) (id : Nat) (f : Sweep → Sweep) : (s.modSweep id f).spareIds = s.spareIds := rfl
@[simp] theorem modSweep_tally (s : State) (id : Nat) (f : Sweep → Sweep) : (s.modSweep id f).tally = s.tally := rfl
@[simp] theorem modSweep_selfFail (s : State) (id : Nat) (f : Sweep → Sweep) : (s.modSweep id f).selfFail = s.selfFail := rfl
@[simp] theorem modSweep_rowsUsed (s : State) (id : Nat) (f : Sweep → Sweep) : (s.modSweep id f).rowsUsed = s.rowsUsed := rfl
@[simp] theorem modSweep_sliceDet (s : State) (id : Nat) (f : Sweep → Sweep) : (s.modSweep id f).sliceDet = s.sliceDet := rfl
@[simp] theorem modSweep_regions (s : State) (id : Nat) (f : Sweep → Sweep) : (s.modSweep id f).regions = s.regions := rfl
@[simp] theorem modSweep_held (s : State) (id : Nat) (f : Sweep → Sweep) : (s.modSweep id f).held = s.held := rfl
@[simp] theorem modSweep_markers (s : State) (id : Nat) (f : Sweep → Sweep) : (s.modSweep id f).markers = s.markers := rfl
@[simp] theorem modSweep_domains (s : State) (id : Nat) (f : Sweep → Sweep) : (s.modSweep id f).domains = s.domains := rfl
@[simp] theorem modSweep_ranges (s : State) (id : Nat) (f : Sweep → Sweep) : (s.modSweep id f).ranges = s.ranges := rfl
@[simp] theorem modSweep_pages (s : State) (id : Nat) (f : Sweep → Sweep) : (s.modSweep id f).pages = s.pages := rfl
@[simp] theorem modSweep_thawed (s : State) (id : Nat) (f : Sweep → Sweep) : (s.modSweep id f).thawed = s.thawed := rfl
@[simp] theorem modSweep_copyIn (s : State) (id : Nat) (f : Sweep → Sweep) : (s.modSweep id f).copyIn = s.copyIn := rfl
@[simp] theorem modSweep_creditsIn (s : State) (id : Nat) (f : Sweep → Sweep) : (s.modSweep id f).creditsIn = s.creditsIn := rfl
@[simp] theorem modSweep_retires (s : State) (id : Nat) (f : Sweep → Sweep) : (s.modSweep id f).retires = s.retires := rfl
@[simp] theorem modSweep_migs (s : State) (id : Nat) (f : Sweep → Sweep) : (s.modSweep id f).migs = s.migs := rfl
@[simp] theorem modSweep_stubs (s : State) (id : Nat) (f : Sweep → Sweep) : (s.modSweep id f).stubs = s.stubs := rfl
@[simp] theorem modSweep_owners (s : State) (id : Nat) (f : Sweep → Sweep) : (s.modSweep id f).owners = s.owners := rfl
@[simp] theorem modSweep_replicas (s : State) (id : Nat) (f : Sweep → Sweep) : (s.modSweep id f).replicas = s.replicas := rfl
@[simp] theorem modSweep_repsets (s : State) (id : Nat) (f : Sweep → Sweep) : (s.modSweep id f).repsets = s.repsets := rfl
@[simp] theorem modSweep_populated (s : State) (id : Nat) (f : Sweep → Sweep) : (s.modSweep id f).populated = s.populated := rfl
@[simp] theorem modSweep_enabled (s : State) (id : Nat) (f : Sweep → Sweep) : (s.modSweep id f).enabled = s.enabled := rfl
@[simp] theorem modSweep_links (s : State) (id : Nat) (f : Sweep → Sweep) : (s.modSweep id f).links = s.links := rfl
@[simp] theorem modSweep_outSeq (s : State) (id : Nat) (f : Sweep → Sweep) : (s.modSweep id f).outSeq = s.outSeq := rfl
@[simp] theorem modSweep_inSeq (s : State) (id : Nat) (f : Sweep → Sweep) : (s.modSweep id f).inSeq = s.inSeq := rfl
@[simp] theorem modSweep_reorder (s : State) (id : Nat) (f : Sweep → Sweep) : (s.modSweep id f).reorder = s.reorder := rfl
@[simp] theorem modSweep_sent (s : State) (id : Nat) (f : Sweep → Sweep) : (s.modSweep id f).sent = s.sent := rfl
@[simp] theorem modSweep_waiting (s : State) (id : Nat) (f : Sweep → Sweep) : (s.modSweep id f).waiting = s.waiting := rfl
@[simp] theorem modSweep_relays (s : State) (id : Nat) (f : Sweep → Sweep) : (s.modSweep id f).relays = s.relays := rfl
@[simp] theorem modSweep_discards (s : State) (id : Nat) (f : Sweep → Sweep) : (s.modSweep id f).discards = s.discards := rfl
@[simp] theorem modSweep_dieTags (s : State) (id : Nat) (f : Sweep → Sweep) : (s.modSweep id f).dieTags = s.dieTags := rfl
@[simp] theorem modSweep_ftoexp (s : State) (id : Nat) (f : Sweep → Sweep) : (s.modSweep id f).ftoexp = s.ftoexp := rfl
@[simp] theorem modSweep_hostUp0 (s : State) (id : Nat) (f : Sweep → Sweep) : (s.modSweep id f).hostUp0 = s.hostUp0 := rfl
@[simp] theorem modSweep_hostUp1 (s : State) (id : Nat) (f : Sweep → Sweep) : (s.modSweep id f).hostUp1 = s.hostUp1 := rfl
@[simp] theorem modSweep_posted (s : State) (id : Nat) (f : Sweep → Sweep) : (s.modSweep id f).posted = s.posted := rfl
@[simp] theorem modSweep_postedQ (s : State) (id : Nat) (f : Sweep → Sweep) : (s.modSweep id f).postedQ = s.postedQ := rfl
@[simp] theorem modSweep_health (s : State) (id : Nat) (f : Sweep → Sweep) : (s.modSweep id f).health = s.health := rfl
@[simp] theorem modSweep_hqovf (s : State) (id : Nat) (f : Sweep → Sweep) : (s.modSweep id f).hqovf = s.hqovf := rfl
@[simp] theorem modSweep_cntReg (s : State) (id : Nat) (f : Sweep → Sweep) : (s.modSweep id f).cntReg = s.cntReg := rfl
@[simp] theorem modSweep_cntMem (s : State) (id : Nat) (f : Sweep → Sweep) : (s.modSweep id f).cntMem = s.cntMem := rfl
@[simp] theorem modSweep_cntUnc (s : State) (id : Nat) (f : Sweep → Sweep) : (s.modSweep id f).cntUnc = s.cntUnc := rfl
@[simp] theorem modSweep_cycle (s : State) (id : Nat) (f : Sweep → Sweep) : (s.modSweep id f).cycle = s.cycle := rfl
@[simp] theorem modSweep_quantum (s : State) (id : Nat) (f : Sweep → Sweep) : (s.modSweep id f).quantum = s.quantum := rfl
@[simp] theorem modSweep_pwrst (s : State) (id : Nat) (f : Sweep → Sweep) : (s.modSweep id f).pwrst = s.pwrst := rfl
@[simp] theorem modSweep_powerCap (s : State) (id : Nat) (f : Sweep → Sweep) : (s.modSweep id f).powerCap = s.powerCap := rfl
@[simp] theorem modSweep_secureRegions (s : State) (id : Nat) (f : Sweep → Sweep) : (s.modSweep id f).secureRegions = s.secureRegions := rfl
@[simp] theorem modSweep_secureCores (s : State) (id : Nat) (f : Sweep → Sweep) : (s.modSweep id f).secureCores = s.secureCores := rfl
@[simp] theorem modSweep_secureQuartets (s : State) (id : Nat) (f : Sweep → Sweep) : (s.modSweep id f).secureQuartets = s.secureQuartets := rfl
@[simp] theorem modSweep_secureSlices (s : State) (id : Nat) (f : Sweep → Sweep) : (s.modSweep id f).secureSlices = s.secureSlices := rfl
@[simp] theorem modSweep_secureChannels (s : State) (id : Nat) (f : Sweep → Sweep) : (s.modSweep id f).secureChannels = s.secureChannels := rfl
@[simp] theorem modSweep_secureLinks (s : State) (id : Nat) (f : Sweep → Sweep) : (s.modSweep id f).secureLinks = s.secureLinks := rfl
@[simp] theorem modSweep_secureFunctions (s : State) (id : Nat) (f : Sweep → Sweep) : (s.modSweep id f).secureFunctions = s.secureFunctions := rfl
@[simp] theorem modSweep_policy (s : State) (id : Nat) (f : Sweep → Sweep) : (s.modSweep id f).policy = s.policy := rfl
@[simp] theorem modSweep_alarms (s : State) (id : Nat) (f : Sweep → Sweep) : (s.modSweep id f).alarms = s.alarms := rfl
@[simp] theorem modSweep_violations (s : State) (id : Nat) (f : Sweep → Sweep) : (s.modSweep id f).violations = s.violations := rfl
@[simp] theorem modSweep_keys (s : State) (id : Nat) (f : Sweep → Sweep) : (s.modSweep id f).keys = s.keys := rfl
@[simp] theorem modSweep_insecure (s : State) (id : Nat) (f : Sweep → Sweep) : (s.modSweep id f).insecure = s.insecure := rfl
@[simp] theorem modSweep_keyed (s : State) (id : Nat) (f : Sweep → Sweep) : (s.modSweep id f).keyed = s.keyed := rfl
@[simp] theorem modSweep_dualHost (s : State) (id : Nat) (f : Sweep → Sweep) : (s.modSweep id f).dualHost = s.dualHost := rfl
@[simp] theorem modSweep_endpoints (s : State) (id : Nat) (f : Sweep → Sweep) : (s.modSweep id f).endpoints = s.endpoints := rfl
@[simp] theorem modSweep_fuses (s : State) (id : Nat) (f : Sweep → Sweep) : (s.modSweep id f).fuses = s.fuses := rfl
@[simp] theorem modSweep_fwVersions (s : State) (id : Nat) (f : Sweep → Sweep) : (s.modSweep id f).fwVersions = s.fwVersions := rfl
@[simp] theorem modSweep_fwPending (s : State) (id : Nat) (f : Sweep → Sweep) : (s.modSweep id f).fwPending = s.fwPending := rfl
@[simp] theorem modSweep_measured (s : State) (id : Nat) (f : Sweep → Sweep) : (s.modSweep id f).measured = s.measured := rfl
@[simp] theorem modSweep_stopped (s : State) (id : Nat) (f : Sweep → Sweep) : (s.modSweep id f).stopped = s.stopped := rfl
@[simp] theorem modSweep_recovery (s : State) (id : Nat) (f : Sweep → Sweep) : (s.modSweep id f).recovery = s.recovery := rfl
@[simp] theorem modSweep_booted (s : State) (id : Nat) (f : Sweep → Sweep) : (s.modSweep id f).booted = s.booted := rfl
@[simp] theorem modLaunch_agenda (s : State) (id : Nat) (f : Launch → Launch) : (s.modLaunch id f).agenda = s.agenda := rfl
@[simp] theorem modLaunch_issues (s : State) (id : Nat) (f : Launch → Launch) : (s.modLaunch id f).issues = s.issues := rfl
@[simp] theorem modLaunch_cur (s : State) (id : Nat) (f : Launch → Launch) : (s.modLaunch id f).cur = s.cur := rfl
@[simp] theorem modLaunch_samples (s : State) (id : Nat) (f : Launch → Launch) : (s.modLaunch id f).samples = s.samples := rfl
@[simp] theorem modLaunch_freeCount (s : State) (id : Nat) (f : Launch → Launch) : (s.modLaunch id f).freeCount = s.freeCount := rfl
@[simp] theorem modLaunch_nextId (s : State) (id : Nat) (f : Launch → Launch) : (s.modLaunch id f).nextId = s.nextId := rfl
@[simp] theorem modLaunch_time (s : State) (id : Nat) (f : Launch → Launch) : (s.modLaunch id f).time = s.time := rfl
@[simp] theorem modLaunch_codes (s : State) (id : Nat) (f : Launch → Launch) : (s.modLaunch id f).codes = s.codes := rfl
@[simp] theorem modLaunch_dev (s : State) (id : Nat) (f : Launch → Launch) : (s.modLaunch id f).dev = s.dev := rfl
@[simp] theorem modLaunch_scratch (s : State) (id : Nat) (f : Launch → Launch) : (s.modLaunch id f).scratch = s.scratch := rfl
@[simp] theorem modLaunch_weight (s : State) (id : Nat) (f : Launch → Launch) : (s.modLaunch id f).weight = s.weight := rfl
@[simp] theorem modLaunch_host (s : State) (id : Nat) (f : Launch → Launch) : (s.modLaunch id f).host = s.host := rfl
@[simp] theorem modLaunch_marks (s : State) (id : Nat) (f : Launch → Launch) : (s.modLaunch id f).marks = s.marks := rfl
@[simp] theorem modLaunch_softErrs (s : State) (id : Nat) (f : Launch → Launch) : (s.modLaunch id f).softErrs = s.softErrs := rfl
@[simp] theorem modLaunch_corrected (s : State) (id : Nat) (f : Launch → Launch) : (s.modLaunch id f).corrected = s.corrected := rfl
@[simp] theorem modLaunch_accs (s : State) (id : Nat) (f : Launch → Launch) : (s.modLaunch id f).accs = s.accs := rfl
@[simp] theorem modLaunch_fetched (s : State) (id : Nat) (f : Launch → Launch) : (s.modLaunch id f).fetched = s.fetched := rfl
@[simp] theorem modLaunch_cmds (s : State) (id : Nat) (f : Launch → Launch) : (s.modLaunch id f).cmds = s.cmds := rfl
@[simp] theorem modLaunch_xfers (s : State) (id : Nat) (f : Launch → Launch) : (s.modLaunch id f).xfers = s.xfers := rfl
@[simp] theorem modLaunch_travel (s : State) (id : Nat) (f : Launch → Launch) : (s.modLaunch id f).travel = s.travel := rfl
@[simp] theorem modLaunch_groups (s : State) (id : Nat) (f : Launch → Launch) : (s.modLaunch id f).groups = s.groups := rfl
@[simp] theorem modLaunch_wgs (s : State) (id : Nat) (f : Launch → Launch) : (s.modLaunch id f).wgs = s.wgs := rfl
@[simp] theorem modLaunch_gangs (s : State) (id : Nat) (f : Launch → Launch) : (s.modLaunch id f).gangs = s.gangs := rfl
@[simp] theorem modLaunch_sweeps (s : State) (id : Nat) (f : Launch → Launch) : (s.modLaunch id f).sweeps = s.sweeps := rfl
@[simp] theorem modLaunch_queues (s : State) (id : Nat) (f : Launch → Launch) : (s.modLaunch id f).queues = s.queues := rfl
@[simp] theorem modLaunch_ctxs (s : State) (id : Nat) (f : Launch → Launch) : (s.modLaunch id f).ctxs = s.ctxs := rfl
@[simp] theorem modLaunch_cores (s : State) (id : Nat) (f : Launch → Launch) : (s.modLaunch id f).cores = s.cores := rfl
@[simp] theorem modLaunch_qtlb (s : State) (id : Nat) (f : Launch → Launch) : (s.modLaunch id f).qtlb = s.qtlb := rfl
@[simp] theorem modLaunch_walkCache (s : State) (id : Nat) (f : Launch → Launch) : (s.modLaunch id f).walkCache = s.walkCache := rfl
@[simp] theorem modLaunch_qmask (s : State) (id : Nat) (f : Launch → Launch) : (s.modLaunch id f).qmask = s.qmask := rfl
@[simp] theorem modLaunch_spares (s : State) (id : Nat) (f : Launch → Launch) : (s.modLaunch id f).spares = s.spares := rfl
@[simp] theorem modLaunch_spareIds (s : State) (id : Nat) (f : Launch → Launch) : (s.modLaunch id f).spareIds = s.spareIds := rfl
@[simp] theorem modLaunch_tally (s : State) (id : Nat) (f : Launch → Launch) : (s.modLaunch id f).tally = s.tally := rfl
@[simp] theorem modLaunch_selfFail (s : State) (id : Nat) (f : Launch → Launch) : (s.modLaunch id f).selfFail = s.selfFail := rfl
@[simp] theorem modLaunch_rowsUsed (s : State) (id : Nat) (f : Launch → Launch) : (s.modLaunch id f).rowsUsed = s.rowsUsed := rfl
@[simp] theorem modLaunch_sliceDet (s : State) (id : Nat) (f : Launch → Launch) : (s.modLaunch id f).sliceDet = s.sliceDet := rfl
@[simp] theorem modLaunch_regions (s : State) (id : Nat) (f : Launch → Launch) : (s.modLaunch id f).regions = s.regions := rfl
@[simp] theorem modLaunch_held (s : State) (id : Nat) (f : Launch → Launch) : (s.modLaunch id f).held = s.held := rfl
@[simp] theorem modLaunch_markers (s : State) (id : Nat) (f : Launch → Launch) : (s.modLaunch id f).markers = s.markers := rfl
@[simp] theorem modLaunch_domains (s : State) (id : Nat) (f : Launch → Launch) : (s.modLaunch id f).domains = s.domains := rfl
@[simp] theorem modLaunch_ranges (s : State) (id : Nat) (f : Launch → Launch) : (s.modLaunch id f).ranges = s.ranges := rfl
@[simp] theorem modLaunch_pages (s : State) (id : Nat) (f : Launch → Launch) : (s.modLaunch id f).pages = s.pages := rfl
@[simp] theorem modLaunch_thawed (s : State) (id : Nat) (f : Launch → Launch) : (s.modLaunch id f).thawed = s.thawed := rfl
@[simp] theorem modLaunch_copyIn (s : State) (id : Nat) (f : Launch → Launch) : (s.modLaunch id f).copyIn = s.copyIn := rfl
@[simp] theorem modLaunch_creditsIn (s : State) (id : Nat) (f : Launch → Launch) : (s.modLaunch id f).creditsIn = s.creditsIn := rfl
@[simp] theorem modLaunch_retires (s : State) (id : Nat) (f : Launch → Launch) : (s.modLaunch id f).retires = s.retires := rfl
@[simp] theorem modLaunch_migs (s : State) (id : Nat) (f : Launch → Launch) : (s.modLaunch id f).migs = s.migs := rfl
@[simp] theorem modLaunch_stubs (s : State) (id : Nat) (f : Launch → Launch) : (s.modLaunch id f).stubs = s.stubs := rfl
@[simp] theorem modLaunch_owners (s : State) (id : Nat) (f : Launch → Launch) : (s.modLaunch id f).owners = s.owners := rfl
@[simp] theorem modLaunch_replicas (s : State) (id : Nat) (f : Launch → Launch) : (s.modLaunch id f).replicas = s.replicas := rfl
@[simp] theorem modLaunch_repsets (s : State) (id : Nat) (f : Launch → Launch) : (s.modLaunch id f).repsets = s.repsets := rfl
@[simp] theorem modLaunch_populated (s : State) (id : Nat) (f : Launch → Launch) : (s.modLaunch id f).populated = s.populated := rfl
@[simp] theorem modLaunch_enabled (s : State) (id : Nat) (f : Launch → Launch) : (s.modLaunch id f).enabled = s.enabled := rfl
@[simp] theorem modLaunch_links (s : State) (id : Nat) (f : Launch → Launch) : (s.modLaunch id f).links = s.links := rfl
@[simp] theorem modLaunch_outSeq (s : State) (id : Nat) (f : Launch → Launch) : (s.modLaunch id f).outSeq = s.outSeq := rfl
@[simp] theorem modLaunch_inSeq (s : State) (id : Nat) (f : Launch → Launch) : (s.modLaunch id f).inSeq = s.inSeq := rfl
@[simp] theorem modLaunch_reorder (s : State) (id : Nat) (f : Launch → Launch) : (s.modLaunch id f).reorder = s.reorder := rfl
@[simp] theorem modLaunch_sent (s : State) (id : Nat) (f : Launch → Launch) : (s.modLaunch id f).sent = s.sent := rfl
@[simp] theorem modLaunch_waiting (s : State) (id : Nat) (f : Launch → Launch) : (s.modLaunch id f).waiting = s.waiting := rfl
@[simp] theorem modLaunch_relays (s : State) (id : Nat) (f : Launch → Launch) : (s.modLaunch id f).relays = s.relays := rfl
@[simp] theorem modLaunch_discards (s : State) (id : Nat) (f : Launch → Launch) : (s.modLaunch id f).discards = s.discards := rfl
@[simp] theorem modLaunch_dieTags (s : State) (id : Nat) (f : Launch → Launch) : (s.modLaunch id f).dieTags = s.dieTags := rfl
@[simp] theorem modLaunch_ftoexp (s : State) (id : Nat) (f : Launch → Launch) : (s.modLaunch id f).ftoexp = s.ftoexp := rfl
@[simp] theorem modLaunch_hostUp0 (s : State) (id : Nat) (f : Launch → Launch) : (s.modLaunch id f).hostUp0 = s.hostUp0 := rfl
@[simp] theorem modLaunch_hostUp1 (s : State) (id : Nat) (f : Launch → Launch) : (s.modLaunch id f).hostUp1 = s.hostUp1 := rfl
@[simp] theorem modLaunch_posted (s : State) (id : Nat) (f : Launch → Launch) : (s.modLaunch id f).posted = s.posted := rfl
@[simp] theorem modLaunch_postedQ (s : State) (id : Nat) (f : Launch → Launch) : (s.modLaunch id f).postedQ = s.postedQ := rfl
@[simp] theorem modLaunch_health (s : State) (id : Nat) (f : Launch → Launch) : (s.modLaunch id f).health = s.health := rfl
@[simp] theorem modLaunch_hqovf (s : State) (id : Nat) (f : Launch → Launch) : (s.modLaunch id f).hqovf = s.hqovf := rfl
@[simp] theorem modLaunch_cntReg (s : State) (id : Nat) (f : Launch → Launch) : (s.modLaunch id f).cntReg = s.cntReg := rfl
@[simp] theorem modLaunch_cntMem (s : State) (id : Nat) (f : Launch → Launch) : (s.modLaunch id f).cntMem = s.cntMem := rfl
@[simp] theorem modLaunch_cntUnc (s : State) (id : Nat) (f : Launch → Launch) : (s.modLaunch id f).cntUnc = s.cntUnc := rfl
@[simp] theorem modLaunch_cycle (s : State) (id : Nat) (f : Launch → Launch) : (s.modLaunch id f).cycle = s.cycle := rfl
@[simp] theorem modLaunch_quantum (s : State) (id : Nat) (f : Launch → Launch) : (s.modLaunch id f).quantum = s.quantum := rfl
@[simp] theorem modLaunch_pwrst (s : State) (id : Nat) (f : Launch → Launch) : (s.modLaunch id f).pwrst = s.pwrst := rfl
@[simp] theorem modLaunch_powerCap (s : State) (id : Nat) (f : Launch → Launch) : (s.modLaunch id f).powerCap = s.powerCap := rfl
@[simp] theorem modLaunch_secureRegions (s : State) (id : Nat) (f : Launch → Launch) : (s.modLaunch id f).secureRegions = s.secureRegions := rfl
@[simp] theorem modLaunch_secureCores (s : State) (id : Nat) (f : Launch → Launch) : (s.modLaunch id f).secureCores = s.secureCores := rfl
@[simp] theorem modLaunch_secureQuartets (s : State) (id : Nat) (f : Launch → Launch) : (s.modLaunch id f).secureQuartets = s.secureQuartets := rfl
@[simp] theorem modLaunch_secureSlices (s : State) (id : Nat) (f : Launch → Launch) : (s.modLaunch id f).secureSlices = s.secureSlices := rfl
@[simp] theorem modLaunch_secureChannels (s : State) (id : Nat) (f : Launch → Launch) : (s.modLaunch id f).secureChannels = s.secureChannels := rfl
@[simp] theorem modLaunch_secureLinks (s : State) (id : Nat) (f : Launch → Launch) : (s.modLaunch id f).secureLinks = s.secureLinks := rfl
@[simp] theorem modLaunch_secureFunctions (s : State) (id : Nat) (f : Launch → Launch) : (s.modLaunch id f).secureFunctions = s.secureFunctions := rfl
@[simp] theorem modLaunch_policy (s : State) (id : Nat) (f : Launch → Launch) : (s.modLaunch id f).policy = s.policy := rfl
@[simp] theorem modLaunch_alarms (s : State) (id : Nat) (f : Launch → Launch) : (s.modLaunch id f).alarms = s.alarms := rfl
@[simp] theorem modLaunch_violations (s : State) (id : Nat) (f : Launch → Launch) : (s.modLaunch id f).violations = s.violations := rfl
@[simp] theorem modLaunch_keys (s : State) (id : Nat) (f : Launch → Launch) : (s.modLaunch id f).keys = s.keys := rfl
@[simp] theorem modLaunch_insecure (s : State) (id : Nat) (f : Launch → Launch) : (s.modLaunch id f).insecure = s.insecure := rfl
@[simp] theorem modLaunch_keyed (s : State) (id : Nat) (f : Launch → Launch) : (s.modLaunch id f).keyed = s.keyed := rfl
@[simp] theorem modLaunch_dualHost (s : State) (id : Nat) (f : Launch → Launch) : (s.modLaunch id f).dualHost = s.dualHost := rfl
@[simp] theorem modLaunch_endpoints (s : State) (id : Nat) (f : Launch → Launch) : (s.modLaunch id f).endpoints = s.endpoints := rfl
@[simp] theorem modLaunch_fuses (s : State) (id : Nat) (f : Launch → Launch) : (s.modLaunch id f).fuses = s.fuses := rfl
@[simp] theorem modLaunch_fwVersions (s : State) (id : Nat) (f : Launch → Launch) : (s.modLaunch id f).fwVersions = s.fwVersions := rfl
@[simp] theorem modLaunch_fwPending (s : State) (id : Nat) (f : Launch → Launch) : (s.modLaunch id f).fwPending = s.fwPending := rfl
@[simp] theorem modLaunch_measured (s : State) (id : Nat) (f : Launch → Launch) : (s.modLaunch id f).measured = s.measured := rfl
@[simp] theorem modLaunch_stopped (s : State) (id : Nat) (f : Launch → Launch) : (s.modLaunch id f).stopped = s.stopped := rfl
@[simp] theorem modLaunch_recovery (s : State) (id : Nat) (f : Launch → Launch) : (s.modLaunch id f).recovery = s.recovery := rfl
@[simp] theorem modLaunch_booted (s : State) (id : Nat) (f : Launch → Launch) : (s.modLaunch id f).booted = s.booted := rfl
@[simp] theorem modQueue_agenda (s : State) (id : Nat) (f : Queue → Queue) : (s.modQueue id f).agenda = s.agenda := rfl
@[simp] theorem modQueue_issues (s : State) (id : Nat) (f : Queue → Queue) : (s.modQueue id f).issues = s.issues := rfl
@[simp] theorem modQueue_cur (s : State) (id : Nat) (f : Queue → Queue) : (s.modQueue id f).cur = s.cur := rfl
@[simp] theorem modQueue_samples (s : State) (id : Nat) (f : Queue → Queue) : (s.modQueue id f).samples = s.samples := rfl
@[simp] theorem modQueue_freeCount (s : State) (id : Nat) (f : Queue → Queue) : (s.modQueue id f).freeCount = s.freeCount := rfl
@[simp] theorem modQueue_nextId (s : State) (id : Nat) (f : Queue → Queue) : (s.modQueue id f).nextId = s.nextId := rfl
@[simp] theorem modQueue_time (s : State) (id : Nat) (f : Queue → Queue) : (s.modQueue id f).time = s.time := rfl
@[simp] theorem modQueue_codes (s : State) (id : Nat) (f : Queue → Queue) : (s.modQueue id f).codes = s.codes := rfl
@[simp] theorem modQueue_dev (s : State) (id : Nat) (f : Queue → Queue) : (s.modQueue id f).dev = s.dev := rfl
@[simp] theorem modQueue_scratch (s : State) (id : Nat) (f : Queue → Queue) : (s.modQueue id f).scratch = s.scratch := rfl
@[simp] theorem modQueue_weight (s : State) (id : Nat) (f : Queue → Queue) : (s.modQueue id f).weight = s.weight := rfl
@[simp] theorem modQueue_host (s : State) (id : Nat) (f : Queue → Queue) : (s.modQueue id f).host = s.host := rfl
@[simp] theorem modQueue_marks (s : State) (id : Nat) (f : Queue → Queue) : (s.modQueue id f).marks = s.marks := rfl
@[simp] theorem modQueue_softErrs (s : State) (id : Nat) (f : Queue → Queue) : (s.modQueue id f).softErrs = s.softErrs := rfl
@[simp] theorem modQueue_corrected (s : State) (id : Nat) (f : Queue → Queue) : (s.modQueue id f).corrected = s.corrected := rfl
@[simp] theorem modQueue_accs (s : State) (id : Nat) (f : Queue → Queue) : (s.modQueue id f).accs = s.accs := rfl
@[simp] theorem modQueue_fetched (s : State) (id : Nat) (f : Queue → Queue) : (s.modQueue id f).fetched = s.fetched := rfl
@[simp] theorem modQueue_cmds (s : State) (id : Nat) (f : Queue → Queue) : (s.modQueue id f).cmds = s.cmds := rfl
@[simp] theorem modQueue_xfers (s : State) (id : Nat) (f : Queue → Queue) : (s.modQueue id f).xfers = s.xfers := rfl
@[simp] theorem modQueue_travel (s : State) (id : Nat) (f : Queue → Queue) : (s.modQueue id f).travel = s.travel := rfl
@[simp] theorem modQueue_groups (s : State) (id : Nat) (f : Queue → Queue) : (s.modQueue id f).groups = s.groups := rfl
@[simp] theorem modQueue_wgs (s : State) (id : Nat) (f : Queue → Queue) : (s.modQueue id f).wgs = s.wgs := rfl
@[simp] theorem modQueue_gangs (s : State) (id : Nat) (f : Queue → Queue) : (s.modQueue id f).gangs = s.gangs := rfl
@[simp] theorem modQueue_sweeps (s : State) (id : Nat) (f : Queue → Queue) : (s.modQueue id f).sweeps = s.sweeps := rfl
@[simp] theorem modQueue_launches (s : State) (id : Nat) (f : Queue → Queue) : (s.modQueue id f).launches = s.launches := rfl
@[simp] theorem modQueue_ctxs (s : State) (id : Nat) (f : Queue → Queue) : (s.modQueue id f).ctxs = s.ctxs := rfl
@[simp] theorem modQueue_cores (s : State) (id : Nat) (f : Queue → Queue) : (s.modQueue id f).cores = s.cores := rfl
@[simp] theorem modQueue_qtlb (s : State) (id : Nat) (f : Queue → Queue) : (s.modQueue id f).qtlb = s.qtlb := rfl
@[simp] theorem modQueue_walkCache (s : State) (id : Nat) (f : Queue → Queue) : (s.modQueue id f).walkCache = s.walkCache := rfl
@[simp] theorem modQueue_qmask (s : State) (id : Nat) (f : Queue → Queue) : (s.modQueue id f).qmask = s.qmask := rfl
@[simp] theorem modQueue_spares (s : State) (id : Nat) (f : Queue → Queue) : (s.modQueue id f).spares = s.spares := rfl
@[simp] theorem modQueue_spareIds (s : State) (id : Nat) (f : Queue → Queue) : (s.modQueue id f).spareIds = s.spareIds := rfl
@[simp] theorem modQueue_tally (s : State) (id : Nat) (f : Queue → Queue) : (s.modQueue id f).tally = s.tally := rfl
@[simp] theorem modQueue_selfFail (s : State) (id : Nat) (f : Queue → Queue) : (s.modQueue id f).selfFail = s.selfFail := rfl
@[simp] theorem modQueue_rowsUsed (s : State) (id : Nat) (f : Queue → Queue) : (s.modQueue id f).rowsUsed = s.rowsUsed := rfl
@[simp] theorem modQueue_sliceDet (s : State) (id : Nat) (f : Queue → Queue) : (s.modQueue id f).sliceDet = s.sliceDet := rfl
@[simp] theorem modQueue_regions (s : State) (id : Nat) (f : Queue → Queue) : (s.modQueue id f).regions = s.regions := rfl
@[simp] theorem modQueue_held (s : State) (id : Nat) (f : Queue → Queue) : (s.modQueue id f).held = s.held := rfl
@[simp] theorem modQueue_markers (s : State) (id : Nat) (f : Queue → Queue) : (s.modQueue id f).markers = s.markers := rfl
@[simp] theorem modQueue_domains (s : State) (id : Nat) (f : Queue → Queue) : (s.modQueue id f).domains = s.domains := rfl
@[simp] theorem modQueue_ranges (s : State) (id : Nat) (f : Queue → Queue) : (s.modQueue id f).ranges = s.ranges := rfl
@[simp] theorem modQueue_pages (s : State) (id : Nat) (f : Queue → Queue) : (s.modQueue id f).pages = s.pages := rfl
@[simp] theorem modQueue_thawed (s : State) (id : Nat) (f : Queue → Queue) : (s.modQueue id f).thawed = s.thawed := rfl
@[simp] theorem modQueue_copyIn (s : State) (id : Nat) (f : Queue → Queue) : (s.modQueue id f).copyIn = s.copyIn := rfl
@[simp] theorem modQueue_creditsIn (s : State) (id : Nat) (f : Queue → Queue) : (s.modQueue id f).creditsIn = s.creditsIn := rfl
@[simp] theorem modQueue_retires (s : State) (id : Nat) (f : Queue → Queue) : (s.modQueue id f).retires = s.retires := rfl
@[simp] theorem modQueue_migs (s : State) (id : Nat) (f : Queue → Queue) : (s.modQueue id f).migs = s.migs := rfl
@[simp] theorem modQueue_stubs (s : State) (id : Nat) (f : Queue → Queue) : (s.modQueue id f).stubs = s.stubs := rfl
@[simp] theorem modQueue_owners (s : State) (id : Nat) (f : Queue → Queue) : (s.modQueue id f).owners = s.owners := rfl
@[simp] theorem modQueue_replicas (s : State) (id : Nat) (f : Queue → Queue) : (s.modQueue id f).replicas = s.replicas := rfl
@[simp] theorem modQueue_repsets (s : State) (id : Nat) (f : Queue → Queue) : (s.modQueue id f).repsets = s.repsets := rfl
@[simp] theorem modQueue_populated (s : State) (id : Nat) (f : Queue → Queue) : (s.modQueue id f).populated = s.populated := rfl
@[simp] theorem modQueue_enabled (s : State) (id : Nat) (f : Queue → Queue) : (s.modQueue id f).enabled = s.enabled := rfl
@[simp] theorem modQueue_links (s : State) (id : Nat) (f : Queue → Queue) : (s.modQueue id f).links = s.links := rfl
@[simp] theorem modQueue_outSeq (s : State) (id : Nat) (f : Queue → Queue) : (s.modQueue id f).outSeq = s.outSeq := rfl
@[simp] theorem modQueue_inSeq (s : State) (id : Nat) (f : Queue → Queue) : (s.modQueue id f).inSeq = s.inSeq := rfl
@[simp] theorem modQueue_reorder (s : State) (id : Nat) (f : Queue → Queue) : (s.modQueue id f).reorder = s.reorder := rfl
@[simp] theorem modQueue_sent (s : State) (id : Nat) (f : Queue → Queue) : (s.modQueue id f).sent = s.sent := rfl
@[simp] theorem modQueue_waiting (s : State) (id : Nat) (f : Queue → Queue) : (s.modQueue id f).waiting = s.waiting := rfl
@[simp] theorem modQueue_relays (s : State) (id : Nat) (f : Queue → Queue) : (s.modQueue id f).relays = s.relays := rfl
@[simp] theorem modQueue_discards (s : State) (id : Nat) (f : Queue → Queue) : (s.modQueue id f).discards = s.discards := rfl
@[simp] theorem modQueue_dieTags (s : State) (id : Nat) (f : Queue → Queue) : (s.modQueue id f).dieTags = s.dieTags := rfl
@[simp] theorem modQueue_ftoexp (s : State) (id : Nat) (f : Queue → Queue) : (s.modQueue id f).ftoexp = s.ftoexp := rfl
@[simp] theorem modQueue_hostUp0 (s : State) (id : Nat) (f : Queue → Queue) : (s.modQueue id f).hostUp0 = s.hostUp0 := rfl
@[simp] theorem modQueue_hostUp1 (s : State) (id : Nat) (f : Queue → Queue) : (s.modQueue id f).hostUp1 = s.hostUp1 := rfl
@[simp] theorem modQueue_posted (s : State) (id : Nat) (f : Queue → Queue) : (s.modQueue id f).posted = s.posted := rfl
@[simp] theorem modQueue_postedQ (s : State) (id : Nat) (f : Queue → Queue) : (s.modQueue id f).postedQ = s.postedQ := rfl
@[simp] theorem modQueue_health (s : State) (id : Nat) (f : Queue → Queue) : (s.modQueue id f).health = s.health := rfl
@[simp] theorem modQueue_hqovf (s : State) (id : Nat) (f : Queue → Queue) : (s.modQueue id f).hqovf = s.hqovf := rfl
@[simp] theorem modQueue_cntReg (s : State) (id : Nat) (f : Queue → Queue) : (s.modQueue id f).cntReg = s.cntReg := rfl
@[simp] theorem modQueue_cntMem (s : State) (id : Nat) (f : Queue → Queue) : (s.modQueue id f).cntMem = s.cntMem := rfl
@[simp] theorem modQueue_cntUnc (s : State) (id : Nat) (f : Queue → Queue) : (s.modQueue id f).cntUnc = s.cntUnc := rfl
@[simp] theorem modQueue_cycle (s : State) (id : Nat) (f : Queue → Queue) : (s.modQueue id f).cycle = s.cycle := rfl
@[simp] theorem modQueue_quantum (s : State) (id : Nat) (f : Queue → Queue) : (s.modQueue id f).quantum = s.quantum := rfl
@[simp] theorem modQueue_pwrst (s : State) (id : Nat) (f : Queue → Queue) : (s.modQueue id f).pwrst = s.pwrst := rfl
@[simp] theorem modQueue_powerCap (s : State) (id : Nat) (f : Queue → Queue) : (s.modQueue id f).powerCap = s.powerCap := rfl
@[simp] theorem modQueue_secureRegions (s : State) (id : Nat) (f : Queue → Queue) : (s.modQueue id f).secureRegions = s.secureRegions := rfl
@[simp] theorem modQueue_secureCores (s : State) (id : Nat) (f : Queue → Queue) : (s.modQueue id f).secureCores = s.secureCores := rfl
@[simp] theorem modQueue_secureQuartets (s : State) (id : Nat) (f : Queue → Queue) : (s.modQueue id f).secureQuartets = s.secureQuartets := rfl
@[simp] theorem modQueue_secureSlices (s : State) (id : Nat) (f : Queue → Queue) : (s.modQueue id f).secureSlices = s.secureSlices := rfl
@[simp] theorem modQueue_secureChannels (s : State) (id : Nat) (f : Queue → Queue) : (s.modQueue id f).secureChannels = s.secureChannels := rfl
@[simp] theorem modQueue_secureLinks (s : State) (id : Nat) (f : Queue → Queue) : (s.modQueue id f).secureLinks = s.secureLinks := rfl
@[simp] theorem modQueue_secureFunctions (s : State) (id : Nat) (f : Queue → Queue) : (s.modQueue id f).secureFunctions = s.secureFunctions := rfl
@[simp] theorem modQueue_policy (s : State) (id : Nat) (f : Queue → Queue) : (s.modQueue id f).policy = s.policy := rfl
@[simp] theorem modQueue_alarms (s : State) (id : Nat) (f : Queue → Queue) : (s.modQueue id f).alarms = s.alarms := rfl
@[simp] theorem modQueue_violations (s : State) (id : Nat) (f : Queue → Queue) : (s.modQueue id f).violations = s.violations := rfl
@[simp] theorem modQueue_keys (s : State) (id : Nat) (f : Queue → Queue) : (s.modQueue id f).keys = s.keys := rfl
@[simp] theorem modQueue_insecure (s : State) (id : Nat) (f : Queue → Queue) : (s.modQueue id f).insecure = s.insecure := rfl
@[simp] theorem modQueue_keyed (s : State) (id : Nat) (f : Queue → Queue) : (s.modQueue id f).keyed = s.keyed := rfl
@[simp] theorem modQueue_dualHost (s : State) (id : Nat) (f : Queue → Queue) : (s.modQueue id f).dualHost = s.dualHost := rfl
@[simp] theorem modQueue_endpoints (s : State) (id : Nat) (f : Queue → Queue) : (s.modQueue id f).endpoints = s.endpoints := rfl
@[simp] theorem modQueue_fuses (s : State) (id : Nat) (f : Queue → Queue) : (s.modQueue id f).fuses = s.fuses := rfl
@[simp] theorem modQueue_fwVersions (s : State) (id : Nat) (f : Queue → Queue) : (s.modQueue id f).fwVersions = s.fwVersions := rfl
@[simp] theorem modQueue_fwPending (s : State) (id : Nat) (f : Queue → Queue) : (s.modQueue id f).fwPending = s.fwPending := rfl
@[simp] theorem modQueue_measured (s : State) (id : Nat) (f : Queue → Queue) : (s.modQueue id f).measured = s.measured := rfl
@[simp] theorem modQueue_stopped (s : State) (id : Nat) (f : Queue → Queue) : (s.modQueue id f).stopped = s.stopped := rfl
@[simp] theorem modQueue_recovery (s : State) (id : Nat) (f : Queue → Queue) : (s.modQueue id f).recovery = s.recovery := rfl
@[simp] theorem modQueue_booted (s : State) (id : Nat) (f : Queue → Queue) : (s.modQueue id f).booted = s.booted := rfl
@[simp] theorem modCtx_agenda (s : State) (id : Nat) (f : Context → Context) : (s.modCtx id f).agenda = s.agenda := rfl
@[simp] theorem modCtx_issues (s : State) (id : Nat) (f : Context → Context) : (s.modCtx id f).issues = s.issues := rfl
@[simp] theorem modCtx_cur (s : State) (id : Nat) (f : Context → Context) : (s.modCtx id f).cur = s.cur := rfl
@[simp] theorem modCtx_samples (s : State) (id : Nat) (f : Context → Context) : (s.modCtx id f).samples = s.samples := rfl
@[simp] theorem modCtx_freeCount (s : State) (id : Nat) (f : Context → Context) : (s.modCtx id f).freeCount = s.freeCount := rfl
@[simp] theorem modCtx_nextId (s : State) (id : Nat) (f : Context → Context) : (s.modCtx id f).nextId = s.nextId := rfl
@[simp] theorem modCtx_time (s : State) (id : Nat) (f : Context → Context) : (s.modCtx id f).time = s.time := rfl
@[simp] theorem modCtx_codes (s : State) (id : Nat) (f : Context → Context) : (s.modCtx id f).codes = s.codes := rfl
@[simp] theorem modCtx_dev (s : State) (id : Nat) (f : Context → Context) : (s.modCtx id f).dev = s.dev := rfl
@[simp] theorem modCtx_scratch (s : State) (id : Nat) (f : Context → Context) : (s.modCtx id f).scratch = s.scratch := rfl
@[simp] theorem modCtx_weight (s : State) (id : Nat) (f : Context → Context) : (s.modCtx id f).weight = s.weight := rfl
@[simp] theorem modCtx_host (s : State) (id : Nat) (f : Context → Context) : (s.modCtx id f).host = s.host := rfl
@[simp] theorem modCtx_marks (s : State) (id : Nat) (f : Context → Context) : (s.modCtx id f).marks = s.marks := rfl
@[simp] theorem modCtx_softErrs (s : State) (id : Nat) (f : Context → Context) : (s.modCtx id f).softErrs = s.softErrs := rfl
@[simp] theorem modCtx_corrected (s : State) (id : Nat) (f : Context → Context) : (s.modCtx id f).corrected = s.corrected := rfl
@[simp] theorem modCtx_accs (s : State) (id : Nat) (f : Context → Context) : (s.modCtx id f).accs = s.accs := rfl
@[simp] theorem modCtx_fetched (s : State) (id : Nat) (f : Context → Context) : (s.modCtx id f).fetched = s.fetched := rfl
@[simp] theorem modCtx_cmds (s : State) (id : Nat) (f : Context → Context) : (s.modCtx id f).cmds = s.cmds := rfl
@[simp] theorem modCtx_xfers (s : State) (id : Nat) (f : Context → Context) : (s.modCtx id f).xfers = s.xfers := rfl
@[simp] theorem modCtx_travel (s : State) (id : Nat) (f : Context → Context) : (s.modCtx id f).travel = s.travel := rfl
@[simp] theorem modCtx_groups (s : State) (id : Nat) (f : Context → Context) : (s.modCtx id f).groups = s.groups := rfl
@[simp] theorem modCtx_wgs (s : State) (id : Nat) (f : Context → Context) : (s.modCtx id f).wgs = s.wgs := rfl
@[simp] theorem modCtx_gangs (s : State) (id : Nat) (f : Context → Context) : (s.modCtx id f).gangs = s.gangs := rfl
@[simp] theorem modCtx_sweeps (s : State) (id : Nat) (f : Context → Context) : (s.modCtx id f).sweeps = s.sweeps := rfl
@[simp] theorem modCtx_launches (s : State) (id : Nat) (f : Context → Context) : (s.modCtx id f).launches = s.launches := rfl
@[simp] theorem modCtx_queues (s : State) (id : Nat) (f : Context → Context) : (s.modCtx id f).queues = s.queues := rfl
@[simp] theorem modCtx_cores (s : State) (id : Nat) (f : Context → Context) : (s.modCtx id f).cores = s.cores := rfl
@[simp] theorem modCtx_qtlb (s : State) (id : Nat) (f : Context → Context) : (s.modCtx id f).qtlb = s.qtlb := rfl
@[simp] theorem modCtx_walkCache (s : State) (id : Nat) (f : Context → Context) : (s.modCtx id f).walkCache = s.walkCache := rfl
@[simp] theorem modCtx_qmask (s : State) (id : Nat) (f : Context → Context) : (s.modCtx id f).qmask = s.qmask := rfl
@[simp] theorem modCtx_spares (s : State) (id : Nat) (f : Context → Context) : (s.modCtx id f).spares = s.spares := rfl
@[simp] theorem modCtx_spareIds (s : State) (id : Nat) (f : Context → Context) : (s.modCtx id f).spareIds = s.spareIds := rfl
@[simp] theorem modCtx_tally (s : State) (id : Nat) (f : Context → Context) : (s.modCtx id f).tally = s.tally := rfl
@[simp] theorem modCtx_selfFail (s : State) (id : Nat) (f : Context → Context) : (s.modCtx id f).selfFail = s.selfFail := rfl
@[simp] theorem modCtx_rowsUsed (s : State) (id : Nat) (f : Context → Context) : (s.modCtx id f).rowsUsed = s.rowsUsed := rfl
@[simp] theorem modCtx_sliceDet (s : State) (id : Nat) (f : Context → Context) : (s.modCtx id f).sliceDet = s.sliceDet := rfl
@[simp] theorem modCtx_regions (s : State) (id : Nat) (f : Context → Context) : (s.modCtx id f).regions = s.regions := rfl
@[simp] theorem modCtx_held (s : State) (id : Nat) (f : Context → Context) : (s.modCtx id f).held = s.held := rfl
@[simp] theorem modCtx_markers (s : State) (id : Nat) (f : Context → Context) : (s.modCtx id f).markers = s.markers := rfl
@[simp] theorem modCtx_domains (s : State) (id : Nat) (f : Context → Context) : (s.modCtx id f).domains = s.domains := rfl
@[simp] theorem modCtx_ranges (s : State) (id : Nat) (f : Context → Context) : (s.modCtx id f).ranges = s.ranges := rfl
@[simp] theorem modCtx_pages (s : State) (id : Nat) (f : Context → Context) : (s.modCtx id f).pages = s.pages := rfl
@[simp] theorem modCtx_thawed (s : State) (id : Nat) (f : Context → Context) : (s.modCtx id f).thawed = s.thawed := rfl
@[simp] theorem modCtx_copyIn (s : State) (id : Nat) (f : Context → Context) : (s.modCtx id f).copyIn = s.copyIn := rfl
@[simp] theorem modCtx_creditsIn (s : State) (id : Nat) (f : Context → Context) : (s.modCtx id f).creditsIn = s.creditsIn := rfl
@[simp] theorem modCtx_retires (s : State) (id : Nat) (f : Context → Context) : (s.modCtx id f).retires = s.retires := rfl
@[simp] theorem modCtx_migs (s : State) (id : Nat) (f : Context → Context) : (s.modCtx id f).migs = s.migs := rfl
@[simp] theorem modCtx_stubs (s : State) (id : Nat) (f : Context → Context) : (s.modCtx id f).stubs = s.stubs := rfl
@[simp] theorem modCtx_owners (s : State) (id : Nat) (f : Context → Context) : (s.modCtx id f).owners = s.owners := rfl
@[simp] theorem modCtx_replicas (s : State) (id : Nat) (f : Context → Context) : (s.modCtx id f).replicas = s.replicas := rfl
@[simp] theorem modCtx_repsets (s : State) (id : Nat) (f : Context → Context) : (s.modCtx id f).repsets = s.repsets := rfl
@[simp] theorem modCtx_populated (s : State) (id : Nat) (f : Context → Context) : (s.modCtx id f).populated = s.populated := rfl
@[simp] theorem modCtx_enabled (s : State) (id : Nat) (f : Context → Context) : (s.modCtx id f).enabled = s.enabled := rfl
@[simp] theorem modCtx_links (s : State) (id : Nat) (f : Context → Context) : (s.modCtx id f).links = s.links := rfl
@[simp] theorem modCtx_outSeq (s : State) (id : Nat) (f : Context → Context) : (s.modCtx id f).outSeq = s.outSeq := rfl
@[simp] theorem modCtx_inSeq (s : State) (id : Nat) (f : Context → Context) : (s.modCtx id f).inSeq = s.inSeq := rfl
@[simp] theorem modCtx_reorder (s : State) (id : Nat) (f : Context → Context) : (s.modCtx id f).reorder = s.reorder := rfl
@[simp] theorem modCtx_sent (s : State) (id : Nat) (f : Context → Context) : (s.modCtx id f).sent = s.sent := rfl
@[simp] theorem modCtx_waiting (s : State) (id : Nat) (f : Context → Context) : (s.modCtx id f).waiting = s.waiting := rfl
@[simp] theorem modCtx_relays (s : State) (id : Nat) (f : Context → Context) : (s.modCtx id f).relays = s.relays := rfl
@[simp] theorem modCtx_discards (s : State) (id : Nat) (f : Context → Context) : (s.modCtx id f).discards = s.discards := rfl
@[simp] theorem modCtx_dieTags (s : State) (id : Nat) (f : Context → Context) : (s.modCtx id f).dieTags = s.dieTags := rfl
@[simp] theorem modCtx_ftoexp (s : State) (id : Nat) (f : Context → Context) : (s.modCtx id f).ftoexp = s.ftoexp := rfl
@[simp] theorem modCtx_hostUp0 (s : State) (id : Nat) (f : Context → Context) : (s.modCtx id f).hostUp0 = s.hostUp0 := rfl
@[simp] theorem modCtx_hostUp1 (s : State) (id : Nat) (f : Context → Context) : (s.modCtx id f).hostUp1 = s.hostUp1 := rfl
@[simp] theorem modCtx_posted (s : State) (id : Nat) (f : Context → Context) : (s.modCtx id f).posted = s.posted := rfl
@[simp] theorem modCtx_postedQ (s : State) (id : Nat) (f : Context → Context) : (s.modCtx id f).postedQ = s.postedQ := rfl
@[simp] theorem modCtx_health (s : State) (id : Nat) (f : Context → Context) : (s.modCtx id f).health = s.health := rfl
@[simp] theorem modCtx_hqovf (s : State) (id : Nat) (f : Context → Context) : (s.modCtx id f).hqovf = s.hqovf := rfl
@[simp] theorem modCtx_cntReg (s : State) (id : Nat) (f : Context → Context) : (s.modCtx id f).cntReg = s.cntReg := rfl
@[simp] theorem modCtx_cntMem (s : State) (id : Nat) (f : Context → Context) : (s.modCtx id f).cntMem = s.cntMem := rfl
@[simp] theorem modCtx_cntUnc (s : State) (id : Nat) (f : Context → Context) : (s.modCtx id f).cntUnc = s.cntUnc := rfl
@[simp] theorem modCtx_cycle (s : State) (id : Nat) (f : Context → Context) : (s.modCtx id f).cycle = s.cycle := rfl
@[simp] theorem modCtx_quantum (s : State) (id : Nat) (f : Context → Context) : (s.modCtx id f).quantum = s.quantum := rfl
@[simp] theorem modCtx_pwrst (s : State) (id : Nat) (f : Context → Context) : (s.modCtx id f).pwrst = s.pwrst := rfl
@[simp] theorem modCtx_powerCap (s : State) (id : Nat) (f : Context → Context) : (s.modCtx id f).powerCap = s.powerCap := rfl
@[simp] theorem modCtx_secureRegions (s : State) (id : Nat) (f : Context → Context) : (s.modCtx id f).secureRegions = s.secureRegions := rfl
@[simp] theorem modCtx_secureCores (s : State) (id : Nat) (f : Context → Context) : (s.modCtx id f).secureCores = s.secureCores := rfl
@[simp] theorem modCtx_secureQuartets (s : State) (id : Nat) (f : Context → Context) : (s.modCtx id f).secureQuartets = s.secureQuartets := rfl
@[simp] theorem modCtx_secureSlices (s : State) (id : Nat) (f : Context → Context) : (s.modCtx id f).secureSlices = s.secureSlices := rfl
@[simp] theorem modCtx_secureChannels (s : State) (id : Nat) (f : Context → Context) : (s.modCtx id f).secureChannels = s.secureChannels := rfl
@[simp] theorem modCtx_secureLinks (s : State) (id : Nat) (f : Context → Context) : (s.modCtx id f).secureLinks = s.secureLinks := rfl
@[simp] theorem modCtx_secureFunctions (s : State) (id : Nat) (f : Context → Context) : (s.modCtx id f).secureFunctions = s.secureFunctions := rfl
@[simp] theorem modCtx_policy (s : State) (id : Nat) (f : Context → Context) : (s.modCtx id f).policy = s.policy := rfl
@[simp] theorem modCtx_alarms (s : State) (id : Nat) (f : Context → Context) : (s.modCtx id f).alarms = s.alarms := rfl
@[simp] theorem modCtx_violations (s : State) (id : Nat) (f : Context → Context) : (s.modCtx id f).violations = s.violations := rfl
@[simp] theorem modCtx_keys (s : State) (id : Nat) (f : Context → Context) : (s.modCtx id f).keys = s.keys := rfl
@[simp] theorem modCtx_insecure (s : State) (id : Nat) (f : Context → Context) : (s.modCtx id f).insecure = s.insecure := rfl
@[simp] theorem modCtx_keyed (s : State) (id : Nat) (f : Context → Context) : (s.modCtx id f).keyed = s.keyed := rfl
@[simp] theorem modCtx_dualHost (s : State) (id : Nat) (f : Context → Context) : (s.modCtx id f).dualHost = s.dualHost := rfl
@[simp] theorem modCtx_endpoints (s : State) (id : Nat) (f : Context → Context) : (s.modCtx id f).endpoints = s.endpoints := rfl
@[simp] theorem modCtx_fuses (s : State) (id : Nat) (f : Context → Context) : (s.modCtx id f).fuses = s.fuses := rfl
@[simp] theorem modCtx_fwVersions (s : State) (id : Nat) (f : Context → Context) : (s.modCtx id f).fwVersions = s.fwVersions := rfl
@[simp] theorem modCtx_fwPending (s : State) (id : Nat) (f : Context → Context) : (s.modCtx id f).fwPending = s.fwPending := rfl
@[simp] theorem modCtx_measured (s : State) (id : Nat) (f : Context → Context) : (s.modCtx id f).measured = s.measured := rfl
@[simp] theorem modCtx_stopped (s : State) (id : Nat) (f : Context → Context) : (s.modCtx id f).stopped = s.stopped := rfl
@[simp] theorem modCtx_recovery (s : State) (id : Nat) (f : Context → Context) : (s.modCtx id f).recovery = s.recovery := rfl
@[simp] theorem modCtx_booted (s : State) (id : Nat) (f : Context → Context) : (s.modCtx id f).booted = s.booted := rfl
@[simp] theorem modCore_agenda (s : State) (c : Nat) (f : Core → Core) : (s.modCore c f).agenda = s.agenda := rfl
@[simp] theorem modCore_issues (s : State) (c : Nat) (f : Core → Core) : (s.modCore c f).issues = s.issues := rfl
@[simp] theorem modCore_cur (s : State) (c : Nat) (f : Core → Core) : (s.modCore c f).cur = s.cur := rfl
@[simp] theorem modCore_samples (s : State) (c : Nat) (f : Core → Core) : (s.modCore c f).samples = s.samples := rfl
@[simp] theorem modCore_freeCount (s : State) (c : Nat) (f : Core → Core) : (s.modCore c f).freeCount = s.freeCount := rfl
@[simp] theorem modCore_nextId (s : State) (c : Nat) (f : Core → Core) : (s.modCore c f).nextId = s.nextId := rfl
@[simp] theorem modCore_time (s : State) (c : Nat) (f : Core → Core) : (s.modCore c f).time = s.time := rfl
@[simp] theorem modCore_codes (s : State) (c : Nat) (f : Core → Core) : (s.modCore c f).codes = s.codes := rfl
@[simp] theorem modCore_dev (s : State) (c : Nat) (f : Core → Core) : (s.modCore c f).dev = s.dev := rfl
@[simp] theorem modCore_scratch (s : State) (c : Nat) (f : Core → Core) : (s.modCore c f).scratch = s.scratch := rfl
@[simp] theorem modCore_weight (s : State) (c : Nat) (f : Core → Core) : (s.modCore c f).weight = s.weight := rfl
@[simp] theorem modCore_host (s : State) (c : Nat) (f : Core → Core) : (s.modCore c f).host = s.host := rfl
@[simp] theorem modCore_marks (s : State) (c : Nat) (f : Core → Core) : (s.modCore c f).marks = s.marks := rfl
@[simp] theorem modCore_softErrs (s : State) (c : Nat) (f : Core → Core) : (s.modCore c f).softErrs = s.softErrs := rfl
@[simp] theorem modCore_corrected (s : State) (c : Nat) (f : Core → Core) : (s.modCore c f).corrected = s.corrected := rfl
@[simp] theorem modCore_accs (s : State) (c : Nat) (f : Core → Core) : (s.modCore c f).accs = s.accs := rfl
@[simp] theorem modCore_fetched (s : State) (c : Nat) (f : Core → Core) : (s.modCore c f).fetched = s.fetched := rfl
@[simp] theorem modCore_cmds (s : State) (c : Nat) (f : Core → Core) : (s.modCore c f).cmds = s.cmds := rfl
@[simp] theorem modCore_xfers (s : State) (c : Nat) (f : Core → Core) : (s.modCore c f).xfers = s.xfers := rfl
@[simp] theorem modCore_travel (s : State) (c : Nat) (f : Core → Core) : (s.modCore c f).travel = s.travel := rfl
@[simp] theorem modCore_groups (s : State) (c : Nat) (f : Core → Core) : (s.modCore c f).groups = s.groups := rfl
@[simp] theorem modCore_wgs (s : State) (c : Nat) (f : Core → Core) : (s.modCore c f).wgs = s.wgs := rfl
@[simp] theorem modCore_gangs (s : State) (c : Nat) (f : Core → Core) : (s.modCore c f).gangs = s.gangs := rfl
@[simp] theorem modCore_sweeps (s : State) (c : Nat) (f : Core → Core) : (s.modCore c f).sweeps = s.sweeps := rfl
@[simp] theorem modCore_launches (s : State) (c : Nat) (f : Core → Core) : (s.modCore c f).launches = s.launches := rfl
@[simp] theorem modCore_queues (s : State) (c : Nat) (f : Core → Core) : (s.modCore c f).queues = s.queues := rfl
@[simp] theorem modCore_ctxs (s : State) (c : Nat) (f : Core → Core) : (s.modCore c f).ctxs = s.ctxs := rfl
@[simp] theorem modCore_qtlb (s : State) (c : Nat) (f : Core → Core) : (s.modCore c f).qtlb = s.qtlb := rfl
@[simp] theorem modCore_walkCache (s : State) (c : Nat) (f : Core → Core) : (s.modCore c f).walkCache = s.walkCache := rfl
@[simp] theorem modCore_qmask (s : State) (c : Nat) (f : Core → Core) : (s.modCore c f).qmask = s.qmask := rfl
@[simp] theorem modCore_spares (s : State) (c : Nat) (f : Core → Core) : (s.modCore c f).spares = s.spares := rfl
@[simp] theorem modCore_spareIds (s : State) (c : Nat) (f : Core → Core) : (s.modCore c f).spareIds = s.spareIds := rfl
@[simp] theorem modCore_tally (s : State) (c : Nat) (f : Core → Core) : (s.modCore c f).tally = s.tally := rfl
@[simp] theorem modCore_selfFail (s : State) (c : Nat) (f : Core → Core) : (s.modCore c f).selfFail = s.selfFail := rfl
@[simp] theorem modCore_rowsUsed (s : State) (c : Nat) (f : Core → Core) : (s.modCore c f).rowsUsed = s.rowsUsed := rfl
@[simp] theorem modCore_sliceDet (s : State) (c : Nat) (f : Core → Core) : (s.modCore c f).sliceDet = s.sliceDet := rfl
@[simp] theorem modCore_regions (s : State) (c : Nat) (f : Core → Core) : (s.modCore c f).regions = s.regions := rfl
@[simp] theorem modCore_held (s : State) (c : Nat) (f : Core → Core) : (s.modCore c f).held = s.held := rfl
@[simp] theorem modCore_markers (s : State) (c : Nat) (f : Core → Core) : (s.modCore c f).markers = s.markers := rfl
@[simp] theorem modCore_domains (s : State) (c : Nat) (f : Core → Core) : (s.modCore c f).domains = s.domains := rfl
@[simp] theorem modCore_ranges (s : State) (c : Nat) (f : Core → Core) : (s.modCore c f).ranges = s.ranges := rfl
@[simp] theorem modCore_pages (s : State) (c : Nat) (f : Core → Core) : (s.modCore c f).pages = s.pages := rfl
@[simp] theorem modCore_thawed (s : State) (c : Nat) (f : Core → Core) : (s.modCore c f).thawed = s.thawed := rfl
@[simp] theorem modCore_copyIn (s : State) (c : Nat) (f : Core → Core) : (s.modCore c f).copyIn = s.copyIn := rfl
@[simp] theorem modCore_creditsIn (s : State) (c : Nat) (f : Core → Core) : (s.modCore c f).creditsIn = s.creditsIn := rfl
@[simp] theorem modCore_retires (s : State) (c : Nat) (f : Core → Core) : (s.modCore c f).retires = s.retires := rfl
@[simp] theorem modCore_migs (s : State) (c : Nat) (f : Core → Core) : (s.modCore c f).migs = s.migs := rfl
@[simp] theorem modCore_stubs (s : State) (c : Nat) (f : Core → Core) : (s.modCore c f).stubs = s.stubs := rfl
@[simp] theorem modCore_owners (s : State) (c : Nat) (f : Core → Core) : (s.modCore c f).owners = s.owners := rfl
@[simp] theorem modCore_replicas (s : State) (c : Nat) (f : Core → Core) : (s.modCore c f).replicas = s.replicas := rfl
@[simp] theorem modCore_repsets (s : State) (c : Nat) (f : Core → Core) : (s.modCore c f).repsets = s.repsets := rfl
@[simp] theorem modCore_populated (s : State) (c : Nat) (f : Core → Core) : (s.modCore c f).populated = s.populated := rfl
@[simp] theorem modCore_enabled (s : State) (c : Nat) (f : Core → Core) : (s.modCore c f).enabled = s.enabled := rfl
@[simp] theorem modCore_links (s : State) (c : Nat) (f : Core → Core) : (s.modCore c f).links = s.links := rfl
@[simp] theorem modCore_outSeq (s : State) (c : Nat) (f : Core → Core) : (s.modCore c f).outSeq = s.outSeq := rfl
@[simp] theorem modCore_inSeq (s : State) (c : Nat) (f : Core → Core) : (s.modCore c f).inSeq = s.inSeq := rfl
@[simp] theorem modCore_reorder (s : State) (c : Nat) (f : Core → Core) : (s.modCore c f).reorder = s.reorder := rfl
@[simp] theorem modCore_sent (s : State) (c : Nat) (f : Core → Core) : (s.modCore c f).sent = s.sent := rfl
@[simp] theorem modCore_waiting (s : State) (c : Nat) (f : Core → Core) : (s.modCore c f).waiting = s.waiting := rfl
@[simp] theorem modCore_relays (s : State) (c : Nat) (f : Core → Core) : (s.modCore c f).relays = s.relays := rfl
@[simp] theorem modCore_discards (s : State) (c : Nat) (f : Core → Core) : (s.modCore c f).discards = s.discards := rfl
@[simp] theorem modCore_dieTags (s : State) (c : Nat) (f : Core → Core) : (s.modCore c f).dieTags = s.dieTags := rfl
@[simp] theorem modCore_ftoexp (s : State) (c : Nat) (f : Core → Core) : (s.modCore c f).ftoexp = s.ftoexp := rfl
@[simp] theorem modCore_hostUp0 (s : State) (c : Nat) (f : Core → Core) : (s.modCore c f).hostUp0 = s.hostUp0 := rfl
@[simp] theorem modCore_hostUp1 (s : State) (c : Nat) (f : Core → Core) : (s.modCore c f).hostUp1 = s.hostUp1 := rfl
@[simp] theorem modCore_posted (s : State) (c : Nat) (f : Core → Core) : (s.modCore c f).posted = s.posted := rfl
@[simp] theorem modCore_postedQ (s : State) (c : Nat) (f : Core → Core) : (s.modCore c f).postedQ = s.postedQ := rfl
@[simp] theorem modCore_health (s : State) (c : Nat) (f : Core → Core) : (s.modCore c f).health = s.health := rfl
@[simp] theorem modCore_hqovf (s : State) (c : Nat) (f : Core → Core) : (s.modCore c f).hqovf = s.hqovf := rfl
@[simp] theorem modCore_cntReg (s : State) (c : Nat) (f : Core → Core) : (s.modCore c f).cntReg = s.cntReg := rfl
@[simp] theorem modCore_cntMem (s : State) (c : Nat) (f : Core → Core) : (s.modCore c f).cntMem = s.cntMem := rfl
@[simp] theorem modCore_cntUnc (s : State) (c : Nat) (f : Core → Core) : (s.modCore c f).cntUnc = s.cntUnc := rfl
@[simp] theorem modCore_cycle (s : State) (c : Nat) (f : Core → Core) : (s.modCore c f).cycle = s.cycle := rfl
@[simp] theorem modCore_quantum (s : State) (c : Nat) (f : Core → Core) : (s.modCore c f).quantum = s.quantum := rfl
@[simp] theorem modCore_pwrst (s : State) (c : Nat) (f : Core → Core) : (s.modCore c f).pwrst = s.pwrst := rfl
@[simp] theorem modCore_powerCap (s : State) (c : Nat) (f : Core → Core) : (s.modCore c f).powerCap = s.powerCap := rfl
@[simp] theorem modCore_secureRegions (s : State) (c : Nat) (f : Core → Core) : (s.modCore c f).secureRegions = s.secureRegions := rfl
@[simp] theorem modCore_secureCores (s : State) (c : Nat) (f : Core → Core) : (s.modCore c f).secureCores = s.secureCores := rfl
@[simp] theorem modCore_secureQuartets (s : State) (c : Nat) (f : Core → Core) : (s.modCore c f).secureQuartets = s.secureQuartets := rfl
@[simp] theorem modCore_secureSlices (s : State) (c : Nat) (f : Core → Core) : (s.modCore c f).secureSlices = s.secureSlices := rfl
@[simp] theorem modCore_secureChannels (s : State) (c : Nat) (f : Core → Core) : (s.modCore c f).secureChannels = s.secureChannels := rfl
@[simp] theorem modCore_secureLinks (s : State) (c : Nat) (f : Core → Core) : (s.modCore c f).secureLinks = s.secureLinks := rfl
@[simp] theorem modCore_secureFunctions (s : State) (c : Nat) (f : Core → Core) : (s.modCore c f).secureFunctions = s.secureFunctions := rfl
@[simp] theorem modCore_policy (s : State) (c : Nat) (f : Core → Core) : (s.modCore c f).policy = s.policy := rfl
@[simp] theorem modCore_alarms (s : State) (c : Nat) (f : Core → Core) : (s.modCore c f).alarms = s.alarms := rfl
@[simp] theorem modCore_violations (s : State) (c : Nat) (f : Core → Core) : (s.modCore c f).violations = s.violations := rfl
@[simp] theorem modCore_keys (s : State) (c : Nat) (f : Core → Core) : (s.modCore c f).keys = s.keys := rfl
@[simp] theorem modCore_insecure (s : State) (c : Nat) (f : Core → Core) : (s.modCore c f).insecure = s.insecure := rfl
@[simp] theorem modCore_keyed (s : State) (c : Nat) (f : Core → Core) : (s.modCore c f).keyed = s.keyed := rfl
@[simp] theorem modCore_dualHost (s : State) (c : Nat) (f : Core → Core) : (s.modCore c f).dualHost = s.dualHost := rfl
@[simp] theorem modCore_endpoints (s : State) (c : Nat) (f : Core → Core) : (s.modCore c f).endpoints = s.endpoints := rfl
@[simp] theorem modCore_fuses (s : State) (c : Nat) (f : Core → Core) : (s.modCore c f).fuses = s.fuses := rfl
@[simp] theorem modCore_fwVersions (s : State) (c : Nat) (f : Core → Core) : (s.modCore c f).fwVersions = s.fwVersions := rfl
@[simp] theorem modCore_fwPending (s : State) (c : Nat) (f : Core → Core) : (s.modCore c f).fwPending = s.fwPending := rfl
@[simp] theorem modCore_measured (s : State) (c : Nat) (f : Core → Core) : (s.modCore c f).measured = s.measured := rfl
@[simp] theorem modCore_stopped (s : State) (c : Nat) (f : Core → Core) : (s.modCore c f).stopped = s.stopped := rfl
@[simp] theorem modCore_recovery (s : State) (c : Nat) (f : Core → Core) : (s.modCore c f).recovery = s.recovery := rfl
@[simp] theorem modCore_booted (s : State) (c : Nat) (f : Core → Core) : (s.modCore c f).booted = s.booted := rfl
@[simp] theorem modAcc_agenda (s : State) (id : Nat) (f : Acc → Acc) : (s.modAcc id f).agenda = s.agenda := rfl
@[simp] theorem modAcc_issues (s : State) (id : Nat) (f : Acc → Acc) : (s.modAcc id f).issues = s.issues := rfl
@[simp] theorem modAcc_cur (s : State) (id : Nat) (f : Acc → Acc) : (s.modAcc id f).cur = s.cur := rfl
@[simp] theorem modAcc_samples (s : State) (id : Nat) (f : Acc → Acc) : (s.modAcc id f).samples = s.samples := rfl
@[simp] theorem modAcc_freeCount (s : State) (id : Nat) (f : Acc → Acc) : (s.modAcc id f).freeCount = s.freeCount := rfl
@[simp] theorem modAcc_nextId (s : State) (id : Nat) (f : Acc → Acc) : (s.modAcc id f).nextId = s.nextId := rfl
@[simp] theorem modAcc_time (s : State) (id : Nat) (f : Acc → Acc) : (s.modAcc id f).time = s.time := rfl
@[simp] theorem modAcc_codes (s : State) (id : Nat) (f : Acc → Acc) : (s.modAcc id f).codes = s.codes := rfl
@[simp] theorem modAcc_dev (s : State) (id : Nat) (f : Acc → Acc) : (s.modAcc id f).dev = s.dev := rfl
@[simp] theorem modAcc_scratch (s : State) (id : Nat) (f : Acc → Acc) : (s.modAcc id f).scratch = s.scratch := rfl
@[simp] theorem modAcc_weight (s : State) (id : Nat) (f : Acc → Acc) : (s.modAcc id f).weight = s.weight := rfl
@[simp] theorem modAcc_host (s : State) (id : Nat) (f : Acc → Acc) : (s.modAcc id f).host = s.host := rfl
@[simp] theorem modAcc_marks (s : State) (id : Nat) (f : Acc → Acc) : (s.modAcc id f).marks = s.marks := rfl
@[simp] theorem modAcc_softErrs (s : State) (id : Nat) (f : Acc → Acc) : (s.modAcc id f).softErrs = s.softErrs := rfl
@[simp] theorem modAcc_corrected (s : State) (id : Nat) (f : Acc → Acc) : (s.modAcc id f).corrected = s.corrected := rfl
@[simp] theorem modAcc_fetched (s : State) (id : Nat) (f : Acc → Acc) : (s.modAcc id f).fetched = s.fetched := rfl
@[simp] theorem modAcc_cmds (s : State) (id : Nat) (f : Acc → Acc) : (s.modAcc id f).cmds = s.cmds := rfl
@[simp] theorem modAcc_xfers (s : State) (id : Nat) (f : Acc → Acc) : (s.modAcc id f).xfers = s.xfers := rfl
@[simp] theorem modAcc_travel (s : State) (id : Nat) (f : Acc → Acc) : (s.modAcc id f).travel = s.travel := rfl
@[simp] theorem modAcc_groups (s : State) (id : Nat) (f : Acc → Acc) : (s.modAcc id f).groups = s.groups := rfl
@[simp] theorem modAcc_wgs (s : State) (id : Nat) (f : Acc → Acc) : (s.modAcc id f).wgs = s.wgs := rfl
@[simp] theorem modAcc_gangs (s : State) (id : Nat) (f : Acc → Acc) : (s.modAcc id f).gangs = s.gangs := rfl
@[simp] theorem modAcc_sweeps (s : State) (id : Nat) (f : Acc → Acc) : (s.modAcc id f).sweeps = s.sweeps := rfl
@[simp] theorem modAcc_launches (s : State) (id : Nat) (f : Acc → Acc) : (s.modAcc id f).launches = s.launches := rfl
@[simp] theorem modAcc_queues (s : State) (id : Nat) (f : Acc → Acc) : (s.modAcc id f).queues = s.queues := rfl
@[simp] theorem modAcc_ctxs (s : State) (id : Nat) (f : Acc → Acc) : (s.modAcc id f).ctxs = s.ctxs := rfl
@[simp] theorem modAcc_cores (s : State) (id : Nat) (f : Acc → Acc) : (s.modAcc id f).cores = s.cores := rfl
@[simp] theorem modAcc_qtlb (s : State) (id : Nat) (f : Acc → Acc) : (s.modAcc id f).qtlb = s.qtlb := rfl
@[simp] theorem modAcc_walkCache (s : State) (id : Nat) (f : Acc → Acc) : (s.modAcc id f).walkCache = s.walkCache := rfl
@[simp] theorem modAcc_qmask (s : State) (id : Nat) (f : Acc → Acc) : (s.modAcc id f).qmask = s.qmask := rfl
@[simp] theorem modAcc_spares (s : State) (id : Nat) (f : Acc → Acc) : (s.modAcc id f).spares = s.spares := rfl
@[simp] theorem modAcc_spareIds (s : State) (id : Nat) (f : Acc → Acc) : (s.modAcc id f).spareIds = s.spareIds := rfl
@[simp] theorem modAcc_tally (s : State) (id : Nat) (f : Acc → Acc) : (s.modAcc id f).tally = s.tally := rfl
@[simp] theorem modAcc_selfFail (s : State) (id : Nat) (f : Acc → Acc) : (s.modAcc id f).selfFail = s.selfFail := rfl
@[simp] theorem modAcc_rowsUsed (s : State) (id : Nat) (f : Acc → Acc) : (s.modAcc id f).rowsUsed = s.rowsUsed := rfl
@[simp] theorem modAcc_sliceDet (s : State) (id : Nat) (f : Acc → Acc) : (s.modAcc id f).sliceDet = s.sliceDet := rfl
@[simp] theorem modAcc_regions (s : State) (id : Nat) (f : Acc → Acc) : (s.modAcc id f).regions = s.regions := rfl
@[simp] theorem modAcc_held (s : State) (id : Nat) (f : Acc → Acc) : (s.modAcc id f).held = s.held := rfl
@[simp] theorem modAcc_markers (s : State) (id : Nat) (f : Acc → Acc) : (s.modAcc id f).markers = s.markers := rfl
@[simp] theorem modAcc_domains (s : State) (id : Nat) (f : Acc → Acc) : (s.modAcc id f).domains = s.domains := rfl
@[simp] theorem modAcc_ranges (s : State) (id : Nat) (f : Acc → Acc) : (s.modAcc id f).ranges = s.ranges := rfl
@[simp] theorem modAcc_pages (s : State) (id : Nat) (f : Acc → Acc) : (s.modAcc id f).pages = s.pages := rfl
@[simp] theorem modAcc_thawed (s : State) (id : Nat) (f : Acc → Acc) : (s.modAcc id f).thawed = s.thawed := rfl
@[simp] theorem modAcc_copyIn (s : State) (id : Nat) (f : Acc → Acc) : (s.modAcc id f).copyIn = s.copyIn := rfl
@[simp] theorem modAcc_creditsIn (s : State) (id : Nat) (f : Acc → Acc) : (s.modAcc id f).creditsIn = s.creditsIn := rfl
@[simp] theorem modAcc_retires (s : State) (id : Nat) (f : Acc → Acc) : (s.modAcc id f).retires = s.retires := rfl
@[simp] theorem modAcc_migs (s : State) (id : Nat) (f : Acc → Acc) : (s.modAcc id f).migs = s.migs := rfl
@[simp] theorem modAcc_stubs (s : State) (id : Nat) (f : Acc → Acc) : (s.modAcc id f).stubs = s.stubs := rfl
@[simp] theorem modAcc_owners (s : State) (id : Nat) (f : Acc → Acc) : (s.modAcc id f).owners = s.owners := rfl
@[simp] theorem modAcc_replicas (s : State) (id : Nat) (f : Acc → Acc) : (s.modAcc id f).replicas = s.replicas := rfl
@[simp] theorem modAcc_repsets (s : State) (id : Nat) (f : Acc → Acc) : (s.modAcc id f).repsets = s.repsets := rfl
@[simp] theorem modAcc_populated (s : State) (id : Nat) (f : Acc → Acc) : (s.modAcc id f).populated = s.populated := rfl
@[simp] theorem modAcc_enabled (s : State) (id : Nat) (f : Acc → Acc) : (s.modAcc id f).enabled = s.enabled := rfl
@[simp] theorem modAcc_links (s : State) (id : Nat) (f : Acc → Acc) : (s.modAcc id f).links = s.links := rfl
@[simp] theorem modAcc_outSeq (s : State) (id : Nat) (f : Acc → Acc) : (s.modAcc id f).outSeq = s.outSeq := rfl
@[simp] theorem modAcc_inSeq (s : State) (id : Nat) (f : Acc → Acc) : (s.modAcc id f).inSeq = s.inSeq := rfl
@[simp] theorem modAcc_reorder (s : State) (id : Nat) (f : Acc → Acc) : (s.modAcc id f).reorder = s.reorder := rfl
@[simp] theorem modAcc_sent (s : State) (id : Nat) (f : Acc → Acc) : (s.modAcc id f).sent = s.sent := rfl
@[simp] theorem modAcc_waiting (s : State) (id : Nat) (f : Acc → Acc) : (s.modAcc id f).waiting = s.waiting := rfl
@[simp] theorem modAcc_relays (s : State) (id : Nat) (f : Acc → Acc) : (s.modAcc id f).relays = s.relays := rfl
@[simp] theorem modAcc_discards (s : State) (id : Nat) (f : Acc → Acc) : (s.modAcc id f).discards = s.discards := rfl
@[simp] theorem modAcc_dieTags (s : State) (id : Nat) (f : Acc → Acc) : (s.modAcc id f).dieTags = s.dieTags := rfl
@[simp] theorem modAcc_ftoexp (s : State) (id : Nat) (f : Acc → Acc) : (s.modAcc id f).ftoexp = s.ftoexp := rfl
@[simp] theorem modAcc_hostUp0 (s : State) (id : Nat) (f : Acc → Acc) : (s.modAcc id f).hostUp0 = s.hostUp0 := rfl
@[simp] theorem modAcc_hostUp1 (s : State) (id : Nat) (f : Acc → Acc) : (s.modAcc id f).hostUp1 = s.hostUp1 := rfl
@[simp] theorem modAcc_posted (s : State) (id : Nat) (f : Acc → Acc) : (s.modAcc id f).posted = s.posted := rfl
@[simp] theorem modAcc_postedQ (s : State) (id : Nat) (f : Acc → Acc) : (s.modAcc id f).postedQ = s.postedQ := rfl
@[simp] theorem modAcc_health (s : State) (id : Nat) (f : Acc → Acc) : (s.modAcc id f).health = s.health := rfl
@[simp] theorem modAcc_hqovf (s : State) (id : Nat) (f : Acc → Acc) : (s.modAcc id f).hqovf = s.hqovf := rfl
@[simp] theorem modAcc_cntReg (s : State) (id : Nat) (f : Acc → Acc) : (s.modAcc id f).cntReg = s.cntReg := rfl
@[simp] theorem modAcc_cntMem (s : State) (id : Nat) (f : Acc → Acc) : (s.modAcc id f).cntMem = s.cntMem := rfl
@[simp] theorem modAcc_cntUnc (s : State) (id : Nat) (f : Acc → Acc) : (s.modAcc id f).cntUnc = s.cntUnc := rfl
@[simp] theorem modAcc_cycle (s : State) (id : Nat) (f : Acc → Acc) : (s.modAcc id f).cycle = s.cycle := rfl
@[simp] theorem modAcc_quantum (s : State) (id : Nat) (f : Acc → Acc) : (s.modAcc id f).quantum = s.quantum := rfl
@[simp] theorem modAcc_pwrst (s : State) (id : Nat) (f : Acc → Acc) : (s.modAcc id f).pwrst = s.pwrst := rfl
@[simp] theorem modAcc_powerCap (s : State) (id : Nat) (f : Acc → Acc) : (s.modAcc id f).powerCap = s.powerCap := rfl
@[simp] theorem modAcc_secureRegions (s : State) (id : Nat) (f : Acc → Acc) : (s.modAcc id f).secureRegions = s.secureRegions := rfl
@[simp] theorem modAcc_secureCores (s : State) (id : Nat) (f : Acc → Acc) : (s.modAcc id f).secureCores = s.secureCores := rfl
@[simp] theorem modAcc_secureQuartets (s : State) (id : Nat) (f : Acc → Acc) : (s.modAcc id f).secureQuartets = s.secureQuartets := rfl
@[simp] theorem modAcc_secureSlices (s : State) (id : Nat) (f : Acc → Acc) : (s.modAcc id f).secureSlices = s.secureSlices := rfl
@[simp] theorem modAcc_secureChannels (s : State) (id : Nat) (f : Acc → Acc) : (s.modAcc id f).secureChannels = s.secureChannels := rfl
@[simp] theorem modAcc_secureLinks (s : State) (id : Nat) (f : Acc → Acc) : (s.modAcc id f).secureLinks = s.secureLinks := rfl
@[simp] theorem modAcc_secureFunctions (s : State) (id : Nat) (f : Acc → Acc) : (s.modAcc id f).secureFunctions = s.secureFunctions := rfl
@[simp] theorem modAcc_policy (s : State) (id : Nat) (f : Acc → Acc) : (s.modAcc id f).policy = s.policy := rfl
@[simp] theorem modAcc_alarms (s : State) (id : Nat) (f : Acc → Acc) : (s.modAcc id f).alarms = s.alarms := rfl
@[simp] theorem modAcc_violations (s : State) (id : Nat) (f : Acc → Acc) : (s.modAcc id f).violations = s.violations := rfl
@[simp] theorem modAcc_keys (s : State) (id : Nat) (f : Acc → Acc) : (s.modAcc id f).keys = s.keys := rfl
@[simp] theorem modAcc_insecure (s : State) (id : Nat) (f : Acc → Acc) : (s.modAcc id f).insecure = s.insecure := rfl
@[simp] theorem modAcc_keyed (s : State) (id : Nat) (f : Acc → Acc) : (s.modAcc id f).keyed = s.keyed := rfl
@[simp] theorem modAcc_dualHost (s : State) (id : Nat) (f : Acc → Acc) : (s.modAcc id f).dualHost = s.dualHost := rfl
@[simp] theorem modAcc_endpoints (s : State) (id : Nat) (f : Acc → Acc) : (s.modAcc id f).endpoints = s.endpoints := rfl
@[simp] theorem modAcc_fuses (s : State) (id : Nat) (f : Acc → Acc) : (s.modAcc id f).fuses = s.fuses := rfl
@[simp] theorem modAcc_fwVersions (s : State) (id : Nat) (f : Acc → Acc) : (s.modAcc id f).fwVersions = s.fwVersions := rfl
@[simp] theorem modAcc_fwPending (s : State) (id : Nat) (f : Acc → Acc) : (s.modAcc id f).fwPending = s.fwPending := rfl
@[simp] theorem modAcc_measured (s : State) (id : Nat) (f : Acc → Acc) : (s.modAcc id f).measured = s.measured := rfl
@[simp] theorem modAcc_stopped (s : State) (id : Nat) (f : Acc → Acc) : (s.modAcc id f).stopped = s.stopped := rfl
@[simp] theorem modAcc_recovery (s : State) (id : Nat) (f : Acc → Acc) : (s.modAcc id f).recovery = s.recovery := rfl
@[simp] theorem modAcc_booted (s : State) (id : Nat) (f : Acc → Acc) : (s.modAcc id f).booted = s.booted := rfl
@[simp] theorem dropAcc_agenda (s : State) (id : Nat) : (s.dropAcc id).agenda = s.agenda := rfl
@[simp] theorem dropAcc_issues (s : State) (id : Nat) : (s.dropAcc id).issues = s.issues := rfl
@[simp] theorem dropAcc_cur (s : State) (id : Nat) : (s.dropAcc id).cur = s.cur := rfl
@[simp] theorem dropAcc_samples (s : State) (id : Nat) : (s.dropAcc id).samples = s.samples := rfl
@[simp] theorem dropAcc_freeCount (s : State) (id : Nat) : (s.dropAcc id).freeCount = s.freeCount := rfl
@[simp] theorem dropAcc_nextId (s : State) (id : Nat) : (s.dropAcc id).nextId = s.nextId := rfl
@[simp] theorem dropAcc_time (s : State) (id : Nat) : (s.dropAcc id).time = s.time := rfl
@[simp] theorem dropAcc_codes (s : State) (id : Nat) : (s.dropAcc id).codes = s.codes := rfl
@[simp] theorem dropAcc_dev (s : State) (id : Nat) : (s.dropAcc id).dev = s.dev := rfl
@[simp] theorem dropAcc_scratch (s : State) (id : Nat) : (s.dropAcc id).scratch = s.scratch := rfl
@[simp] theorem dropAcc_weight (s : State) (id : Nat) : (s.dropAcc id).weight = s.weight := rfl
@[simp] theorem dropAcc_host (s : State) (id : Nat) : (s.dropAcc id).host = s.host := rfl
@[simp] theorem dropAcc_marks (s : State) (id : Nat) : (s.dropAcc id).marks = s.marks := rfl
@[simp] theorem dropAcc_softErrs (s : State) (id : Nat) : (s.dropAcc id).softErrs = s.softErrs := rfl
@[simp] theorem dropAcc_corrected (s : State) (id : Nat) : (s.dropAcc id).corrected = s.corrected := rfl
@[simp] theorem dropAcc_fetched (s : State) (id : Nat) : (s.dropAcc id).fetched = s.fetched := rfl
@[simp] theorem dropAcc_cmds (s : State) (id : Nat) : (s.dropAcc id).cmds = s.cmds := rfl
@[simp] theorem dropAcc_xfers (s : State) (id : Nat) : (s.dropAcc id).xfers = s.xfers := rfl
@[simp] theorem dropAcc_travel (s : State) (id : Nat) : (s.dropAcc id).travel = s.travel := rfl
@[simp] theorem dropAcc_groups (s : State) (id : Nat) : (s.dropAcc id).groups = s.groups := rfl
@[simp] theorem dropAcc_wgs (s : State) (id : Nat) : (s.dropAcc id).wgs = s.wgs := rfl
@[simp] theorem dropAcc_gangs (s : State) (id : Nat) : (s.dropAcc id).gangs = s.gangs := rfl
@[simp] theorem dropAcc_sweeps (s : State) (id : Nat) : (s.dropAcc id).sweeps = s.sweeps := rfl
@[simp] theorem dropAcc_launches (s : State) (id : Nat) : (s.dropAcc id).launches = s.launches := rfl
@[simp] theorem dropAcc_queues (s : State) (id : Nat) : (s.dropAcc id).queues = s.queues := rfl
@[simp] theorem dropAcc_ctxs (s : State) (id : Nat) : (s.dropAcc id).ctxs = s.ctxs := rfl
@[simp] theorem dropAcc_cores (s : State) (id : Nat) : (s.dropAcc id).cores = s.cores := rfl
@[simp] theorem dropAcc_qtlb (s : State) (id : Nat) : (s.dropAcc id).qtlb = s.qtlb := rfl
@[simp] theorem dropAcc_walkCache (s : State) (id : Nat) : (s.dropAcc id).walkCache = s.walkCache := rfl
@[simp] theorem dropAcc_qmask (s : State) (id : Nat) : (s.dropAcc id).qmask = s.qmask := rfl
@[simp] theorem dropAcc_spares (s : State) (id : Nat) : (s.dropAcc id).spares = s.spares := rfl
@[simp] theorem dropAcc_spareIds (s : State) (id : Nat) : (s.dropAcc id).spareIds = s.spareIds := rfl
@[simp] theorem dropAcc_tally (s : State) (id : Nat) : (s.dropAcc id).tally = s.tally := rfl
@[simp] theorem dropAcc_selfFail (s : State) (id : Nat) : (s.dropAcc id).selfFail = s.selfFail := rfl
@[simp] theorem dropAcc_rowsUsed (s : State) (id : Nat) : (s.dropAcc id).rowsUsed = s.rowsUsed := rfl
@[simp] theorem dropAcc_sliceDet (s : State) (id : Nat) : (s.dropAcc id).sliceDet = s.sliceDet := rfl
@[simp] theorem dropAcc_regions (s : State) (id : Nat) : (s.dropAcc id).regions = s.regions := rfl
@[simp] theorem dropAcc_held (s : State) (id : Nat) : (s.dropAcc id).held = s.held := rfl
@[simp] theorem dropAcc_markers (s : State) (id : Nat) : (s.dropAcc id).markers = s.markers := rfl
@[simp] theorem dropAcc_domains (s : State) (id : Nat) : (s.dropAcc id).domains = s.domains := rfl
@[simp] theorem dropAcc_ranges (s : State) (id : Nat) : (s.dropAcc id).ranges = s.ranges := rfl
@[simp] theorem dropAcc_pages (s : State) (id : Nat) : (s.dropAcc id).pages = s.pages := rfl
@[simp] theorem dropAcc_thawed (s : State) (id : Nat) : (s.dropAcc id).thawed = s.thawed := rfl
@[simp] theorem dropAcc_copyIn (s : State) (id : Nat) : (s.dropAcc id).copyIn = s.copyIn := rfl
@[simp] theorem dropAcc_creditsIn (s : State) (id : Nat) : (s.dropAcc id).creditsIn = s.creditsIn := rfl
@[simp] theorem dropAcc_retires (s : State) (id : Nat) : (s.dropAcc id).retires = s.retires := rfl
@[simp] theorem dropAcc_migs (s : State) (id : Nat) : (s.dropAcc id).migs = s.migs := rfl
@[simp] theorem dropAcc_stubs (s : State) (id : Nat) : (s.dropAcc id).stubs = s.stubs := rfl
@[simp] theorem dropAcc_owners (s : State) (id : Nat) : (s.dropAcc id).owners = s.owners := rfl
@[simp] theorem dropAcc_replicas (s : State) (id : Nat) : (s.dropAcc id).replicas = s.replicas := rfl
@[simp] theorem dropAcc_repsets (s : State) (id : Nat) : (s.dropAcc id).repsets = s.repsets := rfl
@[simp] theorem dropAcc_populated (s : State) (id : Nat) : (s.dropAcc id).populated = s.populated := rfl
@[simp] theorem dropAcc_enabled (s : State) (id : Nat) : (s.dropAcc id).enabled = s.enabled := rfl
@[simp] theorem dropAcc_links (s : State) (id : Nat) : (s.dropAcc id).links = s.links := rfl
@[simp] theorem dropAcc_outSeq (s : State) (id : Nat) : (s.dropAcc id).outSeq = s.outSeq := rfl
@[simp] theorem dropAcc_inSeq (s : State) (id : Nat) : (s.dropAcc id).inSeq = s.inSeq := rfl
@[simp] theorem dropAcc_reorder (s : State) (id : Nat) : (s.dropAcc id).reorder = s.reorder := rfl
@[simp] theorem dropAcc_sent (s : State) (id : Nat) : (s.dropAcc id).sent = s.sent := rfl
@[simp] theorem dropAcc_waiting (s : State) (id : Nat) : (s.dropAcc id).waiting = s.waiting := rfl
@[simp] theorem dropAcc_relays (s : State) (id : Nat) : (s.dropAcc id).relays = s.relays := rfl
@[simp] theorem dropAcc_discards (s : State) (id : Nat) : (s.dropAcc id).discards = s.discards := rfl
@[simp] theorem dropAcc_dieTags (s : State) (id : Nat) : (s.dropAcc id).dieTags = s.dieTags := rfl
@[simp] theorem dropAcc_ftoexp (s : State) (id : Nat) : (s.dropAcc id).ftoexp = s.ftoexp := rfl
@[simp] theorem dropAcc_hostUp0 (s : State) (id : Nat) : (s.dropAcc id).hostUp0 = s.hostUp0 := rfl
@[simp] theorem dropAcc_hostUp1 (s : State) (id : Nat) : (s.dropAcc id).hostUp1 = s.hostUp1 := rfl
@[simp] theorem dropAcc_posted (s : State) (id : Nat) : (s.dropAcc id).posted = s.posted := rfl
@[simp] theorem dropAcc_postedQ (s : State) (id : Nat) : (s.dropAcc id).postedQ = s.postedQ := rfl
@[simp] theorem dropAcc_health (s : State) (id : Nat) : (s.dropAcc id).health = s.health := rfl
@[simp] theorem dropAcc_hqovf (s : State) (id : Nat) : (s.dropAcc id).hqovf = s.hqovf := rfl
@[simp] theorem dropAcc_cntReg (s : State) (id : Nat) : (s.dropAcc id).cntReg = s.cntReg := rfl
@[simp] theorem dropAcc_cntMem (s : State) (id : Nat) : (s.dropAcc id).cntMem = s.cntMem := rfl
@[simp] theorem dropAcc_cntUnc (s : State) (id : Nat) : (s.dropAcc id).cntUnc = s.cntUnc := rfl
@[simp] theorem dropAcc_cycle (s : State) (id : Nat) : (s.dropAcc id).cycle = s.cycle := rfl
@[simp] theorem dropAcc_quantum (s : State) (id : Nat) : (s.dropAcc id).quantum = s.quantum := rfl
@[simp] theorem dropAcc_pwrst (s : State) (id : Nat) : (s.dropAcc id).pwrst = s.pwrst := rfl
@[simp] theorem dropAcc_powerCap (s : State) (id : Nat) : (s.dropAcc id).powerCap = s.powerCap := rfl
@[simp] theorem dropAcc_secureRegions (s : State) (id : Nat) : (s.dropAcc id).secureRegions = s.secureRegions := rfl
@[simp] theorem dropAcc_secureCores (s : State) (id : Nat) : (s.dropAcc id).secureCores = s.secureCores := rfl
@[simp] theorem dropAcc_secureQuartets (s : State) (id : Nat) : (s.dropAcc id).secureQuartets = s.secureQuartets := rfl
@[simp] theorem dropAcc_secureSlices (s : State) (id : Nat) : (s.dropAcc id).secureSlices = s.secureSlices := rfl
@[simp] theorem dropAcc_secureChannels (s : State) (id : Nat) : (s.dropAcc id).secureChannels = s.secureChannels := rfl
@[simp] theorem dropAcc_secureLinks (s : State) (id : Nat) : (s.dropAcc id).secureLinks = s.secureLinks := rfl
@[simp] theorem dropAcc_secureFunctions (s : State) (id : Nat) : (s.dropAcc id).secureFunctions = s.secureFunctions := rfl
@[simp] theorem dropAcc_policy (s : State) (id : Nat) : (s.dropAcc id).policy = s.policy := rfl
@[simp] theorem dropAcc_alarms (s : State) (id : Nat) : (s.dropAcc id).alarms = s.alarms := rfl
@[simp] theorem dropAcc_violations (s : State) (id : Nat) : (s.dropAcc id).violations = s.violations := rfl
@[simp] theorem dropAcc_keys (s : State) (id : Nat) : (s.dropAcc id).keys = s.keys := rfl
@[simp] theorem dropAcc_insecure (s : State) (id : Nat) : (s.dropAcc id).insecure = s.insecure := rfl
@[simp] theorem dropAcc_keyed (s : State) (id : Nat) : (s.dropAcc id).keyed = s.keyed := rfl
@[simp] theorem dropAcc_dualHost (s : State) (id : Nat) : (s.dropAcc id).dualHost = s.dualHost := rfl
@[simp] theorem dropAcc_endpoints (s : State) (id : Nat) : (s.dropAcc id).endpoints = s.endpoints := rfl
@[simp] theorem dropAcc_fuses (s : State) (id : Nat) : (s.dropAcc id).fuses = s.fuses := rfl
@[simp] theorem dropAcc_fwVersions (s : State) (id : Nat) : (s.dropAcc id).fwVersions = s.fwVersions := rfl
@[simp] theorem dropAcc_fwPending (s : State) (id : Nat) : (s.dropAcc id).fwPending = s.fwPending := rfl
@[simp] theorem dropAcc_measured (s : State) (id : Nat) : (s.dropAcc id).measured = s.measured := rfl
@[simp] theorem dropAcc_stopped (s : State) (id : Nat) : (s.dropAcc id).stopped = s.stopped := rfl
@[simp] theorem dropAcc_recovery (s : State) (id : Nat) : (s.dropAcc id).recovery = s.recovery := rfl
@[simp] theorem dropAcc_booted (s : State) (id : Nat) : (s.dropAcc id).booted = s.booted := rfl
@[simp] theorem modCmd_agenda (s : State) (id : Nat) (f : Cmd → Cmd) : (s.modCmd id f).agenda = s.agenda := rfl
@[simp] theorem modCmd_issues (s : State) (id : Nat) (f : Cmd → Cmd) : (s.modCmd id f).issues = s.issues := rfl
@[simp] theorem modCmd_cur (s : State) (id : Nat) (f : Cmd → Cmd) : (s.modCmd id f).cur = s.cur := rfl
@[simp] theorem modCmd_samples (s : State) (id : Nat) (f : Cmd → Cmd) : (s.modCmd id f).samples = s.samples := rfl
@[simp] theorem modCmd_freeCount (s : State) (id : Nat) (f : Cmd → Cmd) : (s.modCmd id f).freeCount = s.freeCount := rfl
@[simp] theorem modCmd_nextId (s : State) (id : Nat) (f : Cmd → Cmd) : (s.modCmd id f).nextId = s.nextId := rfl
@[simp] theorem modCmd_time (s : State) (id : Nat) (f : Cmd → Cmd) : (s.modCmd id f).time = s.time := rfl
@[simp] theorem modCmd_codes (s : State) (id : Nat) (f : Cmd → Cmd) : (s.modCmd id f).codes = s.codes := rfl
@[simp] theorem modCmd_dev (s : State) (id : Nat) (f : Cmd → Cmd) : (s.modCmd id f).dev = s.dev := rfl
@[simp] theorem modCmd_scratch (s : State) (id : Nat) (f : Cmd → Cmd) : (s.modCmd id f).scratch = s.scratch := rfl
@[simp] theorem modCmd_weight (s : State) (id : Nat) (f : Cmd → Cmd) : (s.modCmd id f).weight = s.weight := rfl
@[simp] theorem modCmd_host (s : State) (id : Nat) (f : Cmd → Cmd) : (s.modCmd id f).host = s.host := rfl
@[simp] theorem modCmd_marks (s : State) (id : Nat) (f : Cmd → Cmd) : (s.modCmd id f).marks = s.marks := rfl
@[simp] theorem modCmd_softErrs (s : State) (id : Nat) (f : Cmd → Cmd) : (s.modCmd id f).softErrs = s.softErrs := rfl
@[simp] theorem modCmd_corrected (s : State) (id : Nat) (f : Cmd → Cmd) : (s.modCmd id f).corrected = s.corrected := rfl
@[simp] theorem modCmd_accs (s : State) (id : Nat) (f : Cmd → Cmd) : (s.modCmd id f).accs = s.accs := rfl
@[simp] theorem modCmd_fetched (s : State) (id : Nat) (f : Cmd → Cmd) : (s.modCmd id f).fetched = s.fetched := rfl
@[simp] theorem modCmd_xfers (s : State) (id : Nat) (f : Cmd → Cmd) : (s.modCmd id f).xfers = s.xfers := rfl
@[simp] theorem modCmd_travel (s : State) (id : Nat) (f : Cmd → Cmd) : (s.modCmd id f).travel = s.travel := rfl
@[simp] theorem modCmd_groups (s : State) (id : Nat) (f : Cmd → Cmd) : (s.modCmd id f).groups = s.groups := rfl
@[simp] theorem modCmd_wgs (s : State) (id : Nat) (f : Cmd → Cmd) : (s.modCmd id f).wgs = s.wgs := rfl
@[simp] theorem modCmd_gangs (s : State) (id : Nat) (f : Cmd → Cmd) : (s.modCmd id f).gangs = s.gangs := rfl
@[simp] theorem modCmd_sweeps (s : State) (id : Nat) (f : Cmd → Cmd) : (s.modCmd id f).sweeps = s.sweeps := rfl
@[simp] theorem modCmd_launches (s : State) (id : Nat) (f : Cmd → Cmd) : (s.modCmd id f).launches = s.launches := rfl
@[simp] theorem modCmd_queues (s : State) (id : Nat) (f : Cmd → Cmd) : (s.modCmd id f).queues = s.queues := rfl
@[simp] theorem modCmd_ctxs (s : State) (id : Nat) (f : Cmd → Cmd) : (s.modCmd id f).ctxs = s.ctxs := rfl
@[simp] theorem modCmd_cores (s : State) (id : Nat) (f : Cmd → Cmd) : (s.modCmd id f).cores = s.cores := rfl
@[simp] theorem modCmd_qtlb (s : State) (id : Nat) (f : Cmd → Cmd) : (s.modCmd id f).qtlb = s.qtlb := rfl
@[simp] theorem modCmd_walkCache (s : State) (id : Nat) (f : Cmd → Cmd) : (s.modCmd id f).walkCache = s.walkCache := rfl
@[simp] theorem modCmd_qmask (s : State) (id : Nat) (f : Cmd → Cmd) : (s.modCmd id f).qmask = s.qmask := rfl
@[simp] theorem modCmd_spares (s : State) (id : Nat) (f : Cmd → Cmd) : (s.modCmd id f).spares = s.spares := rfl
@[simp] theorem modCmd_spareIds (s : State) (id : Nat) (f : Cmd → Cmd) : (s.modCmd id f).spareIds = s.spareIds := rfl
@[simp] theorem modCmd_tally (s : State) (id : Nat) (f : Cmd → Cmd) : (s.modCmd id f).tally = s.tally := rfl
@[simp] theorem modCmd_selfFail (s : State) (id : Nat) (f : Cmd → Cmd) : (s.modCmd id f).selfFail = s.selfFail := rfl
@[simp] theorem modCmd_rowsUsed (s : State) (id : Nat) (f : Cmd → Cmd) : (s.modCmd id f).rowsUsed = s.rowsUsed := rfl
@[simp] theorem modCmd_sliceDet (s : State) (id : Nat) (f : Cmd → Cmd) : (s.modCmd id f).sliceDet = s.sliceDet := rfl
@[simp] theorem modCmd_regions (s : State) (id : Nat) (f : Cmd → Cmd) : (s.modCmd id f).regions = s.regions := rfl
@[simp] theorem modCmd_held (s : State) (id : Nat) (f : Cmd → Cmd) : (s.modCmd id f).held = s.held := rfl
@[simp] theorem modCmd_markers (s : State) (id : Nat) (f : Cmd → Cmd) : (s.modCmd id f).markers = s.markers := rfl
@[simp] theorem modCmd_domains (s : State) (id : Nat) (f : Cmd → Cmd) : (s.modCmd id f).domains = s.domains := rfl
@[simp] theorem modCmd_ranges (s : State) (id : Nat) (f : Cmd → Cmd) : (s.modCmd id f).ranges = s.ranges := rfl
@[simp] theorem modCmd_pages (s : State) (id : Nat) (f : Cmd → Cmd) : (s.modCmd id f).pages = s.pages := rfl
@[simp] theorem modCmd_thawed (s : State) (id : Nat) (f : Cmd → Cmd) : (s.modCmd id f).thawed = s.thawed := rfl
@[simp] theorem modCmd_copyIn (s : State) (id : Nat) (f : Cmd → Cmd) : (s.modCmd id f).copyIn = s.copyIn := rfl
@[simp] theorem modCmd_creditsIn (s : State) (id : Nat) (f : Cmd → Cmd) : (s.modCmd id f).creditsIn = s.creditsIn := rfl
@[simp] theorem modCmd_retires (s : State) (id : Nat) (f : Cmd → Cmd) : (s.modCmd id f).retires = s.retires := rfl
@[simp] theorem modCmd_migs (s : State) (id : Nat) (f : Cmd → Cmd) : (s.modCmd id f).migs = s.migs := rfl
@[simp] theorem modCmd_stubs (s : State) (id : Nat) (f : Cmd → Cmd) : (s.modCmd id f).stubs = s.stubs := rfl
@[simp] theorem modCmd_owners (s : State) (id : Nat) (f : Cmd → Cmd) : (s.modCmd id f).owners = s.owners := rfl
@[simp] theorem modCmd_replicas (s : State) (id : Nat) (f : Cmd → Cmd) : (s.modCmd id f).replicas = s.replicas := rfl
@[simp] theorem modCmd_repsets (s : State) (id : Nat) (f : Cmd → Cmd) : (s.modCmd id f).repsets = s.repsets := rfl
@[simp] theorem modCmd_populated (s : State) (id : Nat) (f : Cmd → Cmd) : (s.modCmd id f).populated = s.populated := rfl
@[simp] theorem modCmd_enabled (s : State) (id : Nat) (f : Cmd → Cmd) : (s.modCmd id f).enabled = s.enabled := rfl
@[simp] theorem modCmd_links (s : State) (id : Nat) (f : Cmd → Cmd) : (s.modCmd id f).links = s.links := rfl
@[simp] theorem modCmd_outSeq (s : State) (id : Nat) (f : Cmd → Cmd) : (s.modCmd id f).outSeq = s.outSeq := rfl
@[simp] theorem modCmd_inSeq (s : State) (id : Nat) (f : Cmd → Cmd) : (s.modCmd id f).inSeq = s.inSeq := rfl
@[simp] theorem modCmd_reorder (s : State) (id : Nat) (f : Cmd → Cmd) : (s.modCmd id f).reorder = s.reorder := rfl
@[simp] theorem modCmd_sent (s : State) (id : Nat) (f : Cmd → Cmd) : (s.modCmd id f).sent = s.sent := rfl
@[simp] theorem modCmd_waiting (s : State) (id : Nat) (f : Cmd → Cmd) : (s.modCmd id f).waiting = s.waiting := rfl
@[simp] theorem modCmd_relays (s : State) (id : Nat) (f : Cmd → Cmd) : (s.modCmd id f).relays = s.relays := rfl
@[simp] theorem modCmd_discards (s : State) (id : Nat) (f : Cmd → Cmd) : (s.modCmd id f).discards = s.discards := rfl
@[simp] theorem modCmd_dieTags (s : State) (id : Nat) (f : Cmd → Cmd) : (s.modCmd id f).dieTags = s.dieTags := rfl
@[simp] theorem modCmd_ftoexp (s : State) (id : Nat) (f : Cmd → Cmd) : (s.modCmd id f).ftoexp = s.ftoexp := rfl
@[simp] theorem modCmd_hostUp0 (s : State) (id : Nat) (f : Cmd → Cmd) : (s.modCmd id f).hostUp0 = s.hostUp0 := rfl
@[simp] theorem modCmd_hostUp1 (s : State) (id : Nat) (f : Cmd → Cmd) : (s.modCmd id f).hostUp1 = s.hostUp1 := rfl
@[simp] theorem modCmd_posted (s : State) (id : Nat) (f : Cmd → Cmd) : (s.modCmd id f).posted = s.posted := rfl
@[simp] theorem modCmd_postedQ (s : State) (id : Nat) (f : Cmd → Cmd) : (s.modCmd id f).postedQ = s.postedQ := rfl
@[simp] theorem modCmd_health (s : State) (id : Nat) (f : Cmd → Cmd) : (s.modCmd id f).health = s.health := rfl
@[simp] theorem modCmd_hqovf (s : State) (id : Nat) (f : Cmd → Cmd) : (s.modCmd id f).hqovf = s.hqovf := rfl
@[simp] theorem modCmd_cntReg (s : State) (id : Nat) (f : Cmd → Cmd) : (s.modCmd id f).cntReg = s.cntReg := rfl
@[simp] theorem modCmd_cntMem (s : State) (id : Nat) (f : Cmd → Cmd) : (s.modCmd id f).cntMem = s.cntMem := rfl
@[simp] theorem modCmd_cntUnc (s : State) (id : Nat) (f : Cmd → Cmd) : (s.modCmd id f).cntUnc = s.cntUnc := rfl
@[simp] theorem modCmd_cycle (s : State) (id : Nat) (f : Cmd → Cmd) : (s.modCmd id f).cycle = s.cycle := rfl
@[simp] theorem modCmd_quantum (s : State) (id : Nat) (f : Cmd → Cmd) : (s.modCmd id f).quantum = s.quantum := rfl
@[simp] theorem modCmd_pwrst (s : State) (id : Nat) (f : Cmd → Cmd) : (s.modCmd id f).pwrst = s.pwrst := rfl
@[simp] theorem modCmd_powerCap (s : State) (id : Nat) (f : Cmd → Cmd) : (s.modCmd id f).powerCap = s.powerCap := rfl
@[simp] theorem modCmd_secureRegions (s : State) (id : Nat) (f : Cmd → Cmd) : (s.modCmd id f).secureRegions = s.secureRegions := rfl
@[simp] theorem modCmd_secureCores (s : State) (id : Nat) (f : Cmd → Cmd) : (s.modCmd id f).secureCores = s.secureCores := rfl
@[simp] theorem modCmd_secureQuartets (s : State) (id : Nat) (f : Cmd → Cmd) : (s.modCmd id f).secureQuartets = s.secureQuartets := rfl
@[simp] theorem modCmd_secureSlices (s : State) (id : Nat) (f : Cmd → Cmd) : (s.modCmd id f).secureSlices = s.secureSlices := rfl
@[simp] theorem modCmd_secureChannels (s : State) (id : Nat) (f : Cmd → Cmd) : (s.modCmd id f).secureChannels = s.secureChannels := rfl
@[simp] theorem modCmd_secureLinks (s : State) (id : Nat) (f : Cmd → Cmd) : (s.modCmd id f).secureLinks = s.secureLinks := rfl
@[simp] theorem modCmd_secureFunctions (s : State) (id : Nat) (f : Cmd → Cmd) : (s.modCmd id f).secureFunctions = s.secureFunctions := rfl
@[simp] theorem modCmd_policy (s : State) (id : Nat) (f : Cmd → Cmd) : (s.modCmd id f).policy = s.policy := rfl
@[simp] theorem modCmd_alarms (s : State) (id : Nat) (f : Cmd → Cmd) : (s.modCmd id f).alarms = s.alarms := rfl
@[simp] theorem modCmd_violations (s : State) (id : Nat) (f : Cmd → Cmd) : (s.modCmd id f).violations = s.violations := rfl
@[simp] theorem modCmd_keys (s : State) (id : Nat) (f : Cmd → Cmd) : (s.modCmd id f).keys = s.keys := rfl
@[simp] theorem modCmd_insecure (s : State) (id : Nat) (f : Cmd → Cmd) : (s.modCmd id f).insecure = s.insecure := rfl
@[simp] theorem modCmd_keyed (s : State) (id : Nat) (f : Cmd → Cmd) : (s.modCmd id f).keyed = s.keyed := rfl
@[simp] theorem modCmd_dualHost (s : State) (id : Nat) (f : Cmd → Cmd) : (s.modCmd id f).dualHost = s.dualHost := rfl
@[simp] theorem modCmd_endpoints (s : State) (id : Nat) (f : Cmd → Cmd) : (s.modCmd id f).endpoints = s.endpoints := rfl
@[simp] theorem modCmd_fuses (s : State) (id : Nat) (f : Cmd → Cmd) : (s.modCmd id f).fuses = s.fuses := rfl
@[simp] theorem modCmd_fwVersions (s : State) (id : Nat) (f : Cmd → Cmd) : (s.modCmd id f).fwVersions = s.fwVersions := rfl
@[simp] theorem modCmd_fwPending (s : State) (id : Nat) (f : Cmd → Cmd) : (s.modCmd id f).fwPending = s.fwPending := rfl
@[simp] theorem modCmd_measured (s : State) (id : Nat) (f : Cmd → Cmd) : (s.modCmd id f).measured = s.measured := rfl
@[simp] theorem modCmd_stopped (s : State) (id : Nat) (f : Cmd → Cmd) : (s.modCmd id f).stopped = s.stopped := rfl
@[simp] theorem modCmd_recovery (s : State) (id : Nat) (f : Cmd → Cmd) : (s.modCmd id f).recovery = s.recovery := rfl
@[simp] theorem modCmd_booted (s : State) (id : Nat) (f : Cmd → Cmd) : (s.modCmd id f).booted = s.booted := rfl
@[simp] theorem modXfer_agenda (s : State) (id : Nat) (f : Xfer → Xfer) : (s.modXfer id f).agenda = s.agenda := rfl
@[simp] theorem modXfer_issues (s : State) (id : Nat) (f : Xfer → Xfer) : (s.modXfer id f).issues = s.issues := rfl
@[simp] theorem modXfer_cur (s : State) (id : Nat) (f : Xfer → Xfer) : (s.modXfer id f).cur = s.cur := rfl
@[simp] theorem modXfer_samples (s : State) (id : Nat) (f : Xfer → Xfer) : (s.modXfer id f).samples = s.samples := rfl
@[simp] theorem modXfer_freeCount (s : State) (id : Nat) (f : Xfer → Xfer) : (s.modXfer id f).freeCount = s.freeCount := rfl
@[simp] theorem modXfer_nextId (s : State) (id : Nat) (f : Xfer → Xfer) : (s.modXfer id f).nextId = s.nextId := rfl
@[simp] theorem modXfer_time (s : State) (id : Nat) (f : Xfer → Xfer) : (s.modXfer id f).time = s.time := rfl
@[simp] theorem modXfer_codes (s : State) (id : Nat) (f : Xfer → Xfer) : (s.modXfer id f).codes = s.codes := rfl
@[simp] theorem modXfer_dev (s : State) (id : Nat) (f : Xfer → Xfer) : (s.modXfer id f).dev = s.dev := rfl
@[simp] theorem modXfer_scratch (s : State) (id : Nat) (f : Xfer → Xfer) : (s.modXfer id f).scratch = s.scratch := rfl
@[simp] theorem modXfer_weight (s : State) (id : Nat) (f : Xfer → Xfer) : (s.modXfer id f).weight = s.weight := rfl
@[simp] theorem modXfer_host (s : State) (id : Nat) (f : Xfer → Xfer) : (s.modXfer id f).host = s.host := rfl
@[simp] theorem modXfer_marks (s : State) (id : Nat) (f : Xfer → Xfer) : (s.modXfer id f).marks = s.marks := rfl
@[simp] theorem modXfer_softErrs (s : State) (id : Nat) (f : Xfer → Xfer) : (s.modXfer id f).softErrs = s.softErrs := rfl
@[simp] theorem modXfer_corrected (s : State) (id : Nat) (f : Xfer → Xfer) : (s.modXfer id f).corrected = s.corrected := rfl
@[simp] theorem modXfer_accs (s : State) (id : Nat) (f : Xfer → Xfer) : (s.modXfer id f).accs = s.accs := rfl
@[simp] theorem modXfer_fetched (s : State) (id : Nat) (f : Xfer → Xfer) : (s.modXfer id f).fetched = s.fetched := rfl
@[simp] theorem modXfer_cmds (s : State) (id : Nat) (f : Xfer → Xfer) : (s.modXfer id f).cmds = s.cmds := rfl
@[simp] theorem modXfer_travel (s : State) (id : Nat) (f : Xfer → Xfer) : (s.modXfer id f).travel = s.travel := rfl
@[simp] theorem modXfer_groups (s : State) (id : Nat) (f : Xfer → Xfer) : (s.modXfer id f).groups = s.groups := rfl
@[simp] theorem modXfer_wgs (s : State) (id : Nat) (f : Xfer → Xfer) : (s.modXfer id f).wgs = s.wgs := rfl
@[simp] theorem modXfer_gangs (s : State) (id : Nat) (f : Xfer → Xfer) : (s.modXfer id f).gangs = s.gangs := rfl
@[simp] theorem modXfer_sweeps (s : State) (id : Nat) (f : Xfer → Xfer) : (s.modXfer id f).sweeps = s.sweeps := rfl
@[simp] theorem modXfer_launches (s : State) (id : Nat) (f : Xfer → Xfer) : (s.modXfer id f).launches = s.launches := rfl
@[simp] theorem modXfer_queues (s : State) (id : Nat) (f : Xfer → Xfer) : (s.modXfer id f).queues = s.queues := rfl
@[simp] theorem modXfer_ctxs (s : State) (id : Nat) (f : Xfer → Xfer) : (s.modXfer id f).ctxs = s.ctxs := rfl
@[simp] theorem modXfer_cores (s : State) (id : Nat) (f : Xfer → Xfer) : (s.modXfer id f).cores = s.cores := rfl
@[simp] theorem modXfer_qtlb (s : State) (id : Nat) (f : Xfer → Xfer) : (s.modXfer id f).qtlb = s.qtlb := rfl
@[simp] theorem modXfer_walkCache (s : State) (id : Nat) (f : Xfer → Xfer) : (s.modXfer id f).walkCache = s.walkCache := rfl
@[simp] theorem modXfer_qmask (s : State) (id : Nat) (f : Xfer → Xfer) : (s.modXfer id f).qmask = s.qmask := rfl
@[simp] theorem modXfer_spares (s : State) (id : Nat) (f : Xfer → Xfer) : (s.modXfer id f).spares = s.spares := rfl
@[simp] theorem modXfer_spareIds (s : State) (id : Nat) (f : Xfer → Xfer) : (s.modXfer id f).spareIds = s.spareIds := rfl
@[simp] theorem modXfer_tally (s : State) (id : Nat) (f : Xfer → Xfer) : (s.modXfer id f).tally = s.tally := rfl
@[simp] theorem modXfer_selfFail (s : State) (id : Nat) (f : Xfer → Xfer) : (s.modXfer id f).selfFail = s.selfFail := rfl
@[simp] theorem modXfer_rowsUsed (s : State) (id : Nat) (f : Xfer → Xfer) : (s.modXfer id f).rowsUsed = s.rowsUsed := rfl
@[simp] theorem modXfer_sliceDet (s : State) (id : Nat) (f : Xfer → Xfer) : (s.modXfer id f).sliceDet = s.sliceDet := rfl
@[simp] theorem modXfer_regions (s : State) (id : Nat) (f : Xfer → Xfer) : (s.modXfer id f).regions = s.regions := rfl
@[simp] theorem modXfer_held (s : State) (id : Nat) (f : Xfer → Xfer) : (s.modXfer id f).held = s.held := rfl
@[simp] theorem modXfer_markers (s : State) (id : Nat) (f : Xfer → Xfer) : (s.modXfer id f).markers = s.markers := rfl
@[simp] theorem modXfer_domains (s : State) (id : Nat) (f : Xfer → Xfer) : (s.modXfer id f).domains = s.domains := rfl
@[simp] theorem modXfer_ranges (s : State) (id : Nat) (f : Xfer → Xfer) : (s.modXfer id f).ranges = s.ranges := rfl
@[simp] theorem modXfer_pages (s : State) (id : Nat) (f : Xfer → Xfer) : (s.modXfer id f).pages = s.pages := rfl
@[simp] theorem modXfer_thawed (s : State) (id : Nat) (f : Xfer → Xfer) : (s.modXfer id f).thawed = s.thawed := rfl
@[simp] theorem modXfer_copyIn (s : State) (id : Nat) (f : Xfer → Xfer) : (s.modXfer id f).copyIn = s.copyIn := rfl
@[simp] theorem modXfer_creditsIn (s : State) (id : Nat) (f : Xfer → Xfer) : (s.modXfer id f).creditsIn = s.creditsIn := rfl
@[simp] theorem modXfer_retires (s : State) (id : Nat) (f : Xfer → Xfer) : (s.modXfer id f).retires = s.retires := rfl
@[simp] theorem modXfer_migs (s : State) (id : Nat) (f : Xfer → Xfer) : (s.modXfer id f).migs = s.migs := rfl
@[simp] theorem modXfer_stubs (s : State) (id : Nat) (f : Xfer → Xfer) : (s.modXfer id f).stubs = s.stubs := rfl
@[simp] theorem modXfer_owners (s : State) (id : Nat) (f : Xfer → Xfer) : (s.modXfer id f).owners = s.owners := rfl
@[simp] theorem modXfer_replicas (s : State) (id : Nat) (f : Xfer → Xfer) : (s.modXfer id f).replicas = s.replicas := rfl
@[simp] theorem modXfer_repsets (s : State) (id : Nat) (f : Xfer → Xfer) : (s.modXfer id f).repsets = s.repsets := rfl
@[simp] theorem modXfer_populated (s : State) (id : Nat) (f : Xfer → Xfer) : (s.modXfer id f).populated = s.populated := rfl
@[simp] theorem modXfer_enabled (s : State) (id : Nat) (f : Xfer → Xfer) : (s.modXfer id f).enabled = s.enabled := rfl
@[simp] theorem modXfer_links (s : State) (id : Nat) (f : Xfer → Xfer) : (s.modXfer id f).links = s.links := rfl
@[simp] theorem modXfer_outSeq (s : State) (id : Nat) (f : Xfer → Xfer) : (s.modXfer id f).outSeq = s.outSeq := rfl
@[simp] theorem modXfer_inSeq (s : State) (id : Nat) (f : Xfer → Xfer) : (s.modXfer id f).inSeq = s.inSeq := rfl
@[simp] theorem modXfer_reorder (s : State) (id : Nat) (f : Xfer → Xfer) : (s.modXfer id f).reorder = s.reorder := rfl
@[simp] theorem modXfer_sent (s : State) (id : Nat) (f : Xfer → Xfer) : (s.modXfer id f).sent = s.sent := rfl
@[simp] theorem modXfer_waiting (s : State) (id : Nat) (f : Xfer → Xfer) : (s.modXfer id f).waiting = s.waiting := rfl
@[simp] theorem modXfer_relays (s : State) (id : Nat) (f : Xfer → Xfer) : (s.modXfer id f).relays = s.relays := rfl
@[simp] theorem modXfer_discards (s : State) (id : Nat) (f : Xfer → Xfer) : (s.modXfer id f).discards = s.discards := rfl
@[simp] theorem modXfer_dieTags (s : State) (id : Nat) (f : Xfer → Xfer) : (s.modXfer id f).dieTags = s.dieTags := rfl
@[simp] theorem modXfer_ftoexp (s : State) (id : Nat) (f : Xfer → Xfer) : (s.modXfer id f).ftoexp = s.ftoexp := rfl
@[simp] theorem modXfer_hostUp0 (s : State) (id : Nat) (f : Xfer → Xfer) : (s.modXfer id f).hostUp0 = s.hostUp0 := rfl
@[simp] theorem modXfer_hostUp1 (s : State) (id : Nat) (f : Xfer → Xfer) : (s.modXfer id f).hostUp1 = s.hostUp1 := rfl
@[simp] theorem modXfer_posted (s : State) (id : Nat) (f : Xfer → Xfer) : (s.modXfer id f).posted = s.posted := rfl
@[simp] theorem modXfer_postedQ (s : State) (id : Nat) (f : Xfer → Xfer) : (s.modXfer id f).postedQ = s.postedQ := rfl
@[simp] theorem modXfer_health (s : State) (id : Nat) (f : Xfer → Xfer) : (s.modXfer id f).health = s.health := rfl
@[simp] theorem modXfer_hqovf (s : State) (id : Nat) (f : Xfer → Xfer) : (s.modXfer id f).hqovf = s.hqovf := rfl
@[simp] theorem modXfer_cntReg (s : State) (id : Nat) (f : Xfer → Xfer) : (s.modXfer id f).cntReg = s.cntReg := rfl
@[simp] theorem modXfer_cntMem (s : State) (id : Nat) (f : Xfer → Xfer) : (s.modXfer id f).cntMem = s.cntMem := rfl
@[simp] theorem modXfer_cntUnc (s : State) (id : Nat) (f : Xfer → Xfer) : (s.modXfer id f).cntUnc = s.cntUnc := rfl
@[simp] theorem modXfer_cycle (s : State) (id : Nat) (f : Xfer → Xfer) : (s.modXfer id f).cycle = s.cycle := rfl
@[simp] theorem modXfer_quantum (s : State) (id : Nat) (f : Xfer → Xfer) : (s.modXfer id f).quantum = s.quantum := rfl
@[simp] theorem modXfer_pwrst (s : State) (id : Nat) (f : Xfer → Xfer) : (s.modXfer id f).pwrst = s.pwrst := rfl
@[simp] theorem modXfer_powerCap (s : State) (id : Nat) (f : Xfer → Xfer) : (s.modXfer id f).powerCap = s.powerCap := rfl
@[simp] theorem modXfer_secureRegions (s : State) (id : Nat) (f : Xfer → Xfer) : (s.modXfer id f).secureRegions = s.secureRegions := rfl
@[simp] theorem modXfer_secureCores (s : State) (id : Nat) (f : Xfer → Xfer) : (s.modXfer id f).secureCores = s.secureCores := rfl
@[simp] theorem modXfer_secureQuartets (s : State) (id : Nat) (f : Xfer → Xfer) : (s.modXfer id f).secureQuartets = s.secureQuartets := rfl
@[simp] theorem modXfer_secureSlices (s : State) (id : Nat) (f : Xfer → Xfer) : (s.modXfer id f).secureSlices = s.secureSlices := rfl
@[simp] theorem modXfer_secureChannels (s : State) (id : Nat) (f : Xfer → Xfer) : (s.modXfer id f).secureChannels = s.secureChannels := rfl
@[simp] theorem modXfer_secureLinks (s : State) (id : Nat) (f : Xfer → Xfer) : (s.modXfer id f).secureLinks = s.secureLinks := rfl
@[simp] theorem modXfer_secureFunctions (s : State) (id : Nat) (f : Xfer → Xfer) : (s.modXfer id f).secureFunctions = s.secureFunctions := rfl
@[simp] theorem modXfer_policy (s : State) (id : Nat) (f : Xfer → Xfer) : (s.modXfer id f).policy = s.policy := rfl
@[simp] theorem modXfer_alarms (s : State) (id : Nat) (f : Xfer → Xfer) : (s.modXfer id f).alarms = s.alarms := rfl
@[simp] theorem modXfer_violations (s : State) (id : Nat) (f : Xfer → Xfer) : (s.modXfer id f).violations = s.violations := rfl
@[simp] theorem modXfer_keys (s : State) (id : Nat) (f : Xfer → Xfer) : (s.modXfer id f).keys = s.keys := rfl
@[simp] theorem modXfer_insecure (s : State) (id : Nat) (f : Xfer → Xfer) : (s.modXfer id f).insecure = s.insecure := rfl
@[simp] theorem modXfer_keyed (s : State) (id : Nat) (f : Xfer → Xfer) : (s.modXfer id f).keyed = s.keyed := rfl
@[simp] theorem modXfer_dualHost (s : State) (id : Nat) (f : Xfer → Xfer) : (s.modXfer id f).dualHost = s.dualHost := rfl
@[simp] theorem modXfer_endpoints (s : State) (id : Nat) (f : Xfer → Xfer) : (s.modXfer id f).endpoints = s.endpoints := rfl
@[simp] theorem modXfer_fuses (s : State) (id : Nat) (f : Xfer → Xfer) : (s.modXfer id f).fuses = s.fuses := rfl
@[simp] theorem modXfer_fwVersions (s : State) (id : Nat) (f : Xfer → Xfer) : (s.modXfer id f).fwVersions = s.fwVersions := rfl
@[simp] theorem modXfer_fwPending (s : State) (id : Nat) (f : Xfer → Xfer) : (s.modXfer id f).fwPending = s.fwPending := rfl
@[simp] theorem modXfer_measured (s : State) (id : Nat) (f : Xfer → Xfer) : (s.modXfer id f).measured = s.measured := rfl
@[simp] theorem modXfer_stopped (s : State) (id : Nat) (f : Xfer → Xfer) : (s.modXfer id f).stopped = s.stopped := rfl
@[simp] theorem modXfer_recovery (s : State) (id : Nat) (f : Xfer → Xfer) : (s.modXfer id f).recovery = s.recovery := rfl
@[simp] theorem modXfer_booted (s : State) (id : Nat) (f : Xfer → Xfer) : (s.modXfer id f).booted = s.booted := rfl
@[simp] theorem modDom_agenda (s : State) (id : Nat) (f : Domain → Domain) : (s.modDom id f).agenda = s.agenda := rfl
@[simp] theorem modDom_issues (s : State) (id : Nat) (f : Domain → Domain) : (s.modDom id f).issues = s.issues := rfl
@[simp] theorem modDom_cur (s : State) (id : Nat) (f : Domain → Domain) : (s.modDom id f).cur = s.cur := rfl
@[simp] theorem modDom_samples (s : State) (id : Nat) (f : Domain → Domain) : (s.modDom id f).samples = s.samples := rfl
@[simp] theorem modDom_freeCount (s : State) (id : Nat) (f : Domain → Domain) : (s.modDom id f).freeCount = s.freeCount := rfl
@[simp] theorem modDom_nextId (s : State) (id : Nat) (f : Domain → Domain) : (s.modDom id f).nextId = s.nextId := rfl
@[simp] theorem modDom_time (s : State) (id : Nat) (f : Domain → Domain) : (s.modDom id f).time = s.time := rfl
@[simp] theorem modDom_codes (s : State) (id : Nat) (f : Domain → Domain) : (s.modDom id f).codes = s.codes := rfl
@[simp] theorem modDom_dev (s : State) (id : Nat) (f : Domain → Domain) : (s.modDom id f).dev = s.dev := rfl
@[simp] theorem modDom_scratch (s : State) (id : Nat) (f : Domain → Domain) : (s.modDom id f).scratch = s.scratch := rfl
@[simp] theorem modDom_weight (s : State) (id : Nat) (f : Domain → Domain) : (s.modDom id f).weight = s.weight := rfl
@[simp] theorem modDom_host (s : State) (id : Nat) (f : Domain → Domain) : (s.modDom id f).host = s.host := rfl
@[simp] theorem modDom_marks (s : State) (id : Nat) (f : Domain → Domain) : (s.modDom id f).marks = s.marks := rfl
@[simp] theorem modDom_softErrs (s : State) (id : Nat) (f : Domain → Domain) : (s.modDom id f).softErrs = s.softErrs := rfl
@[simp] theorem modDom_corrected (s : State) (id : Nat) (f : Domain → Domain) : (s.modDom id f).corrected = s.corrected := rfl
@[simp] theorem modDom_accs (s : State) (id : Nat) (f : Domain → Domain) : (s.modDom id f).accs = s.accs := rfl
@[simp] theorem modDom_fetched (s : State) (id : Nat) (f : Domain → Domain) : (s.modDom id f).fetched = s.fetched := rfl
@[simp] theorem modDom_cmds (s : State) (id : Nat) (f : Domain → Domain) : (s.modDom id f).cmds = s.cmds := rfl
@[simp] theorem modDom_xfers (s : State) (id : Nat) (f : Domain → Domain) : (s.modDom id f).xfers = s.xfers := rfl
@[simp] theorem modDom_travel (s : State) (id : Nat) (f : Domain → Domain) : (s.modDom id f).travel = s.travel := rfl
@[simp] theorem modDom_groups (s : State) (id : Nat) (f : Domain → Domain) : (s.modDom id f).groups = s.groups := rfl
@[simp] theorem modDom_wgs (s : State) (id : Nat) (f : Domain → Domain) : (s.modDom id f).wgs = s.wgs := rfl
@[simp] theorem modDom_gangs (s : State) (id : Nat) (f : Domain → Domain) : (s.modDom id f).gangs = s.gangs := rfl
@[simp] theorem modDom_sweeps (s : State) (id : Nat) (f : Domain → Domain) : (s.modDom id f).sweeps = s.sweeps := rfl
@[simp] theorem modDom_launches (s : State) (id : Nat) (f : Domain → Domain) : (s.modDom id f).launches = s.launches := rfl
@[simp] theorem modDom_queues (s : State) (id : Nat) (f : Domain → Domain) : (s.modDom id f).queues = s.queues := rfl
@[simp] theorem modDom_ctxs (s : State) (id : Nat) (f : Domain → Domain) : (s.modDom id f).ctxs = s.ctxs := rfl
@[simp] theorem modDom_cores (s : State) (id : Nat) (f : Domain → Domain) : (s.modDom id f).cores = s.cores := rfl
@[simp] theorem modDom_qtlb (s : State) (id : Nat) (f : Domain → Domain) : (s.modDom id f).qtlb = s.qtlb := rfl
@[simp] theorem modDom_walkCache (s : State) (id : Nat) (f : Domain → Domain) : (s.modDom id f).walkCache = s.walkCache := rfl
@[simp] theorem modDom_qmask (s : State) (id : Nat) (f : Domain → Domain) : (s.modDom id f).qmask = s.qmask := rfl
@[simp] theorem modDom_spares (s : State) (id : Nat) (f : Domain → Domain) : (s.modDom id f).spares = s.spares := rfl
@[simp] theorem modDom_spareIds (s : State) (id : Nat) (f : Domain → Domain) : (s.modDom id f).spareIds = s.spareIds := rfl
@[simp] theorem modDom_tally (s : State) (id : Nat) (f : Domain → Domain) : (s.modDom id f).tally = s.tally := rfl
@[simp] theorem modDom_selfFail (s : State) (id : Nat) (f : Domain → Domain) : (s.modDom id f).selfFail = s.selfFail := rfl
@[simp] theorem modDom_rowsUsed (s : State) (id : Nat) (f : Domain → Domain) : (s.modDom id f).rowsUsed = s.rowsUsed := rfl
@[simp] theorem modDom_sliceDet (s : State) (id : Nat) (f : Domain → Domain) : (s.modDom id f).sliceDet = s.sliceDet := rfl
@[simp] theorem modDom_regions (s : State) (id : Nat) (f : Domain → Domain) : (s.modDom id f).regions = s.regions := rfl
@[simp] theorem modDom_held (s : State) (id : Nat) (f : Domain → Domain) : (s.modDom id f).held = s.held := rfl
@[simp] theorem modDom_markers (s : State) (id : Nat) (f : Domain → Domain) : (s.modDom id f).markers = s.markers := rfl
@[simp] theorem modDom_ranges (s : State) (id : Nat) (f : Domain → Domain) : (s.modDom id f).ranges = s.ranges := rfl
@[simp] theorem modDom_pages (s : State) (id : Nat) (f : Domain → Domain) : (s.modDom id f).pages = s.pages := rfl
@[simp] theorem modDom_thawed (s : State) (id : Nat) (f : Domain → Domain) : (s.modDom id f).thawed = s.thawed := rfl
@[simp] theorem modDom_copyIn (s : State) (id : Nat) (f : Domain → Domain) : (s.modDom id f).copyIn = s.copyIn := rfl
@[simp] theorem modDom_creditsIn (s : State) (id : Nat) (f : Domain → Domain) : (s.modDom id f).creditsIn = s.creditsIn := rfl
@[simp] theorem modDom_retires (s : State) (id : Nat) (f : Domain → Domain) : (s.modDom id f).retires = s.retires := rfl
@[simp] theorem modDom_migs (s : State) (id : Nat) (f : Domain → Domain) : (s.modDom id f).migs = s.migs := rfl
@[simp] theorem modDom_stubs (s : State) (id : Nat) (f : Domain → Domain) : (s.modDom id f).stubs = s.stubs := rfl
@[simp] theorem modDom_owners (s : State) (id : Nat) (f : Domain → Domain) : (s.modDom id f).owners = s.owners := rfl
@[simp] theorem modDom_replicas (s : State) (id : Nat) (f : Domain → Domain) : (s.modDom id f).replicas = s.replicas := rfl
@[simp] theorem modDom_repsets (s : State) (id : Nat) (f : Domain → Domain) : (s.modDom id f).repsets = s.repsets := rfl
@[simp] theorem modDom_populated (s : State) (id : Nat) (f : Domain → Domain) : (s.modDom id f).populated = s.populated := rfl
@[simp] theorem modDom_enabled (s : State) (id : Nat) (f : Domain → Domain) : (s.modDom id f).enabled = s.enabled := rfl
@[simp] theorem modDom_links (s : State) (id : Nat) (f : Domain → Domain) : (s.modDom id f).links = s.links := rfl
@[simp] theorem modDom_outSeq (s : State) (id : Nat) (f : Domain → Domain) : (s.modDom id f).outSeq = s.outSeq := rfl
@[simp] theorem modDom_inSeq (s : State) (id : Nat) (f : Domain → Domain) : (s.modDom id f).inSeq = s.inSeq := rfl
@[simp] theorem modDom_reorder (s : State) (id : Nat) (f : Domain → Domain) : (s.modDom id f).reorder = s.reorder := rfl
@[simp] theorem modDom_sent (s : State) (id : Nat) (f : Domain → Domain) : (s.modDom id f).sent = s.sent := rfl
@[simp] theorem modDom_waiting (s : State) (id : Nat) (f : Domain → Domain) : (s.modDom id f).waiting = s.waiting := rfl
@[simp] theorem modDom_relays (s : State) (id : Nat) (f : Domain → Domain) : (s.modDom id f).relays = s.relays := rfl
@[simp] theorem modDom_discards (s : State) (id : Nat) (f : Domain → Domain) : (s.modDom id f).discards = s.discards := rfl
@[simp] theorem modDom_dieTags (s : State) (id : Nat) (f : Domain → Domain) : (s.modDom id f).dieTags = s.dieTags := rfl
@[simp] theorem modDom_ftoexp (s : State) (id : Nat) (f : Domain → Domain) : (s.modDom id f).ftoexp = s.ftoexp := rfl
@[simp] theorem modDom_hostUp0 (s : State) (id : Nat) (f : Domain → Domain) : (s.modDom id f).hostUp0 = s.hostUp0 := rfl
@[simp] theorem modDom_hostUp1 (s : State) (id : Nat) (f : Domain → Domain) : (s.modDom id f).hostUp1 = s.hostUp1 := rfl
@[simp] theorem modDom_posted (s : State) (id : Nat) (f : Domain → Domain) : (s.modDom id f).posted = s.posted := rfl
@[simp] theorem modDom_postedQ (s : State) (id : Nat) (f : Domain → Domain) : (s.modDom id f).postedQ = s.postedQ := rfl
@[simp] theorem modDom_health (s : State) (id : Nat) (f : Domain → Domain) : (s.modDom id f).health = s.health := rfl
@[simp] theorem modDom_hqovf (s : State) (id : Nat) (f : Domain → Domain) : (s.modDom id f).hqovf = s.hqovf := rfl
@[simp] theorem modDom_cntReg (s : State) (id : Nat) (f : Domain → Domain) : (s.modDom id f).cntReg = s.cntReg := rfl
@[simp] theorem modDom_cntMem (s : State) (id : Nat) (f : Domain → Domain) : (s.modDom id f).cntMem = s.cntMem := rfl
@[simp] theorem modDom_cntUnc (s : State) (id : Nat) (f : Domain → Domain) : (s.modDom id f).cntUnc = s.cntUnc := rfl
@[simp] theorem modDom_cycle (s : State) (id : Nat) (f : Domain → Domain) : (s.modDom id f).cycle = s.cycle := rfl
@[simp] theorem modDom_quantum (s : State) (id : Nat) (f : Domain → Domain) : (s.modDom id f).quantum = s.quantum := rfl
@[simp] theorem modDom_pwrst (s : State) (id : Nat) (f : Domain → Domain) : (s.modDom id f).pwrst = s.pwrst := rfl
@[simp] theorem modDom_powerCap (s : State) (id : Nat) (f : Domain → Domain) : (s.modDom id f).powerCap = s.powerCap := rfl
@[simp] theorem modDom_secureRegions (s : State) (id : Nat) (f : Domain → Domain) : (s.modDom id f).secureRegions = s.secureRegions := rfl
@[simp] theorem modDom_secureCores (s : State) (id : Nat) (f : Domain → Domain) : (s.modDom id f).secureCores = s.secureCores := rfl
@[simp] theorem modDom_secureQuartets (s : State) (id : Nat) (f : Domain → Domain) : (s.modDom id f).secureQuartets = s.secureQuartets := rfl
@[simp] theorem modDom_secureSlices (s : State) (id : Nat) (f : Domain → Domain) : (s.modDom id f).secureSlices = s.secureSlices := rfl
@[simp] theorem modDom_secureChannels (s : State) (id : Nat) (f : Domain → Domain) : (s.modDom id f).secureChannels = s.secureChannels := rfl
@[simp] theorem modDom_secureLinks (s : State) (id : Nat) (f : Domain → Domain) : (s.modDom id f).secureLinks = s.secureLinks := rfl
@[simp] theorem modDom_secureFunctions (s : State) (id : Nat) (f : Domain → Domain) : (s.modDom id f).secureFunctions = s.secureFunctions := rfl
@[simp] theorem modDom_policy (s : State) (id : Nat) (f : Domain → Domain) : (s.modDom id f).policy = s.policy := rfl
@[simp] theorem modDom_alarms (s : State) (id : Nat) (f : Domain → Domain) : (s.modDom id f).alarms = s.alarms := rfl
@[simp] theorem modDom_violations (s : State) (id : Nat) (f : Domain → Domain) : (s.modDom id f).violations = s.violations := rfl
@[simp] theorem modDom_keys (s : State) (id : Nat) (f : Domain → Domain) : (s.modDom id f).keys = s.keys := rfl
@[simp] theorem modDom_insecure (s : State) (id : Nat) (f : Domain → Domain) : (s.modDom id f).insecure = s.insecure := rfl
@[simp] theorem modDom_keyed (s : State) (id : Nat) (f : Domain → Domain) : (s.modDom id f).keyed = s.keyed := rfl
@[simp] theorem modDom_dualHost (s : State) (id : Nat) (f : Domain → Domain) : (s.modDom id f).dualHost = s.dualHost := rfl
@[simp] theorem modDom_endpoints (s : State) (id : Nat) (f : Domain → Domain) : (s.modDom id f).endpoints = s.endpoints := rfl
@[simp] theorem modDom_fuses (s : State) (id : Nat) (f : Domain → Domain) : (s.modDom id f).fuses = s.fuses := rfl
@[simp] theorem modDom_fwVersions (s : State) (id : Nat) (f : Domain → Domain) : (s.modDom id f).fwVersions = s.fwVersions := rfl
@[simp] theorem modDom_fwPending (s : State) (id : Nat) (f : Domain → Domain) : (s.modDom id f).fwPending = s.fwPending := rfl
@[simp] theorem modDom_measured (s : State) (id : Nat) (f : Domain → Domain) : (s.modDom id f).measured = s.measured := rfl
@[simp] theorem modDom_stopped (s : State) (id : Nat) (f : Domain → Domain) : (s.modDom id f).stopped = s.stopped := rfl
@[simp] theorem modDom_recovery (s : State) (id : Nat) (f : Domain → Domain) : (s.modDom id f).recovery = s.recovery := rfl
@[simp] theorem modDom_booted (s : State) (id : Nat) (f : Domain → Domain) : (s.modDom id f).booted = s.booted := rfl

end Sys2Proof.Machine.State
end

