-- ==== Sys2Proof/Laws/Uniform.lean ====
section
/-! SUPPORT. Runs of bytes that an instruction accesses once per issue: when they succeed, what they read, and what a lookup and a
tracked access leave alone (R183, R243, R314, R315, R349). -/

namespace Sys2Proof.Laws
set_option Elab.async false
open Sys2Proof Sys2Proof.Machine

/-- The places of a run of device memory. -/
def devAt (a n : Nat) : List (Space × Nat) := (keysFrom a n).map fun k => (Space.dev, k)

/-- Without marks and errors no byte is poisoned. -/
theorem uniPoison_none {s : State} (hm : s.marks = []) (he : s.softErrs = []) (l : List (Space × Nat)) : uniPoison s l = none := by
  simp only [uniPoison, List.findSome?_eq_none_iff]
  rintro ⟨sp, k⟩ -
  cases sp <;> simp [dataPoison, hm, he]

/-- A run within one page of this module. -/
theorem placesAt_page {s : State} {core : Nat} {c : Context} {need a n pa l : Nat} (h1 : 0 < n) (h2 : a % 65536 + n ≤ 65536)
    (ht : translate s core c need a = .here pa l) (h5 : ¬ (2 ≤ need ∧ l.testBit 5 = true)) : placesAt s core c need a n = .ok (devAt pa n) := by
  have hr : (a % 65536 + n + 65535) / 65536 = 1 := by omega
  have hx : max a (a / 65536 * 65536) = a := by omega
  have hk : min (a + n) ((a / 65536 + 1) * 65536) - a = n := by omega
  simp only [placesAt, hr, List.range_one, List.map_cons, List.map_nil, Nat.add_zero, hx, ht, List.findSome?_cons, if_neg h5,
    List.findSome?_nil, List.flatMap_cons, List.flatMap_nil, List.append_nil, hk, devAt]

/-- Lines of places all lie in the places' spaces. -/
theorem byLine_spaces {l : List (Space × Nat)} {P : Space → Prop} (h : ∀ p ∈ l, P p.1) : ∀ q ∈ byLine l, P q.1 := by
  induction l with
  | nil => simp [byLine]
  | cons p r ih =>
    obtain ⟨sp, k⟩ := p
    have ih := ih fun p hp => h p (List.mem_cons_of_mem _ hp)
    have hp : P sp := h (sp, k) List.mem_cons_self
    intro q hq
    unfold byLine at hq
    split at hq
    · rename_i sq a qs l hb
      rw [hb] at ih
      split at hq
      · rename_i he
        rcases List.mem_cons.1 hq with rfl | hq
        · exact he.1 ▸ hp
        · exact ih _ (List.mem_cons_of_mem _ hq)
      · rcases List.mem_cons.1 hq with rfl | hq
        · exact hp
        · exact ih _ hq
    · rcases List.mem_cons.1 hq with rfl | hq
      · exact hp
      · exact ih _ hq

/-- Places of this module need no fetch. -/
theorem uniFetch_none {s : State} {iss : Issue} {g : Group} {locs : List (Space × Nat)} (h : ∀ p ∈ locs, ∀ q, p.1 ≠ .remote q) :
    uniFetch s iss g locs = none := by
  have hf : farLines locs = [] := by
    unfold farLines
    rw [List.filter_eq_nil_iff]
    intro q hq
    have := byLine_spaces (P := fun sp => ∀ n, sp ≠ .remote n) h q hq
    split
    · rename_i n hn; exact absurd hn (this n)
    · simp
  simp [uniFetch, farFault, hf]

/-- A run that can be reached and holds no poison is read or edited. -/
theorem runAt_ok {s : State} {iss : Issue} {g : Group} {need a n : Nat} {locs : List (Space × Nat)}
    (hp : placesAt s g.core (placeOf s g).2 need a n = .ok locs) (hu : uniPoison s locs = none) (hf : uniFetch s iss g locs = none) :
    runAt s iss g need a n = .ok locs := by
  simp [runAt, hp, hu, hf]

/-- An issue without tracked accesses passes the detectors. -/
theorem raceCheck_nil (s : State) (iss : Issue) (g : Group) (w : Wg) : raceCheck s iss g w [] = .go s := by
  simp [raceCheck, localTouches, minOf, detAddAll]

/-- An untracked uniform access whose record, bounds and places pass, of lanes with nothing outstanding. -/
theorem uniAccess_ok {s : State} {iss : Issue} {g : Group} {rn : RecN} {n need : Nat} {kinds : List Nat} {locs : List (Space × Nat)}
    (a : (recAt iss.snap rn).poi = false) (b : recBad (recAt iss.snap rn) kinds true = none)
    (c : inRange s (placeOf s g).1 (recAt iss.snap rn) 0 n false = true) (d : (recAt iss.snap rn).kind ≠ 1)
    (hp : placesAt s g.core (placeOf s g).2 need (recAt iss.snap rn).base n = .ok locs) (hu : need = 1 → uniPoison s locs = none)
    (ha : accsDone s iss.gid iss.lanes = true) (ht : tracked (recAt iss.snap rn) (recAt iss.snap rn).scope = false)
    (hf : need = 1 → uniFetch (uniFill s g.core (placeOf s g).2 (recAt iss.snap rn) n) iss g locs = none) :
    uniAccess s iss g rn n kinds need = .ok (if need = 1 then fixLocs (uniFill s g.core (placeOf s g).2 (recAt iss.snap rn) n) locs
      else uniFill s g.core (placeOf s g).2 (recAt iss.snap rn) n) locs := by
  unfold uniAccess
  generalize placeOf s g = p at c hp hf
  obtain ⟨w, x⟩ := p
  generalize takeTrap s iss = tt
  generalize recAt iss.snap rn = r at a b c d hp ht hf
  show (if r.poi = true then _ else _) = _
  rw [if_neg (by rw [a]; exact Bool.false_ne_true), b]
  dsimp only at c hp hf ⊢
  rw [c, if_neg (by decide), if_neg d, hp]
  dsimp only
  have h1 : (if need = 1 then uniPoison s locs else none) = none := by by_cases h : need = 1 <;> simp [h, hu]
  rw [h1]
  dsimp only
  rw [ha, ht]
  simp only [Bool.not_true, Bool.false_eq_true, if_false, raceCheck_nil]
  have h2 : (if need = 1 then uniFetch (uniFill s g.core x r n) iss g locs else none) = none := by
    by_cases h : need = 1 <;> simp [h, hf]
  rw [h2]

/-- A run of device memory reads as its bytes, and the state stays. -/
theorem uniRead_dev (s : State) (key a n : Nat) : uniRead s key (devAt a n) = ((keysFrom a n).map s.dev.get, s) := by
  unfold devAt
  generalize keysFrom a n = l
  induction l with
  | nil => rfl
  | cons k l ih => simp [uniRead, ih, State.mem]

/-! ### What a lookup and a tracked access leave alone -/

theorem sameButCaches_refl (s : State) : sameButCaches s s := ⟨rfl, fun h => ⟨h, fun _ => rfl⟩⟩

theorem sameButCaches_trans {s t u : State} (h : sameButCaches s t) (k : sameButCaches t u) : sameButCaches s u := by
  obtain ⟨h1, h2⟩ := h
  obtain ⟨k1, k2⟩ := k
  refine ⟨by rw [k1, h1], fun hw => ?_⟩
  have a := h2 hw
  have b := k2 a.1
  exact ⟨b.1, fun n => (b.2 n).trans (a.2 n)⟩

/-- A change of one core's translation buffer and detector, and of the shared caches. -/
theorem sameButCaches_modCore (s : State) (c : Nat) (f : Core → Core)
    (hf : ∀ k, { f k with tlb := [], det := [] } = { k with tlb := [], det := [] }) : sameButCaches s (s.modCore c f) := by
  refine ⟨rfl, fun hw => ⟨sparseWf_sset _ _ _ hw, fun k => ?_⟩⟩
  by_cases h : k = c
  · subst h
    simp only [State.core, State.modCore, sget_sset_same _ _ _ hw]
    exact hf _
  · simp only [State.core, State.modCore, sget_sset_ne _ _ _ h]

theorem sameButCaches_walkFill (s : State) (c : Context) (va : Nat) : sameButCaches s (walkFill s c va) :=
  ⟨rfl, fun hw => ⟨hw, fun _ => rfl⟩⟩

theorem sameButCaches_tlbFill (s : State) (core : Nat) (c : Context) (va : Nat) : sameButCaches s (tlbFill s core c va) := by
  have key : ∀ (u : State) (e : TlbE) (q : List (Nat × List TlbE)), sameButCaches u
      { u.modCore core (fun k => { k with tlb := tlbAdd Config.coreTlbEntries e k.tlb }) with qtlb := q } := fun u e q =>
    sameButCaches_trans (sameButCaches_modCore u core (fun k => { k with tlb := tlbAdd Config.coreTlbEntries e k.tlb }) fun _ => rfl)
      ⟨rfl, fun hw => ⟨hw, fun _ => rfl⟩⟩
  unfold tlbFill
  split
  · exact sameButCaches_refl s
  · dsimp only
    split
    · exact key ..
    · exact sameButCaches_trans (sameButCaches_walkFill s c va) (key ..)

/-- A fold of steps that keep all else keeps all else. -/
theorem sameButCaches_foldl {α : Type} (f : State → α → State) (hf : ∀ s x, sameButCaches s (f s x)) (l : List α) (s : State) :
    sameButCaches s (l.foldl f s) := by
  induction l generalizing s with
  | nil => exact sameButCaches_refl s
  | cons x l ih => exact sameButCaches_trans (hf s x) (ih _)

theorem sameButCaches_uniFill (s : State) (core : Nat) (c : Context) (r : Rec) (n : Nat) : sameButCaches s (uniFill s core c r n) := by
  unfold uniFill
  split
  · exact sameButCaches_refl s
  · exact sameButCaches_foldl _ (fun s k => sameButCaches_tlbFill s core c _) _ s

theorem sameButCaches_detAdd (s : State) (g : Group) (w : Wg) (th : Thread) (cmd : Option Cmd) (t : Touch) :
    sameButCaches s (detAdd s g w th cmd t) := by
  unfold detAdd
  dsimp only
  split
  · exact sameButCaches_modCore s _ _ fun _ => rfl
  · exact ⟨rfl, fun hw => ⟨hw, fun _ => rfl⟩⟩

theorem sameButCaches_detAddAll (s : State) (g : Group) (w : Wg) (cmd : Option Cmd) (ts : List Touch) :
    sameButCaches s (detAddAll s g w cmd ts).1 := by
  have key : ∀ (ts : List Touch) (p : State × List Touch), sameButCaches p.1 (ts.foldl (fun (s, miss) t =>
      let th := (g.thread? t.lane).getD {}
      if detFull s g th cmd t then (s, miss ++ [t]) else (detAdd s g w th cmd t, miss)) p).1 := by
    intro ts
    induction ts with
    | nil => exact fun p => sameButCaches_refl p.1
    | cons t ts ih =>
      rintro ⟨s, miss⟩
      refine sameButCaches_trans ?_ (ih _)
      dsimp only
      split
      · exact sameButCaches_refl s
      · exact sameButCaches_detAdd ..
  exact key ts (s, [])

/-- An access that passes the detectors only adds entries to them. -/
theorem sameButCaches_raceCheck {s t : State} {iss : Issue} {g : Group} {w : Wg} {ts : List Touch} (h : raceCheck s iss g w ts = .go t) :
    sameButCaches s t := by
  unfold raceCheck at h
  dsimp only at h
  split at h
  · exact Check.noConfusion h
  · split at h
    · cases h; exact sameButCaches_refl s
    · split at h
      · rename_i s' hs
        cases h
        have := sameButCaches_detAddAll s g w none (localTouches ts)
        rw [hs] at this
        exact this
      · exact Check.noConfusion h

theorem sameButCaches_tallyErrs (s : State) (ls : List ErrLoc) (u : Bool) : sameButCaches s (tallyErrs s ls u) := by
  unfold tallyErrs
  split
  · exact sameButCaches_refl s
  · exact ⟨rfl, fun hw => ⟨hw, fun _ => rfl⟩⟩

theorem sameButCaches_repaired (s : State) (ls : List ErrLoc) : sameButCaches s (countErrs s ls false) := by
  unfold countErrs
  dsimp only
  split
  · exact sameButCaches_tallyErrs ..
  · exact sameButCaches_trans (sameButCaches_tallyErrs s ls false) ⟨rfl, fun hw => ⟨hw, fun _ => rfl⟩⟩

/-- The repair of what a read meets leaves all but the errors and their counts. -/
theorem sameButCaches_fixRead (s : State) (sp : Space) (keys : List Nat) : sameButCaches s (fixRead s sp keys) := by
  unfold fixRead
  dsimp only
  split
  · exact sameButCaches_refl s
  · refine sameButCaches_trans ?_ (sameButCaches_repaired _ _)
    exact ⟨rfl, fun hw => ⟨hw, fun _ => rfl⟩⟩

theorem sameButCaches_fixLocs (s : State) (locs : List (Space × Nat)) : sameButCaches s (fixLocs s locs) :=
  sameButCaches_foldl (fun s (l : Space × List Nat) => fixRead s l.1 l.2) (fun s l => sameButCaches_fixRead s l.1 l.2) _ s

/-- Without errors a read repairs nothing. -/
theorem fixLocs_none {s : State} (h : s.softErrs = []) (locs : List (Space × Nat)) : fixLocs s locs = s := by
  unfold fixLocs
  induction byLine locs with
  | nil => rfl
  | cons l r ih => simpa [fixRead, errsAt, h] using ih

/-- A uniform access that succeeds leaves all but caches and detectors. -/
theorem sameButCaches_uniAccess {s t : State} {iss : Issue} {g : Group} {rn : RecN} {n need : Nat} {kinds : List Nat}
    {locs : List (Space × Nat)} (h : uniAccess s iss g rn n kinds need = .ok t locs) : sameButCaches s t := by
  unfold uniAccess at h
  dsimp only at h
  repeat' split at h
  all_goals first
    | exact Uni.noConfusion h
    | (cases h; rename_i hr _; exact sameButCaches_trans (sameButCaches_uniFill ..)
        (sameButCaches_trans (sameButCaches_raceCheck hr) (by first | exact sameButCaches_fixLocs _ _ | exact sameButCaches_refl _)))

/-- A lookup and a tracked access leave memory. -/
theorem sameMem_of_sameButCaches {s t : State} (h : sameButCaches s t) : sameMem s t := by
  rw [h.1]; exact ⟨rfl, rfl, rfl, rfl⟩

end Sys2Proof.Laws
end

