-- ==== Sys2Proof/Tests/Slice0.lean ====
section
/-! SUPPORT. Tests: words decode (expected terms from 03_encoding.md), ill-formed terms are refused, one-step results
worked out from the spec, and for each statement a state that meets its hypotheses (wit_<statement>). -/

namespace Sys2Proof.Tests
open Sys2Proof Sys2Proof.Machine Sys2Proof.Laws
set_option Elab.async false

/-! ### Decoding -/

/-- Every listed word, with the word after it, decodes in the class to the instruction beside it. -/
def decodesAll (c : Sys2Proof.Class) (rows : List (Nat × Nat × Instr)) : Bool :=
  rows.all fun r => decode c (BitVec.ofNat 32 r.1) (BitVec.ofNat 32 r.2.1) == some r.2.2

/-- Class 0 words of R51. -/
theorem test_decode_mix_integer : decodesAll .mix [
    (0x0000D409, 0x0, .iadd ⟨false, false, 3, 40, .v 9⟩),
    (0x01811485, 0x0, .isub ⟨false, false, 4, 41, .s 5⟩),
    (0x0241557C, 0x0, .imul ⟨false, false, 5, 42, .imm 0x7C⟩),
    (0x840195A1, 0x0, .imad ⟨true, false, 6, 43, .v 33⟩),
    (0x1001D609, 0x0, .and ⟨false, false, 7, 44, .v 9⟩),
    (0x11821685, 0x0, .or ⟨false, false, 8, 45, .s 5⟩),
    (0x1242577C, 0x0, .xor ⟨false, false, 9, 46, .imm 0x7C⟩),
    (0x930297A1, 0x0, .andn ⟨true, false, 10, 47, .v 33⟩),
    (0x1402D809, 0x0, .shl ⟨false, false, 11, 48, .v 9⟩),
    (0x15831885, 0x0, .shr ⟨false, false, 12, 49, .s 5⟩),
    (0x1643597C, 0x0, .sar ⟨false, false, 13, 50, .imm 0x7C⟩),
    (0x970399A1, 0x0, .rotl ⟨true, false, 14, 51, .v 33⟩),
    (0x2A03DA09, 0x0, .iamin ⟨false, false, 15, 52, .v 9⟩),
    (0x03A41A85, 0x0, .imulh ⟨false, true, 16, 53, .s 5⟩),
    (0x05445B7C, 0x0, .imin ⟨false, false, 17, 54, .imm 0x7C⟩),
    (0x86249BA1, 0x0, .imax ⟨true, true, 18, 55, .v 33⟩),
    (0x0924DC09, 0x0, .sadd ⟨false, true, 19, 56, .v 9⟩),
    (0x0AA51C85, 0x0, .ssub ⟨false, true, 20, 57, .s 5⟩),
    (0x0B455D7C, 0x0, .idiv ⟨false, false, 21, 58, .imm 0x7C⟩),
    (0x8C259DA1, 0x0, .irem ⟨true, true, 22, 59, .v 33⟩),
    (0x07028A00, 0x0, .iabs ⟨false, 10, 20⟩),
    (0x8802CA80, 0x0, .ineg ⟨true, 11, 21⟩),
    (0x1A030B00, 0x0, .popc ⟨false, 12, 22⟩),
    (0x9B034B80, 0x0, .clz ⟨true, 13, 23⟩),
    (0x1C038C00, 0x0, .brev ⟨false, 14, 24⟩),
    (0xD803CC80, 0x0, .lfirst ⟨true, 15, 25⟩)
  ] = true := by decide

/-- Class 0 words of R51. -/
theorem test_decode_mix_moves : decodesAll .mix [
    (0x0D010308, 0x0, .iadd64 ⟨false, false, 4, 6, .v 8⟩),
    (0x0E810308, 0x0, .isub64 ⟨false, false, 4, 6, .s 8⟩),
    (0x8F410301, 0x0, .imad64 ⟨true, false, 4, 6, .imm 1⟩),
    (0x1E408221, 0x0, .shl64 ⟨false, false, 2, 4, .imm 33⟩),
    (0x1F208207, 0x0, .shr64 ⟨false, true, 2, 4, .v 7⟩),
    (0x18A08184, 0x0, .bfe ⟨false, true, 2, 3, .s 4⟩),
    (0x99008184, 0x0, .bfi ⟨true, false, 2, 3, .v 4⟩),
    (0x1D408184, 0x0, .lea ⟨false, 2, 2, 3, .v 4⟩),
    (0x2099003F, 0x0, .mov ⟨false, 100, .s 63⟩),
    (0xA1027FFF, 0x0, .movi ⟨true, 9, 0x3FFF⟩),
    (0x22018000, 0x3F800000, .movl ⟨false, 6, 0x3F800000⟩),
    (0x23020500, 0x0, .movs ⟨false, 8, 0x0A⟩),
    (0x2301CA00, 0x0, .potake 7),
    (0x24A04103, 0x0, .sel ⟨5, 1, 2, 3⟩),
    (0x25844184, 0x0, .icmp ⟨.lt, false, 1, 3, .s 4⟩),
    (0x2533C104, 0x0, .icmp ⟨.geu, true, 7, 2, .v 4⟩),
    (0x264C4184, 0x0, .fcmp ⟨.un, .bf16, 1, 3, .v 4⟩),
    (0x27804103, 0x0, .plop ⟨.orn, 1, 2, 3⟩),
    (0x28368180, 0x0, .pmov ⟨true, 3, 90⟩),
    (0x2800ED00, 0x0, .pmov ⟨false, 3, 90⟩),
    (0x2920ED00, 0x0, .pchk ⟨true, 3, 90⟩),
    (0x2BA08206, 0x0, .famin ⟨.f64, 2, 4, .s 6⟩),
    (0x2C204103, 0x1F, .qmul ⟨false, .rmi, 1, 2, .v 3, 31⟩),
    (0xAD404103, 0x0, .qshr ⟨true, .rz, 1, 2, .v 3⟩)
  ] = true := by decide

/-- Class 0 words of R51. -/
theorem test_decode_mix_float : decodesAll .mix [
    (0x30008F32, 0x0, .fadd ⟨.f32, 2, 30, .v 50⟩),
    (0x31A11034, 0x0, .fsub ⟨.f64, 4, 32, .s 52⟩),
    (0x32419136, 0x0, .fmul ⟨.bf16, 6, 34, .v 54⟩),
    (0x33821238, 0x0, .ffma ⟨.f32, 8, 36, .s 56⟩),
    (0x3422933A, 0x0, .ffnma ⟨.f64, 10, 38, .v 58⟩),
    (0x35C3143C, 0x0, .fmin ⟨.bf16, 12, 40, .s 60⟩),
    (0x3603953E, 0x0, .fmax ⟨.f32, 14, 42, .v 62⟩),
    (0x37608206, 0x0, .fsgn ⟨true, true, 2, 4, .v 6⟩),
    (0x38208206, 0x0, .fdiv ⟨.f64, 2, 4, .v 6⟩),
    (0x41804185, 0x0, .fscale ⟨.f32, 1, 3, .s 5⟩),
    (0x39208200, 0x0, .fsqrt ⟨.f64, 2, 4⟩),
    (0x3A02E380, 0x0, .frcp ⟨11, 71⟩),
    (0x3B032400, 0x0, .frsq ⟨12, 72⟩),
    (0x3C036480, 0x0, .fex2 ⟨13, 73⟩),
    (0x3D03A500, 0x0, .flg2 ⟨14, 74⟩),
    (0x3E03E580, 0x0, .fsinp ⟨15, 75⟩),
    (0x3F042600, 0x0, .fcosp ⟨16, 76⟩),
    (0x40404180, 0x0, .fclass ⟨.bf16, 1, 3⟩),
    (0x42408201, 0x0, .frnd ⟨true, .rpi, 2, 4⟩),
    (0x43204230, 0x0, .cvtif ⟨.f32, .u64, .rne, 1, 4⟩),
    (0x44804214, 0x0, .cvtfi ⟨.f8e5, .u32, .rz, 1, 4⟩),
    (0x45204243, 0x0, .cvtff ⟨.f8e4, .f32, true, .rne, 1, 4⟩),
    (0x46004202, 0x0, .pack ⟨.bf16, false, .dyn, 1, 4⟩),
    (0x47010484, 0x0, .unpk ⟨.f8e5, 4, 9⟩),
    (0x48810488, 0x0, .fdot2 ⟨4, 9, .s 8⟩)
  ] = true := by decide

/-- Class 0 words of R51. -/
theorem test_decode_mix_lanes_control : decodesAll .mix [
    (0x50010488, 0x0, .lshuf ⟨4, 9, .v 8⟩),
    (0x51810488, 0x0, .lshup ⟨4, 9, .s 8⟩),
    (0x52410481, 0x0, .lshdn ⟨4, 9, .imm 1⟩),
    (0x53410490, 0x0, .lxor ⟨4, 9, .imm 16⟩),
    (0x54410280, 0x0, .lvote ⟨.uni, 4, 5⟩),
    (0x55010280, 0x0, .lball ⟨4, 5⟩),
    (0x5601030C, 0x0, .lred ⟨.fadd64, 4, 6⟩),
    (0x5700C283, 0x0, .lscan ⟨.umin, 3, 5⟩),
    (0x60003FFE, 0x0, .br 0x3FFE),
    (0x61004010, 0x0, .brp 1 0x10),
    (0x6201C010, 0x0, .brnp 7 0x10),
    (0x63000000, 0x40, .jmp 0x40),
    (0x63200880, 0x0, .jmpInd 17),
    (0x64000004, 0x0, .call 4),
    (0x65000000, 0x0, .ret),
    (0x66000000, 0x0, .exit),
    (0x67000000, 0x0, .yield),
    (0x68000000, 0x0, .nop),
    (0x690000AB, 0x0, .trap 0xAB),
    (0x6A000012, 0x0, .bkpt 0x12),
    (0x6B134000, 0x0, .getfc 77),
    (0x6C400003, 0x0, .setfc (.imm 3))
  ] = true := by decide

/-- Class 1 words of R51. -/
theorem test_decode_mem : decodesAll .mem [
    (0x0000413C, 0x0, .ld ⟨.w, .dflt, 1, 2, 60⟩),
    (0x018089BD, 0x0, .st ⟨.x8, .blk, 2, 3, 61⟩),
    (0x02A11A3E, 0x0, .ldacq ⟨.x16, .dev, 4, 4, 62⟩),
    (0x0340E2BF, 0x0, .strel ⟨.x2, .sys, 3, 5, 63⟩),
    (0x04201184, 0x0, .pref ⟨true, .qrt, 3, 4⟩),
    (0x05600000, 0x0, .fence .dev),
    (0x06214307, 0x0, .xst ⟨.x1, .dflt, 5, 6, 7⟩),
    (0x08024064, 0x0, .aadd ⟨.rlx, false, .dflt, 9, 0, 100⟩),
    (0x096288E5, 0x0, .amin ⟨.acq, true, .blk, 10, 1, 101⟩),
    (0x0A82D166, 0x0, .amax ⟨.rel, false, .qrt, 11, 2, 102⟩),
    (0x0BE319E7, 0x0, .aand ⟨.ar, true, .dev, 12, 3, 103⟩),
    (0x0C036268, 0x0, .aor ⟨.rlx, false, .sys, 13, 4, 104⟩),
    (0x0D6382E9, 0x0, .axor ⟨.acq, true, .dflt, 14, 5, 105⟩),
    (0x0E83CB6A, 0x0, .axch ⟨.rel, false, .blk, 15, 6, 106⟩),
    (0x0FE613EB, 0x0, .acas ⟨.ar, true, .qrt, 24, 7, 107⟩),
    (0x10045C6C, 0x0, .afadd ⟨.rlx, false, .dev, 17, 8, 108⟩)
  ] = true := by decide

/-- Class 2 words of R51. -/
theorem test_decode_mtx : decodesAll .mtx [
    (0x00A04600, 0x0, .ldw ⟨.rq8, true, 12⟩),
    (0x01000000, 0x0, .wflip),
    (0x02618800, 0x0, .mma ⟨.f8e4, 6, 16⟩),
    (0x03C2CC09, 0x0, .mmas ⟨.rq4, true, 3, 24, 9⟩),
    (0x04414209, 0x0, .drain ⟨.bf16, 5, 4, 9⟩),
    (0x04634009, 0x0, .drainByp ⟨false, 5, 9⟩),
    (0x04A28008, 0x0, .drainByp ⟨true, 2, 8⟩),
    (0x0501C000, 0x0, .accz 7),
    (0x0608010F, 0x0, .accrd ⟨32, 2, 15⟩),
    (0x0700940E, 0x0, .accwr ⟨40, 2, 14⟩),
    (0x0800C100, 0x0, .mstat 3 2)
  ] = true := by decide

/-- Class 3 words of R51. -/
theorem test_decode_eng : decodesAll .eng [
    (0x00814594, 0x0, .copy ⟨true, 5, 11, 20⟩),
    (0x01418184, 0x0, .copyl ⟨false, .x16, 6, 3, 4⟩),
    (0x02414594, 0x0, .copyr ⟨false, .max, 5, 11, 20⟩),
    (0x03018000, 0x0, .seal 6),
    (0x04018000, 0x0, .wait 6),
    (0x13018000, 0x0, .cabort 6),
    (0x05020300, 0x0, .tstat 8 6),
    (0x06024180, 0x0, .cwp 9 3),
    (0x07000483, 0x0, .tdef 9 3),
    (0x08000483, 0x0, .tget 9 3),
    (0x09020300, 0x0, .qpush 8 6),
    (0x0A018002, 0x0, .qpop 6 0 2),
    (0x0B018782, 0x0, .qpeek 6 15 2),
    (0x0C020180, 0x0, .qstat 8 3),
    (0x0D000180, 0x0, .qflush 3),
    (0x0E010300, 0x0, .spawn 4 6),
    (0x0F01C300, 0x0, .glaunch 7 6),
    (0x10004308, 0x0, .gedit 1 6 8),
    (0x11024300, 0x0, .capp 9 6),
    (0x12000300, 0x0, .quiesce 6)
  ] = true := by decide

/-- Class 4 words of R51. -/
theorem test_decode_fld : decodesAll .fld [
    (0x00004104, 0x0, .fxfer 1 2 4),
    (0x01604104, 0x0, .fxferw 3 1 2 4),
    (0x02010080, 0x0, .ftot 4 1),
    (0x03010085, 0x0, .fstat 4 1 5),
    (0x04010480, 0x0, .fdom 4 9),
    (0x05000209, 0x0, .fdecl 4 9),
    (0x0600028A, 0x0, .flink 5 10),
    (0x07000280, 0x0, .fclose 5),
    (0x0800028A, 0x0, .frecl 5 10)
  ] = true := by decide

/-- Class 5 words of R51. -/
theorem test_decode_syn : decodesAll .syn [
    (0x0002C000, 0x0, .bar 11),
    (0x0102C000, 0x0, .bara 11),
    (0x0202C000, 0x0, .barw 11),
    (0x0302C302, 0x0, .bart 11 6 2),
    (0x04000000, 0x0, .gbar),
    (0x07000000, 0x0, .xbar),
    (0x0A000000, 0x0, .dflush),
    (0x05014300, 0x0, .xjoin 5 6),
    (0x06000300, 0x0, .xleave 6),
    (0x080A9887, 0x908, .waitm ⟨.ge, 2, .dev, 1, 7, 8, 9⟩),
    (0x09005904, 0x0, .csig ⟨.dev, 1, 2, 4⟩),
    (0x0B0000FE, 0x0, .slide 0xFE)
  ] = true := by decide

/-- Class 6 words of R51; SWR of 0x211 is QCMD, whose form its value selects (R294). -/
theorem test_decode_sys : decodesAll .sys [
    (0x0000C000, 0x1, .srd ⟨3, false, 0, 0x001⟩),
    (0x0000C000, 0x85017F, .srd ⟨3, true, 5, 0x17F⟩),
    (0x01000200, 0x24, .swr ⟨4, false, 0, 0x024⟩),
    (0x01000200, 0x211, .swr ⟨4, false, 0, 0x211⟩),
    (0x01000200, 0x860002, .ctxset ⟨4, true, 6, 0x2⟩),
    (0x01000200, 0x860009, .cmaskWrite ⟨4, true, 6, 0x9⟩),
    (0x01000200, 0x860018, .rgnrst ⟨4, true, 6, 0x18⟩),
    (0x01000200, 0x860019, .ctlcmd ⟨4, true, 6, 0x19⟩),
    (0x01000200, 0x860212, .qbudget ⟨4, true, 6, 0x212⟩),
    (0x01000200, 0x860213, .qlate ⟨4, true, 6, 0x213⟩),
    (0x01000200, 0x860020, .pagecfg ⟨4, true, 6, 0x20⟩),
    (0x01000200, 0x860021, .frmpush ⟨4, true, 6, 0x21⟩),
    (0x01000200, 0x860140, .partmask ⟨4, true, 6, 0x140⟩),
    (0x0000C000, 0x28, .hqpop ⟨3, false, 0, 0x028⟩),
    (0x02000000, 0x0, .tret),
    (0x03000480, 0x0, .bsave 9),
    (0x04000480, 0x0, .brst 9),
    (0x05001089, 0x0, .csave 33 9),
    (0x06001089, 0x0, .crst 33 9),
    (0x07001089, 0x0, .fmapw 33 9),
    (0x08000000, 0x0, .tlbiCtx),
    (0x08201100, 0x0, .tlbiPage 34),
    (0x08400000, 0x0, .tlbiAll),
    (0x09001089, 0x0, .rngw 33 9),
    (0x0A001109, 0x0, .pgmig 34 9),
    (0x0B001100, 0x0, .pgpin 34),
    (0x0B201100, 0x0, .pgpinUnpin 34),
    (0x0C000007, 0x0, .wcall 7),
    (0x0D000009, 0x0, .ucnt 9),
    (0x0E000000, 0x0, .idle),
    (0x0F000000, 0x0, .halt)
  ] = true := by decide

/-- The worked words of 03_encoding.md: a header, and U with broadcast, which raises cause 0x01. -/
theorem test_decode_worked : headerN 0x30010000 = 3 ∧ headerC 0x30010000 = 0 ∧ headerT 0x30010000 = true ∧
    headerKW 0x16000000 = 0 ∧ headerC 0x16000000 = 3 ∧
    decode .mix 0x25844184 0 = some (.icmp ⟨.lt, false, 1, 3, .s 4⟩) ∧ decode .mix 0xA1024000 0 = some (.movi ⟨true, 9, 0⟩) ∧
    decode .mix 0xA1824000 0 = none ∧ decode .mix 0x22018000 0x3F800000 = some (.movl ⟨false, 6, 0x3F800000⟩) ∧
    decode .mem 0x00004100 0 = some (.ld ⟨.w, .dflt, 1, 2, 0⟩) ∧ decode .mem 0x60000000 0 = none := by decide

/-- The table's numbering: the first word in the low bits, the literal above it. -/
theorem test_decode_table : decodeTableWord 32 0x00404081 = some (.iadd ⟨false, false, 1, 1, .imm 1⟩) ∧
    decodeTableWord 64 0x0000000922018000 = some (.movl ⟨false, 6, 9⟩) := by decide

/-! ### Well-formedness: each check refuses an ill-formed term -/

theorem test_wf_integer : ([.iadd ⟨false, true, 1, 2, .v 3⟩, .iadd ⟨true, false, 1, 64, .v 3⟩, .isub ⟨true, false, 1, 2, .s 3⟩,
    .iabs ⟨true, 64, 2⟩, .iadd64 ⟨false, false, 1, 2, .v 4⟩, .isub64 ⟨false, false, 2, 3, .v 4⟩, .imad64 ⟨false, false, 2, 4, .s 5⟩,
    .shl64 ⟨false, true, 2, 4, .v 1⟩, .shl64 ⟨false, false, 1, 4, .v 1⟩, .shr64 ⟨false, false, 2, 5, .v 1⟩,
    .bfe ⟨true, false, 1, 2, .s 3⟩, .bfi ⟨false, true, 1, 2, .v 3⟩, .lea ⟨true, 0, 1, 2, .v 64⟩, .mov ⟨true, 1, .s 3⟩,
    .movi ⟨true, 64, 0⟩, .movl ⟨true, 64, 0⟩, .movs ⟨false, 1, 0x0B⟩, .movs ⟨true, 1, 0x10⟩, .movs ⟨false, 1, 0x0A⟩,
    .icmp ⟨.eq, true, 0, 1, .v 2⟩, .icmp ⟨.eq, true, 0, 2, .s 3⟩, .fcmp ⟨.eq, .f64, 0, 1, .v 2⟩, .plop ⟨.not, 0, 1, 2⟩,
    .plop ⟨.set, 0, 1, 0⟩, .pchk ⟨true, 0, 1⟩, .qmul ⟨true, .rne, 1, 2, .s 3, 0⟩, .qshr ⟨true, .rz, 64, 2, .v 3⟩] : List Instr).all
    (fun i => !i.wf) = true := by decide

theorem test_wf_float : ([.famin ⟨.bf16, 1, 2, .v 3⟩, .fdiv ⟨.bf16, 1, 2, .v 3⟩, .fscale ⟨.bf16, 1, 2, .v 3⟩, .fadd ⟨.f64, 1, 2, .v 4⟩,
    .fmul ⟨.f64, 2, 4, .s 1⟩, .fsgn ⟨true, false, 2, 3, .v 4⟩, .fsqrt ⟨.bf16, 1, 2⟩, .fsqrt ⟨.f64, 1, 2⟩, .fclass ⟨.f64, 2, 3⟩,
    .frnd ⟨true, .rne, 1, 2⟩, .cvtif ⟨.f64, .s32, .rne, 1, 2⟩, .cvtif ⟨.f32, .s64, .rne, 1, 3⟩, .cvtfi ⟨.f64, .s32, .rne, 1, 3⟩,
    .cvtff ⟨.f64, .f32, false, .rne, 1, 2⟩, .cvtff ⟨.bf16, .f32, true, .rne, 1, 2⟩, .pack ⟨.f32, false, .rne, 1, 2⟩,
    .pack ⟨.f8e4, false, .rne, 1, 2⟩, .pack ⟨.bf16, true, .rne, 1, 2⟩, .unpk ⟨.f64, 4, 1⟩, .unpk ⟨.f8e5, 2, 1⟩, .lball ⟨1, 2⟩,
    .lred ⟨.iadd64, 1, 2⟩, .lscan ⟨.fadd64, 2, 3⟩, .lfirst ⟨true, 64, 2⟩] : List Instr).all (fun i => !i.wf) = true := by decide

theorem test_wf_memory : ([.ld ⟨.x8, .dflt, 1, 0, 0⟩, .st ⟨.x16, .dflt, 2, 0, 0⟩, .xst ⟨.w, .dev, 0, 0, 0⟩, .fence .dflt,
    .acas ⟨.rlx, false, .dflt, 1, 0, 0⟩, .mma ⟨.f32, 0, 4⟩, .mma ⟨.f64, 1, 8⟩, .mmas ⟨.f8e4, false, 0, 8, 0⟩, .mmas ⟨.f32, false, 0, 4, 0⟩,
    .drain ⟨.f8e5, 0, 0, 0⟩, .drain ⟨.f64, 1, 0, 0⟩, .accrd ⟨4, 0, 0⟩, .accwr ⟨12, 0, 0⟩, .mstat 0 3, .copy ⟨false, 60, 0, 0⟩,
    .copy ⟨false, 0, 60, 0⟩, .copyl ⟨false, .x4, 1, 0, 0⟩, .copyr ⟨false, .add, 60, 0, 0⟩, .copyr ⟨false, .add, 0, 60, 0⟩,
    .copyr ⟨false, .add, 0, 0, 1⟩, .tstat 4 0] : List Instr).all (fun i => !i.wf) = true := by decide

theorem test_wf_engine : ([.qpush 7 0, .qpush 8 1, .qpop 0 1 0, .qpop 1 8 0, .qpeek 0 7 0, .qpeek 1 0 0, .qstat 2 0, .spawn 3 0,
    .spawn 8 0, .glaunch 4 1, .gedit 0 1 0, .gedit 0 0 1, .capp 7 0, .capp 8 1, .fxfer 0 0 1, .fxferw 0 0 0 1, .ftot 2 0,
    .fstat 2 0 0, .flink 0 1, .bart 0 0 1] : List Instr).all (fun i => !i.wf) = true := by decide

theorem test_wf_system : ([.srd ⟨0, false, 0, 0x003⟩, .srd ⟨0, false, 1, 0x000⟩, .hqpop ⟨0, false, 0, 0x027⟩, .hqpop ⟨0, false, 1, 0x028⟩,
    .swr ⟨0, false, 0, 0x002⟩, .swr ⟨0, false, 1, 0x024⟩, .ctxset ⟨0, false, 0, 0x003⟩, .cmaskWrite ⟨0, false, 0, 0x010⟩,
    .rgnrst ⟨0, false, 0, 0x019⟩, .ctlcmd ⟨0, false, 0, 0x018⟩, .qcmdCreate ⟨0, false, 0, 0x210⟩, .qcmdDestroy ⟨0, false, 2, 0x211⟩,
    .qbudget ⟨0, false, 0, 0x213⟩, .qlate ⟨0, false, 0, 0x212⟩, .pagecfg ⟨0, false, 0, 0x021⟩, .frmpush ⟨0, false, 0, 0x020⟩,
    .partmask ⟨0, false, 0, 0x180⟩, .tlbiPage 1, .pgmig 1 0, .pgpin 1, .pgpinUnpin 1] : List Instr).all (fun i => !i.wf) = true := by decide

/-! ### Small states -/

/-- `Passes` as a computation. -/
def passB (i : Instr) (s : State) (iss : Issue) (g : Group) : Bool :=
  let o := operRegs s iss g i
  decide (s.cur = some iss) && decide (s.group? iss.gid = some g) &&
  ((regsOf iss.snap i).vr ++ (regsOf iss.snap i).vw).all (fun r => decide (r < g.regs)) && !tilesBad (tilesOf s g) i &&
  (!slideOf s g || (!slideBad i && (!detOf s g || !laneBad i))) && (!needsPriv i || s.privOf g) && !regsPending s iss o &&
  decide (errAt g iss o true = none) && decide (softPlaces g iss o = []) && decide (s.corrected = []) &&
  (!flushPoint i || (!xferOpen s iss.gid iss.lanes && decide (derrLanes g iss = [])))

theorem passes_of {i : Instr} {s : State} {iss : Issue} {g : Group} (h : passB i s iss g = true) : Passes i s iss g := by
  simp only [passB, Bool.and_eq_true, decide_eq_true_eq, Bool.not_eq_true', Bool.or_eq_true] at h
  obtain ⟨⟨⟨⟨⟨⟨⟨⟨⟨⟨a, b⟩, c⟩, d⟩, e⟩, f⟩, m⟩, u⟩, k⟩, l⟩, n⟩ := h
  refine ⟨a, b, c, d, ?_, ?_, m, u, k, l, ?_⟩
  · intro hs; rw [hs] at e; simp only [Bool.true_eq_false, false_or] at e
    exact ⟨e.1, fun hd => by rw [hd] at e; simpa using e.2⟩
  · intro hp; rw [hp] at f; simpa using f
  · intro hp; rw [hp] at n; simpa using n

/-- Several hypotheses that `passB` decides. -/
theorem passes_all {l : List Instr} {s : State} {iss : Issue} {g : Group} (h : l.all (fun i => passB i s iss g) = true) :
    ∀ i ∈ l, Passes i s iss g := fun i hi => passes_of (List.all_eq_true.mp h i hi)

/-- A thread past the header of a clause at 0. -/
def thr (lane : Nat) (v : RegFile := []) : Thread :=
  { lane := lane, v := v, pc := 4, clause := [0x20010000, 0x68000000, 0x68000000], entered := true, passed := true }
/-- A group of core 0. -/
def grp (sf : RegFile) (ts : List Thread) : Group := { gid := 10, wg := 7, regs := 128, s := sf, threads := ts }
/-- Its issue at 4. -/
def isu (g : Group) : Issue := { gid := 10, pc := 4, lanes := g.threads.map (·.lane), snap := g.s }
/-- A parameter block: 128 registers and 8 tiles, further flags added. -/
def swp (fl : Nat) : Sweep := { id := 5, params := [BitVec.ofNat 32 (0x20080 + fl), 4096, 1, 1, 1], gangs := 1, placed := 1 }
/-- A context with privilege; stage 2 entry 0 maps all of device memory to itself. -/
def cx : Context := { state := .active, priv := true, cmask := BitVec.allOnes 256, rsmask := 1 }
/-- A cached leaf of a page that maps to itself: readable, writable and executable; 0x2F makes it a field page. -/
def lf (n : Nat) (fl : Nat := 0xF) : TlbE := ⟨0, n, n * 2 ^ 32 + fl, 1, [(0, [0, 0, 0xFFFFFFFF, 0x7F, 0, 0, 0xF])]⟩
/-- One sweep of one gang with one workgroup of one group, about to execute. Pages 0 to 2 are plain and 3 and 4 hold field cells;
headers with T set stand at 0 and 0x40. -/
def mk (g : Group) (fl : Nat := 0) (c : Context := cx) : State :=
  { booted := true, cur := some (isu g), nextId := 100, groups := [g], ctxs := [c], sweeps := [swp fl], gangs := [{ id := 6, sweep := 5 }],
    wgs := [{ id := 7, gang := 6, sweep := 5, size := 4096, tiles := 8, groups := 1 }],
    cores := [(0, { tlb := [lf 0, lf 1, lf 2, lf 3 0x2F, lf 4 0x2F] })], ranges := [(0, [0, 0, 0xFFFFFFFF, 0x7F, 0, 0, 0xF])],
    dev := [(2, 1), (3, 0x20), (0x42, 1), (0x43, 0x20)] }
/-- An access of lane 0 to four bytes of device memory, at its slice. -/
def accL (id : Nat) (op : AccOp) (a : Nat) (d : List Byte) : Acc :=
  { id := id, gid := 10, core := 0, ctx := 0, pc := 4, op := op, space := .dev, line := a / 128, wid := 4,
    lanes := [{ lane := 0, va := a, keys := keysFrom a 4, dst := 2, data := d }] }
/-- `passB` on such a state. -/
def ok (i : Instr) (g : Group) (fl : Nat := 0) (c : Context := cx) : Bool := passB i (mk g fl c) (isu g) g

/-! ### Witnesses: registers -/

/-- Two lanes with v2 = 7 and -1, v3 = 5 (poisoned in lane 1), and s3 = 9. -/
def g1 : Group := grp [(3, ⟨9, false⟩), (4, ⟨0x3F800000, false⟩)]
  [thr 0 [(2, ⟨7, false⟩), (3, ⟨5, false⟩), (8, ⟨0x3F800000, false⟩)], thr 1 [(2, ⟨0xFFFFFFFF, false⟩), (3, ⟨5, true⟩)]]

theorem wit_IntegerLaneResults : [bxRows.all fun row => [.v 3, .s 3, .imm 0x7F].all fun b => ok (row.1 ⟨false, true, 127, 2, b⟩) g1].all id = true := by
  decide +kernel
theorem wit_IntegerUniformResults : [bxRows.all fun row => [.v 3, .imm 0x40].all fun b => ok (row.1 ⟨true, false, 63, 3, b⟩) g1].all id = true := by
  decide +kernel
theorem wit_Integer64Results : [
    bxRows64.all fun row => ok (row.1 ⟨false, false, 126, 2, .s 4⟩) g1 && ok (row.1 ⟨true, false, 62, 2, .imm 1⟩) g1,
    ok (.shl64 ⟨false, false, 126, 2, .imm 0x3F⟩) g1, ok (.shl64 ⟨true, false, 62, 2, .v 3⟩) g1,
    ok (.shr64 ⟨false, true, 126, 2, .s 3⟩) g1, ok (.shr64 ⟨true, true, 62, 2, .imm 0x40⟩) g1].all id = true := by decide +kernel
theorem wit_UnaryAndFieldResults : [
    unRows.all fun row => ok (row.1 ⟨false, 127, 2⟩) g1 && ok (row.1 ⟨true, 63, 3⟩) g1,
    ok (.bfe ⟨false, true, 127, 2, .s 3⟩) g1, ok (.bfe ⟨true, false, 63, 3, .v 4⟩) g1, ok (.bfi ⟨false, false, 1, 2, .v 3⟩) g1,
    ok (.bfi ⟨true, false, 1, 3, .v 4⟩) g1, ok (.lea ⟨false, 3, 1, 2, .v 3⟩) g1, ok (.lea ⟨true, 0, 1, 3, .v 4⟩) g1,
    ok (.qmul ⟨false, .rne, 1, 2, .v 3, 63⟩) g1, ok (.qmul ⟨true, .rz, 1, 3, .v 4, 0⟩) g1, ok (.qshr ⟨false, .rmi, 1, 2, .s 3⟩) g1,
    ok (.qshr ⟨true, .rne, 1, 3, .v 4⟩) g1].all id = true := by decide +kernel
theorem wit_MoveResults : [
    ok (.mov ⟨false, 127, .s 63⟩) g1, ok (.mov ⟨true, 63, .v 3⟩) g1, ok (.movi ⟨false, 127, 0x2000⟩) g1, ok (.movi ⟨true, 0, 0x1FFF⟩) g1,
    ok (.movl ⟨false, 1, 9⟩) g1, ok (.movl ⟨true, 1, 9⟩) g1, ok (.movs ⟨false, 1, 0x00⟩) g1, ok (.movs ⟨false, 1, 0x4A⟩) g1,
    ok (.movs ⟨false, 2, 0x0A⟩) g1, ok (.movs ⟨true, 2, 0x0A⟩) g1, ok (.movs ⟨true, 1, 0x0F⟩) g1, ok (.potake 127) g1,
    (g1.threads.find? fun t => (isu g1).lanes.contains t.lane).isSome].all id = true := by decide +kernel
theorem wit_PredicateAndFctlResults : [
    ok (.sel ⟨7, 1, 2, 3⟩) g1, ok (.icmp ⟨.lt, false, 7, 2, .s 3⟩) g1, ok (.icmp ⟨.geu, true, 0, 2, .imm 0x7F⟩) g1,
    [PlopOp.and, .or, .xor, .andn, .orn].all fun o => ok (.plop ⟨o, 0, 1, 2⟩) g1, ok (.plop ⟨.not, 0, 1, 0⟩) g1, ok (.plop ⟨.set, 7, 0, 0⟩) g1,
    ok (.plop ⟨.clr, 7, 0, 0⟩) g1, ok (.pmov ⟨true, 7, 127⟩) g1, ok (.pmov ⟨false, 7, 127⟩) g1, ok (.pchk ⟨false, 0, 127⟩) g1,
    ok (.pchk ⟨true, 0, 126⟩) g1, ok (.getfc 127) g1, ok (.setfc (.v 3)) g1, ok (.setfc (.s 3)) g1].all id = true := by decide +kernel

/-- Where FCTL enables no exception, none is enabled whatever flags an operation raises. -/
theorem calm {t : Thread} (h : t.fctl = 0) (fl : Fl) : t.enabled fl = 0 := by simp [Thread.enabled, h]
/-- So it is in every thread of g1: the hypothesis of the float statements holds for every operation. -/
theorem calm_g1 (r : Thread → Fl) : ∀ t ∈ g1.threads, t.lane ∈ (isu g1).lanes → t.enabled (r t) = 0 := by
  intro t ht _
  simp only [g1, grp, List.mem_cons, List.not_mem_nil, or_false] at ht
  rcases ht with rfl | rfl <;> exact calm rfl _

theorem wit_FloatResults : [fbRows.all fun row => [Fmt.f32, .f64].all fun f => ok (row.1 ⟨f, 126, 2, .s 4⟩) g1].all id = true := by decide +kernel
theorem wit_FloatUnaryResults : [
    f1Rows.all fun row => ok (row.1 ⟨127, 2⟩) g1, ok (.fsqrt ⟨.f64, 126, 2⟩) g1, ok (.frnd ⟨false, .dyn, 1, 2⟩) g1, ok (.frnd ⟨true, .rz, 2, 4⟩) g1,
    ok (.cvtif ⟨.f32, .u64, .dyn, 1, 2⟩) g1, ok (.cvtif ⟨.f8e5, .s32, .rne, 1, 2⟩) g1, ok (.cvtfi ⟨.f64, .s64, .rmi, 4, 2⟩) g1,
    ok (.cvtff ⟨.f8e4, .f32, true, .rne, 1, 2⟩) g1, ok (.cvtff ⟨.f64, .bf16, false, .dyn, 4, 2⟩) g1].all id = true := by decide +kernel
theorem wit_FloatMiscResults : [
    ok (.fscale ⟨.f64, 4, 2, .v 8⟩) g1, ok (.fsgn ⟨false, true, 1, 2, .s 4⟩) g1, ok (.fclass ⟨.bf16, 1, 2⟩) g1, ok (.fcmp ⟨.un, .f32, 7, 2, .v 8⟩) g1,
    ok (.fdot2 ⟨1, 2, .s 4⟩) g1, ok (.pack ⟨.f8e4, true, .rne, 1, 4⟩) g1, ok (.pack ⟨.bf16, false, .dyn, 1, 2⟩) g1, ok (.unpk ⟨.f8e5, 4, 2⟩) g1,
    ok (.unpk ⟨.bf16, 4, 2⟩) g1].all id = true := by decide +kernel

/-- One lane with every float exception enabled (FCTL of R62); v2 is a signaling NaN. -/
def g2 : Group := grp [] [{ thr 0 [(2, ⟨0x7F800001, false⟩), (3, ⟨0x7F800001, false⟩)] with fctl := 0x001F0000 }]
theorem wit_FloatTraps : [fbRows.all fun row => ok (row.1 ⟨.f32, 1, 2, .v 3⟩) g2 && !(g2.threads.filter fun t => (isu g2).lanes.contains t.lane &&
    decide (t.enabled (elems .f32 (row.2.2 t.rm) (vbits t 1 2).1 (obits (isu g2).snap t 1 (.v 3)).1 (vbits t 1 1).1).2 ≠ 0)).isEmpty].all id = true := by
  decide +kernel

theorem wit_LaneResults : [exRows.all fun row => [.v 2, .s 3, .imm 0x7F].all fun b => ok (row.1 ⟨127, 2, b⟩) g1,
    [VoteOp.all, .any, .uni].all fun o => ok (.lvote ⟨o, 7, 0⟩) g1, ok (.lball ⟨126, 7⟩) g1, ok (.lfirst ⟨true, 63, 127⟩) g1, ok (.lfirst ⟨false, 127, 2⟩) g1,
    [RedOp.iadd, .umax, .fadd, .fmin].all fun o => ok (.lred ⟨o, 1, 2⟩) g1 && ok (.lscan ⟨o, 127, 3⟩) g1,
    ok (.lred ⟨.iadd64, 126, 2⟩) g1, ok (.lscan ⟨.fadd64, 4, 2⟩) g1].all id = true := by decide +kernel

/-! ### Witnesses: control -/

/-- The targets of a transfer are all good. -/
def goesTo (s : State) (g : Group) (tgt : Thread → Option Word) : Bool :=
  decide (coursedTargets g (isu g) tgt = []) && g.threads.all fun t => match tgt t with
    | some pc => decide (slideTargetBad s g (placeOf s g).2 (slideOf s g) pc.toNat = none) && inFret (placeOf s g).2 (slideOf s g) t pc.toNat
    | none => true
/-- v2 holds 0x40, and the stack one return point. -/
def g3 : Group := grp [] [{ thr 0 [(2, ⟨0x40, false⟩)] with stack := [0x40], pv := 1 }, { thr 1 [(2, ⟨0x40, false⟩)] with stack := [0x40] }]
/-- p7, v2 and the stack are no targets. -/
def g4 : Group := grp [] [{ thr 0 [(2, ⟨0x40, true⟩)] with pp := 0x80 }]

theorem wit_ControlTransferResults : [
    ok (.br 0x10) g3, goesTo (mk g3) g3 fun t => some (relTarget t 0x10), ok (.brp 0 0x10) g3,
    goesTo (mk g3) g3 fun t => if t.pval 0 then some (relTarget t 0x10) else none,
    ok (.brnp 0 0x10) g3, goesTo (mk g3) g3 fun t => if t.pval 0 then none else some (relTarget t 0x10),
    g3.threads.all fun t => !t.ppoi 0, ok (.jmp 0x40) g3, goesTo (mk g3) g3 fun _ => some 0x40,
    ok (.jmpInd 2) g3, g3.threads.all fun t => !(t.vget 2).poi, goesTo (mk g3) g3 fun t => some (t.vget 2).w,
    ok (.call 0) g3, goesTo (mk g3) g3 fun t => some (relTarget t 0), ok .ret g3, g3.threads.all fun t => !t.stack.isEmpty,
    goesTo (mk g3) g3 fun t => some (t.stack.headD 0),
    ok (.brp 7 0) g4, ok (.brnp 7 0) g4, g4.threads.all fun t => t.ppoi 7, ok (.jmpInd 2) g4, g4.threads.all fun t => (t.vget 2).poi, ok .ret g4,
    g4.threads.all fun t => t.stack.isEmpty, ok (.br 1) g4, decide (coursedTargets g4 (isu g4) (fun t => some (relTarget t 1)) = []),
    g4.threads.all fun t => decide (slideTargetBad (mk g4) g4 (placeOf (mk g4) g4).2 false (relTarget t 1).toNat = some (3, 0, 4, false))].all id = true := by
  decide +kernel

/-- A fret of 16 words at a code address, on core 0 with a queue of 32, and its ring. -/
def fr (start ring : Nat) : Fret :=
  { words := [0x80040000, 0x0020000F, BitVec.ofNat 32 start, 0, 0, BitVec.ofNat 32 ring, 0, 16], state := .inUse }
/-- A slide sweep with frets at 0 and 0x40. -/
def cxs : Context := { cx with frets := [(0, fr 0 0x10000), (1, fr 0x40 0x18000)] }
/-- The flag that makes a sweep slide. -/
def sl : Nat := 0x100000
/-- One thread in fret 0. -/
def g5 : Group := grp [] [{ thr 0 with fret := some 0 }]
/-- As a decision on a departure. -/
def Dep.isOk : Dep → Bool
  | .ok _ => true
  | _ => false

theorem wit_SlideDeparts : [
    ok (.slide 1) g5 sl cxs, slideOf (mk g5 sl cxs) g5, decide (((mk g5 sl cxs).fret 0 1).state = .inUse),
    decide (coursedTargets g5 (isu g5) (fun _ => some 0x40) = []),
    decide (slideTargetBad (mk g5 sl cxs) g5 (placeOf (mk g5 sl cxs) g5).2 true 0x40 = none), g5.threads.all fun u => u.derr.isNone,
    !departBlocked (mk g5 sl cxs) g5 [0],
    Dep.isOk (departAll (mk g5 sl cxs) (g5.mapLanes [0] fun u => u.goto 0x40) 0 false false [(0, 1, 0x40)]),
    decide (((mk g5 sl cxs).sweepOf g5).map (·.det) = some false), decide ((fretAt (placeOf (mk g5 sl cxs) g5).2 0x40).getD 0 = 1),
    ok (.slide 255) g5 sl cxs, decide (((mk g5 sl cxs).fret 0 255).state ≠ .inUse), ok (.slide 0) g1, !slideOf (mk g1) g1].all id = true := by
  decide +kernel

/-- Lane 0 has a load outstanding. -/
def sO : State := { mk g1 with accs := [accL 50 .load 0x10000 []] }
theorem wit_ExitAndSoftwareTraps : [ok .exit g1, accsDone (mk g1) 10 (isu g1).lanes, passB .exit sO (isu g1) g1, !accsDone sO 10 (isu g1).lanes, ok (.trap 0xFF) g1, ok (.bkpt 0) g1].all id = true := by decide +kernel
theorem wit_NopAndYield : [ok .nop g1, ok .yield g1].all id = true := by decide +kernel

/-- A thread in the Handler state with the frame of a trap at 4, to be returned from as `r` says. -/
def hthr (lane r : Nat) : Thread := { thr lane with handler := true, pc := 4, frame := { v := true, resume := r, cause := 0x50, pc := 4, hdr := 0, hdrw := 0x20010000 } }
def g6 : Group := grp [] [hthr 0 0, hthr 1 1]
theorem wit_TrapEntry : [
    decide ((mk g1).group? 10 = some g1), !(g1.threads.any fun t => (isu g1).lanes.contains t.lane && t.handler), ((mk g1).thread? 10 1).isSome,
    (isu g1).lanes.contains 1, decide ((mk g6).group? 10 = some g6), g6.threads.any fun t => (isu g6).lanes.contains t.lane && t.handler].all id = true := by
  decide +kernel
theorem wit_TrapReturn : [
    ok .tret g6, !slideOf (mk g6) g6,
    g6.threads.all fun t => t.handler && decide (t.frame.resume ≠ 2) && (tretBad (mk g6) g6 (placeOf (mk g6) g6).2 4 t).isNone &&
      inFret (placeOf (mk g6) g6).2 (slideOf (mk g6) g6) t t.tret.pc.toNat,
    ok .tret g1, g1.threads.all fun t => !t.handler].all id = true := by decide +kernel

/-- A context without privilege. -/
def cxu : Context := { cx with priv := false }
theorem wit_PrivilegeTraps : [decide ((mk g1 0 cxu).cur = some (isu g1)), decide ((mk g1 0 cxu).group? 10 = some g1),
    !(mk g1 0 cxu).privOf g1].all id = true := by decide +kernel
/-- A group with 8 declared registers. -/
def g7 : Group := { g1 with regs := 8 }
theorem wit_RegisterAndFormTraps : [decide ((mk g7).cur = some (isu g7)), decide ((mk g7).group? 10 = some g7),
    decide (g7.regs ≤ 8), (regsOf (isu g7).snap (.iadd ⟨false, false, 8, 0, .imm 0⟩)).vw.contains 8].all id = true := by decide +kernel
/-- v127 of lane 1 has failed its check; lane 0 holds a deferred error. -/
def g8e : Group := grp [] [thr 0, { thr 1 with verr := [(127, true)] }]
def s8 : State := mk g8e
def g9 : Group := grp [] [{ thr 0 with derr := some ⟨0x28, 0, 0, []⟩ }, thr 1]
theorem wit_RegisterErrorTraps : [decide (s8.cur = some (isu g8e)), decide (s8.group? 10 = some g8e),
    passB (.iadd ⟨false, false, 127, 0, .imm 0⟩) s8 (isu g8e) g8e,
    (regsOf (isu g1).snap (.pchk ⟨false, 0, 127⟩)).vr.all fun r => decide (r < g1.regs),
    !regsPending s8 (isu g8e) (regsOf (isu g1).snap (.pchk ⟨false, 0, 127⟩)),
    decide (errAt g8e (isu g8e) (regsOf (isu g1).snap (.pchk ⟨false, 0, 127⟩)) true = some (.vreg 10 1 127)),
    decide (errAt g9 (isu g9) {} true = none), decide (softPlaces g9 (isu g9) {} = []), decide ((mk g9).corrected = []),
    !xferOpen (mk g9) 10 [0, 1], decide (minOf (derrLanes g9 (isu g9)) = some 0), decide ((g9.thread? 0).bind (·.derr) = some ⟨0x28, 0, 0, []⟩)].all id = true := by
  decide +kernel
theorem wit_SlideSweepForbids : [decide ((mk g5 sl cxs).cur = some (isu g5)), decide ((mk g5 sl cxs).group? 10 = some g5),
    slideOf (mk g5 sl cxs) g5].all id = true := by decide +kernel
theorem wit_SaturatingAddRule : [ok (.sadd ⟨false, true, 127, 2, .imm 0x40⟩) g1, ok (.ssub ⟨false, false, 0, 2, .v 3⟩) g1,
    ok (.sadd ⟨true, false, 127, 2, .s 3⟩) g1, ok (.ssub ⟨true, true, 0, 2, .imm 1⟩) g1].all id = true := by decide +kernel
theorem wit_Shift64Rule : [ok (.shl64 ⟨false, false, 126, 2, .s 3⟩) g1, ok (.shr64 ⟨false, true, 0, 2, .imm 0x3F⟩) g1].all id = true := by decide +kernel
/-- The frames' hypotheses are those of the results above, and such an instruction does answer. -/
theorem wit_RegisterFrames : [ok (.sel ⟨0, 1, 2, 3⟩) g1, ok (.iadd64 ⟨false, false, 2, 2, .imm 1⟩) g1, ok (.movi ⟨true, 63, 1⟩) g1,
    match exec (.sel ⟨0, 1, 2, 3⟩) (mk g1) with | .next _ => true | _ => false,
    match exec (.movi ⟨true, 63, 1⟩) (mk g1) with | .next _ => true | _ => false].all id = true := by decide +kernel

/-! ### Witnesses: memory, ordering, barriers -/

/-- Records: s4 words at 0x10000, s8 the scratchpad, s12 field cells at 0x30000, s16 the exchange window, s20 poisoned, s24 of a kind that
loads refuse, s28 halfwords at 0x10002, s32 a DRAIN's
destination; s40 the limit 0xFFFFFFFF, s42 poison, s44 a group word (group 1, quorum 2, window 1), s45 a bad
one, s46 scales of 1.0. -/
def sfM : RegFile :=
  [(4, ⟨0x10000, false⟩), (5, ⟨0x40000000, false⟩), (6, ⟨64, false⟩), (7, ⟨0x100, false⟩),
   (9, ⟨0x42000000, false⟩), (10, ⟨64, false⟩),
   (12, ⟨0x30000, false⟩), (13, ⟨0x4E000000, false⟩), (14, ⟨64, false⟩), (15, ⟨0x100, false⟩),
   (17, ⟨0x46000000, false⟩), (18, ⟨64, false⟩), (20, ⟨0, true⟩), (25, ⟨0x48000000, false⟩),
   (28, ⟨0x10002, false⟩), (29, ⟨0x20000000, false⟩), (30, ⟨64, false⟩), (31, ⟨2 * 65536, false⟩),
   (32, ⟨0x10000, false⟩), (33, ⟨0x40000000, false⟩), (34, ⟨8192, false⟩),
   (40, ⟨0xFFFFFFFF, false⟩), (42, ⟨1, true⟩), (44, ⟨0x00010201, false⟩), (45, ⟨0x00010001, false⟩), (46, ⟨0x10000, false⟩)]
/-- Two lanes with indices 0 and 63, a wild one in v10 and a poisoned one in v11; lane 1 traps out of range. -/
def gm : Group := grp sfM [thr 0 [(2, ⟨3, false⟩), (10, ⟨64, false⟩), (11, ⟨0, true⟩)],
  { thr 1 [(1, ⟨63, false⟩), (2, ⟨4, false⟩), (10, ⟨64, false⟩), (11, ⟨0, true⟩)] with fctl := 0x00200000 }]
/-- The workgroup is a member of exchange group 1. -/
def sx : State := { mk gm with
  wgs := [{ id := 7, gang := 6, sweep := 5, size := 4096, tiles := 8, groups := 1, xm := some { grp := 1, pending := false } }],
  ctxs := [{ cx with xgroups := [(1, { open_ := true, quorum := 1, win := 1 })] }] }

/-- The lanes of an access whose every lane has a place, and whose check of races lets it go. -/
def goes (s : State) (g : Group) (r : Rec) (rn : RecN) (i : VReg) (f : Form) (kind7 : Bool) (ts : List (Thread × Nat × Loc) → List Touch) : Bool :=
  match accessSteps s (isu g) g r rn i f with
  | .go (y :: ls) [] [] => ((y :: ls).all fun y => match y.2.2 with | .at_ sp _ leaf => !kind7 || sp != .dev || leaf.testBit 5 | _ => false) &&
      (match raceCheck (fillFor s g.core (placeOf s g).2 r (y :: ls)) (isu g) g (placeOf s g).1 (ts (y :: ls)) with | .go _ => true | .stop _ => false) &&
      !detOf s g
  | _ => false
def ldHyp (x : LsF) (acq : Bool) (s : State) (g : Group) : Bool :=
  let r := recAt (isu g).snap x.r
  passB (if acq then .ldacq x else .ld x) s (isu g) g && (!acq || accsDone s 10 (isu g).lanes) &&
  goes s g r x.r x.i (loadForm (isu g).snap r x acq) (r.kind == 7) fun ls => touches r (r.sc x.sc) (placedOf ls) false acq
def stHyp (x : LsF) (rel xst : Bool) (s : State) (g : Group) : Bool :=
  let r := recAt (isu g).snap x.r
  passB (if xst then .xst x else if rel then .strel x else .st x) s (isu g) g && (!rel || drained s 10 (isu g).lanes) && decide (s.posted = []) &&
  (match accessSteps s (isu g) g r x.r x.i (storeForm (isu g).snap r x rel xst) with
    | .go ls _ _ => decide (storeFault s (isu g) r ls true = none) && (!xst || !xstStalled s (placeOf s g).1 r ls)
    | _ => false) &&
  goes s g r x.r x.i (storeForm (isu g).snap r x rel xst) false fun ls => touches r (r.sc x.sc) (placedOf ls) true rel
def atHyp (i : Instr) (X : AtSpec) (s : State) (g : Group) : Bool :=
  let r := recAt (isu g).snap X.r
  passB i s (isu g) g && (!X.rel || drained s 10 (isu g).lanes) && (!X.acq || accsDone s 10 (isu g).lanes) && decide (s.posted = []) &&
  (match accessSteps s (isu g) g r X.r X.i (X.form r) with | .go ls _ _ => decide (storeFault s (isu g) r ls true = none) | _ => false) &&
  goes s g r X.r X.i (X.form r) false fun ls => touches r (r.sc X.sc) (placedOf ls) true true

theorem wit_LoadsAndStoresIssue : [
    ldHyp ⟨.w, .dflt, 2, 1, 1⟩ false (mk gm) gm, ldHyp ⟨.w, .dflt, 2, 1, 1⟩ true (mk gm) gm, ldHyp ⟨.x1, .dflt, 2, 2, 1⟩ false (mk gm) gm,
    ldHyp ⟨.w, .dflt, 2, 3, 1⟩ false (mk gm) gm, ldHyp ⟨.x4, .sys, 127, 1, 1⟩ false (mk gm) gm, ldHyp ⟨.w, .dflt, 2, 4, 1⟩ false sx gm,
    stHyp ⟨.w, .dflt, 2, 1, 1⟩ false false (mk gm) gm, stHyp ⟨.w, .sys, 2, 1, 1⟩ true false (mk gm) gm, stHyp ⟨.x1, .dflt, 127, 2, 1⟩ false false (mk gm) gm,
    stHyp ⟨.w, .dflt, 2, 4, 1⟩ false true sx gm].all id = true := by decide +kernel

/-- A store of a deterministic sweep is staged, with release or without. -/
theorem wit_LoadsAndStoresIssue_staged : [false, true].all (fun rel =>
    let g : Group := { gm with threads := gm.threads.map fun t => { t with fctl := 0 } }; let s := mk g 0x40000; let x : LsF := ⟨.w, .dflt, 2, 1, 1⟩
    let r := recAt (isu g).snap x.r
    passB (if rel then .strel x else .st x) s (isu g) g && (match accessSteps s (isu g) g r x.r x.i (storeForm (isu g).snap r x rel false) with
      | .go ls [] [] => !ls.isEmpty && (match raceCheck (fillFor s g.core (placeOf s g).2 r ls) (isu g) g (placeOf s g).1 (touches r (r.sc x.sc) (placedOf ls) true rel) with
          | .go _ => true | .stop _ => false) && decide (storeFault s (isu g) r ls true = none) && (s.sweepOf g).elim false (fun y => y.det && !y.slide &&
          decide (((stagedOf s y.id).filter fun e => e.wg == g.wg).length + ls.length ≤ stageShare y)) && r.kind == 0 && sparseWf {} s.cores
      | _ => false)) = true := by decide +kernel

theorem wit_AtomicsIssue : [
    atRows.all fun row => let x : AtF := ⟨.rlx, true, .dflt, 2, 1, 1⟩; atHyp (row.1 x) (atSpec row.2.1 row.2.2 x (isu gm)) (mk gm) gm,
    atRows.all fun row => let x : AtF := ⟨.ar, false, .sys, 126, 1, 1⟩; atHyp (row.1 x) (atSpec row.2.1 row.2.2 x (isu gm)) (mk gm) gm,
    atHyp (.csig ⟨.dflt, 2, 1, 1⟩) (csigSpec ⟨.dflt, 2, 1, 1⟩ (isu gm)) (mk gm) gm,
    decide (([1, 2, 3, 4] : List Byte).length = 4)].all id = true := by decide +kernel

/-- Outstanding accesses of lane 0: a load, a store and an atomic on different lines. -/
def sA : State := { mk gm with accs := [
  accL 50 .load 0x10000 [], accL 51 .store 0x10080 [1, 2, 3, 4], accL 52 (.atomic .add true) 0x10100 [1, 0, 0, 0]] }
theorem wit_AccessesEnd : [
    (sA.acc? 50).elim false fun a => decide (a.op = .load) && decide (a.req = none) && decide (a.fetch = none) && accReady sA a && decide ((a.lanes.map (·.lane)).Nodup) &&
      decide (sA.group? a.gid = some gm),
    (sA.acc? 51).elim false fun a => decide (a.op = .store) && accReady sA a && locksOver sA a && !a.committed && !partMarked sA a && sA.memWf,
    (sA.acc? 52).elim false fun a => decide (a.op = .atomic .add true) && accReady sA a && locksOver sA a && !a.committed &&
      a.lanes.all fun l => decide (dataPoison sA a.space l.keys = none)].all id = true := by decide +kernel

/-- The five forms with a record, whose index register is `i`. -/
def accForms (rn : RecN) (d i : VReg) : List (Instr × (RegFile → Rec → Form)) :=
  let x : LsF := ⟨.w, .dflt, d, rn, i⟩
  [(.ld x, fun sf r => loadForm sf r x false), (.ldacq x, fun sf r => loadForm sf r x true), (.st x, fun sf r => storeForm sf r x false false),
   (.strel x, fun sf r => storeForm sf r x true false), (.xst x, fun sf r => storeForm sf r x false true)]
/-- The record read, and the form passes its own checks. -/
def sound (_ : State) (rn : RecN) (i : VReg) (p : Instr × (RegFile → Rec → Form)) : Bool :=
  let r := recAt sfM rn
  let F := p.2 sfM r
  decide (recBad r F.kinds F.ok8 = none) && (acting gm (isu gm)).all fun t => decide (firstPoison t F.poison = none) && !(t.idx i).poi
theorem wit_AccessTraps : [
    (accForms 5 2 1).all fun p => passB p.1 (mk gm) (isu gm) gm && decide (coursedDiff gm (isu gm) (p.2 sfM (recAt sfM 5)).cmp = []) && (recAt sfM 5).poi,
    (accForms 6 2 1).all fun p => passB p.1 (mk gm) (isu gm) gm && !(recAt sfM 6).poi &&
      decide (recBad (recAt sfM 6) (p.2 sfM (recAt sfM 6)).kinds (p.2 sfM (recAt sfM 6)).ok8 = some 1),
    (accForms 1 2 10).all fun p => passB p.1 (mk gm) (isu gm) gm,
    ((accForms 1 2 10).take 4).all fun p => sound (mk gm) 1 10 p && (acting gm (isu gm)).any fun t =>
      !inRange (mk gm) (placeOf (mk gm) gm).1 (recAt sfM 1) 64 4 (p.2 sfM (recAt sfM 1)).store && t.fctl.getLsbD 21,
    ((accForms 4 2 10).drop 4).all fun p => passB p.1 sx (isu gm) gm && sound sx 4 10 p && (acting gm (isu gm)).any fun t =>
      !inRange sx (placeOf sx gm).1 (recAt sfM 4) 64 4 true && t.fctl.getLsbD 21,
    let x : LsF := ⟨.x4, .dflt, 2, 7, 1⟩; passB (.ld x) (mk gm) (isu gm) gm && sound (mk gm) 7 1 (.ld x, fun sf r => loadForm sf r x false) &&
      (acting gm (isu gm)).any fun t => decide ((recAt sfM 7).addr (t.idx 1).w.toNat % 4 ≠ 0),
    let g : Group := grp sfM [thr 0 [(10, ⟨64, false⟩), (11, ⟨0, true⟩)]]; [(10 : VReg), 11].all fun i =>
      let x : LsF := ⟨.w, .dflt, 2, 1, i⟩
      passB (.ld x) (mk g) (isu g) g && !tracked (recAt sfM 1) 2 && match accessSteps (mk g) (isu g) g (recAt sfM 1) 1 i (loadForm (isu g).snap (recAt sfM 1) x false) with
        | .go _ oob poi => decide (oob = [0] ∨ poi = [0]) | _ => false].all id = true := by decide +kernel

theorem wit_PrefetchAndFence : [
    [PrefF.mk true .dflt 1 1, .mk false .sys 3 1].all fun x => ok (.pref x) gm && sparseWf {} (mk gm).cores && decide (coursedDiff gm (isu gm) [1] = []) &&
      !(recAt sfM x.r).poi && decide (recBad (recAt sfM x.r) [0, 6, 7] (scopeOk (recAt sfM x.r).kind ((recAt sfM x.r).sc x.sc)) = none),
    [Sc.blk, .qrt, .dev, .sys].all fun sc => ok (.fence sc) gm && drained (mk gm) 10 (isu gm).lanes && decide ((mk gm).posted = []),
    passB (.fence .sys) sA (isu gm) gm, !drained sA 10 (isu gm).lanes].all id = true := by decide +kernel

/-- A barrier that a fence of R207 completes: EXPECT 1, or every live thread. -/
def barHyp (i : Instr) (s : State) (await : Bool) : Bool :=
  passB i s (isu gm) gm && (s.wg? 7).elim false (fun w => sparseWf {} w.barriers) && decide ((s.wgs.map (·.id)).Nodup) && (await || drained s 10 (isu gm).lanes)
theorem wit_NamedBarriers : [
    barHyp (.bar 0) (mk gm) false, barHyp (.bara 15) (mk gm) false, barHyp (.barw 15) sA true, barHyp (.bart 15 40 6) (mk gm) false,
    !(sget {} sfM 40).poi, ok .gbar gm, drained (mk gm) 10 (isu gm).lanes, ((mk gm).wg? 7).isSome, ((mk gm).gang? 6).isSome,
    decide (((mk gm).gangs.map (·.id)).Nodup), ok .dflush gm, !detOf (mk gm) gm, ok .dflush gm 0x40000, detOf (mk gm 0x40000) gm,
    let g : Group := grp [] [{ thr 0 with wait := .epoch, epoch := 1 }]; g.threads.all fun u => decide (u.wait = .epoch) && epochOver (mk g) g u].all id = true := by
  decide +kernel

/-- Lane 0 watches the word at 0x10000 for a value of at least 5. -/
def wt : Watch := ⟨60, .dev, keysFrom 0x10000 4, 0x10000, 4, .geu, 5, 7, 2, false, 9, false, true, false, none, none, 0⟩
def gw (w : Watch) : Group := grp [] [{ thr 0 with wait := .waitm w }]
def watchHyp (s : State) (w : Watch) : Bool :=
  decide (s.group? 10 = some (gw w)) && decide (s.thread? 10 0 = (gw w).threads.head?) && groupRuns s (gw w) && !w.track && decide (w.res = none) &&
  (watchersOf (gw w) w.issue).all (fun y => y.1.lane == 0) && !(gw w).coursed
def waitHyp (x : WaitmF) (g : Group) (poisoned : Bool) : Bool :=
  let r := recAt (isu g).snap x.r
  ok (.waitm x) g && ((waitCmp r x (isu g).snap).poi || (sget {} (isu g).snap x.lim.toNat).poi) == poisoned && r.kind != 7 &&
  (match accessSteps (mk g) (isu g) g r x.r x.i (waitForm r x) with
    | .go (y :: ls) [] [] => ((isu g).lanes.all fun l => (y :: ls).any fun y => y.1.lane == l) && decide (((y :: ls).map fun y => y.1.lane).Nodup) &&
        (y :: ls).all fun y => (match y.2.2 with | .at_ .. => true | _ => false) && (g.thread? y.1.lane).isSome
    | _ => false) && g.threads.all fun t => match t.wait with | .waitm _ => false | _ => true
theorem wit_MemoryWaits : [
    waitHyp ⟨.eq, 7, .dflt, 1, 1, 42, 40⟩ gm true, waitHyp ⟨.eq, 7, .dflt, 1, 1, 40, 42⟩ gm true, waitHyp ⟨.geu, 0, .sys, 1, 1, 40, 41⟩ gm false,
    let s : State := { mk (gw wt) with dev := [(0x10000, 5)] }; watchHyp s wt && decide (dataPoison s wt.sp wt.keys = none) && (gw wt).threads.all fun u => watchNow s (gw wt) u wt,
    let w : Watch := { wt with sp := .host, remote := true, poll := 70 }
      let s : State := { mk (gw w) with accs := [{ accL 71 .load 0x10000 [] with gid := 0, space := .host, fetch := some 70 }] }
      watchHyp s w && w.first && watchCond w 5 && (pollAcc s w).elim false fun a => (a.sent.isSome || decide (a.space = .host)) && !behind s a,
    let w : Watch := { wt with first := false }; let s : State := { mk (gw w) with cycle := 9 }
      watchHyp s w && decide (w.until_ ≤ s.cycle) && !w.seen && !watchBehind s (gw w) 0 w && (gw w).threads.all fun u => !watchNow s (gw w) u w,
    let g : Group := grp [] [{ thr 0 with wait := .bar 15 (some 9) 6 }]; let s : State := { mk g with cycle := 9 }
      decide (s.group? 10 = some g) && groupRuns s g && (s.thread? 10 0).elim false fun u => decide (u.wait = .bar 15 (some 9) 6)].all id = true := by
  decide +kernel

/-- The member of group 1 that `sx` holds, with its lanes arrived or not. -/
def sxa : State := { sx with wgs := sx.wgs.map fun w => { w with xm := some { grp := 1, pending := false, arrived := 3 } } }
theorem wit_ExchangeGroups : [
    ok (.xjoin 0 45) gm, !(sget {} sfM 45).poi, decide (gwQuorum (sget {} sfM 45).w = 0), ok (.xjoin 0 44) gm, !(sget {} sfM 44).poi,
    let gw := (sget {} sfM 44).w; decide (bits gw.toNat 31 22 = 0 ∧ gwWin gw = 1 ∧ gwQuorum gw = 2),
    ((mk gm).wg? 7).elim false (fun w => decide (w.xm = none) && decide (4096 * 1 ≤ w.size)), (xmembers (mk gm) 0 1).isEmpty, sparseWf {} gm.s,
    let s : State := { sx with wgs := { id := 8 } :: sx.wgs.map fun w => { w with id := 9 } }; let h : Group := { gm with wg := 8 }
      let s : State := { s with groups := [h], ctxs := [{ cx with xgroups := [(1, { open_ := true, quorum := 1, win := 2 })] }] }
      passB (.xjoin 0 44) s (isu gm) h && (s.wg? 8).elim false (fun w => decide (w.xm = none)) && !(xmembers s 0 1).isEmpty && (xgroup s 0 1).win != 1,
    passB .xbar sx (isu gm) gm, passB (.xleave 44) sx (isu gm) gm, (sx.wg? 7).elim false (fun w => decide (w.xm.map (·.grp) = some 1)), gwGid (sget {} sfM 44).w == 1,
    drained sx 10 (isu gm).lanes, ok .xbar gm, ok (.xleave 44) gm,
    (xgone sxa 0 1).isEmpty && xclosed sxa 0 1 && (sxa.ctx? 0).elim false (fun c => sparseWf {} c.xgroups) && (sxa.wgs.all fun w => !(liveBits sxa w.id).isEmpty)].all id = true := by
  decide +kernel

/-! ### Witnesses: the array and the copy engine -/

/-- An Except that succeeded. -/
def good {ε α : Type} : Except ε α → Bool
  | .ok _ => true
  | .error _ => false
def Scales.good (iss : Issue) (g : Group) : Scales → Bool
  | .ok s _ _ l => (l.isEmpty || accsDone s iss.gid iss.lanes) && (uniFetch s iss g l).isNone
  | _ => false
theorem wit_MatrixInstructionsAccepted : [
    !arrFull (mk gm) gm, (mk gm).cmds.isEmpty, !engineFull (mk gm) gm, ok (.ldw ⟨.rq4, true, 0⟩) gm, decide (firstPoisonS sfM [0] = none), (isu gm).sv 0 == 0, ok .wflip gm,
    ok (.accz 7) gm, ok (.accrd ⟨120, 7, 15⟩) gm, ok (.accwr ⟨120, 0, 0⟩) gm, good (rowBlocks (mk gm) (isu gm) gm 120 8),
    [0, 1, 2].all fun k => ok (.mstat 63 k) gm, ok (.mma ⟨.f64, 6, 96⟩) gm, good (rowBlocks (mk gm) (isu gm) gm 96 32),
    ok (.mmas ⟨.rq4, false, 0, 64, 0⟩) gm, good (rowBlocks (mk gm) (isu gm) gm 64 64), decide ((isu gm).sv 0 % 2 ^ 19 + 96 * mRows .rq4 ≤ Config.weightBytes),
    (mk gm).softErrs.isEmpty, ((mk gm).core 0).arr.queue.isEmpty, sparseWf {} (mk gm).cores, ok (.drain ⟨.f32, 7, 8, 46⟩) gm, decide (firstPoisonS sfM (recRegs 8 ++ [46]) = none), decide (recBad (recAt sfM 8) [0, 1, 2] ((recAt sfM 8).es == drainEs .f32) = none),
    Scales.good (isu gm) gm (scalesOf (mk gm) 10 0 (placeOf (mk gm) gm).2 ((isu gm).sv 46)), !drainPast (mk gm) (placeOf (mk gm) gm).1 (recAt sfM 8) .f32,
    [true, false].all fun b => ok (.drainByp ⟨b, 0, 46⟩) gm && !drainTagBad ((mk gm).core 0).arr (if b then .rq8 else .f8e4) 0].all id = true := by decide +kernel

/-- The array of core 0 is about to carry out `op`. -/
def sq (op : ArrOp) : State := { mk gm with
  cores := [(0, { arr := { queue := [op] } })],
  cmds := [{ id := 50, wg := 7, owners := [(10, 0)], kind := .mma .f32 0, rows := [(0, List.replicate 128 1)] }] }
theorem wit_ArrayExecutes : [
    [ArrOp.ldw .f32 true 0 60 10 [0, 1], .wflip, .accz 7, .accrd 60 10 [0, 1] 120 7 15, .accwr 7 15 [(63, List.replicate 8 1)], .mstat 60 10 63 1, .mstat 60 10 63 2, .cmd 50].all
      fun op => decide (((sq op).core 0).arr.queue = [op]) && (sq op).softErrs.isEmpty && sparseWf {} (sq op).cores,
    ((sq .wflip).thread? 10 1).isSome, sparseWf {} gm.s, sparseWf {} ((sq (.accz 7)).core 0).arr.tiles, sparseWf {} ((((sq (.accz 7)).core 0).arr).closeTile 7 none).tiles,
    ((sq (.cmd 50)).cmd? 50).elim false fun c => decide (c.state = .running) && !behindFailed (sq (.cmd 50)) c && decide (c.kind = .mma .f32 0) && c.pos == 0].all id = true := by
  decide +kernel
theorem wit_ResiduePassSum : [decide ((-8388480 : Int) ≤ -8388480), decide ((8388479 : Int) < 8388480)].all id = true := by decide +kernel

/-- A tensor entry of R223 of one dimension. -/
def ent (fmt space base n : Nat) : List Word :=
  [BitVec.ofNat 32 (2 ^ 31 + space * 4096 + 16 + fmt), 0, BitVec.ofNat 32 base, 0, 0, 0, 0, 0, 0, 0, BitVec.ofNat 32 n, 1, 1, 1, 1, 0, 0, 0, 0,
    BitVec.ofNat 32 n, 1, 1, 1, 1] ++ List.replicate 8 0
/-- Entries 1 and 2: four floats at 0x10000 and four bfloats at 0x20000. -/
def cxt : Context := { cx with tensors := [(1, ent 0 0 0x10000 4), (2, ent 2 0 0x20000 4)] }
/-- s20 names entries 1 and 2; s24 and s25 region 3 and sequence number 7 of entry 1 in both roles. -/
def sfC : RegFile := (sfM.filter fun p => p.1 < 20) ++ [(20, ⟨0x0201, false⟩), (24, ⟨0x00030101, false⟩), (25, ⟨7, false⟩)]
def gc : Group := { gm with s := sfC }
/-- The command that an instruction of class copy names by its registers. -/
def named (k : CmdKind) (trap : Bool) (d a b : Nat) : Cmd :=
  rereadCmd (mk gc 0 cxt) { id := 100, kind := k, trap := trap, wg := 7, ids := (sget {} sfC b).w, so := origins sfC a, dorg := origins sfC d }
/-- With the last bytes of the weight buffer in s24 to s27. -/
def gcw : Group := { gm with s := sfM.filter (fun p => p.1 < 24) ++ [(24, ⟨0x7FFFC, false⟩), (25, ⟨0x48000000, false⟩), (26, ⟨64, false⟩), (27, ⟨0, false⟩)] }
def copylHyp (g : Group) (x : CopylF) (code : Nat) : Bool :=
  let s := mk g 0 cxt
  let ws (r : RecN) : List Word := (recRegs r).map fun i => (sget {} (isu g).snap i).w
  passB (.copyl x) s (isu g) g && !g.coursed && !engineFull s g && s.cmds.isEmpty &&
  (match accessSteps s (isu g) g (recAt g.s x.src) x.src x.d (copylForm x (recAt g.s x.src) false) with | .go .. => true | _ => false) &&
  (match accessSteps s (isu g) g (recAt g.s x.dst) x.dst (x.d + 1) (copylForm x (recAt g.s x.dst) true) with | .go .. => true | _ => false) &&
  let c : Cmd := { id := 100, wg := 7, trap := x.trp, kind := .copyl (cwidBytes x.wd) (ws x.src) (ws x.dst), pieces := copylPieces s (isu g) g x }
  copylCheck s c == code
theorem wit_CopyInstructionsIssue : [
    copyCheck (mk gc 0 cxt) (named .copy true 55 50 20) == 0, copyCheck (mk gc 0 cxt) (named .copy true 55 50 24) == 7,
    copyCheck (mk gc 0 cxt) (named (.copyr .min 3 7) false 59 50 24) == 0, copyCheck (mk gc 0 cxt) (named (.copyr .min 0 0) false 59 50 20) == 7,
    ok (.copy ⟨true, 55, 50, 24⟩) gc 0 cxt, ok (.copyr ⟨false, .min, 59, 50, 20⟩) gc 0 cxt,
    copylHyp gc ⟨true, .x4, 0, 1, 2⟩ 0, copylHyp gcw ⟨false, .x4, 0, 6, 1⟩ 2,
    !engineFull (mk gc 0 cxt) gc, (mk gc 0 cxt).cmds.isEmpty, ok (.copy ⟨true, 55, 50, 20⟩) gc 0 cxt, decide (firstPoisonS sfC (span 55 5 ++ span 50 5 ++ [20]) = none),
    ok (.copyr ⟨false, .min, 59, 50, 24⟩) gc 0 cxt, decide (firstPoisonS sfC (span 59 5 ++ span 50 5 ++ [24, 25]) = none),
    decide (firstPoisonS sfC (span 55 5 ++ span 50 5 ++ [24]) = none), decide (firstPoisonS sfC (span 59 5 ++ span 50 5 ++ [20, 21]) = none)].all id = true := by decide +kernel

/-- A running COPY of entry 1 to entry 2, and a COPYR with sequence number 0 of region 3, whose packets have been served. -/
def cp : Cmd :=
  { id := 50, wg := 7, owners := [(10, 0)], ids := 0x0201, src := ent 0 0 0x10000 4, dst := ent 2 0 0x20000 4, so := [0, 0, 0, 0, 0],
    dorg := [0, 0, 0, 0, 0], out := true }
def cr (seq : Nat) : Cmd := { cp with kind := .copyr .add 3 seq, dst := ent 0 0 0x20000 4 }
def sC (c : Cmd) : State := { mk gc 0 cxt with cmds := [c] }
def sideAt (s : State) (c : Cmd) (r : Role) : Option Side := match elemAt s c.id c.core ((s.wg? c.wg).getD {}) ((s.ctx? c.ctx).getD {}) r (ivOf c.dst c.pos) with
  | .at_ x _ => some x
  | _ => none
/-- The hypotheses on an element from entry 1 to device memory at 0x20000. -/
def elemHyp (s : State) (c : Cmd) : Bool :=
  match sideAt s c c.dstRole, sideAt s c c.srcRole with
  | some x, some y => channelReady s c && !c.scan && !channelsSecure s c.core && decide (s.wg? c.wg ≠ none) && decide (s.ctx? c.ctx = some cxt) && (s.group? 10).elim false (fun g => !detOf s g) &&
      y.keys == keysFrom 0x10000 4 && x.keys.headD 0 == 0x20000 && !y.far && decide (x.sp = .dev) && !farPlace s c.ctx x.sp x.va && s.softErrs.isEmpty &&
      s.marks.isEmpty && s.held.isEmpty && (ackOf s c x).isNone && c.out &&
      (match cmdRace s c (sideTouch c.src y false ++ sideTouch c.dst x true) with | .ok _ => true | _ => false)
  | _, _ => false
def heldE : Held :=
  { slice := homeSlice 0x20000, ctx := 0, region := 3, seq := 1, cmd := 50, pos := 0, op := .add, fmt := 0, va := 0x20000, keys := keysFrom 0x20000 4,
    data := [1, 0, 0, 0], since := 0 }
theorem wit_CopyElementsAndSequence : [
    elemHyp (sC cp) cp, eFmt cp.src != 6 && eFmt cp.dst != 6,
    [0, 1].all fun n => elemHyp (sC (cr n)) (cr n) && !(regionAt (sC (cr n)) (homeSlice 0x20000) 0 3).gap && !storeFull (sC (cr n)) (homeSlice 0x20000) &&
      seqReady (regionAt (sC (cr n)) (homeSlice 0x20000) 0 3).next n == (n == 0),
    let s : State := { sC (cr 1) with markers := [(0, 3, 0)], held := [heldE] }; retirable s (regionAt s (homeSlice 0x20000) 0 3) && seqReady 1 heldE.seq &&
      s.softErrs.isEmpty && s.marks.isEmpty && heldE.sent.isNone && !keysFrozen s heldE.keys && !farPlace s 0 .dev heldE.va &&
      (match heldPlace s heldE with | .here pa _ => pa == 0x20000 | _ => false),
    let c : Cmd := { cr 9 with turn := some 0 }; let s : State := { sC c with cycle := Config.gapWait }
      wgRuns s c.wg && s.held.isEmpty && (sideAt s c c.dstRole).elim false fun x => decide (x.sp = .dev) && homeSlice (x.keys.headD 0) == homeSlice 0x20000,
    let g : Group := grp [] [{ thr 0 with wait := .detector 9 0x1000 [0] }]; let s : State := { mk g with cycle := 9 }
      decide (s.group? 10 = some g) && decide (s.cmds = []) && (g.threads.head?.map (·.wait)) == some (.detector 9 0x1000 [0]),
    let d : Det := { space := .dev, line := 512, gid := 10, lane := 0, wg := 7, gang := 6, ctx := 0, ticket := 0, grpId := 0, region := 0, opened := 0, closed := some 0 }
      let s : State := { mk gm with sliceDet := [d] }; decide (s.sliceDet[0]? = some d) && detDone s d].all id = true := by decide +kernel
/-! ### Witnesses: tokens, queues, launches -/

/-- The places of a uniform access that succeeds. -/
def ulocs (s : State) (g : Group) (r : RecN) (n : Nat) (kinds : List Nat) (need : Nat) : Option (List (Space × Nat)) :=
  match uniAccess s (isu g) g r n kinds need with
  | .ok _ l => some l
  | _ => none
def isDev (l : List (Space × Nat)) : Bool := l.all fun p => decide (p.1 = .dev)
def okVal {ε α : Type} : Except ε α → Option α
  | .ok a => some a
  | .error _ => none

/-- A thread whose token 0 holds command 50 and whose open batch holds command 51. -/
def gk : Group := grp sfM [{ thr 0 with k := [(0, { ids := [50] })], batch := [51] }]
def sk (st : CmdState) (trap : Bool) : State :=
  { mk gk with cmds := [{ cp with state := st, trap := trap, code := 1 }, { cp with id := 51, state := .ended }] }
theorem wit_TokenInstructions : [
    let s := sk .ended false; passB (.wait 0) s (isu gk) gk && gk.threads.all (fun t => !tokenTraps s (t.kget 0) && !tokenPend s (t.kget 0)) &&
      decide ((gk.threads.map (·.lane)).Nodup),
    let s := sk .failed true; passB (.wait 0) s (isu gk) gk && gk.threads.all fun t => tokenTraps s (t.kget 0),
    let s := sk .ended false; passB (.seal 0) s (isu gk) gk && gk.threads.all fun t => decide (tokenFailed s (t.kget 0) = none) && sparseWf {} t.k,
    let s := sk .failed false; passB (.tstat 1 0) s (isu gk) gk && passB (.cwp 1 0) s (isu gk) gk && passB (.cabort 0) s (isu gk) gk,
    ok (.tdef 46 1) gm && (ulocs (mk gm) gm 1 128 [0, 1] 1).isSome && decide (firstPoisonS sfM [46] = none) && ((mk gm).ctx? 0).isSome,
    ok (.tget 46 1) gm && (ulocs (mk gm) gm 1 128 [0, 1] 2).elim false (fun l => decide (l.map (·.2) = keysFrom 0x10000 128) && isDev l) && (mk gm).memWf && (mk gm).migs.isEmpty &&
      (mk gm).marks.isEmpty && (mk gm).repsets.isEmpty].all
      id = true := by decide +kernel

/-- Words at an address, as bytes of a memory. -/
def memAt (a : Nat) (ws : List Nat) : Memory := (ws.flatMap (toLE 4)).mapIdx (fun i b => (a + i, b)) |>.filter fun p => p.2 != 0
/-- A valid parameter block: 128 registers, one group. -/
def blockWords : List Nat := [0x80, 4096, 1, 1, 1]
/-- s0 and s2 are addresses, s4 a queue number, s6 a set of lists. -/
def sfQ : RegFile := [(0, ⟨0x10000, false⟩), (2, ⟨0x20000, false⟩), (4, ⟨1, false⟩), (6, ⟨1, false⟩)]
def gq : Group := grp sfQ [thr 0 [(2, ⟨3, false⟩)], thr 1 [(2, ⟨4, false⟩)]]
/-- q4 is bound to queue 1, q8 to list 3, q9 to the empty list 4 that has ended. -/
def cxq : Context := { cx with spbind := [(0, 0x80000001)], wlbind := [(0, 0x80000003), (1, 0x80000004)],
                               lists := [(3, { items := [5, 6, 7] }), (4, { ended := true })], resident := some 5, q0 := [9] }
def nlb : List (Nat × List TlbE) := [(64, [lf 0, lf 1, lf 2, lf 3 0x2F, lf 4 0x2F, lf 5 0xB8F])]
/-- A queue of context 0 with entries. -/
def qu (st : Nat) (es : List QEntry) : Queue := { id := 1, owner := 0, state := st, entries := es }
def mq (es : List QEntry := []) (st : Nat := 1) (d : Memory := []) : State := { mk gq 0 cxq with qtlb := nlb, queues := [qu st es], dev := d }
theorem wit_QueueAndListInstructions : [
    decide ((mq).ctx? ((mq).ctxOf gq) = some cxq), sparseWf {} cxq.lists, !gq.coursed, decide ((gq.threads.map (·.lane)).Nodup), drained (mq) 10 (isu gq).lanes,
    passB (.qpush 8 2) (mq) (isu gq) gq, passB (.capp 8 2) (mq) (isu gq) gq, okVal (pushTarget (mq) (isu gq) gq 8 2) == some 3,
    decide ((cxq.list 3).items.length + (acting gq (isu gq)).length ≤ Config.workListItems),
    passB (.qpop 1 8 0) (mq) (isu gq) gq, okVal (popSource (mq) (isu gq) gq 8) == some 3, decide ((acting gq (isu gq)).length ≤ (itemsOf cxq 3).length),
    (mq).groups.all fun h => h.threads.all fun u => !waitsFor 3 u,
    passB (.qpop 1 9 0) (mq) (isu gq) gq, okVal (popSource (mq) (isu gq) gq 9) == some 4, (itemsOf cxq 4).isEmpty && (cxq.list 4).ended,
    passB (.qpeek 1 0 0) (mq) (isu gq) gq, okVal (popSource (mq) (isu gq) gq 0) == some 64,
    passB (.qstat 1 4) (mq) (isu gq) gq, (okVal (queueArg (mq) (isu gq) gq 4 11)).isSome, passB (.qflush 4) (mq) (isu gq) gq,
    (okVal (queueArg (mq) (isu gq) gq 4 9)).isSome, passB (.quiesce 6) (mq) (isu gq) gq, (listOf cxq 8).isSome,
    decide ((isu gq).sv 6 = 1) && decide (firstPoisonS sfQ [6] = none),
    let s : State := { mq with samples := (List.range 4).map fun i => ⟨10, 1 + i, .queue 1 0 i⟩ }; decide (s.group? 10 = some gq) && sparseWf {} gq.s && (s.queue? 1).isSome].all id = true := by decide +kernel

/-- Sixteen words of a sweep or graph entry with its body. -/
def eW (w0 body : Nat) (rest : List Nat := []) : List Nat := [w0, 0, body, 0] ++ rest
def entE (w0 body : Nat) (rest : List Nat := []) : QEntry := { words := (List.range 16).map fun i => BitVec.ofNat 32 ((eW w0 body rest).getD i 0) }
/-- A graph header with slot 0 current and live, and one node. -/
def graphHead : List Nat := [0, 0, 0, 0, 0, 0, 1, 0, 1]
def sg (typ : Nat) : State := mq [] 1 (memAt 0x10000 (eW typ 0x20000) ++ memAt 0x20000 graphHead)
def gedS (edit : List Nat) : State := mq [] 1 (memAt 0x10000 graphHead ++ memAt 0x20000 edit ++ memAt 0x20400 blockWords)
/-- The group with its threads in a wait that an issue left. -/
def gqw (w : Wait) : Group := { gq with threads := gq.threads.map fun t => { t with wait := w } }
def gedLocs (s : State) : Bool :=
  ((okVal (runAt s (isu gq) gq 3 0x10000 64)).elim false isDev) && (okVal (runAt s (isu gq) gq 1 0x20000 16)).elim false isDev
/-- Edit blocks of one record: a bad one, one that leaves an invalid block, and one that leaves a valid block. -/
def edits : List (List Nat) := [[1, 0, 0, 0, 0x400], [1, 0, 0, 0, 0, 0, 0x40], [1, 0, 0, 0, 0, 0, 0x20400]]
theorem wit_LaunchInstructions : [
    ((mq).queue? 1).elim false fun _ => !queueFull (mq) 1, decide (resumed gq (isu gq) Wait.isPush = none), drained (mq) 10 (isu gq).lanes,
    passB (.spawn 4 0) (sg 0) (isu gq) gq && (okVal (launchArgs (sg 0) (isu gq) gq 4 0 0)).isSome,
    let g := gqw (.push 1 [0]); let s : State := { mk g 0 cxq with queues := [qu 1 []] }
      passB (.spawn 4 0) s (isu g) g && decide (resumed g (isu g) Wait.isPush = some (.push 1 [0], isu g)) && drained s 10 (isu g).lanes,
    passB (.glaunch 4 0) (sg 1) (isu gq) gq && (okVal (launchArgs (sg 1) (isu gq) gq 4 0 1)).elim false fun p => p.2.1.body == 0x20000 &&
      decide (p.2.2 = sg 1) && graphTurn (sg 1) 0 0x20000 (sg 1).time && (sg 1).marks.isEmpty && (sg 1).repsets.isEmpty && (sg 1).migs.isEmpty && (sg 1).memWf,
    (okVal (runAt (sg 1) (isu gq) gq 1 0x20000 64)).elim false fun l => isDev l &&
      (let h := bytesToWords (l.map fun p => (sg 1).dev.get p.2) 16; (wnat h 6).testBit (wnat h 0 % 4) && wnat h (8 + wnat h 0 % 4) == 1)].all
      id = true := by decide +kernel
theorem wit_GraphEdit : [
    decide (resumed gq (isu gq) Wait.isEdit = none), passB (.gedit 8 0 2) (gedS [0]) (isu gq) gq && sparseWf {} gq.s && gedLocs (gedS [0]),
    decide (firstPoisonS sfQ [0, 1, 2, 3] = none), decide ((isu gq).saddr 0 % 64 = 0) && decide ((isu gq).saddr 2 % 64 = 0),
    edits.all fun e => passB (.gedit 8 0 2) (gedS e) (isu gq) gq && gedLocs (gedS e) && (gedS e).marks.isEmpty && (gedS e).repsets.isEmpty && (gedS e).migs.isEmpty && (gedS e).softErrs.isEmpty && (gedS e).memWf &&
      graphTurn (gedS e) 0 0x10000 (gedS e).time && (okVal (runAt (gedS e) (isu gq) gq 1 0x20010 16)).elim false isDev,
    decide (((List.range 4).find? fun v => !(1 : Nat).testBit v) = some 1)].all id = true := by decide +kernel
/-- What the second and third edit leave of an empty slot of one node. -/
theorem wit_GraphEdit_results : (edits.map fun e => let (ws, n, b) := applyEdits (List.replicate 4096 0) 1 0 [(e.drop 4 ++ [0, 0, 0]).map (BitVec.ofNat 32)]
    (b, b.isSome || resultBad (gedS e) cxq ws n)) = [(some 0, true), (none, true), (none, false)] := by decide +kernel

/-- The instance for the graphs of wit_GraphEdit: both slots are read and written. -/
def gedRuns (s : State) : Prop := ∃ cl nl, runAt s (isu gq) gq 3 0x10040 16384 = .ok cl ∧ runAt s (isu gq) gq 3 (0x10040 + 16384) 16384 = .ok nl ∧
  (∀ p ∈ cl ++ nl, p.1 = .dev)
theorem devAt_dev (a n : Nat) : ∀ p ∈ devAt a n, p.1 = .dev := by
  simp only [devAt, List.mem_map]; rintro p ⟨k, -, rfl⟩; rfl
theorem devRun {s : State} {a n l : Nat} (h : translate s gq.core (placeOf s gq).2 3 a = .here a l) (h5 : l.testBit 5 = false) (h1 : 0 < n)
    (h2 : a % 65536 + n ≤ 65536) (hm : s.marks = []) (he : s.softErrs = []) : runAt s (isu gq) gq 3 a n = .ok (devAt a n) :=
  runAt_ok (placesAt_page h1 h2 h (by simp [h5])) (uniPoison_none hm he _) (uniFetch_none fun p hp q => by simp [devAt_dev a n p hp])
theorem gedRuns_of {s : State} {l l' : Nat} (h : translate s gq.core (placeOf s gq).2 3 0x10040 = .here 0x10040 l)
    (h' : translate s gq.core (placeOf s gq).2 3 (0x10040 + 16384) = .here (0x10040 + 16384) l') (h5 : l.testBit 5 = false) (h5' : l'.testBit 5 = false)
    (hm : s.marks = []) (he : s.softErrs = []) : gedRuns s :=
  ⟨_, _, devRun h h5 (by decide) (by decide) hm he, devRun h' h5' (by decide) (by decide) hm he, fun p hp =>
    (List.mem_append.1 hp).elim (devAt_dev _ _ p) (devAt_dev _ _ p)⟩
theorem wit_GraphEdit_slots : gedRuns (gedS [1, 0, 0, 0, 0x400]) ∧ gedRuns (gedS [1, 0, 0, 0, 0, 0, 0x40]) ∧ gedRuns (gedS [1, 0, 0, 0, 0, 0, 0x20400]) :=
  ⟨gedRuns_of (l := 0x10000000F) (l' := 0x10000000F) (by decide +kernel) (by decide +kernel) (by rfl) (by rfl) (by rfl) (by rfl),
   gedRuns_of (l := 0x10000000F) (l' := 0x10000000F) (by decide +kernel) (by decide +kernel) (by rfl) (by rfl) (by rfl) (by rfl),
   gedRuns_of (l := 0x10000000F) (l' := 0x10000000F) (by decide +kernel) (by decide +kernel) (by rfl) (by rfl) (by rfl) (by rfl)⟩

/-- A wait on a counter in page 5, which module 5 owns. -/
def sr : State := { mq [entE 0x20 0x20000 [0x50000, 0, 7, 0]] 2 with
  populated := [5], enabled := [5], links := [(0, { state := .up })], ctxs := [{ cxq with partition_ := [5] }] }
/-- A queue whose entry has begun and whose sweep is over; the entry signals the counter at 0x10000. -/
def sov (sig : Bool) (ing : Bool := false) : State :=
  { mq with sweeps := [], gangs := [], queues := [{ qu 4 [entE (if sig then 0x10 else 0) 0x20000 ([0, 0, 0, 0, 0, 0, 0, 0] ++ [0x10000, 0, 2, 0])] with
    signalling := ing }] }
def qHyp (s : State) (p : Queue → QEntry → Bool) : Bool := (s.queue? 1).elim false fun q => match q.entries with
  | e :: _ => p q e
  | [] => false
theorem wit_QueueSteps : [
    qHyp sr fun q e => decide (0 < e.nwait) && q.state == 2 && decide (readCounter sr q.owner (e.adr 0) = .remote),
    let s := mq [entE 0 0x20000] 2 (memAt 0x20000 blockWords); qHyp s fun q e => (startable s q).isSome && e.launch.isNone &&
      (readSweep s ((s.ctx? q.owner).getD {}) e.body).isSome,
    let s := mq [entE 0 0x20000] 2; qHyp s fun q e => (startable s q).isSome && e.launch.isNone && (readSweep s ((s.ctx? q.owner).getD {}) e.body).isNone,
    qHyp (sov false) fun q e => entryOver (sov false) q && q.nextAt.isNone && !e.sig, qHyp (sov true) fun q e => entryOver (sov true) q && q.nextAt.isNone && e.sig].all id = true := by
  decide +kernel
/-- The queue's signal may leave. -/
def freeSig (s : State) (q : Queue) : Bool := q.signalling && q.nextAt.isNone && q.sigAcc.isNone && !writesOpen s q
/-- The signalling head of a queue whose counter is at an address. -/
def sSig (a : Nat) (s : State) : State := { s with queues := [{ qu 4 [entE 0x10 0x20000 [0, 0, 0, 0, 0, 0, 0, 0, a, 0, 2, 0]] with signalling := true }] }
theorem wit_QueueSteps_signals : [
    let s := sSig 0x10000 mq; (qHyp s fun q e => freeSig s q && decide (signalPlace s q e = some (.dev, 0x10000))) && s.memWf && s.repsets.isEmpty && s.migs.isEmpty,
    let s := sSig 0x50000 sr; qHyp s fun q e => freeSig s q && decide (signalPlace s q e = some (.remote 5, 0x50000)) && s.postedQ.isEmpty,
    let s := { sSig 0x50000 sr with postedQ := [(1, 9)] }; qHyp s fun q e => freeSig s q && decide (signalPlace s q e = some (.remote 5, 0x50000)) &&
      s.postedQ.any fun x => x.1 == q.id,
    let s := sSig 0x90000 mq; qHyp s fun q e => freeSig s q && (signalPlace s q e).isNone,
    qHyp { mq with queues := [{ qu 4 [entE 0x10 0] with nextAt := some 0 }] } fun q _ => q.state != 5 && decide (q.nextAt = some 0)].all id = true := by
  decide +kernel

/-- A sweep of one gang that has not been placed, on an empty machine. -/
def sGang (c : Context) (x : Sweep) : State := { mq with groups := [], wgs := [], gangs := [], ctxs := [c], sweeps := [x] }
def freshX : Sweep := { id := 5, params := blockWords.map (BitVec.ofNat 32), gangs := 1 }
def isNext (n : Next) (s : State) : Bool := (chosen s).elim false fun p => decide (p.2.1 = n)
def sWg (st : WgState) : State := { mq with wgs := (mq).wgs.map fun w => { w with state := st } }
/-- A launch of the graph at 0x10000, whose node 0 has its block at `b`. -/
def la : Launch := { id := 60, queue := 1, graph := 0x10000, nodes := 1, begun := true }
def sl0 (b : Nat) : State := { mq [] 3 (memAt 0x10000 graphHead ++ memAt 0x10040 [b] ++ memAt 0x20000 blockWords) with launches := [la] }
/-- Context 1 waits for the one core that it may use, whose scratchpad a gang of context 0 holds. -/
def sStarve : State := { mk gq with
  cycle := 3000000, ctxs := [cx, { cx with id := 1, cmask := 1 }], wgs := (mq).wgs.map fun w => { w with size := 262144 },
  sweeps := [{ swp 0 with retired := 0 }, { freshX with id := 8, ctx := 1, passed := 3000000, params := [0x80, 262144, 1, 1, 1] }] }
def gqu : Group := grp [] [{ thr 0 with wait := .quiesce [4] }]
theorem wit_GangSteps : [
    let s := sGang cxq freshX; isNext (.run 0 0) s && (s.groups.all fun g => decide (g.gid < s.nextId)),
    ((sWg .closing).wg? 7).elim false fun w => decide (w.state = .closing) && !wgBusy (sWg .closing) 7,
    ((sWg .done).gang? 6).elim false fun y => gangDone (sWg .done) y && (((sWg .done).ctx? y.ctx).elim false fun c => decide (c.state ≠ .saving)) && ((sWg .done).sweep? y.sweep).elim false fun x => !x.slide,
    (match readyNode (sl0 0x20000) la with | some (0, .start ..) => true | _ => false) && decide ((sl0 0x20000).launch? 60 = some la),
    (match readyNode (sl0 0x20040) la with | some (0, .bad _) => true | _ => false) && decide ((sl0 0x20040).launch? 60 = some la),
    let l : Launch := { la with started := [0], completed := [0] }; let s : State := { mq [{ entE 1 0x10000 with launch := some 60 }] 4 with launches := [l] }
      decide (s.launch? 60 = some l) && launchOver l && !((s.queue? 1).elim true (·.signalling)),
    (sStarve.ctx? 1).elim false fun c => (starved sStarve c).elim false fun p => decide (p.2 = .run 0 0) &&
      decide ((sStarve.ctxs.filter fun o => decide (c.cls ≤ o.cls) && !(sStarve.gangs.filter fun g => g.ctx == o.id && decide (g.state = .running) &&
        (gangWgs sStarve g.id).any fun w => c.cmask.getLsbD w.core).isEmpty).map (·.id) = [0]) &&
      decide (dedup ((sStarve.gangs.filter fun g => g.ctx == 0 && decide (g.state = .running) &&
        (gangWgs sStarve g.id).any fun w => c.cmask.getLsbD w.core).map (·.quartet)) = [0]) && decide (needed sStarve p.1 p.2 (gangsOn sStarve 0 0) = some 1),
    let s := mk gqu 0 cxq; terminated s 0 [4] && decide (s.ctx? 0 = some cxq) && sparseWf {} cxq.lists].all id = true := by decide +kernel

/-! ### Witnesses: field domains -/

/-- Domain 1: 64 cells of 4 bytes at 0x30000, linked to module 5. -/
def dm : Domain := { id := 1, base := 0x30000, ncell := 64, links := [(5, 2)] }
/-- A transfer of 5 from cell 0 to cell 1 of domain 1. -/
def xf : Xfer := { id := 60, gid := 10, pc := 4, sva := 0x30000, dva := 0x30004, spa := 0x30000, dpa := 0x30004, amount := 5, dom := 1, peer := 5 }
def sf (x : Xfer) (d : Domain := dm) : State := { mk gm with qtlb := nlb, xfers := [x], domains := [d], dev := [(0x30000, 9), (0x30004, 1)] }
def xHyp (x : Xfer) : Bool := decide ((sf x).xfer? 60 = some x) && xferReady (sf x) x && (sf x).memWf && decide ((sf x).dom? 1 = some dm)
/-- The receiver's state when it looks at a credit. -/
def arrived (s : State) (c : CreditMsg) : State := (s.dom? c.dom).elim s fun d => noteAfter s d.ctx (c.va / 65536) c.peer c.after c.hops
/-- The page of a credit's cell is frozen by a migration. -/
def frozen (s : State) (va : Nat) : State := { s with migs := [{ ctx := 0, page := va / 65536, peer := 5 }] }
theorem wit_FieldTransfers : [
    [none, some (1 : PReg)].all fun p => passB (p.elim (.fxfer 1 3 2) fun q => .fxferw q 1 3 2) (sf xf) (isu gm) gm &&
      (match xferSteps 1 3 2 (isu gm) gm (sf xf) with | .go (_ :: _) [] => true | _ => false) && !detOf (sf xf) gm,
    xHyp xf && decide (cellPlace (sf xf) 0 0x30004 = .here 0x30004) && decide (domainAt (sf xf) 0 4 0x30000 = some dm) &&
      decide (sourceReason (sf xf) xf (some dm) (.here 0x30004) = none) && homeSlice 0x30004 == homeSlice 0x30000 &&
      decide (destReason (sf xf) xf dm 0x30004 = none) && !dm.isSource 0x30000 && !dm.isSink 0x30004,
    let x := { xf with dva := 0x30080 }; xHyp x && decide (cellPlace (sf x) 0 0x30080 = .here 0x30080) && decide (domainAt (sf x) 0 4 0x30000 = some dm) &&
      decide (sourceReason (sf x) x (some dm) (.here 0x30080) = none) && homeSlice 0x30080 != homeSlice 0x30000,
    let x := { xf with amount := 0 }; xHyp x && decide (x.amount = 0),
    let x := { xf with amount := -1 }; xHyp x && decide (sourceReason (sf x) x (domainAt (sf x) 0 4 0x30000) (cellPlace (sf x) 0 0x30004) = some 1),
    let x := { xf with stage := 1 }; creditReady (sf x) x && decide (destReason (sf x) x dm 0x30004 = none),
    let c : CreditMsg := { peer := 5, fromDom := 2, dom := 1, num := 7, va := 0x30004, amount := 3 };
      decide (creditTarget (sf xf) c = some (dm, 0x30004)) && !dm.credited.contains (c.peer, c.num) && !dm.isSink c.va &&
      !creditWaits (arrived (sf xf) c) c && !c.page && (creditStub (sf xf) c).isNone && !creditWaits (arrived (sf xf) { c with page := true }) c &&
      creditWaits (arrived (frozen (sf xf) c.va) c) c && creditWaits (arrived (sf xf) { c with after := 2 }) c,
    let d := { dm with credited := [(5, 7)] }; let c : CreditMsg := { peer := 5, fromDom := 2, dom := 1, num := 7, va := 0x30004, amount := 3 };
      decide ((sf xf d).dom? c.dom = some d) && d.credited.contains (c.peer, c.num) && !creditWaits (arrived (sf xf d) c) c && !c.page && (creditStub (sf xf d) c).isNone,
    let c : CreditMsg := { peer := 5, fromDom := 2, dom := 1, num := 7, va := 0x40000, amount := 3 }; decide (creditTarget (sf xf) c = none) && decide ((sf xf).dom? 1 = some dm) && dm.credited.isEmpty &&
      !creditWaits (arrived (sf xf) c) c && !c.page && (creditStub (sf xf) c).isNone,
    [2, 3].all fun st => let x := { xf with stage := st }; decide ((sf x).xfer? 60 = some x) && !x.fromSource && !dm.isSource x.sva && !dm.isSink x.sva && decide ((sf x).dom? 1 = some dm) &&
      cellFits 4 (cellAt (sf x) 0x30000 4 + 5),
    let d := { dm with state := .closing }; let s : State := { mk gm with domains := [d] }; decide (s.dom? 1 = some d) && decide (d.state = .closing) && s.xfers.isEmpty].all id = true := by
  decide +kernel

/-- The group with domain number 1 in s36, peer 5 in s38, domain 2 of it in s39, and a record of words at 0x20000 in s48. -/
def sfD : RegFile := sfM.filter (fun p => p.1 < 36) ++ [(36, ⟨1, false⟩), (38, ⟨5, false⟩), (39, ⟨2, false⟩),
  (48, ⟨0x20000, false⟩), (49, ⟨0x40000000, false⟩), (50, ⟨64, false⟩)]
def gd : Group := { gm with s := sfD }
/-- The words of an image or a list at 0x20000. -/
def sd (ws : List Nat) (ds : List Domain := [dm]) (xs : List Xfer := []) : State :=
  { mk gd with qtlb := nlb, xfers := xs, domains := ds, dev := memAt 0x20000 ws, populated := [5], enabled := [5], links := [(0, { state := .up })],
               ctxs := [{ cx with partition_ := [5] }] }
def okd (i : Instr) (s : State) (open_ : Bool) (more : List Nat) : Bool :=
  passB i s (isu gd) gd && (okVal (domainArg s (isu gd) gd 36 more open_)).elim false fun d => d.id == 1 && decide (s.dom? 1 = some d)
/-- A run of the record at 0x20000 is read: its bytes, with the state after it. -/
def at20 (s : State) (n : Nat) (p : List Word → State → Bool := fun _ _ => true) : Bool := match uniAccess s (isu gd) gd 12 n [0, 1] 1 with
  | .ok t l => decide (l = (keysFrom 0x20000 n).map fun k => (Space.dev, k)) && p (bytesToWords (uniRead t gd.gid l).1 8) (uniRead t gd.gid l).2
  | _ => false
theorem wit_FieldInstructions : [
    okd (.ftot 8 36) (sd []) false [] && !domXferOpen (sd []) 10 (isu gd).lanes dm,
    okd (.ftot 8 36) (sd [] [dm] [xf]) false [] && domXferOpen (sd [] [dm] [xf]) 10 (isu gd).lanes dm,
    [0, 4, 5, 6, 7].all fun k => okd (.fstat 8 36 k) (sd []) false [],
    passB (.fdom 8 12) (sd []) (isu gd) gd && at20 (sd []) 32 fun ws t => decide (fdomReason t 0 (placeOf (sd []) gd).2 ws = some 1),
    let s := sd [0x40000, 0, 64, 0]; passB (.fdom 8 12) s (isu gd) gd && sparseWf {} gd.s && (at20 s 32 fun ws t => decide (fdomReason t 0 (placeOf s gd).2 ws = none)) &&
      decide (((List.range 256).find? fun i => (s.dom? i).isNone) = some 0),
    [[2, 0, 0, 0, 3, 4], [0x102, 0, 0, 0, 3, 3]].all fun l => okd (.fdecl 36 12) (sd l) true [] && (at20 (sd l) 16 fun ws t =>
      decide (bits (wnat ws 0) 6 0 = 2) && (ws.take 4).drop 1 == [0, 0, 0] && at20 t (16 + 4 * 2) fun ws t => fdeclBad t dm ((wnat ws 0).testBit 8) [wnat ws 4, wnat ws 5] == (wnat ws 5 == 3)),
    let d := { dm with links := [] }; okd (.flink 36 38) (sd [] [d]) true [38, 39] && decide (peerBad (sd [] [d]) { cx with partition_ := [5] } 5 = none) &&
      decide ((isu gd).sv 38 = 5) && decide (2 < 256) && (d.links.all fun l => l.1 != 5) && decide (d.links.length < 16), okd (.fclose 36) (sd []) false [],
    let x := { xf with stage := 3 }; okd (.frecl 36 38) (sd [] [dm] [x]) false [38] && (sd [] [dm] [x]).memWf && cellFits 4 (cellAt (sd [] [dm] [x]) 0x30000 4 + 5) &&
      decide (((sd [] [dm] [x]).xfers.filter fun y => y.dom == dm.id && y.stage == 3 && y.peer == (isu gd).sv 38 % 4096) = [x]) && !x.fromSource && !dm.isSource x.sva && !dm.isSink x.sva].all
      id = true := by decide +kernel

/-! ### Witnesses: contexts -/

/-- What makes a uniform access of a run in one page of this module succeed. -/
def areaOk (s : State) (g : Group) (rn : RecN) (n : Nat) (kinds : List Nat) (need : Nat) : Bool :=
  let r := recAt (isu g).snap rn
  !r.poi && decide (recBad r kinds true = none) && inRange s (placeOf s g).1 r 0 n false && decide (r.kind ≠ 1) && decide (0 < n) &&
  decide (r.base % 65536 + n ≤ 65536) && (match translate s g.core (placeOf s g).2 need r.base with
    | .here pa l => decide (pa = r.base) && !(decide (2 ≤ need) && l.testBit 5)
    | _ => false) && s.marks.isEmpty && s.softErrs.isEmpty && accsDone s 10 (isu g).lanes && !tracked r r.scope
/-- The state that such an access leaves: caches filled, and a read's correctable words repaired. -/
def areaEnd (s : State) (g : Group) (rn : RecN) (n need : Nat) : State :=
  let t := uniFill s g.core (placeOf s g).2 (recAt (isu g).snap rn) n
  if need = 1 then fixLocs t (devAt (recAt (isu g).snap rn).base n) else t
theorem area_of {s : State} {g : Group} {rn : RecN} {n need : Nat} {kinds : List Nat} (h : areaOk s g rn n kinds need = true) :
    uniAccess s (isu g) g rn n kinds need = .ok (areaEnd s g rn n need)
    (devAt (recAt (isu g).snap rn).base n) := by
  unfold areaOk at h
  unfold areaEnd
  generalize hr : recAt (isu g).snap rn = r at h ⊢
  simp only [Bool.and_eq_true, Bool.not_eq_true', decide_eq_true_eq, List.isEmpty_iff] at h
  obtain ⟨⟨⟨⟨⟨⟨⟨⟨⟨⟨a, b⟩, c⟩, d⟩, e⟩, f⟩, t⟩, m⟩, x⟩, k⟩, tr⟩ := h
  split at t
  · rename_i pa l ht
    simp only [Bool.and_eq_true, Bool.not_eq_true', decide_eq_true_eq, Bool.and_eq_false_iff, decide_eq_false_iff_not] at t
    obtain ⟨rfl, t⟩ := t
    subst hr
    exact uniAccess_ok a b c d (placesAt_page e f ht fun h => by rcases t with t | t; exacts [t h.1, by simp [h.2] at t])
      (fun _ => uniPoison_none m x _) k tr fun _ => uniFetch_none fun p hp q => by simp [devAt_dev _ _ p hp]
  · cases t
/-- Records 1 and 2 of 16384 words at 0x10000 and 0x20000; s16 is context 1, s17 a number no context has. -/
def sfX : RegFile := [(4, ⟨0x10000, false⟩), (5, ⟨0x40000000, false⟩), (6, ⟨16384, false⟩), (8, ⟨0x20000, false⟩), (9, ⟨0x40000000, false⟩),
  (10, ⟨16384, false⟩), (16, ⟨1, false⟩), (17, ⟨2, false⟩)]
def gx : Group := grp sfX [thr 0, thr 1]
/-- Context 1, which a CSAVE or CRST names. -/
def c1 (st : CtxState) : Context := { cx with id := 1, state := st, saveSize := 33024 }
/-- The header of an area at 0x10000: a new or a saved image of context `n` with one core, whose parameter block is at 0x20000. -/
def areaWords (kind n : Nat) : List Nat := [kind * 2 ^ 28 + n, 0, 0x101, 0, 0, 1, 0, 0, 0, 1, 0, 0, 0, 0, 0, 0, 0, 0, 0, 0x20000, 0, 33024 + 1837248]
/-- A record long enough for an area with one core. -/
def sfY : RegFile := sfX.map fun p => if p.1 = 6 then (6, ⟨0x80000, false⟩) else p
def gy : Group := { gx with s := sfY }
def sy (c : Option Context) (kind n : Nat) : State :=
  { mk gy with qtlb := [(64, { lf 2 with ctx := 2 } :: lf 0 :: [lf 1])], ctxs := cx :: c.toList, dev := memAt 0x10000 (areaWords kind n) ++ memAt 0x20000 blockWords }
def filled (s : State) (g : Group) (n need : Nat) : State := areaEnd s g 1 n need
def hdr (s : State) : List Word := bytesToWords ((keysFrom 0x10000 33024).map s.dev.get) 64
def crHyp (s : State) (a : SReg) (n : Nat) : Bool :=
  passB (.crst a 1) s (isu gy) gy && okVal (ctxArg s (isu gy) gy a) == some n && !areaShort s (isu gy) gy 1 Config.saveHeader &&
  !headerBad s (hdr s) && !areaShort s (isu gy) gy 1 (wnat (hdr s) 21)
/-- Without privilege. -/
def cxn : Context := { cx with priv := false }
def swrForms : List (BitVec 12 × (SwrF → Instr)) := [(0x020, .swr), (0x002, .ctxset), (0x008, .cmaskWrite), (0x018, .rgnrst), (0x019, .ctlcmd),
  (0x211, .qcmdCreate), (0x211, .qcmdDestroy), (0x212, .qbudget), (0x213, .qlate), (0x020, .pagecfg), (0x021, .frmpush), (0x100, .partmask)]

theorem wit_SystemInstructions : [
    passB (.srd ⟨0, false, 0, 0x002⟩) (mk gx) (isu gx) gx && ((mk gx).ctx? (stateTarget (mk gx) gx false 0)).isSome && (mk gx).privOf gx,
    passB (.srd ⟨0, true, 9, 0x001⟩) (mk gx) (isu gx) gx && ((mk gx).ctx? (stateTarget (mk gx) gx true 9)).isNone,
    let s : State := { mk gx with health := [0x0100000000000007] }; passB (.hqpop ⟨0, false, 0, 0x028⟩) s (isu gx) gx && s.privOf gx && sparseWf {} gx.s,
    passB (.hqpop ⟨0, false, 0, 0x028⟩) (mk gx) (isu gx) gx && (mk gx).health.isEmpty,
    swrForms.all fun p => ok (p.2 ⟨16, false, 0, p.1⟩) gx && ok (p.2 ⟨16, true, 0, p.1⟩) gx, decide (firstPoisonS sfX [16] = none),
    passB (.bsave 1) (mk gx) (isu gx) gx && (mk gx).memWf && (mk gx).migs.isEmpty && areaOk (mk gx) gx 1 6400 [0, 1] 2, passB (.brst 1) (mk gx) (isu gx) gx && areaOk (mk gx) gx 1 6400 [0, 1] 1,
    (List.range 16).all fun n => (barrierOf {} ((((keysFrom 0x10000 6400).map (mk gx).dev.get).drop (400 * n)).take 400)).isSome,
    let m : Memory := (List.range 16).map fun n => (0x10001 + 400 * n, 8); let s : State := { mk gx with dev := m }
      (List.range 16).all fun n => (barrierOf {} ((((keysFrom 0x10000 6400).map s.dev.get).drop (400 * n)).take 400)).isNone,
    [false, true].all fun b => let s : State := { mk gy with ctxs := [cx, c1 .active], gangs := (mk gy).gangs ++ if b then [{ id := 8, ctx := 1 }] else [] }
      s.sweeps.all (fun y => !y.slide) && passB (.csave 16 1) s (isu gy) gy && okVal (ctxArg s (isu gy) gy 16) == some 1 && !areaShort s (isu gy) gy 1 33024 && areaOk s gy 1 Config.saveHeader [0] 2,
    crHyp (sy (some (c1 .saved)) 1 1) 16 1 && areaOk (sy (some (c1 .saved)) 1 1) gy 1 Config.saveHeader [0] 1,
    crHyp (sy none 0 2) 17 2 && areaOk (sy none 0 2) gy 1 Config.saveHeader [0] 1 && ((sy none 0 2).ctx? 2).isNone &&
      (residentSweep (sy none 0 2) (ctxOfHeader 2 (hdr (sy none 0 2)) [])).isSome,
    crHyp (sy (some (c1 .active)) 1 1) 16 1, areaOk (mk gx) gx 1 usageBytes [0] 3 && passB (.ucnt 1) (mk gx) (isu gx) gx && (mk gx).memWf,
    decide (((mk gx).ctx? 0).map (·.ucntPending) = some none) && (mk gx).migs.isEmpty && (mk gx).repsets.isEmpty, ok (.wcall 0) gx && ok (.wcall 255) gx && ok .idle gx && ok .halt gx,
    let c : Context := { cx with id := 3 }; let s : State := { mk gx with ctxs := [c], wgs := (mk gx).wgs.map fun w => { w with ctx := 3 } }
      passB .halt s (isu gx) gx && s.ctxOf gx == 3].all id = true := by decide +kernel

/-- The runs that these clauses name, and how they read. -/
theorem wit_SystemInstructions_runs : uniAccess (mk gx) (isu gx) gx 1 6400 [0, 1] 1 = .ok (filled (mk gx) gx 6400 1) (devAt 0x10000 6400) ∧
    uniAccess (sy none 0 2) (isu gy) gy 1 Config.saveHeader [0] 1 = .ok (filled (sy none 0 2) gy Config.saveHeader 1) (devAt 0x10000 Config.saveHeader) ∧
    (∀ (s : State) (key : Nat), uniRead s key (devAt 0x10000 Config.saveHeader) = ((keysFrom 0x10000 33024).map s.dev.get, s)) ∧
    uniAccess (mk gx) (isu gx) gx 1 usageBytes [0] 3 = .ok (filled (mk gx) gx usageBytes 3) (devAt 0x10000 usageBytes) ∧
    uniPoison (filled (mk gx) gx usageBytes 3) ((devAt 0x10000 usageBytes).take 16) = none :=
  ⟨area_of (by decide +kernel), area_of (by decide +kernel), fun s key => by rw [uniRead_dev, show Config.saveHeader = 33024 from rfl],
   area_of (by decide +kernel), by decide +kernel⟩

theorem wit_SystemWrites : [
    decide ((mk gx).ctx? 0 = some cx), decide (0 < bits 0x101 7 0 ∧ bits 0x101 9 8 ≠ 3), decide (cx.state ≠ .closing), decide (cx.frames.length < 256),
    decide ((mk gx).queue? cx.qsel = none), let s := mq; let c := { cxq with qsel := 1 }; let t : State := { s with ctxs := [c] }
      decide (t.ctx? 0 = some c) && (t.queue? c.qsel).elim false fun q => q.owner == 0,
    let c := { cxq with qsel := 1 }; let t : State := { mq with ctxs := [c], queues := [{ qu 1 [] with owner := 2 }] }
      (t.queue? c.qsel).elim false fun q => q.owner != 0,
    decide (({ expect := 2047, count := 2047, arrived := 1, doneM := 2 } : Barrier).arrived &&& 2 = 0)].all id = true := by decide +kernel

/-- A context whose mailbox ring is at 0x20000. -/
def cxm : Context := { cx with mbring := 0x20000 }
def sm (b : Bool) : State := { mk gx with qtlb := nlb, ctxs := [{ cxm with slots := if b then [(0, { busy := true })] else [] }] }
def gangS (f : Gang → Gang) (accs : List Acc := []) (m : State := mk gx) : State := { m with cycle := 9000, gangs := m.gangs.map f, accs := accs }
def ldA : Acc := accL 50 .load 0x10000 []
/-- A saved gang on an otherwise empty core. -/
def sSaved : State := { mk gx with
  wgs := (mk gx).wgs.map fun w => { w with state := .saved }, gangs := (mk gx).gangs.map fun g => { g with state := .saved },
  groups := [{ gx with saved := true }] }
def resC : Context := { cx with residentWanted := some 3, param := 0x20000 }
def resS (ws : List Nat) : State := { mk gx with qtlb := nlb, ctxs := [resC], sweeps := [], dev := memAt 0x20000 ws }
def gwc : Group := grp [] [{ thr 0 with wait := .wcall 3 90 }, { thr 1 with wait := .idle 7 }]
theorem wit_ContextSteps : [
    [true, false].all fun b => ((sm b).ctx? 0).elim false fun c => windowOpen (sm b) c && !windowWorld (sm b) c && (sget {} c.slots 0 : Slot).busy == b && c.mbseq == 0 && c.mbseq % 256 == 0,
    decide ((0x80000000 : Word).getLsbD 31 = true ∧ bits (0x80000000 : Word).toNat 15 0 = 0 ∧ bits (0x80000001 : Word).toNat 15 0 ≠ 0),
    ((sm false).ctx? 0).elim false fun c => (okVal (placesAt (sm false) noCore c 2 (c.mbring + 64 * 0) 64)).elim false fun l =>
      isDev l && decide (uniPoison (sm false) l = none) && decide ((l.map (·.2)).Nodup) && (sm false).memWf,
    ((sm false).ctx? 0).elim false fun c => sparseWf {} c.slots && (sget {} c.slots 0 : Slot).bytes.wf, decide (56 + [1, 2, 3, 4].length ≤ 60),
    ((mk gx).gang? 6).elim false fun g => decide (g.state = .running) && ((mk gx).sweep? g.sweep).elim false fun x => !x.slide,
    let s := gangS (fun g => { g with state := .preempting }) [ldA]; (s.gang? 6).elim false fun g => decide (g.state = .preempting) &&
      decide (g.stopAt + Config.preemptWait ≤ s.cycle) && (gangLoads s 6).length == 1,
    let s := gangS fun g => { g with state := .preempting }; (s.gang? 6).elim false fun g => saveDue s g,
    (sSaved.gang? 6).isSome && (chosen sSaved).elim false fun p => decide (p.2.1 = .saved 6) && !p.1.slide &&
      (gangWgs sSaved 6).all fun w => decide (w.ident.gangWg < p.2.2.2.length),
    [blockWords, []].all fun ws => decide ((resS ws).ctx? 0 = some resC), (residentSweep (resS blockWords) resC).isSome, (residentSweep (resS []) resC).isNone,
    decide (resC.state = .active) && resC.resident.isNone, let c : Context := { cx with id := 3, state := .closing }
      let s : State := { mk gx with ctxs := [cx, c] }; decide (s.ctx? 3 = some c) && ctxEmpty s c,
    let s := mk gwc; decide (s.group? 10 = some gwc) && groupRuns s gwc && sparseWf {} gwc.s && decide (firstCall gwc = some (3, 90)),
    (gwc.threads.any fun t => decide (t.wait = .idle 7))].all id = true := by decide +kernel
/-- Message 0 in slot 0, a write of four bytes at 0x10000, whose steps have come so far. -/
def smsg (m : Msg) : State := { mk gx with qtlb := nlb, ctxs := [{ cxm with slots := [(0, { busy := true })], msgs := [m] }] }
theorem wit_ContextSteps_messages : ([0, 1, 2, 3].flatMap fun k => [0, 1].flatMap fun kind => [false, true].map fun e =>
    let m : Msg := { id := 60, slot := 0, seq := 0, kind := kind, va := 0x10000, data := [1, 2, 3, 4], stage := k, err := e }; let s := smsg m
    (s.ctx? 0).elim false (fun c => c.id == 0 && decide (c.msgs = [m])) && !(s.accs.any fun a => a.fetch == some m.id) && s.marks.isEmpty && s.softErrs.isEmpty &&
      s.repsets.isEmpty && s.migs.isEmpty && s.memWf && [(0x20000, 64), (0x10000, 4)].all fun p => (okVal (placesAt s noCore cxm 2 p.1 p.2)).elim false fun l =>
        isDev l && decide ((l.map (·.2)).Nodup)).all id = true := by decide +kernel
/-- A signature that is pending at 0x10000. -/
theorem wit_ContextSteps_usage : ∀ keys sent : Bool, let c : Context := { cx with ucntPending := some (0x10000, 3, sent) }
    let s : State := { mk gx with qtlb := nlb, ctxs := [c], keys := keys }; s.keys = keys ∧ s.ctx? 0 = some c ∧ s.memWf = true ∧ s.marks = [] ∧ s.repsets = [] ∧ s.migs = [] ∧ s.accs = [] ∧ placesAt s noCore c 2 0x10000 usageBytes = .ok (devAt 0x10000 usageBytes) ∧
      ((devAt 0x10000 usageBytes).map (·.2)).Nodup := by
  have h : ((devAt 0x10000 usageBytes).map (·.2)).Nodup := by
    have h : (devAt 0x10000 usageBytes).map (·.2) = keysFrom 0x10000 usageBytes := by simp [devAt]
    rw [h]
    exact (List.nodup_range).map fun a b h => by simpa using h
  intro keys sent
  cases keys <;> cases sent <;> exact ⟨rfl, by decide +kernel, by decide +kernel, rfl, rfl, rfl, rfl,
    placesAt_page (l := 0x10000000F) (by decide) (by decide) (by decide +kernel) (by decide), h⟩

/-! ### Witnesses: pages -/

/-- Tables that reach the leaf of page 1. -/
def pt (l : Nat) : Memory := memAt 0x60000 [1, 7] ++ memAt 0x70000 [1, 8] ++ memAt 0x80008 [l % 2 ^ 32, l / 2 ^ 32]
/-- A context with those tables and module 5 in its partition. -/
def cxp : Context := { cx with ptroot := 0x60000, partition_ := [5] }
/-- Record 3 of words at 0x20000; s36 an index, s38 and s39 too large ones, s40 page 1, s42 past the virtual space, s44 peer 5, s46 this
module, s48 no peer. -/
def sfP : RegFile := [(12, ⟨0x20000, false⟩), (13, ⟨0x40000000, false⟩), (14, ⟨64, false⟩), (36, ⟨1, false⟩), (38, ⟨256, false⟩), (39, ⟨48, false⟩),
  (40, ⟨0x10000, false⟩), (43, ⟨0x02000000, false⟩), (44, ⟨5, false⟩), (48, ⟨4096, false⟩)]
def gp : Group := grp sfP [thr 0, thr 1]
/-- Leaves of page 1 in frame 1: owned here in mode 11, owned by module 5, owned here in capo, replicated. -/
def lHere : Nat := 0x10000018F
def lAway : Nat := lHere + 5 * 512
def lCapo : Nat := lHere + 2 ^ 27
def lRepl : Nat := 0x10000014F + 5 * 512
def sp (l : Nat) (ws : List Nat := []) (c : Context := cxp) : State :=
  { mk gp with dev := memAt 0x20000 ws ++ pt l, ctxs := [c], populated := [5], enabled := [5], links := [(0, { state := .up })],
               cores := [(0, { tlb := [lf 0, lf 2] })] }
/-- The run of record 3 is read, with the words that it holds. -/
def p32 (s : State) (g : Group) (p : List Word → Bool := fun _ => true) : Bool := match uniAccess s (isu g) g 3 32 [0, 1] 1 with
  | .ok t l => decide (l = devAt 0x20000 32) && p (bytesToWords (uniRead t g.gid l).1 8)
  | _ => false
/-- A fret with one replica on core 3, and one in use. -/
def fretWords : List Nat := [2 ^ 31, 8 * 2 ^ 16 + 63, 0, 3, 0, 0x40000, 0, 16]
def fretE (st : FretState) : Fret := { words := fretWords.map (BitVec.ofNat 32), state := st }
theorem wit_PageInstructions : [
    let s := sp lHere fretWords; passB (.fmapw 36 3) s (isu gp) gp && (p32 s gp fun ws => (wnat ws 0).testBit 31 && !fretBad ws) && decide ((s.fret 0 1).state ≠ .inUse),
    passB (.fmapw 38 3) (sp lHere) (isu gp) gp && p32 (sp lHere) gp, let s := sp lHere [2 ^ 31]; passB (.fmapw 36 3) s (isu gp) gp && p32 s gp fretBad,
    let s := sp lHere [] { cxp with frets := [(1, fretE .inUse)] }; passB (.fmapw 36 3) s (isu gp) gp && p32 s gp && decide ((s.fret 0 1).state = .inUse),
    [Instr.tlbiCtx, .tlbiAll, .tlbiPage 40].all fun i => passB i (sp lHere) (isu gp) gp && drained (sp lHere) 10 (isu gp).lanes &&
      (let s : State := { sp lHere with accs := sA.accs }; passB i s (isu gp) gp && !drained s 10 (isu gp).lanes),
    okVal (pageArg (sp lHere) (isu gp) 40 []) == some 0x10000, passB (.tlbiPage 42) (sp lHere) (isu gp) gp, okVal (pageArg (sp lHere) (isu gp) 42 []) == some (2 ^ 57),
    let s := sp lHere [0, 0, 0xFFFF, 0, 0, 0, 0xF]; passB (.rngw 36 3) s (isu gp) gp && (p32 s gp fun ws => !rangeBad ws) && sparseWf [] s.ranges && (isu gp).sv 36 == 1,
    passB (.rngw 39 3) (sp lHere) (isu gp) gp && (isu gp).sv 39 == 48 && p32 (sp lHere) gp rangeBad,
    [(lHere, 48), (lAway, 44), (lHere, 46), (lHere, 44)].all fun p => passB (.pgmig 40 p.2) (sp p.1) (isu gp) gp && leafValid (leafNow (sp p.1) 0 1),
    (isu gp).sv 48 == 4096 && (isu gp).sv 44 == 5 && (isu gp).sv 46 == Config.peerId, !pageMovable (sp lAway) 0 1, pageMovable (sp lHere) 0 1,
    decide (peerBad (sp lHere) (placeOf (sp lHere) gp).2 5 = none) && !linkMissing (sp lHere) 0 1 (leafNow (sp lHere) 0 1) 5,
    (match translate (sp lHere) 0 (placeOf (sp lHere) gp).2 0 0x10000 with | .here .. => true | _ => false),
    passB (.pgpin 40) (sp lAway) (isu gp) gp && !ownedHere (leafNow (sp lAway) 0 1), [lHere, lCapo].all fun l => passB (.pgpin 40) (sp l) (isu gp) gp &&
      passB (.pgpinUnpin 40) (sp l) (isu gp) gp && ownedHere (leafNow (sp l) 0 1) && decide ((sp l).pages.length < Config.pageRecords)].all id = true := by decide +kernel
/-- A full table of pinned records has no room for another pin. -/
theorem full_pins (n : Nat) (hn : Config.pageRecords ≤ n) (s : State) (h : s.pages = List.replicate n { ctx := 1, page := 9, pinned := true }) :
    Config.pageRecords ≤ s.pages.length ∧ (s.pages.any fun x => x.ctx == 0 && x.page == 1) = false ∧ replaceable s = none := by
  refine ⟨by rw [h, List.length_replicate]; exact hn, by rw [h]; simp [List.any_replicate], ?_⟩
  simp [replaceable, h]
def fullS (n : Nat) : State := { sp lHere with pages := List.replicate n { ctx := 1, page := 9, pinned := true } }
theorem wit_PageInstructions_full : passB (.pgpin 40) (fullS Config.pageRecords) (isu gp) gp = true ∧
    ownedHere (leafNow (fullS Config.pageRecords) 0 1) = true ∧ Config.pageRecords ≤ (fullS Config.pageRecords).pages.length ∧
    ((fullS Config.pageRecords).pages.any fun x => x.ctx == 0 && x.page == 1) = false ∧ replaceable (fullS Config.pageRecords) = none :=
  ⟨by decide +kernel, by decide +kernel, full_pins _ (Nat.le_refl _) _ rfl⟩

/-- Steps on page 1: a record that crossed its threshold, a migration, a stub. -/
def pr : PageRec := { ctx := 0, page := 1, count := 16, moves := 1 }
def mg : Migration := { ctx := 0, page := 1, peer := 5 }
def sb : Stub := { ctx := 0, page := 1, frame := 3, since := 0, tracked := [5] }
def late (s : State) : State := { s with cycle := 2 ^ 25 }
def pkq (typ : Nat) (va : Nat := 0x10000) (tag : Nat := 5 + 4096 * 50) (data : List Byte := []) : Packet :=
  let p := mkPacket (mk gp) typ 0 0 va tag data; { p with len := packetFlits p }
/-- Access 50: a load of page 1, at another module or here. -/
def ldR (op : AccOp) (space : Space) : Acc := { ldA with op := op, space := space, line := 512, lanes := [{ lane := 0, va := 0x10000, keys := keysFrom 0x10000 4, dst := 2, data := [1, 2, 3, 4] }] }
def snt (typ : Nat) (tag : Nat) : Sent := ⟨{ mkPacket (mk gp) typ 5 0 0x10000 tag [] with nreq := 1, opw := 2, data := [1, 0, 0, 0] }, 0, 0, true, [], false, 0⟩
theorem wit_PageSteps : [
    (lookup (sp lHere) 0 cxp 0x10000).isSome, let s : State := { sp lHere with pages := [pr] }; ownedHere (leafNow s 0 1) && !isCapo (leafNow s 0 1) &&
      !(pageRec s 0 1).pinned && (migOf s 0 1).isNone && decide (leafThr (leafNow s 0 1) ≤ (pageRec s 0 1).count) && !linkMissing s 0 1 (leafNow s 0 1) 5,
    let m := { mg with copied := true }; let s : State := { sp lHere with migs := [m] }; decide (migOf s 0 1 = some m) && !acceptedLeft s m && decide (leafAt s cxp.ptroot (1 * 65536) = some 0x80008) && s.memWf && homeOf s 0 1 == 5,
    let m := { mg with copied := true, peer := 6 }; let s : State := { sp lHere with migs := [m] }; decide (migOf s 0 1 = some m) && !acceptedLeft s m &&
      homeOf s 0 1 != Config.peerId && homeOf s 0 1 != 6 && !m.told,
    let s : State := { sp lHere with migs := [mg] }; decide (migOf s 0 1 = some mg) && !mg.copied && mg.issuer.isNone && !acceptedLeft (sp lHere) { mg with born := 100 },
    (sp lHere).waiting.isEmpty && cxp.frames.isEmpty && decide (frameFor (sp lHere) cxp 1 = none),
    let c := { cxp with frames := [4, 9] }; let s := sp lAway [] c; let m : PageCopyMsg := { ctx := 0, page := 1, peer := 5, bytes := [(3, 7)], moves := 0, wstart := 0, access := [], overflow := false, capo := false }
      let s' : State := { s with dev := putRange s.dev (4 * 65536) 65536 (m.bytes.filter fun b => decide (b.1 < 65536)) }
      decide (s.ctx? 0 = some c) && decide (frameFor s c 1 = some (4, [9])) && s.waiting.isEmpty && decide (leafAt s' 0x60000 0x10000 = some 0x80008) && !linkBack s m (leafNow s 0 1) && s.memWf && (leafAt s 0x60000 0x10000).isSome &&
        !m.refused && { m with refused := true }.refused && !m.capo && decide ((m.bytes.map (·.1)).Nodup),
    let s := sp lAway [] { cxp with partition_ := [] }; homeOf s 0 1 == Config.peerId && leafMode (leafNow s 0 1) == 3 && s.memWf,
    let s : State := { sp lAway with stubs := [sb], waiting := [pkq 0x01] }; decide (stubOf s 0 1 = some sb) && (pkq 0x01).va / 65536 == 1 && (pkq 0x01).ctx == 0 && (pkq 0x01).tag % 4096 == leafPeer (leafNow s 0 1) && (pkq 0x01).hops == 0 &&
      (let p : Packet := { pkq 0x01 with hops := 2 }; p.va / 65536 == 1 && p.ctx == 0 && decide (2 ≤ p.hops)),
    let p := pkq 0x01 0x10000 (6 + 4096 * 50); let s : State := { sp lAway with stubs := [sb], waiting := [p] }; p.tag % 4096 != leafPeer (leafNow s 0 1),
    let a := ldR .load (.remote 5); let s : State := { sp lAway with accs := [a], sent := [snt 0x01 (tagOf 50)] }
      decide (s.acc? 50 = some a) && a.served && (s.sent.find? fun e => e.needs && e.pkt.tag == tagOf 50).isSome && homeOf s 0 1 != Config.peerId,
    let s : State := { sp lAway with owners := [{ ctx := 0, page := 1, owner := 5, pending := true }] }; s.owners.any fun e => e.pending && e.ctx == 0 && e.page == 1,
    let s := late { sp lAway with stubs := [sb] }; decide (stubOf s 0 1 = some sb) && !sb.retiring && decide (sb.since + Config.stubLife ≤ s.cycle) && !sb.overflow,
    ((sp lAway).ctx? 0).isSome && (sp lAway).sent.isEmpty && (sp lAway).owners.isEmpty,
    let s : State := { sp lAway with sent := [snt 0x01 (tagOf 50)] }; s.sent.any fun e => e.needs && e.pkt.dst == 5 && e.pkt.ctx == 0 && e.pkt.va / 65536 == 1,
    let st := { sb with awaiting := [5], retiring := true }; let s := late { sp lAway with stubs := [st] }
      decide (stubOf s 0 1 = some st) && st.awaiting.contains 5 && decide (st.asked + 2 ^ s.ftoexp ≤ s.cycle),
    let st := { sb with retiring := true }; let s : State := { sp lAway with stubs := [st] }; decide (stubOf s 0 1 = some st) && stubOver s st && decide (cxp.frames.length < Config.framePoolMax),
    [lHere, lCapo].all fun l => let r : PageRec := { pr with window := true, pinLater := l == lCapo }; let s := late { sp l with pages := [r] }
      decide ((s.pages.find? fun r => r.ctx == 0 && r.page == 1) = some r) && windowOver s r,
    [AccOp.load, .store, .atomic .add true].all fun op => let a := { ldR op .dev with locking := true }; let s : State := { sp lRepl with accs := [a], repsets := [⟨0, 1, [5]⟩] }
      decide (s.acc? 50 = some a) && !a.committed && replicaPeers s a == [5] && !unanswered s (tagOf 50) && accReady s a,
    let a := { ldR .load (.remote 5) with sent := some 0 }; let s := late { sp lRepl with accs := [a], replicas := [{ ctx := 0, va := 0x10000, locked := some 1 }] }
      decide (s.acc? 50 = some a) && ((replicaFor s 0 a.va).elim false fun r => r.locked.isSome) && !unanswered s (tagOf 50) && decide (s.group? 10 = some gp) && !detOf s gp &&
        a.sent.elim false fun n => decide (n + Config.replicaStall ≤ s.cycle),
    let a := ldR .load (.remote 5); let s : State := { sp lRepl with accs := [a], sent := [snt 0x01 (tagOf 50)] }
      unanswered s (tagOf 50) && leafMode (leafNow s 0 (a.va / 65536)) == 2 && (leafNow s 0 (a.va / 65536)).testBit 6, decide ((List.replicate 128 (0 : Byte)).length = 128),
    !gp.coursed && decide (((ldR .load (.remote 5)).lanes.map (·.lane)).Nodup)].all id = true := by decide +kernel

/-- A waiting packet of access 50 or transfer 60 at a slice. -/
def sl2 (a : Acc) (x : List Xfer := []) : State := { sp lAway with accs := [a], xfers := x }
theorem wit_LinkSteps : [
    let a := { ldR .load (.remote 5) with route := [fabricPoint], stamp := some 5 }; (List.range 70).any fun n => (nextServed (sl2 a) n).elim false fun r => r.isAcc && r.id == 50,
    let a := { ldR .load .dev with route := [3, fabricPoint], stamp := some 5 }; (List.range 70).any fun n => (nextServed (sl2 a) n).elim false fun r => r.isAcc && r.id == 50,
    [0, 2, 4].all fun k => let x := { xf with route := [3], stage := k }
      (nextServed { sp lAway with xfers := [x] } 3).elim false fun r => !r.isAcc && !r.isCmd && r.id == 60,
    let c : Cmd := { cp with route := [3, 4], out := false }; (nextServed { sp lAway with cmds := [c] } 3).elim false fun r => !r.isAcc && r.isCmd && r.id == 50,
    decide (nextServed (sp lAway) 3 = none),
    let d : DieTag := { slice := 3, chan := 1, tag := 2, sector := 0, write := false }; let s : State := { sp lAway with dieTags := [d] }
      (nextServed s (basePoint 3 1)).elim false fun r => !r.isAcc && !r.isCmd && r.isDie && r.id == d.num,
    [LinkState.training, .retrain, .up, .disabled, .down].all fun st => let s : State := { sp lAway with booted := true, links := [(0, { state := st })] }
      decide ((sget {} s.links 0 : Link).state = st) && manageable s, let s : State := { sp lAway with links := [] }; decide ((sget {} s.links 0 : Link).state ≠ .up),
    [0, 15].all fun n => let e : Sent := { snt 0x01 (tagOf 50) with naks := n }; let k : Nak := ⟨0, 5, 0⟩; let s : State := { sp lAway with sent := [e] }
      decide ((sget {} s.links 0 : Link).state = .up) && decide ((s.sent.find? fun e => e.on k) = some e) && (s.sent.find? fun e => e.on { k with seq := 1 }).isNone,
    let p := pkq 0x01; packetCrc p ^^^ 1 != packetCrc p && packetCrc p ^^^ 1 != ~~~(packetCrc p) && packetFits p && decide ((sget {} (sp lHere).links 0 : Link).state = .up) &&
      !packetFits { p with len := 16 } && !knownType 0x70 && packetReserved { p with res0 := 1 },
    knownType (pkq 0x01).typ && !packetReserved (pkq 0x01) && (pkq 0x01).dst == Config.peerId && (pkq 0x01).seq == 0 && nextIn (sp lHere) 0 == 0,
    let s := sp lHere; let p := pkq 0x01; s.reorder.isEmpty && (stubOf s 0 1).isNone && p.after == 0 && leafPeer (leafNow s 0 1) == Config.peerId &&
      !cxp.world && (match translate s noCore cxp 1 p.va with | .here pa l => pa == 0x10000 && l == leafNow s 0 1 | _ => false),
    let a := ldR .load (.remote 5); let p := pkq 0x03 0x10000 (tagOf 50) [0, 0, 1, 2, 3, 4]; let s : State := { sp lAway with accs := [a], sent := [snt 0x01 (tagOf 50)] }
      p.tag == tagOf a.id && decide (s.acc? 50 = some a) && unanswered s p.tag && p.data.getD 0 0 == 0 && decide (s.group? 10 = some gp) && a.again.isEmpty && decide (a.parts[p.part]? = some a.lanes) && decide (a.fetch = none) &&
      !detOf s gp && packetFits p && s.sent.all fun e => e.parts.isEmpty && e.pkt.part == p.part,
    let s := late { sp lAway with sent := [snt 0x01 (tagOf 50)] }; s.sent.any fun e => e.needs && e.pkt.dst == 5 && decide (e.at_ + 2 ^ s.ftoexp ≤ s.cycle),
    let s : State := { sp lAway with sent := [snt 0x21 (tagOf 50), snt 0x21 (tagOf 51)] }; (match s.sent[0]?, s.sent[1]? with
      | some a, some b => a.pkt.typ == 0x21 && a.pkt.va == b.pkt.va && a.pkt.tag != b.pkt.tag && a.pkt.nreq + b.pkt.nreq == 2 && a.pkt.dst == b.pkt.dst && a.pkt.ctx == b.pkt.ctx && a.pkt.opw == b.pkt.opw && !a.merged && !b.merged && b.parts.isEmpty && a.needs && b.needs
      | _, _ => false),
    let a := ldR .load .host; let s : State := { sp lAway with accs := [a] }; decide (s.acc? 50 = some a) && !behind s a &&
      decide (([1, 2, 3, 4] : List Byte).length = a.lanes.length * a.wid)].all id = true := by decide +kernel

/-! ### Witnesses: slide mode and the tailpiece -/

/-- A mapped fret of 16 words on a core, with a ring of 40 records. -/
def fm (start ring core : Nat) : Fret := { words := [0x80040000, 0x0020000F, BitVec.ofNat 32 start, BitVec.ofNat 32 core, 0, BitVec.ofNat 32 ring, 0, 40], state := .mapped }
/-- A slide sweep under way, with a state of its frets and records in ring 0. -/
def ss (st : FretState) (ring : List RingRec := []) (on : Bool := true) (arr : List Thread := []) : State :=
  { mk g5 sl { cx with frets := [(0, { fr 0 0x10000 with state := st, ring := ring }), (1, { fr 0x40 0x18000 with state := st })] } with
    qtlb := nlb, cycle := 500, sweeps := [{ swp sl with slideOn := on, placed := if on then 1 else 0 }],
    groups := if on then [g5] else [], gangs := if on then [{ id := 6, sweep := 5 }] else [],
    wgs := if on then [{ id := 7, gang := 6, sweep := 5, size := 4096, tiles := 8, groups := 24, fret := true }] else [],
    cores := [(0, { tlb := [lf 0, lf 1], arrivals := arr })] }
def tv (n : Nat) : Thread := { lane := n % 64, stn := n, fret := some 0 }
def rg : RingRec := { n := 0, r := 0, acked := true, thread := tv 3 }
/-- A deterministic sweep with entries of thread 0 staged, one epoch closed. -/
def stg (op : Option AOp) : Staged := { id := 80, wg := 7, gid := 10, va := 0x10000, wid := 4, data := [1, 0, 0, 0], op := op, ret := op.isSome }
def ge : Group := grp [] [{ thr 0 with epoch := 1 }]
def sRel (g : Group) (fl : Nat) (e : Staged) : State := { mk g (0x40000 + fl) with
  sweeps := [{ swp (0x40000 + fl) with agreed := [(7, 1)], slideOn := fl != 0 }], cores := [(0, { tlb := [lf 1, lf 3 0x2F], stage := [e] })] }
/-- An entry that is released for a thread, or in a slide sweep for none. -/
def relHyp (s : State) (e : Staged) (at_ : Option (Nat × Nat)) (field : Bool) : Bool :=
  match s.sweep? 5 with
  | some x =>
    let here := (entryThread s x e).map fun p => (p.1.gid, p.2.lane)
    x.det && (nextEcho s x).isNone && decide (nextRelease s x = some e) && e.xfer.isNone && (!e.isRel || !e.early s) && (releaseFlush s x e).isNone &&
      decide ((if x.slide then some (here.getD (0, e.lane)) else here) = at_) && decide (s.ctx? x.ctx = some cx) &&
      (match translate s (stageCore s e) cx (if e.op.isSome then 3 else 2) e.va with | .here _ l => l.testBit 5 == field | _ => false)
  | none => false
/-- Another run of the gang, in which the entry is not staged. -/
def sd2 (st : List Staged) (run : Nat) (primary : Option Nat := none) : State := { mk ge 0x40000 with
  gangs := [{ id := 6, sweep := 5, primary := primary }, { id := 8, sweep := 5, run := run }],
  wgs := (mk ge).wgs ++ [{ id := 9, gang := 8, sweep := 5 }], groups := [ge, { ge with gid := 11, wg := 9 }], cores := [(0, { stage := st })] }
def cmpHyp (s : State) (same : Bool) (p : Sweep → Gang → Gang → Bool) : Bool :=
  match s.gang? 6, s.gang? 8, s.sweep? 5, s.wg? 7, s.wg? 9 with
  | some g, some h, some x, some w, some v => g.run == 0 && selected x g.index && decide (gangWgs s 6 = [w]) && decide (rivals s g = [h]) &&
      decide (memberOf s 8 w.ident.gangWg = some v) && closedPast s w 0 && closedPast s v 0 && !compared s x w v 0 && sget 0 x.agreed w.id == 0 &&
      (digest s 5 7 0 == digest s 5 9 0) == same && p x g h
  | _, _, _, _, _ => false
theorem wit_SlideAndTailSteps : [
    let s := ss .inUse; match s.sweep? 5, s.ctx? 0 with
      | some x, some c => injecting s x && decide (fretAt c x.entry.toNat = some 0) && decide (0 < queueFree s 0 (s.fret 0 0).qcap) && !((s.fret 0 0).waiting.any (mayTake x.det (headOf s 0) (chooseReplica s (s.fret 0 0) x.det x.injected)))
      | _, _ => false,
    let s : State := { ss .mapped [] false with ctxs := [{ cx with frets := [(0, fm 0 0x10000 0), (1, fm 0x40 0x20000 1)] }] }; match s.sweep? 5, s.ctx? 0 with
      | some x, some c => !injecting s x && isNext .slide s && !slideBlockBad s c x && c.frets.all fun p => (ringPlace s c p.2.ringAt 8).isSome
      | _, _ => false,
    let s : State := { ss .inUse with travel := [(0, tv 3)] }; (s.travel.find? fun p => p.2.stn == 3).isSome,
    let s := ss .inUse [{ rg with acked := false }]; (fretCtx s 0 fun _ f => f.ring.any fun r => r.n == 0 && !r.acked).isSome,
    [false, true].all fun b => let s : State := { ss .inUse [rg] with marks := if b then [520] else [] }
      (fretCtx s 0 fun c _ => (takable s c 0 0).isSome).elim false fun c => (ringPlace s c ((s.fret 0 0).ringAt + 1024 + 1024 * (0 % 16)) 1024).isSome == !b,
    [1, 64].all fun n => let s := ss .inUse [] true ((List.range n).map tv); (nextGroup s 0).elim false fun p => p.2.2.2.2.length == n &&
      decide (maxOf (p.2.2.2.2.map (·.arrived)) + 64 ≤ s.cycle) && sparseWf {} s.cores,
    [stg none, stg (some .add), { stg none with sync := true }].all fun e => relHyp (sRel ge 0 e) e (some (10, 0)) false,
    relHyp (sRel ge 0 { stg none with va := 0x30000 }) { stg none with va := 0x30000 } (some (10, 0)) true,
    relHyp (sRel { ge with threads := [] } sl (stg none)) (stg none) (some (0, 0)) false,
    cmpHyp (sd2 [] 1) true fun _ _ _ => true, cmpHyp (sd2 [stg none] 1) false fun x g h => h.run == 1 && g.primary.isNone && !x.wants.contains (0, 2),
    cmpHyp (sd2 [stg none] 2) false fun _ _ h => h.run == 2].all id = true := by decide +kernel

/-! ### Witnesses: the platform -/

/-- A die-port tag in use for sector 0, and an error there. -/
def dt (write : Bool) (en : BitVec 128) : DieTag :=
  { slice := homeSlice 0, chan := chanOf 0, tag := 0, sector := 0, write := write, enables := en, served := true }
def sp0 (d : DieTag) (unc : Bool) : State := { mk g1 with dieTags := [d], softErrs := [(.sector 0, unc)] }
def bi (a b c d : Bool) : BootImages :=
  let im (ok : Bool) : BootImage := ⟨ok, true, 1, 7⟩
  ⟨im a, im b, im c, im d, false, [], 0, [], [], [], [], [], [], [], 0, 0, 0, 0, 1⟩
/-- A unit that failed its self test. -/
def sFail (u : RepairUnit) (sp : BitVec 4 := 15) : State := { mk g1 with selfFail := [u], spares := sp }
/-- A report in which the states up to `n` fit the cap and the temperature. -/
def clk (n : Nat) (hot : Nat) : ClockReport := ⟨(List.range 5).map fun i => if i ≤ n ∧ hot < 95 then 40 else BitVec.ofNat 8 hot, [100, 100, 100, 100, 100]⟩
theorem wit_PlatformSteps : [
    decide (freeTag (mk g1) (homeSlice 0) (chanOf 0) = some 0), [false, true].all fun u => let s := sp0 (dt false 0) u
      (s.dieTags.find? fun d => d.slice == homeSlice 0 && d.chan == chanOf 0 && d.tag == 0).isSome && decide (sectorErr s 0 = some u) && dieReady s (dt false 0) && (writesBefore s (dt false 0) 0).isEmpty,
    let d := dt true (BitVec.allOnes 128); dieReady (sp0 d false) d && d.full 0 && (sp0 d false).dieTags.length == 1,
    let d := dt true 0; let s : State := { sp0 d false with dieTags := [d, { dt false 0 with tag := 1 }] }; !dieReady s { dt false 0 with tag := 1 },
    let d := dt true (BitVec.allOnes 128); let s : State := { sp0 d false with dieTags := [d, { dt false 0 with tag := 1 }] }
      dieReady s { dt false 0 with tag := 1 } && !(writesBefore s { dt false 0 with tag := 1 } 0).isEmpty, !{ dt false 0 with served := false }.served,
    [RepairUnit.quartet 63, .arrayLine 255 true 3, .arrayLine 0 false 0, .dramRow 7 1].all fun u => !declared (mk g1) u && declared (sFail u) u,
    (sFail (.quartet 63)).spares.getLsbD (63 % 4) && decide (63 < Config.numQuartets), declared (sFail (.quartet 63) 0) (.quartet 63) && !(sFail (.quartet 63) 0).spares.getLsbD (63 % 4),
    [false, true].all fun col => (if col then ((sFail (.arrayLine 0 col 3)).core 0).spareCol else ((sFail (.arrayLine 0 col 3)).core 0).spareRow) &&
      (let s : State := { sFail (.arrayLine 0 col 3) with cores := [(0, { spareCol := false, spareRow := false })] }
       declared s (.arrayLine 0 col 3) && !(if col then (s.core 0).spareCol else (s.core 0).spareRow)),
    let s : State := { mk g1 with tally := List.replicate 3 (.quartet 63, 0, true) }; declared s (.quartet 63),
    let s : State := { mk g1 with tally := List.replicate 64 (.quartet 63, 0, false) }; declared s (.quartet 63),
    decide (255 < Config.numCores ∧ 1 < Config.deviceBytes / 2 ^ 16), let s : State := State.reset; !s.booted && !s.stopped && !s.recovery,
    [bi true true true true, bi true true true false, bi true true false true, bi true false true true, bi false true true true].all fun b =>
      [b.im1, b.im2, b.im3, b.im4].all fun im => imageLoads State.reset 1 im == im.rsa,
    let s : State := { mk g1 with violations := List.replicate 256 0 }; !s.stopped && decide (256 ≤ recentViolations s), manageable (mk g1), (mk g1).keys,
    !({ mk g1 with keys := false } : State).keys, ({ mk g1 with recovery := true } : State).recovery && !(mk g1).recovery,
    decide (({ mk g1 with fwPending := [(4, 9)] } : State).fwPending = [(4, 9)]) && sget 0 (mk g1).fwPending 4 == 0,
    [(4, 40), (0, 40), (0, 100), (0, 120)].all fun p => let c := clk p.1 p.2
      let fits (n : Nat) : Bool := decide ((c.temps.getD n 0).toNat ≤ 95 ∧ 8 * (c.powers.getD n 0).toNat ≤ (mk g1).powerCap)
      (List.range 5).all fun n => fits n == decide (p.2 ≤ 95)].all id = true := by decide +kernel

/-- A stack has a spare row left, and has none. -/
theorem wit_PlatformSteps_rows : sget 0 (mk g1).rowsUsed 7 < Config.dramSpareRows 7 ∧
    let s : State := { sFail (.dramRow 7 1) with rowsUsed := [(7, Config.dramSpareRows 7)] }; Config.dramSpareRows 7 ≤ sget 0 s.rowsUsed 7 :=
  ⟨Nat.succ_pos _, by simp [sget]⟩

/-! ### Witnesses: clauses and steps -/

/-- A thread that is about to enter the clause at `pc`. -/
def gE (pc : Word) : Group := grp [] [{ lane := 0, pc := pc }]
def sE (pc : Word) (codes : List (Nat × Nat × Nat) := []) : State := { mk (gE pc) with codes := codes }
def entHyp (s : State) (pc : Word) : Bool :=
  decide (s.group? 10 = some (gE pc)) && groupRuns s (gE pc) && ((gE pc).threads.find? fun t => !t.exited && !t.entered && decide (t.wait = .none) && t.pc == pc).isSome &&
  inFret (placeOf s (gE pc)).2 (slideOf s (gE pc)) {} pc.toNat && (gE pc).threads.all fun u => !u.handler
/-- At a header that names token 0. -/
def gW : Group := grp [] [{ lane := 0, clause := [0x20030000, 0, 0], entered := true, k := [(0, { ids := [50] })] }]
def sW (st : CmdState) : State := { mk gW with cmds := [{ cp with state := st, trap := true, code := 1 }] }
theorem wit_ClauseAndIssueSteps : [
    entHyp (sE 0) 0 && !outside (sE 0) 0 0 0 && (okVal (fetchClause (sE 0) 0 cx 0 0)).elim false fun ws => !clauseBad ws && headerT (ws.headD 0),
    entHyp (sE 0x80) 0x80 && !outside (sE 0x80) 0 0 0x80 && (okVal (fetchClause (sE 0x80) 0 cx 0 0x80)).elim false clauseBad,
    entHyp (sE 0x80 [(0, 0, 0x80)]) 0x80 && outside (sE 0x80 [(0, 0, 0x80)]) 0 0 0x80, codeOf (sE 0) (gE 0) == 0,
    [CmdState.ended, .failed].all fun st => let s := sW st; decide (s.group? 10 = some gW) && groupRuns s gW && gW.threads.all fun u => u.entered && !u.passed &&
      u.pc == 0 && kwTokens (u.clause.headD 0) == [0] && !pendTokens s u [0] && (trapTokens s u [0]).isSome == decide (st = .failed) && !u.handler,
    let g : Group := { g1 with serr := [(3, false)] }; let s : State := { mk g with corrected := [(.sreg 10 3, 4, false)] }; decide (s.group? 10 = some g) && decide (g.serr = [(3, false)]),
    let g : Group := { g1 with counters := [{ pc := 4, passes := 64 }] }; let s := mk g
      decide (s.group? 10 = some g) && g.counters.any fun c => c.pc == 4 && decide (Config.promoteAt ≤ c.passes) && c.promoted.isNone].all id = true := by decide +kernel

/-- An issue at 4 of a thread whose clause holds the word `w` there. -/
def sI (w : Word) (late : Option (Nat × Nat) := none) : State :=
  let g : Group := grp [] [{ thr 0 with clause := [0x10010000, w], late := late }]
  { mk g with cur := none, issues := [isu g] }
/-- The thread's class and the decoding of its word. -/
def decI (s : State) : Option (Option Instr) := (s.thread? 10 0).bind fun t => t.cls.map fun c => decode c (t.wordAt 4) (t.wordAt 8)
theorem wit_StepRunsDecoded : [(sI 0x00404081).agenda.isEmpty, !(sI 0x00404081).stopped, (sI 0x00404081).issues.length == 1,
    decide (decI (sI 0x00404081) = some (some (.iadd ⟨false, false, 1, 1, .imm 1⟩))), match step (sI 0x00404081) with | .next _ => true | _ => false].all id = true := by
  decide +kernel
/-- With no other issue of its group the head is taken; where the other one alone traps, that one is. -/
theorem wit_StepRunsDecoded_head : headTaken (sI 0x00404081) (isu (grp [] [thr 0])) [] ∧
    (let g : Group := grp [] [{ thr 0 with clause := [0x10010000, 0x00404081] }, { thr 1 with clause := [0x10010000, 0x00404081, 0xFFFFFFFF], pc := 8 }]
     let i : Issue := { isu g with lanes := [0] }; let j : Issue := { isu g with lanes := [1], pc := 8 }
     let s : State := { mk g with cur := none, issues := [i, j] }
     wouldTrap { s with issues := [j] } i = false ∧ wouldTrap { s with issues := [j] } j = true ∧ ([j].find? fun x => x.gid == i.gid) = some j) := by
  refine ⟨fun j h => by simp at h, ?_⟩
  decide +kernel
theorem wit_StepTraps : [decide (decI (sI 0xFFFFFFFF) = some none), decide (((sI 0x68000000 (some (3, 0x40))).thread? 10 0).bind (·.late) = some (3, 0x40))].all id = true := by
  decide +kernel
theorem wit_StepOrder : [
    !({ mk g1 with agenda := [.preempt 6] } : State).agenda.isEmpty, ({ mk g1 with stopped := true } : State).stopped && (mk g1).agenda.isEmpty,
    (mk (gE 0)).issues.isEmpty && (nextDue (mk (gE 0))).isSome, State.reset.issues.isEmpty && (nextDue State.reset).isNone].all id = true := by decide +kernel
theorem wit_MemoryStaysCanonical : [(mk g1).memWf, State.reset.memWf, match step State.reset with | .next _ => true | _ => false].all id = true := by decide +kernel
theorem wit_EncodeDecodeAgree : [(.iadd ⟨false, false, 127, 2, .imm 0x7F⟩ : Instr), .movl ⟨true, 63, 0xFFFFFFFF⟩, .tret, .pgmig 62 63].all (·.wf) = true := by decide +kernel

/-! ### One step: the spec's own worked examples -/

/-- The group after an instruction (none where the step stops). -/
def aft (i : Instr) (g : Group) : Option Group :=
  match exec i (mk g) with
  | .next t => t.group? 10
  | _ => none
/-- A v-register of a lane after it; then the sticky flags of R60 at [14:8]. -/
def rv (i : Instr) (g : Group) (lane r : Nat) : Nat := (((aft i g).bind (·.thread? lane)).map fun t => (t.vget r).w.toNat).getD 1
def rf (i : Instr) (g : Group) (lane : Nat) : Nat := (((aft i g).bind (·.thread? lane)).map fun t => bits t.fctl.toNat 14 8).getD 1
/-- Lane 0 with integers, and lanes 0 to 3 with the values of the lane examples. -/
def gi (v2 v3 : Word) : Group := grp [(2, ⟨0x604, false⟩)] [thr 0 [(2, ⟨v2, false⟩), (3, ⟨v3, false⟩), (7, ⟨9, false⟩), (8, ⟨0xBC0, false⟩)]]
def gl : Group := grp [] ((List.range 4).map fun l => thr l [(1, ⟨BitVec.ofNat 32 (10 + l), false⟩), (2, ⟨if l = 0 then 0x4B800000 else 0x3F800000, false⟩)])

/-- The examples of R91 (05_thread.md): -7 by 2. -/
theorem test_division : [
    rv (.idiv ⟨false, false, 4, 2, .v 3⟩) (gi 0xFFFFFFF9 2) 0 4 == 0xFFFFFFFD, rv (.irem ⟨false, false, 4, 2, .v 3⟩) (gi 0xFFFFFFF9 2) 0 4 == 0xFFFFFFFF,
    rv (.idiv ⟨false, true, 4, 2, .v 3⟩) (gi 0xFFFFFFF9 2) 0 4 == 0x7FFFFFFC, rv (.irem ⟨false, true, 4, 2, .v 3⟩) (gi 0xFFFFFFF9 2) 0 4 == 1].all id = true := by
  decide +kernel
/-- The examples of R92, R96 (05_thread.md) and R115 (06_lanes_float.md). -/
theorem test_saturation_and_fields : [
    rv (.sadd ⟨false, false, 5, 2, .imm 0x7D⟩) (gi 0x80000001 0) 0 5 == 0x80000000, rf (.sadd ⟨false, false, 5, 2, .imm 0x7D⟩) (gi 0x80000001 0) 0 == 0x40,
    rv (.sadd ⟨false, false, 5, 2, .imm 0x7D⟩) (gi 5 0) 0 5 == 2, rf (.sadd ⟨false, false, 5, 2, .imm 0x7D⟩) (gi 5 0) 0 == 0,
    rv (.bfe ⟨false, true, 9, 8, .s 2⟩) (gi 0 0) 0 9 == 0xFFFFFFFC, rv (.iamin ⟨false, false, 7, 3, .imm 1⟩) (gi 0 0x7FFFFFFF) 0 7 == 9,
    rf (.iamin ⟨false, false, 7, 3, .imm 1⟩) (gi 0 0x7FFFFFFF) 0 == 0x40].all id = true := by decide +kernel
/-- The example of R114 (06_lanes_float.md): min(5, 2 + 2.5), and with a sum of opposite infinities. -/
theorem test_famin : [
    rv (.famin ⟨.f32, 4, 2, .v 3⟩) (grp [] [thr 0 [(2, ⟨0x40000000, false⟩), (3, ⟨0x40200000, false⟩), (4, ⟨0x40A00000, false⟩)]]) 0 4 == 0x40900000,
    rv (.famin ⟨.f32, 4, 2, .v 3⟩) (grp [] [thr 0 [(2, ⟨0x7F800000, false⟩), (3, ⟨0xFF800000, false⟩), (4, ⟨0x40A00000, false⟩)]]) 0 4 == 0x40A00000,
    rf (.famin ⟨.f32, 4, 2, .v 3⟩) (grp [] [thr 0 [(2, ⟨0x7F800000, false⟩), (3, ⟨0xFF800000, false⟩), (4, ⟨0x40A00000, false⟩)]]) 0 == 1].all id = true := by
  decide +kernel
/-- The example of R121 (06_lanes_float.md): PACK.f8e4.rne.sat of 300, 500, -0.001 and infinity; and the one of R64 (04_numbers.md). -/
theorem test_pack : [
    rv (.pack ⟨.f8e4, true, .rne, 12, 16⟩) (grp [] [thr 0 [(16, ⟨0x43960000, false⟩), (17, ⟨0x43FA0000, false⟩), (18, ⟨0xBA83126F, false⟩),
      (19, ⟨0x7F800000, false⟩)]]) 0 12 == 0x7E817E79,
    rf (.pack ⟨.f8e4, true, .rne, 12, 16⟩) (grp [] [thr 0 [(16, ⟨0x43960000, false⟩), (17, ⟨0x43FA0000, false⟩), (18, ⟨0xBA83126F, false⟩),
      (19, ⟨0x7F800000, false⟩)]]) 0 == 0x1C,
    rv (.cvtff ⟨.f8e4, .f32, true, .rne, 4, 2⟩) (gi 0x43960000 0) 0 4 == 0x79, rv (.cvtff ⟨.f8e4, .f32, true, .rne, 4, 2⟩) (gi 0x43FA0000 0) 0 4 == 0x7E,
    rv (.cvtff ⟨.f8e4, .f32, false, .rne, 4, 2⟩) (gi 0x43FA0000 0) 0 4 == 0x7F, rf (.cvtff ⟨.f8e4, .f32, false, .rne, 4, 2⟩) (gi 0x43FA0000 0) 0 == 0x14].all id = true := by
  decide +kernel
/-- The examples of R122 and R126 (06_lanes_float.md). -/
theorem test_lanes : [
    (List.range 4).map (rv (.lshup ⟨2, 1, .imm 1⟩) gl · 2) == [10, 10, 11, 12],
    (List.range 4).map (rv (.lred ⟨.fadd, 3, 2⟩) gl · 3) == List.replicate 4 0x4B800000, rf (.lred ⟨.fadd, 3, 2⟩) gl 0 == 0x10].all id = true := by
  decide +kernel

/-- The example of R127 (06_lanes_float.md): FDIV v4, v2, v3 with DZE in lanes 5 and 9, NXE in lane 9, v3 = 0 there and 3.0 in lane 8. -/
def gdz : Group := grp [] [{ thr 5 [(2, ⟨0x3F800000, false⟩)] with fctl := 0x20000 }, thr 8 [(2, ⟨0x3F800000, false⟩), (3, ⟨0x40400000, false⟩)],
  { thr 9 [(2, ⟨0x3F800000, false⟩)] with fctl := 0x120000 }]
theorem test_trap_reports_the_lowest_lane : [
    ((aft (.fdiv ⟨.f32, 4, 2, .v 3⟩) gdz).map fun g => g.threads.map fun t => (t.lane, t.handler, t.frame.cause, bits t.frame.lane.toNat 5 0)) ==
      some [(5, true, 0x11, 5), (8, true, 0x11, 5), (9, true, 0x11, 5)],
    rf (.fdiv ⟨.f32, 4, 2, .v 3⟩) gdz 8 == 0].all id = true := by decide +kernel

/-- The worked conversion and the scaling of it (04_numbers.md), and the chunk that term-by-term addition gets wrong. -/
theorem test_matrix_numbers : [
    passSum 143 121 61 == -1234567, addSat 0 (-1234567) == (0xFFED2979, false),
    drainElem .f32 (.fin true 1234567 0) 0x3D 0x74 == (0xC5B7ABA4, mMNX), (drainElem .rq8 (.fin true 1234567 0) 0x3D 0x74).1 == 0x81,
    (drainElem .rq8 (.fin true 1234567 0) 0x3D 0x74).2 &&& mDSAT == mDSAT, (drainElem .rq8 (.fin false 1000 0) 0x3D 0x74).1 == 5,
    chunkStep .f8e4 0x45800000 [(0, 0x08, 0x08), (1, 0x08, 0x04)] == (0x45800001, mMNX)].all id = true := by decide +kernel
end Sys2Proof.Tests
end

section
/-! PROOFS. NOP and YIELD (07_group.md, R152): a group's counter records, what holds a counter back and what leaves its pass count
alone, and the group that has given way. -/

namespace Sys2Proof.Machine

/-! ### Counter records -/

/-- The record of an address is a record of that address, a fresh one included. -/
@[simp] theorem Group.counter_pc (g : Group) (pc : Word) : (g.counter pc).pc = pc := by
  unfold Group.counter
  cases h : g.counters.find? fun c => c.pc == pc with
  | none => rfl
  | some c => simpa using List.find?_some h

/-- A counter's record set is the one read back. -/
theorem Group.counter_setCounter (g : Group) (c : Counter) : (g.setCounter c).counter c.pc = c := by
  simp [Group.counter, Group.setCounter]

/-! ### Counters that may issue, and their pass counts (R140, R141) -/

/-- A counter that may issue is past its hold, or has none. -/
theorem hold_of_mem_countersOf {s : State} {g : Group} {pc : Word} {ls : List Nat} (h : (pc, ls) ∈ countersOf s g) :
    (g.counter pc).hold < s.cycle ∨ (g.counter pc).hold = 0 := by
  unfold countersOf at h
  split at h
  · cases h
  · have hready := (List.mem_filter.mp h).2
    simp only [Bool.and_eq_true, Bool.or_eq_true, decide_eq_true_eq] at hready
    exact hready.2

/-- A pass is counted only for a counter that may issue. -/
theorem passCounts_passes_le {s : State} {g : Group} {pc : Word} (h : ∀ ls, (pc, ls) ∉ countersOf s g) :
    ((passCounts s [] g).counter pc).passes ≤ (g.counter pc).passes := by
  cases hf : (passCounts s [] g).counters.find? fun c => c.pc == pc with
  | none => simp [Group.counter, hf]
  | some c =>
    have hnew : (passCounts s [] g).counter pc = c := by simp [Group.counter, hf]
    have hpc : c.pc = pc := by simpa using List.find?_some hf
    obtain ⟨n, -, hc⟩ := List.mem_map.mp (List.mem_of_find?_eq_some hf)
    rw [hnew]
    simp only [List.contains_nil, Bool.false_eq_true, if_false] at hc
    split at hc <;> subst hc
    next hready =>
      obtain ⟨x, hx, hxn⟩ := List.mem_map.mp (List.contains_iff_mem.mp hready)
      obtain rfl : x.1 = pc := hxn.trans ((Group.counter_pc g _).symm.trans hpc)
      exact absurd hx (h x.2)
    next =>
      rw [Group.counter_pc] at hpc
      rw [hpc]

/-! ### The group that gives way -/

/-- A change of one group that keeps its number and its threads leaves every thread as it was. -/
theorem thread?_modGroup (s : State) (gid : Nat) (f : Group → Group) (hg : ∀ g, (f g).gid = g.gid)
    (ht : ∀ g, (f g).threads = g.threads) (k l : Nat) : (s.modGroup gid f).thread? k l = s.thread? k l := by
  unfold State.thread?
  rw [group?_modGroup s gid f hg]
  cases s.group? k with
  | none => rfl
  | some g =>
    simp only [Option.map_some, Option.bind_some]
    split
    · simp only [Group.thread?, ht]
    · rfl

/-- What YIELD leaves of its group: chosen in the clock, and the counter at an address held for the next 4 clocks (R152). A record
that already stood at the address takes the hold, so lanes there that did not YIELD are held too (DESIGN CHOICE, log entry 70). -/
def Group.giveWay (pc : Word) (cycle : Nat) (g : Group) : Group :=
  { g with last := some cycle }.setCounter { g.counter pc with hold := cycle + 4 }

@[simp] theorem Group.giveWay_gid (pc : Word) (n : Nat) (g : Group) : (g.giveWay pc n).gid = g.gid := rfl
@[simp] theorem Group.giveWay_last (pc : Word) (n : Nat) (g : Group) : (g.giveWay pc n).last = some n := rfl
@[simp] theorem Group.giveWay_threads (pc : Word) (n : Nat) (g : Group) : (g.giveWay pc n).threads = g.threads := rfl

@[simp] theorem Group.hold_giveWay (pc : Word) (n : Nat) (g : Group) : ((g.giveWay pc n).counter pc).hold = n + 4 := by
  have h := Group.counter_setCounter { g with last := some n } { g.counter pc with hold := n + 4 }
  rw [Group.counter_pc] at h
  rw [Group.giveWay, h]

/-- The counter that gave way does not issue in the next 4 clocks. -/
theorem Group.giveWay_issues_later {s : State} {g : Group} {pc : Word} {n : Nat} {ls : List Nat}
    (h : (pc, ls) ∈ countersOf s (g.giveWay pc n)) : n + 4 < s.cycle := by
  have := hold_of_mem_countersOf h
  rw [Group.hold_giveWay] at this
  omega

theorem exec_nop {s : State} {iss : Issue} {g : Group} (h : Passes .nop s iss g) : exec .nop s = .next (advance s iss) :=
  issued_of_passes h _

theorem exec_yield {s : State} {iss : Issue} {g : Group} (h : Passes .yield s iss g) :
    exec .yield s = .next ((advance s iss).modGroup iss.gid (Group.giveWay (iss.pc + 4) s.cycle)) :=
  issued_of_passes h _

/-- The issuing group after YIELD: its lanes advanced, then given way. -/
theorem group?_yield {s : State} {iss : Issue} {g : Group} (h : s.group? iss.gid = some g) (pc : Word) (n : Nat) :
    ((advance s iss).modGroup iss.gid (Group.giveWay pc n)).group? iss.gid =
      some ((g.mapLanes iss.lanes (Thread.advance 1)).giveWay pc n) := by
  have hgid : g.gid = iss.gid := by simpa using List.find?_some h
  rw [group?_modGroup _ _ _ (Group.giveWay_gid pc n), advance, State.mapLanes,
    group?_modGroup s _ (fun g => g.mapLanes iss.lanes (Thread.advance 1)) (fun _ => rfl), h]
  simp [hgid, Group.mapLanes]

/-- Settles O22: NOP is the advance alone; YIELD is the advance of a group that gives way. -/
theorem nopAndYield : Obligations.NopAndYield := by
  refine ⟨fun _ _ _ => exec_nop, fun s iss g h => ?_, by decide⟩
  refine ⟨_, exec_yield h, ?_, fun l => ?_, _, group?_yield h.grp _ _, Group.giveWay_last _ _ _, Group.hold_giveWay _ _ _,
    fun _ _ => Group.giveWay_issues_later, fun c hc => ?_⟩
  · exact sameMem_trans (sameMem_advance s iss 1) (sameMem_modGroup _ _ _)
  · exact thread?_modGroup _ _ _ (Group.giveWay_gid _ _) (Group.giveWay_threads _ _) _ _
  · refine passCounts_passes_le fun ls hm => ?_
    have hlater : s.cycle + 4 < c := Group.giveWay_issues_later hm
    omega

end Sys2Proof.Machine
end
